-- ==== Sys2Proof/Word.lean ====
section
/-! DEFINITION. The plain words of the VH416 model: the byte, the numbered things (ports, lines, calendar slots)
and the one helper that changes every element of a fixed row of like things. -/

namespace Sys2Proof

/-- A byte on a host port or on REFIN (R183). -/
abbrev Byte := BitVec 8

/-- A host port, P0 to P3 (R183). -/
abbrev Port := Fin 4

/-- A trigger line, TL0 to TL15 (R183). -/
abbrev LineNo := Fin 16

/-- A calendar slot, 0 to 63 (R82). -/
abbrev SlotNo := Fin 64

/-- The four ports in ascending order. -/
def allPorts : List Port := List.finRange 4

/-- The sixteen lines in ascending order. -/
def allLines : List LineNo := List.finRange 16

/-- The sixty-four calendar slots in ascending order. -/
def allSlots : List SlotNo := List.finRange 64

/-- Apply `f` to every element of a fixed row. It maps the underlying list, so that Lean's kernel can evaluate it. -/
def mapVec {α β : Type} {n : Nat} (f : α → β) (v : Vector α n) : Vector β n :=
  ⟨⟨v.toList.map f⟩, by simp⟩

@[simp] theorem getElem_mapVec {α β : Type} {n : Nat} (f : α → β) (v : Vector α n) (i : Nat) (h : i < n) :
    (mapVec f v)[i] = f v[i] := by
  simp [mapVec, Vector.getElem_mk]

/-- The fixed row whose element at `i` is `f i`, likewise over a list. -/
def rowOf {α : Type} {n : Nat} (f : Fin n → α) : Vector α n :=
  ⟨⟨(List.finRange n).map f⟩, by simp⟩

@[simp] theorem getElem_rowOf {α : Type} {n : Nat} (f : Fin n → α) (i : Nat) (h : i < n) :
    (rowOf f)[i] = f ⟨i, h⟩ := by
  simp [rowOf, Vector.getElem_mk]

end Sys2Proof
end

