-- ==== Sys2Proof/Syntax.lean ====
section
/-! DEFINITION. The commands of the VH416: one constructor for each row of spec/opcode_table.json, in the table's order.
A request row is the moment at which the owning block takes the request of a port (R176); the request's fields travel in
the body that REQUEST_FRAME_END put on the port's path, so its operand is the port alone. A frame row carries what the
host shifted in; TICK carries what the hub samples on its pins. -/

namespace Sys2Proof

/-- What the hub samples on its input pins on one oscillator period (R17, R124, R192). `true` is high.
`lines` bit k is the level that TLk shows when the hub does not drive it. -/
structure PinSample where
  refin  : Bool
  resetn : Bool
  lines  : BitVec 16
  deriving DecidableEq, Repr

/-- The two beginnings of a hub reset (R192). -/
inductive ResetCause where
  | powerOn
  | resetPin
  deriving DecidableEq, Repr

/-- The two queues that a collection frame can collect from (R180). -/
inductive QueueName where
  | notices
  | captures
  deriving DecidableEq, Repr

/-- The commands, one for each row of the table. `p` is a host port and `l` a trigger line. -/
inductive Instr where
  | attach (p : Port)
  | detach (p : Port)
  | readTime (p : Port)
  | setTime (p : Port)
  | readReference (p : Port)
  | setReference (p : Port)
  | flushReference (p : Port)
  | setDiscipline (p : Port)
  | claimAuthority (p : Port)
  | releaseAuthority (p : Port)
  | renew (p : Port)
  | claimOutput (p : Port)
  | subscribeCapture (p : Port)
  | releaseLine (p : Port)
  | readLines (p : Port)
  | schedule (p : Port)
  | cancel (p : Port)
  | readEntry (p : Port)
  | listEntries (p : Port)
  | setQuota (p : Port)
  | readQuotas (p : Port)
  /-- CSn of `p` falls (R171). -/
  | frameBegin (p : Port)
  /-- CSn of `p` rises before byte 2 is complete (R172). -/
  | statusRead (p : Port)
  /-- CSn of `p` rises at the end of a REQUEST frame: `bytes` are its whole bytes from byte 1 on, and `partBits`
  (0 to 7) the bits of a final part-byte (R170, R174). -/
  | requestFrameEnd (p : Port) (bytes : List Byte) (partBits : Nat)
  /-- Byte 1 of a COLLECT_REPLY frame on `p` is complete (R178). -/
  | replyFix (p : Port)
  /-- CSn of `p` rises at the end of a COLLECT_REPLY frame of `whole` whole bytes (R178). -/
  | collectReplyEnd (p : Port) (whole : Nat)
  /-- Byte 2 of a collection frame on `p` is complete: the frame collects from `q` and byte 2 is `m` (R180). -/
  | batchFix (p : Port) (q : QueueName) (m : Byte)
  /-- CSn of `p` rises at the end of a COLLECT_NOTICES frame of `whole` whole bytes (R164, R180). -/
  | collectNoticesEnd (p : Port) (whole : Nat)
  /-- CSn of `p` rises at the end of a COLLECT_CAPTURES frame of `whole` whole bytes (R132, R180). -/
  | collectCapturesEnd (p : Port) (whole : Nat)
  /-- CSn of `p` rises at the end of a frame whose byte 1 is `kind`, none of the four codes (R173). -/
  | unknownKind (p : Port) (kind : Byte)
  | startUpHoldEnd
  | hubReset (cause : ResetCause)
  | resetRelease
  /-- One oscillator tick, with the levels sampled on it (R4, R17, R124). -/
  | tick (pins : PinSample)
  | secondsWrap
  | uptimeIncrement
  | outputLeaseExpiry (l : LineNo)
  | subscriptionLeaseExpiry (l : LineNo) (p : Port)
  | authorityLeaseExpiry
  | beaconTimeoutExpiry
  | holdoverLimitReached
  | stepHandoffSession
  | markAdjust
  | stepHandling
  | firing
  | pulseEnd (l : LineNo)
  | releaseDriveEnd (l : LineNo)
  | beaconMark
  | beaconAbandoned
  | gapExpiry
  | beaconEnd
  | edgeStamped (l : LineNo)
  | characterCompleted
  deriving DecidableEq, Repr

end Sys2Proof
end

