-- ==== Sys2Proof/WellFormed.lean ====
section
/-! DEFINITION. Which command terms stand for an event of the block: the conditions on operands that the type of a
command cannot say. -/

namespace Sys2Proof

/-- The four frame kind codes of byte 1 (R184): REQUEST, COLLECT_REPLY, COLLECT_NOTICES, COLLECT_CAPTURES. -/
def frameKindCodes : List Byte := [0xA1#8, 0xA2#8, 0xA3#8, 0xA4#8]

/-- A command is well-formed when its operands describe an event of its row: a REQUEST frame that has byte 2 and begins
with the REQUEST code and ends in a part-byte of at most 7 bits (R170, R172, R174), a collection frame that has byte 2
(R172, R178, R180), a frame of unknown kind whose byte 1 is none of the four codes (R173). -/
def Instr.wellFormed : Instr → Bool
  | .requestFrameEnd _ bytes partBits =>
      decide (2 ≤ bytes.length) && decide (bytes.head? = some 0xA1#8) && decide (partBits < 8)
  | .collectReplyEnd _ whole => decide (2 ≤ whole)
  | .collectNoticesEnd _ whole => decide (2 ≤ whole)
  | .collectCapturesEnd _ whole => decide (2 ≤ whole)
  | .unknownKind _ kind => !frameKindCodes.contains kind
  | .attach _ => true
  | .detach _ => true
  | .readTime _ => true
  | .setTime _ => true
  | .readReference _ => true
  | .setReference _ => true
  | .flushReference _ => true
  | .setDiscipline _ => true
  | .claimAuthority _ => true
  | .releaseAuthority _ => true
  | .renew _ => true
  | .claimOutput _ => true
  | .subscribeCapture _ => true
  | .releaseLine _ => true
  | .readLines _ => true
  | .schedule _ => true
  | .cancel _ => true
  | .readEntry _ => true
  | .listEntries _ => true
  | .setQuota _ => true
  | .readQuotas _ => true
  | .frameBegin _ => true
  | .statusRead _ => true
  | .replyFix _ => true
  | .batchFix _ _ _ => true
  | .startUpHoldEnd => true
  | .hubReset _ => true
  | .resetRelease => true
  | .tick _ => true
  | .secondsWrap => true
  | .uptimeIncrement => true
  | .outputLeaseExpiry _ => true
  | .subscriptionLeaseExpiry _ _ => true
  | .authorityLeaseExpiry => true
  | .beaconTimeoutExpiry => true
  | .holdoverLimitReached => true
  | .stepHandoffSession => true
  | .markAdjust => true
  | .stepHandling => true
  | .firing => true
  | .pulseEnd _ => true
  | .releaseDriveEnd _ => true
  | .beaconMark => true
  | .beaconAbandoned => true
  | .gapExpiry => true
  | .beaconEnd => true
  | .edgeStamped _ => true
  | .characterCompleted => true

end Sys2Proof
end

