-- ==== Sys2Proof/Decode.lean ====
section
/-! DEFINITION. The command that a word of spec/opcode_table.json spells. The table gives bits to none of its rows: the
commands of this block reach it as events, and the bytes of a request are decoded where the Host Port judges its frame
(Sys2Proof/Machine/Operands.lean, R175, R185). -/

namespace Sys2Proof

/-- No row of the table has bits, so no word spells a command. -/
def decodeTableWord (_nbits _w : Nat) : Option Instr := none

end Sys2Proof
end

