-- ==== Sys2Proof/Config.lean ====
section
/-! DEFINITION. What an implementation of the VH416 fixes and the manual does not: the free values. Each is an opaque
constant without a body, so no statement can rest on what it is. -/

namespace Sys2Proof.Config

/-- FREE VALUE (R106, R107, R113, R114): the rank by which the Calendar breaks a tie between entries to which the manual
gives no order, as a function of the free-value counter and the slot number. See notes/assumptions/6.md. -/
opaque tieRank : Nat → Nat → Nat

/-- FREE VALUE (R66): whether a pin samples high at the tick of a SUBSCRIBE_CAPTURE grant that ends a release drive,
"while the driver is letting go of it", as a function of the free-value counter. See notes/assumptions/7.md. -/
opaque pinLettingGo : Nat → Bool

/-- FREE VALUE (R1): the tick count after a tick at its last 64-bit value, which "does not wrap within the life of the part",
as a function of the free-value counter. See notes/assumptions/8.md. -/
opaque tickCountPastLast : Nat → BitVec 64

/-- FREE VALUE (R131): how many of the records stamped on its own tick a copy precedes in one port's queue, as a function of the
free-value counter and the port number. See notes/assumptions/24.md. -/
opaque copyOrder : Nat → Nat → Nat

/-- FREE VALUE (R170, R181): the byte that MISO carries as byte `k` while CSn is low, the start-up hold is clear and no frame is
in progress, because CSn fell in the hold, as a function of the tick count, the port number and `k`. See
notes/assumptions/21.md. -/
opaque misoWithoutFrame : Nat → Nat → Nat → BitVec 8

end Sys2Proof.Config
end

