-- ==== Sys2Proof/Machine/State.lean ====
section
/-! DEFINITION. The state of the VH416, block by block as spec/00_scope.md lists the nine blocks, the reasons for which a
step can stop, and the state after hub reset. All of it is plain data. Fields that are the model's own, and not the
manual's, say so. -/

namespace Sys2Proof.Machine

/-- Why the machine stops with a fault. No command of this block does: the manual gives each an effect in every state, so the
type has no constructor. -/
inductive Fault where
  deriving DecidableEq, Repr

/-- Why a command has no meaning. -/
inductive Refusal where
  /-- Raised by an arm of `exec` for a command that has no meaning yet. Safe: the machine stops. No arm raises it. -/
  | notModelled (mnemonic : String)
  deriving DecidableEq, Repr

/-! ### Timebase (spec/01_hub_time.md) -/

/-- Hub time, held as three fields (R3). Units of the fraction are billionths of a nanosecond. -/
structure HubTime where
  seconds     : Nat
  nanoseconds : Nat
  fraction    : Nat
  deriving DecidableEq, Repr

/-- The cause of a step (section 1.6). -/
inductive StepCause where
  | discipline
  | setTime
  | wrap
  deriving DecidableEq, Repr

/-- The direction of a step (section 6.4). -/
inductive Direction where
  | forward
  | backward
  | neither
  deriving DecidableEq, Repr

/-- What the Timebase hands to the Session Unit and to the Calendar once a step is applied (R11). -/
structure StepHandoff where
  hub       : HubTime
  applied   : Int
  direction : Direction
  epoch     : BitVec 16
  cause     : StepCause
  deriving DecidableEq, Repr

structure Timebase where
  /-- Ticks since the hub last left reset, 64 bits (R1). Past the last value of 64 bits it is free (notes/assumptions/8.md). -/
  tickCount  : Nat
  /-- Milliseconds since the hub last left reset, modulo 2^32 (R2). -/
  uptime     : BitVec 32
  /-- Hub time (R3). Its seconds stand at 2^32 or more only between a TICK that carries past the range and the
  SECONDS_WRAP of the same tick (R9). -/
  hub        : HubTime
  /-- Trim, signed ppb (R7). -/
  trim       : Int
  trimLimit  : Bool
  /-- The slew remainder in units of the fraction: whole nanoseconds times 10^9 plus its fraction (R5). -/
  slew       : Int
  epoch      : BitVec 16
  /-- Steps handed on and not yet taken by the Session Unit, oldest first (R11). -/
  toSession  : List StepHandoff
  /-- Steps handed on and not yet taken by the Calendar, oldest first (R11). -/
  toCalendar : List StepHandoff
  deriving DecidableEq, Repr

/-! ### Reference Receiver (spec/02_reference_beacons.md) -/

/-- What is captured at a mark (R18): hub time in whole ns, moved by the steps since, and the tick count. -/
structure Mark where
  hub  : Int
  tick : Nat
  deriving DecidableEq, Repr

/-- The assembly state of a beacon. `last` is the tick of the last completed character, if one has completed. -/
inductive Assembly where
  | idle
  | receiving (mark : Mark) (bytes : List Byte) (last : Option Nat)
  deriving DecidableEq, Repr

/-- A character being timed from its falling edge (R17): the tick of the edge, whether its start bit has been sampled low,
and the data bits sampled so far, first bit first. -/
structure CharTiming where
  fall    : Nat
  started : Bool
  data    : List Bool
  deriving DecidableEq, Repr

/-- What the sampling of REFIN has found and the Receiver has not yet taken (R17). The model's own. -/
inductive RxEvent where
  | startBit
  | character (b : Byte) (tick : Nat)
  | framingError
  deriving DecidableEq, Repr

/-- The selection mode with the source id that belongs to it (R22). -/
inductive Selection where
  | none
  | fixed (id : Byte)
  | acceptFirst (adopted : Option Byte)
  deriving DecidableEq, Repr

/-- The seven reference statistics, each 0 to 65535 (R30). -/
structure Stats where
  usable      : Nat
  seed        : Nat
  outlier     : Nat
  malformed   : Nat
  foreign     : Nat
  untraceable : Nat
  duplicate   : Nat
  deriving DecidableEq, Repr

structure Receiver where
  /-- REFIN was sampled high on the tick before (R17). -/
  refinHigh   : Bool
  timing      : Option CharTiming
  /-- The values captured provisionally at a falling edge seen in IDLE (R18). -/
  provisional : Option Mark
  assembly    : Assembly
  /-- Found on REFIN and not yet taken, oldest first. The model's own. -/
  found       : List RxEvent
  /-- Applied amounts handed on by steps since the mark and not yet added to it, oldest first (R11). -/
  adjusts     : List Int
  selection   : Selection
  lastSeq     : BitVec 16
  seedPending : Bool
  /-- Link delay, 0 to 1,000,000 ns. -/
  linkDelay   : Nat
  stats       : Stats
  deriving DecidableEq, Repr

/-! ### Discipline Unit (spec/03_discipline_and_lock_states.md) -/

inductive LockState where
  | free
  | acquire
  | locked
  | holdover
  deriving DecidableEq, Repr

/-- The cause carried by LOCK_CHANGED (R54). -/
inductive LockCause where
  | beacon
  | timeout
  | holdoverLimit
  | selection
  | flush
  deriving DecidableEq, Repr

/-- The beacon timeout timer (R50): stopped, or running with the ms elapsed since its restart. `due` is the model's own: the
last increment of uptime brought `elapsed` to the timeout, and the expiry has not been taken. -/
inductive Timer where
  | stopped
  | running (elapsed : Nat) (due : Bool)
  deriving DecidableEq, Repr

/-- The eight discipline parameters (R55). -/
structure Params where
  lockWindow    : Nat
  stepThreshold : Nat
  lockCount     : Nat
  unlockCount   : Nat
  beaconTimeout : Nat
  holdoverLimit : Nat
  slewLimit     : Nat
  gainShift     : Nat
  deriving DecidableEq, Repr

structure Discipline where
  lock            : LockState
  inWindow        : Nat
  outliers        : Nat
  timer           : Timer
  /-- Holdover elapsed in ms (R52). -/
  holdoverElapsed : Nat
  /-- The model's own: the last increment of uptime brought holdover elapsed to the limit, not yet taken. -/
  holdoverDue     : Bool
  lastMark        : Option Nat
  lastError       : Int
  params          : Params
  deriving DecidableEq, Repr

/-! ### Line Table (spec/04_trigger_lines.md) -/

inductive Level where
  | low
  | high
  deriving DecidableEq, Repr

/-- A pulse in flight (section 4). `remaining` stands at 0 only until the PULSE_END of the same tick. -/
structure Pulse where
  remaining   : Nat
  returnLevel : Level
  deriving DecidableEq, Repr

/-- A release drive (R76). `remaining` stands at 0 only until the RELEASE_DRIVE_END of the same tick. -/
structure ReleaseDrive where
  level     : Level
  remaining : Nat
  deriving DecidableEq, Repr

inductive EdgeSelection where
  | rising
  | falling
  | both
  deriving DecidableEq, Repr

/-- A line in OUTPUT mode. -/
structure OutputLine where
  holder       : Port
  level        : Level
  releaseLevel : Level
  pulse        : Option Pulse
  deriving DecidableEq, Repr

/-- A line in CAPTURE mode: its subscribers without repetition and its capture configuration, the holdoff in ticks. -/
structure CaptureLine where
  subscribers : List Port
  selection   : EdgeSelection
  holdoff     : Nat
  deriving DecidableEq, Repr

/-- One line record: what is present depends on the mode (R60). -/
inductive LineRecord where
  | unassigned (drive : Option ReleaseDrive)
  | output (o : OutputLine)
  | capture (c : CaptureLine)
  deriving DecidableEq, Repr

/-! ### Calendar (spec/05_the_trigger_calendar.md, spec/06_firing_and_time_steps.md) -/

/-- What an entry does to its line; a pulse width is held in ticks (R82). -/
inductive Action where
  | driveHigh
  | driveLow
  | toggle
  | pulse (width : Nat)
  deriving DecidableEq, Repr

/-- One-shot, or periodic with a period in ns and, if bounded, a remaining count (R82). -/
inductive Repetition where
  | oneShot
  | periodic (period : Nat) (count : Option Nat)
  deriving DecidableEq, Repr

inductive LatePolicy where
  | fireLate
  | discard
  deriving DecidableEq, Repr

inductive StepPolicy where
  | keep
  | void
  deriving DecidableEq, Repr

/-- A calendar entry (R82). The fire time is in whole ns of hub time; the handle is the entry's place. -/
structure Entry where
  owner      : Port
  line       : LineNo
  action     : Action
  fireTime   : Nat
  repetition : Repetition
  latePolicy : LatePolicy
  stepPolicy : StepPolicy
  notify     : Bool
  deriving DecidableEq, Repr

/-- One slot: its generation and the entry it holds, if any (R83). -/
structure Slot where
  generation : BitVec 8
  entry      : Option Entry
  deriving DecidableEq, Repr

/-- A fire time that hub time has reached and whose firing is not yet taken, in whole ns, with the hub time and epoch that the
FIRED notices of that firing report (R106, R108; notes/assumptions/22.md). -/
structure Reached where
  fireTime : Nat
  stamp    : Nat
  epoch    : BitVec 16
  deriving DecidableEq, Repr

structure Calendar where
  slots   : Vector Slot 64
  quota   : Vector Nat 4
  count   : Vector Nat 4
  /-- The fire times reached, in the order in which their firings are to be taken (R106). -/
  reached : List Reached
  deriving DecidableEq, Repr

/-! ### Capture Unit (spec/07_edge_capture.md) -/

inductive Edge where
  | rising
  | falling
  deriving DecidableEq, Repr

/-- A watched line: its last sampled level, its holdoff remaining in ticks, and the matching unfiltered edge found on this
tick, if its stamping is not yet taken (R124 to R127). -/
structure Watch where
  last    : Level
  holdoff : Nat
  due     : Option Edge
  deriving DecidableEq, Repr

/-- A capture record (R127). The stamp is in whole ns of hub time. -/
structure CaptureRecord where
  line  : LineNo
  edge  : Edge
  stamp : Nat
  epoch : BitVec 16
  lock  : LockState
  lost  : Nat
  deriving DecidableEq, Repr

/-- The Capture Unit's state for one port: queue, lost count, batch in collection. `fresh` is the model's own: how many records
at the tail were stamped on this tick and are in no batch that a frame has fixed (notes/assumptions/24.md). -/
structure CapturePort where
  queue : List CaptureRecord
  lost  : Nat
  batch : Option Nat
  fresh : Nat
  deriving DecidableEq, Repr

/-! ### Lease Unit (spec/08_leases_and_the_authority_token.md) -/

inductive Resource where
  | line (l : LineNo)
  | authority
  deriving DecidableEq, Repr

inductive LeaseKind where
  | output
  | subscription
  | authority
  deriving DecidableEq, Repr

/-- A lease record. `remaining` stands at 0 only between an increment of uptime and the expiry taken at it (R138). -/
structure Lease where
  resource  : Resource
  kind      : LeaseKind
  holder    : Port
  remaining : Nat
  deriving DecidableEq, Repr

/-- The cause carried by AUTHORITY_CHANGED (R150). -/
inductive AuthorityCause where
  | claim
  | release
  | expiry
  | teardown
  deriving DecidableEq, Repr

/-! ### Session Unit (spec/09_host_sessions_and_notices.md) -/

/-- The cause carried by REFERENCE_CHANGED (R162). -/
inductive ReferenceCause where
  | adopted
  | dropped
  | selected
  deriving DecidableEq, Repr

/-- What a notice reports, with the body of its kind (R162, R188). Times are in whole ns. `slot` and `gen` are the handle. -/
inductive NoticeBody where
  | fired (slot : SlotNo) (gen : BitVec 8) (time : Nat) (epoch : BitVec 16) (skipped : Nat) (late last : Bool)
  | missed (slot : SlotNo) (gen : BitVec 8) (time : Nat) (epoch : BitVec 16) (skipped : Nat) (last : Bool)
  | voided (slot : SlotNo) (gen : BitVec 8) (time : Nat) (epoch : BitVec 16) (count : Option Nat)
  | leaseLost (resource : Resource) (kind : LeaseKind) (cancelled : Nat)
  | stepped (epoch : BitVec 16) (applied : Int) (cause : StepCause)
  | lockChanged (previous new : LockState) (cause : LockCause) (lastError : Int)
  | authorityChanged (previous new : Option Port) (cause : AuthorityCause) (lease : Nat)
  | referenceChanged (cause : ReferenceCause) (selection : Selection)
  deriving DecidableEq, Repr

/-- A queued notice with the uptime at its generation (R162). -/
structure Notice where
  body   : NoticeBody
  uptime : BitVec 32
  deriving DecidableEq, Repr

/-- The alert mask (R156). -/
structure AlertMask where
  notices  : Bool
  captures : Bool
  reply    : Bool
  deriving DecidableEq, Repr

/-- The Session Unit's batch in collection: the number fixed, the loss flag as reported, the late-loss mark (R164). -/
structure NoticeBatch where
  fixed    : Nat
  reported : Bool
  late     : Bool
  deriving DecidableEq, Repr

structure Session where
  attached : Bool
  number   : BitVec 8
  mask     : AlertMask
  queue    : List Notice
  loss     : Bool
  batch    : Option NoticeBatch
  deriving DecidableEq, Repr

/-! ### Host Ports (spec/10_host_port_frames.md) -/

/-- The port state together with what it implies (R169): WORKING holds the body of the request in flight, ANSWERED the reply
in the reply slot. -/
inductive PortState where
  | idle
  | working (body : List Byte)
  | answered (reply : List Byte)
  deriving DecidableEq, Repr

inductive FrameOutcome where
  | accepted
  | refusedBusy
  | badCrc
  | badLength
  | aborted
  | unknownKind
  deriving DecidableEq, Repr

/-- What a frame has fixed: nothing yet, a COLLECT_REPLY frame at byte 1 (whether a reply is fixed), or a collection frame
at byte 2 (whether M was in range, so that a batch is fixed) (R178, R180). -/
inductive FrameFix where
  | undecided
  | reply (present : Bool)
  | batch (q : QueueName) (valid : Bool)
  deriving DecidableEq, Repr

/-- A frame in progress: the whole bytes received that the hub has acted on, what it has fixed, and every byte the hub sends
in it from byte 1 on as far as it is decided; after these the hub sends filler (R171, R178, R180, R184). -/
structure Frame where
  received : List Byte
  fix      : FrameFix
  sent     : List Byte
  deriving DecidableEq, Repr

structure HostPort where
  state       : PortState
  lastOutcome : FrameOutcome
  frame       : Option Frame
  /-- The start-up hold is held (R181). -/
  hold        : Bool
  deriving DecidableEq, Repr

/-! ### Pins (spec/13_pins_and_operating_conditions.md) -/

/-- The input pins as far as the hub keeps them from one event to the next. The model's own. -/
structure Pins where
  /-- The level of each line pin, when the hub does not drive it, as last sampled. -/
  lines     : BitVec 16
  /-- Consecutive oscillator periods on which RESETn has been sampled low, up to 125 (R192). -/
  resetnLow : Nat
  /-- CSn of each port is low. -/
  csLow     : Vector Bool 4
  deriving DecidableEq, Repr

/-! ### The hub -/

structure State where
  time      : Timebase
  rx        : Receiver
  disc      : Discipline
  lines     : Vector LineRecord 16
  cal       : Calendar
  watch     : Vector (Option Watch) 16
  caps      : Vector CapturePort 4
  leases    : List Lease
  authority : Option Port
  sess      : Vector Session 4
  ports     : Vector HostPort 4
  pins      : Pins
  /-- A hub reset is in progress (R192). -/
  inReset   : Bool
  /-- The counter of the free values drawn so far. The model's own; no statement rests on it. -/
  freeCount : Nat
  /-- The commands that wait, first in first out. -/
  pending   : List Instr
  deriving DecidableEq, Repr

/-! ### Reset values -/

/-- R15. -/
def Timebase.reset : Timebase where
  tickCount := 0
  uptime := 0
  hub := ⟨0, 0, 0⟩
  trim := 0
  trimLimit := false
  slew := 0
  epoch := 0
  toSession := []
  toCalendar := []

/-- R36. REFIN was not sampled before the release, so the first sample is no falling edge (notes/assumptions/5.md). -/
def Receiver.reset : Receiver where
  refinHigh := false
  timing := none
  provisional := none
  assembly := .idle
  found := []
  adjusts := []
  selection := .acceptFirst none
  lastSeq := 0
  seedPending := true
  linkDelay := 0
  stats := ⟨0, 0, 0, 0, 0, 0, 0⟩

/-- The defaults of R55. -/
def Params.default : Params where
  lockWindow := 1000
  stepThreshold := 100000
  lockCount := 4
  unlockCount := 3
  beaconTimeout := 2000
  holdoverLimit := 3600
  slewLimit := 50000
  gainShift := 3

/-- R59. -/
def Discipline.reset : Discipline where
  lock := .free
  inWindow := 0
  outliers := 0
  timer := .stopped
  holdoverElapsed := 0
  holdoverDue := false
  lastMark := none
  lastError := 0
  params := Params.default

/-- R105. -/
def Calendar.reset : Calendar where
  slots := Vector.replicate 64 ⟨0, none⟩
  quota := Vector.replicate 4 16
  count := Vector.replicate 4 0
  reached := []

/-- R136. -/
def CapturePort.reset : CapturePort := ⟨[], 0, none, 0⟩

/-- R168. -/
def Session.reset : Session where
  attached := false
  number := 0
  mask := ⟨false, false, false⟩
  queue := []
  loss := false
  batch := none

/-- R181. -/
def HostPort.reset : HostPort where
  state := .idle
  lastOutcome := .accepted
  frame := none
  hold := true

/-- The pins before anything has been sampled (DESIGN CHOICE, notes/assumptions/5.md). -/
def Pins.reset : Pins := ⟨0, 0, Vector.replicate 4 false⟩

/-- The machine right after the release of hub reset (R193): every block at the values its chapter gives (R15, R36, R59,
R81, R105, R136, R154, R168, R181). -/
def State.reset : State where
  time := Timebase.reset
  rx := Receiver.reset
  disc := Discipline.reset
  lines := Vector.replicate 16 (.unassigned none)
  cal := Calendar.reset
  watch := Vector.replicate 16 none
  caps := Vector.replicate 4 CapturePort.reset
  leases := []
  authority := none
  sess := Vector.replicate 4 Session.reset
  ports := Vector.replicate 4 HostPort.reset
  pins := Pins.reset
  inReset := false
  freeCount := 0
  pending := []

end Sys2Proof.Machine
end

