-- ==== Sys2Proof/Machine/Ops.lean ====
section
/-! DEFINITION. The named operations that several commands share: hub time and its steps, the queuing of notices, the lock
state, leases, calendar entries, line actions and releases, and the teardown of a port. -/

namespace Sys2Proof.Machine

/-- What one command answers. -/
abbrev Step := Host.Outcome State Fault Refusal

/-! ### Places in the state -/

def State.setSess (s : State) (p : Port) (x : Session) : State := { s with sess := s.sess.set p x }

def State.setPort (s : State) (p : Port) (x : HostPort) : State := { s with ports := s.ports.set p x }

def State.setCap (s : State) (p : Port) (x : CapturePort) : State := { s with caps := s.caps.set p x }

def State.setLine (s : State) (l : LineNo) (x : LineRecord) : State := { s with lines := s.lines.set l x }

def State.setWatch (s : State) (l : LineNo) (x : Option Watch) : State := { s with watch := s.watch.set l x }

def State.setSlot (s : State) (i : SlotNo) (x : Slot) : State := { s with cal.slots := s.cal.slots.set i x }

def State.setCount (s : State) (p : Port) (n : Nat) : State := { s with cal.count := s.cal.count.set p n }

/-! ### Hub time (R3) -/

/-- Nanoseconds in a second, and units of the fraction in a nanosecond. -/
def billion : Nat := 1000000000

/-- The range of hub time in whole ns: 2^32 s (R3). -/
def rangeNs : Nat := 4294967296000000000

/-- Hub time as a count of units of the fraction. -/
def HubTime.units (t : HubTime) : Nat := (t.seconds * billion + t.nanoseconds) * billion + t.fraction

/-- Hub time in whole ns, the fraction dropped (R3). -/
def HubTime.ns (t : HubTime) : Nat := t.seconds * billion + t.nanoseconds

/-- The three fields from a count of units, each carry taken into the next field (R4). -/
def HubTime.ofUnits (u : Nat) : HubTime where
  seconds := u / (billion * billion)
  nanoseconds := u / billion % billion
  fraction := u % billion

/-- Hub time as it is reported, in whole ns. On the tick of the seconds wrap, before the wrap step, it is the last value of
the range (R9; DEDUCED, notes/assumptions/9.md). -/
def HubTime.reported (t : HubTime) : Nat := if rangeNs ≤ t.ns then rangeNs - 1 else t.ns

/-- Hub time as it is reported now. -/
def State.reportedTime (s : State) : Nat := s.time.hub.reported

/-! ### Steps of hub time (R8, R11) -/

/-- The direction of a step, judged with the fraction (section 6.4). -/
def direction (old new : HubTime) : Direction :=
  if old.units < new.units then .forward else if new.units < old.units then .backward else .neither

/-- A mark is captured, in assembly or provisionally (R11, R18). -/
def Receiver.hasMark (r : Receiver) : Bool :=
  match r.assembly with
  | .receiving _ _ _ => true
  | .idle => r.provisional.isSome

/-- The step's hand-off to the Receiver: the applied amount waits to be added to the captured mark (R11). -/
def Receiver.noteStep (applied : Int) (r : Receiver) : Receiver :=
  if r.hasMark then { r with adjusts := r.adjusts ++ [applied] } else r

/-- Apply a step that carries hub time to `u` units: the slew remainder becomes 0, the epoch increments, and the step is
handed on to the Session Unit, the Calendar and the Receiver (R8, R10, R11). Fire times that hub time no longer lies at or
after are no longer reached (R106). -/
def stepTo (cause : StepCause) (u : Nat) (applied : Int) (s : State) : State :=
  let hub := HubTime.ofUnits u
  let handoff : StepHandoff := ⟨hub, applied, direction s.time.hub hub, s.time.epoch + 1, cause⟩
  { s with
    time := { s.time with
      hub := hub
      slew := 0
      epoch := s.time.epoch + 1
      toSession := s.time.toSession ++ [handoff]
      toCalendar := s.time.toCalendar ++ [handoff] }
    rx := s.rx.noteStep applied
    cal := { s.cal with reached := s.cal.reached.filter (fun r => decide (r.fireTime ≤ hub.ns)) } }

/-- A step with a requested amount of `a` ns, settled at the bottom and the top of the range (R8). It is measured from hub time as
it stands, carried past the range or not (notes/assumptions/23.md). -/
def stepBy (cause : StepCause) (a : Int) (s : State) : State :=
  let target : Int := s.time.hub.units + a * billion
  if target < 0 then stepTo cause 0 (-(s.time.hub.ns : Int)) s
  else if (rangeNs * billion : Nat) ≤ target then stepTo cause (target - (rangeNs * billion : Nat)).toNat (a - rangeNs) s
  else stepTo cause target.toNat a s

/-- The applied amount of a SET_TIME step to `given` ns: truncated toward zero to whole ns (R8). Between the TICK that carries
past the range and its SECONDS_WRAP it is measured from the carried hub time (R14; DEDUCED, notes/assumptions/23.md). -/
def setTimeAmount (given : Nat) (s : State) : Int :=
  Int.tdiv ((given * billion : Nat) - (s.time.hub.units : Int)) billion

/-- A SET_TIME step to exactly `given` ns (R8, R13). -/
def stepSet (given : Nat) (s : State) : State :=
  stepTo .setTime (given * billion) (setTimeAmount given s) s

/-! ### Notices (R162, R163) -/

/-- Queue one notice to one port: appended below 16, else discarded with the loss flag and, if a batch is in collection,
the late-loss mark set (R163). A DETACHED port receives nothing (R162). -/
def Session.push (n : Notice) (x : Session) : Session :=
  if x.attached then
    if x.queue.length < 16 then { x with queue := x.queue ++ [n] }
    else { x with loss := true, batch := x.batch.map fun b => { b with late := true } }
  else x

/-- Queue a notice to the port `p`, stamped with uptime. -/
def notify (p : Port) (b : NoticeBody) (s : State) : State :=
  s.setSess p (s.sess[p].push ⟨b, s.time.uptime⟩)

/-- Queue a notice to every attached port, one copy for each. -/
def broadcast (b : NoticeBody) (s : State) : State :=
  { s with sess := mapVec (Session.push ⟨b, s.time.uptime⟩) s.sess }

/-- Queue a notice to every attached port other than `p` (R150, cause TEARDOWN). -/
def broadcastExcept (p : Port) (b : NoticeBody) (s : State) : State :=
  { s with sess := (mapVec (Session.push ⟨b, s.time.uptime⟩) s.sess).set p s.sess[p] }

/-! ### Free orders -/

/-- Insert into an ordered list. -/
def insertBy {α : Type} (le : α → α → Bool) (x : α) : List α → List α
  | [] => [x]
  | y :: ys => if le x y then x :: y :: ys else y :: insertBy le x ys

/-- Order a list. -/
def sortBy {α : Type} (le : α → α → Bool) (l : List α) : List α := l.foldr (insertBy le) []

/-- Order by `key`; between equal keys the order is free, the free value number `k` (R106, R113, R114). -/
def freeLe (k : Nat) (key : SlotNo → Nat) (a b : SlotNo) : Bool :=
  if key a < key b then true
  else if key b < key a then false
  else decide (Config.tieRank k a ≤ Config.tieRank k b)

/-! ### Leases (R137, R139) -/

/-- The lease on `r` held by `p`, if any. -/
def State.lease? (s : State) (r : Resource) (p : Port) : Option Lease :=
  s.leases.find? fun x => decide (x.resource = r ∧ x.holder = p)

/-- Create a lease (R137). -/
def addLease (r : Resource) (k : LeaseKind) (p : Port) (ms : Nat) (s : State) : State :=
  { s with leases := s.leases ++ [⟨r, k, p, ms⟩] }

/-- Remove the lease on `r` held by `p` (R139). -/
def removeLease (r : Resource) (p : Port) (s : State) : State :=
  { s with leases := s.leases.filter fun x => !decide (x.resource = r ∧ x.holder = p) }

/-- Replace the ms remaining of the lease on `r` held by `p` (R145). -/
def renewLease (r : Resource) (p : Port) (ms : Nat) (s : State) : State :=
  { s with leases := s.leases.map fun x => if x.resource = r ∧ x.holder = p then { x with remaining := ms } else x }

/-! ### Calendar entries (R83, R84, R86) -/

/-- The fire time of the entry in a slot, 0 for a free slot. -/
def State.fireTime (s : State) (i : SlotNo) : Nat :=
  match s.cal.slots[i].entry with
  | some e => e.fireTime
  | none => 0

/-- The slots whose entry satisfies `f`, in ascending order. -/
def State.slotsWhere (s : State) (f : Entry → Bool) : List SlotNo :=
  allSlots.filter fun i => match s.cal.slots[i].entry with
    | some e => f e
    | none => false

/-- The lowest free slot (R83). -/
def State.freeSlot (s : State) : Option SlotNo :=
  allSlots.find? fun i => s.cal.slots[i].entry.isNone

/-- Remove the entry in a slot: the slot becomes free, its generation increments and the owner's count falls by one (R84). -/
def removeEntry (i : SlotNo) (s : State) : State :=
  match s.cal.slots[i].entry with
  | some e => (s.setSlot i ⟨s.cal.slots[i].generation + 1, none⟩).setCount e.owner (s.cal.count[e.owner] - 1)
  | none => s

/-- Place an entry in a slot, whose generation stays (R83). -/
def placeEntry (i : SlotNo) (e : Entry) (s : State) : State :=
  s.setSlot i ⟨s.cal.slots[i].generation, some e⟩

/-- Remove every entry that satisfies `f`, without notices, and count them (R102, R103). -/
def cancelWhere (f : Entry → Bool) (s : State) : State × Nat :=
  ((s.slotsWhere f).foldl (fun t i => removeEntry i t) s, (s.slotsWhere f).length)

/-- Cancel by line (R102). -/
def cancelByLine (l : LineNo) (p : Port) (s : State) : State × Nat :=
  cancelWhere (fun e => decide (e.owner = p ∧ e.line = l)) s

/-- Cancel by port (R103). -/
def cancelByPort (p : Port) (s : State) : State × Nat :=
  cancelWhere (fun e => decide (e.owner = p)) s

/-- `t` is an occurrence of the grid that starts at `f` with period `p` and remaining count `c` (R86). -/
def inGrid (f p : Nat) (c : Option Nat) (t : Nat) : Bool :=
  decide (f ≤ t) && decide ((t - f) % p = 0) && decide (t < rangeNs) &&
    (match c with
     | some n => decide ((t - f) / p < n)
     | none => true)

/-! ### Line actions (R69 to R71) -/

def Level.invert : Level → Level
  | .low => .high
  | .high => .low

def Level.ofBool : Bool → Level
  | true => .high
  | false => .low

def Level.isHigh : Level → Bool
  | .high => true
  | .low => false

/-- What an action does to the record of an output line. -/
def OutputLine.act (a : Action) (o : OutputLine) : OutputLine :=
  match a with
  | .driveHigh => { o with level := .high, pulse := none }
  | .driveLow => { o with level := .low, pulse := none }
  | .toggle => { o with level := o.level.invert, pulse := none }
  | .pulse w =>
    match o.pulse with
    | none => { o with level := o.level.invert, pulse := some ⟨w, o.level⟩ }
    | some q => { o with pulse := some ⟨w, q.returnLevel⟩ }

/-- The Line Table executes an action on a line (R68). -/
def act (l : LineNo) (a : Action) (s : State) : State :=
  match s.lines[l] with
  | .output o => s.setLine l (.output (o.act a))
  | _ => s

/-- The level the hub drives on a pin, if it drives it (R60, R76). -/
def LineRecord.driven : LineRecord → Option Level
  | .output o => some o.level
  | .unassigned (some d) => some d.level
  | .unassigned none => none
  | .capture _ => none

/-- A row of sampled levels with the one of the line `l` replaced. -/
def setLevel (l : LineNo) (high : Bool) (v : BitVec 16) : BitVec 16 :=
  (v &&& ~~~(1#16 <<< l.val)) ||| (if high then 1#16 <<< l.val else 0#16)

/-- The level sampled on a pin: the level driven, or what the board gives. -/
def State.pinLevel (s : State) (l : LineNo) : Level :=
  match (s.lines[l]).driven with
  | some v => v
  | none => Level.ofBool (s.pins.lines.getLsbD l)

/-! ### Release of a line (R75, R77) -/

/-- The port holds the line in OUTPUT mode (R61). -/
def State.holds (s : State) (p : Port) (l : LineNo) : Bool :=
  match s.lines[l] with
  | .output o => decide (o.holder = p)
  | _ => false

/-- The port subscribes to the line (R61). -/
def State.subscribes (s : State) (p : Port) (l : LineNo) : Bool :=
  match s.lines[l] with
  | .capture c => c.subscribers.contains p
  | _ => false

/-- Release of an output: cancel by line, end of any pulse, UNASSIGNED with a release drive of 16 ticks, lease removal; the
number of entries removed (R75, R76). -/
def releaseOutput (l : LineNo) (s : State) : State × Nat :=
  match s.lines[l] with
  | .output o =>
    let r := cancelByLine l o.holder s
    (removeLease (.line l) o.holder (r.1.setLine l (.unassigned (some ⟨o.releaseLevel, 16⟩))), r.2)
  | _ => (s, 0)

/-- Departure of a subscriber; with the last one the line becomes UNASSIGNED and watching ends (R77, R123). -/
def depart (l : LineNo) (p : Port) (s : State) : State :=
  match s.lines[l] with
  | .capture c =>
    let rest := c.subscribers.filter fun q => !decide (q = p)
    if rest.isEmpty then
      removeLease (.line l) p ((s.setLine l (.unassigned none)).setWatch l none)
    else
      removeLease (.line l) p (s.setLine l (.capture { c with subscribers := rest }))
  | _ => s

/-! ### Lock state (R38, R50, R52, R54) -/

def setDisc (d : Discipline) (s : State) : State := { s with disc := d }

/-- Restart the beacon timeout timer (R50). -/
def restartTimer (s : State) : State := { s with disc := { s.disc with timer := .running 0 false } }

/-- Set both counts to 0 (R38). -/
def zeroCounts (s : State) : State := { s with disc := { s.disc with inWindow := 0, outliers := 0 } }

/-- The beacon timeout timer at an entry to a lock state: stopped in FREE and HOLDOVER, restarted in ACQUIRE, running on in
LOCKED (R45, R50). -/
def timerAtEntry (new : LockState) (t : Timer) : Timer :=
  match new with
  | .free => .stopped
  | .holdover => .stopped
  | .acquire => .running 0 false
  | .locked => t

/-- A change of lock state: both counts 0, the timer as the entry requires, holdover elapsed 0 at an entry to HOLDOVER, and
LOCK_CHANGED to every attached port (R38, R50, R52, R54). A state that stays the same is no change. -/
def changeLock (new : LockState) (cause : LockCause) (s : State) : State :=
  if s.disc.lock = new then s
  else
    broadcast (.lockChanged s.disc.lock new cause s.disc.lastError)
      { s with disc := { s.disc with
        lock := new
        inWindow := 0
        outliers := 0
        timer := timerAtEntry new s.disc.timer
        holdoverElapsed := if new = .holdover then 0 else s.disc.holdoverElapsed
        holdoverDue := false } }

/-- The Receiver is told that FREE was entered by beacon timeout or holdover limit: seed-pending is set, and an adopted id is
dropped with REFERENCE_CHANGED DROPPED (R25). -/
def freeEntryNotice (s : State) : State :=
  match s.rx.selection with
  | .acceptFirst (some _) =>
    broadcast (.referenceChanged .dropped (.acceptFirst none))
      { s with rx := { s.rx with seedPending := true, selection := .acceptFirst none } }
  | _ => { s with rx := { s.rx with seedPending := true } }

/-- The source id in effect (R22). -/
def Selection.idInEffect : Selection → Option Byte
  | .none => Option.none
  | .fixed i => some i
  | .acceptFirst a => a

/-! ### Teardown (R160) -/

/-- The counts that a teardown hands back, and whether the token was released. -/
structure TeardownCounts where
  lines         : Nat
  subscriptions : Nat
  entries       : Nat
  authority     : Bool
  deriving DecidableEq, Repr

/-- One line's part of a teardown (R78). -/
def teardownLine (p : Port) (r : State × TeardownCounts) (l : LineNo) : State × TeardownCounts :=
  if r.1.holds p l then
    let q := releaseOutput l r.1
    (q.1, { r.2 with lines := r.2.lines + 1, entries := r.2.entries + q.2 })
  else if r.1.subscribes p l then
    (depart l p r.1, { r.2 with subscriptions := r.2.subscriptions + 1 })
  else r

/-- The Lease Unit's part: every lease of the port goes, and a token it holds is freed with AUTHORITY_CHANGED TEARDOWN to the
other attached ports (R153). -/
def teardownLeases (p : Port) (s : State) : State :=
  let t := { s with leases := s.leases.filter fun x => !decide (x.holder = p) }
  if s.authority = some p then
    broadcastExcept p (.authorityChanged (some p) none .teardown 0) { t with authority := none }
  else t

/-- The Session Unit's own part: queue, loss flag and batch. -/
def Session.emptied (x : Session) : Session := { x with queue := [], loss := false, batch := none }

/-- Teardown of a port, each block's part in the order of R160. -/
def teardown (p : Port) (s : State) : State × TeardownCounts :=
  let a := allLines.foldl (teardownLine p) (s, ⟨0, 0, 0, false⟩)
  let b := cancelByPort p a.1
  let c := (teardownLeases p b.1).setCap p ⟨[], 0, none, 0⟩
  (c.setSess p c.sess[p].emptied,
   { a.2 with entries := a.2.entries + b.2, authority := decide (s.authority = some p) })

end Sys2Proof.Machine
end

