-- ==== Sys2Proof/Machine/Operands.lean ====
section
/-! DEFINITION. The bytes on the host ports and on REFIN (spec/11_formats.md): byte order, CRC, request kinds and lengths, the
field check, and the layout of every reply body and record. -/

namespace Sys2Proof.Machine

/-! ### Encoding conventions (R183) -/

/-- `n` as `k` bytes, most significant first, modulo 2^(8k). -/
def bytesOf : Nat → Nat → List Byte
  | 0, _ => []
  | k + 1, n => BitVec.ofNat 8 (n / 256 ^ k) :: bytesOf k n

/-- A signed quantity in `k` bytes of two's complement. -/
def bytesOfInt (k : Nat) (i : Int) : List Byte := bytesOf k (i % (256 ^ k : Nat)).toNat

/-- The number that bytes stand for, most significant first. -/
def natOf (l : List Byte) : Nat := l.foldl (fun n b => n * 256 + b.toNat) 0

/-- The field of `size` bytes at offset `off`. -/
def field (body : List Byte) (off size : Nat) : Nat := natOf ((body.drop off).take size)

/-- A time value of `t` whole ns: seconds, then nanoseconds. -/
def timeBytes (t : Nat) : List Byte := bytesOf 4 (t / billion) ++ bytesOf 4 (t % billion)

/-- A port, or 0xFF for none. -/
def portByte : Option Port → Byte
  | some p => BitVec.ofNat 8 p.val
  | none => 0xFF#8

def handleBytes (i : SlotNo) (g : BitVec 8) : List Byte := [BitVec.ofNat 8 i.val, g]

/-- A flags byte from its bits, bit 0 first. The bits that a reply's format does not name are sent as 0 (R187; DESIGN CHOICE,
notes/assumptions/25.md). -/
def flagsByte (bits : List Bool) : Byte :=
  BitVec.ofNat 8 (bits.foldr (fun b n => (if b then 1 else 0) + 2 * n) 0)

def padding (n : Nat) : List Byte := List.replicate n 0#8

/-- One bit of the CRC register: polynomial x^16 + x^12 + x^5 + 1, most significant bit first (R183). -/
def crcShift (c : BitVec 16) : BitVec 16 :=
  if c.msb then (c <<< 1) ^^^ 0x1021#16 else c <<< 1

/-- One byte into the CRC register, most significant bit first. -/
def crcByte (c : BitVec 16) (b : Byte) : BitVec 16 :=
  crcShift (crcShift (crcShift (crcShift (crcShift (crcShift (crcShift (crcShift
    (c ^^^ (b.setWidth 16 <<< 8)))))))))

/-- The CRC-16 of every host port frame and beacon (R183). -/
def crc16 (l : List Byte) : BitVec 16 := l.foldl crcByte 0xFFFF#16

/-- The CRC-16 as it is sent, most significant byte first. -/
def crcBytes (l : List Byte) : List Byte := bytesOf 2 (crc16 l).toNat

/-! ### Request kinds and body lengths (R185) -/

/-- The requests of the manual. -/
inductive RequestKind where
  | attach
  | detach
  | readTime
  | setTime
  | readReference
  | setReference
  | flushReference
  | setDiscipline
  | claimAuthority
  | releaseAuthority
  | renew
  | claimOutput
  | subscribeCapture
  | releaseLine
  | readLines
  | schedule
  | cancel
  | readEntry
  | listEntries
  | setQuota
  | readQuotas
  deriving DecidableEq, Repr

def RequestKind.code : RequestKind → Byte
  | .attach => 0x01#8
  | .detach => 0x02#8
  | .readTime => 0x10#8
  | .setTime => 0x11#8
  | .readReference => 0x20#8
  | .setReference => 0x21#8
  | .flushReference => 0x22#8
  | .setDiscipline => 0x23#8
  | .claimAuthority => 0x30#8
  | .releaseAuthority => 0x31#8
  | .renew => 0x32#8
  | .claimOutput => 0x40#8
  | .subscribeCapture => 0x41#8
  | .releaseLine => 0x42#8
  | .readLines => 0x43#8
  | .schedule => 0x50#8
  | .cancel => 0x51#8
  | .readEntry => 0x52#8
  | .listEntries => 0x53#8
  | .setQuota => 0x54#8
  | .readQuotas => 0x55#8

def allRequestKinds : List RequestKind :=
  [.attach, .detach, .readTime, .setTime, .readReference, .setReference, .flushReference, .setDiscipline,
   .claimAuthority, .releaseAuthority, .renew, .claimOutput, .subscribeCapture, .releaseLine, .readLines,
   .schedule, .cancel, .readEntry, .listEntries, .setQuota, .readQuotas]

/-- The request that a code names, if any. -/
def RequestKind.ofCode (b : Byte) : Option RequestKind := allRequestKinds.find? fun k => decide (k.code = b)

/-- The kind byte of a body. -/
def kindByte (body : List Byte) : Byte := body.headD 0#8

/-- One bit of the byte at an offset, as a number. -/
def bitAt (body : List Byte) (off bit : Nat) : Nat := field body off 1 / 2 ^ bit % 2

/-- The body length L of a kind, for RENEW and SCHEDULE read from the count and the presence byte of the body (R185). -/
def RequestKind.bodyLength (k : RequestKind) (body : List Byte) : Nat :=
  match k with
  | .attach => 2
  | .detach => 1
  | .readTime => 1
  | .setTime => 9
  | .readReference => 1
  | .setReference => 7
  | .flushReference => 1
  | .setDiscipline => 22
  | .claimAuthority => 3
  | .releaseAuthority => 1
  | .renew => 4 + min (field body 3 1) 17
  | .claimOutput => 6
  | .subscribeCapture => 9
  | .releaseLine => 2
  | .readLines => 1
  | .schedule => 15 + 4 * bitAt body 5 0 + 4 * bitAt body 5 1 + 2 * bitAt body 5 2
  | .cancel => 3
  | .readEntry => 3
  | .listEntries => 1
  | .setQuota => 3
  | .readQuotas => 1

/-- The check of kind and body length (R175): the request, if both are right. -/
def requestOf (body : List Byte) : Option RequestKind :=
  match RequestKind.ofCode (kindByte body) with
  | some k => if body.length = k.bodyLength body then some k else none
  | none => none

/-- The gated requests (R151). -/
def RequestKind.gated : RequestKind → Bool
  | .setTime => true
  | .setReference => true
  | .flushReference => true
  | .setDiscipline => true
  | .setQuota => true
  | .attach => false
  | .detach => false
  | .readTime => false
  | .readReference => false
  | .claimAuthority => false
  | .releaseAuthority => false
  | .renew => false
  | .claimOutput => false
  | .subscribeCapture => false
  | .releaseLine => false
  | .readLines => false
  | .schedule => false
  | .cancel => false
  | .readEntry => false
  | .listEntries => false
  | .readQuotas => false

/-! ### Fields of the request bodies (R186) -/

/-- The line that a byte names, if it is 0 to 15. -/
def lineOf (n : Nat) : Option LineNo := if h : n < 16 then some ⟨n, h⟩ else none

def portOf (n : Nat) : Option Port := if h : n < 4 then some ⟨n, h⟩ else none

def slotOf (n : Nat) : Option SlotNo := if h : n < 64 then some ⟨n, h⟩ else none

/-- A time value at an offset, in whole ns. -/
def timeField (body : List Byte) (off : Nat) : Nat := field body off 4 * billion + field body (off + 4) 4

def levelOf : Nat → Option Level
  | 0 => some .low
  | 1 => some .high
  | _ => none

def edgeSelectionOf : Nat → Option EdgeSelection
  | 1 => some .rising
  | 2 => some .falling
  | 3 => some .both
  | _ => none

def maskOf (body : List Byte) : AlertMask where
  notices := bitAt body 1 0 = 1
  captures := bitAt body 1 1 = 1
  reply := bitAt body 1 2 = 1

/-- The requested selection of a SET_REFERENCE; the source id counts only with FIXED (R32). -/
def selectionOf (mode : Nat) (id : Byte) : Option Selection :=
  match mode with
  | 0 => some .none
  | 1 => some (.fixed id)
  | 2 => some (.acceptFirst none)
  | _ => none

/-- The discipline parameter block at offset 1 of a SET_DISCIPLINE body (R186). -/
def paramsOf (body : List Byte) : Params where
  lockWindow := field body 1 4
  stepThreshold := field body 5 4
  lockCount := field body 9 1
  unlockCount := field body 10 1
  beaconTimeout := field body 11 2
  holdoverLimit := field body 13 4
  slewLimit := field body 17 4
  gainShift := field body 21 1

/-- The ranges of the discipline parameters (R55). -/
def Params.inRange (x : Params) : Bool :=
  decide (50 ≤ x.lockWindow ∧ x.lockWindow ≤ 1000000) &&
  decide (1000 ≤ x.stepThreshold ∧ x.stepThreshold ≤ 1000000000 ∧ x.lockWindow ≤ x.stepThreshold) &&
  decide (1 ≤ x.lockCount ∧ x.lockCount ≤ 255) &&
  decide (1 ≤ x.unlockCount ∧ x.unlockCount ≤ 255) &&
  decide (100 ≤ x.beaconTimeout ∧ x.beaconTimeout ≤ 60000) &&
  decide (1 ≤ x.holdoverLimit ∧ x.holdoverLimit ≤ 86400) &&
  decide (1000 ≤ x.slewLimit ∧ x.slewLimit ≤ 500000) &&
  decide (x.gainShift ≤ 7)

/-- A lease of 10 to 65,535 ms (R62, R65, R144, R148). -/
def leaseInRange (n : Nat) : Bool := decide (10 ≤ n ∧ n ≤ 65535)

/-- Nanoseconds converted to ticks, rounded up (section "Conventions"). -/
def ticksOfNs (n : Nat) : Nat := (n + 7) / 8

/-- The fields of a SCHEDULE body; each optional field follows the one before it without a gap (R186). -/
structure ScheduleFields where
  epoch    : Nat
  line     : Nat
  action   : Nat
  presence : Nat
  policies : Nat
  time     : Nat
  nanos    : Nat
  width    : Option Nat
  period   : Option Nat
  count    : Option Nat
  deriving DecidableEq, Repr

def scheduleFields (body : List Byte) : ScheduleFields :=
  let w := bitAt body 5 0
  let p := bitAt body 5 1
  let r := bitAt body 5 2
  { epoch := field body 1 2
    line := field body 3 1
    action := field body 4 1
    presence := field body 5 1
    policies := field body 6 1
    time := timeField body 7
    nanos := field body 11 4
    width := if w = 1 then some (field body 15 4) else none
    period := if p = 1 then some (field body (15 + 4 * w) 4) else none
    count := if r = 1 then some (field body (15 + 4 * w + 4 * p) 2) else none }

/-- The action of a SCHEDULE; a width belongs to PULSE and to no other action (R88). -/
def actionOf (code : Nat) (width : Option Nat) : Option Action :=
  match code, width with
  | 1, none => some .driveHigh
  | 2, none => some .driveLow
  | 3, none => some .toggle
  | 4, some w => some (.pulse (ticksOfNs w))
  | _, _ => none

def latePolicyOf : Nat → Option LatePolicy
  | 1 => some .fireLate
  | 2 => some .discard
  | _ => none

def stepPolicyOf : Nat → Option StepPolicy
  | 1 => some .keep
  | 2 => some .void
  | _ => none

def notifyOf : Nat → Option Bool
  | 1 => some false
  | 2 => some true
  | _ => none

/-- The width as held in ns, 0 unless PULSE (R94, R97). -/
def Action.widthNs : Action → Nat
  | .pulse w => w * 8
  | .driveHigh => 0
  | .driveLow => 0
  | .toggle => 0

/-- The repetition of a SCHEDULE: a count belongs to a period and is not 0, and a period with PULSE is greater than the width
as held (R88). -/
def repetitionOf (a : Action) (period count : Option Nat) : Option Repetition :=
  match period with
  | none => if count.isNone then some .oneShot else none
  | some p =>
    if 1000 ≤ p ∧ p ≤ 4000000000 ∧ count ≠ some 0 ∧ a.widthNs < p then
      some (.periodic p count)
    else none

/-- The field check of SCHEDULE (R88): the entry that the fields describe, if every field is in range. -/
def entryOf (p : Port) (x : ScheduleFields) : Option Entry :=
  if x.presence < 8 ∧ x.policies < 64 ∧ x.nanos < billion ∧ 8 ≤ x.width.getD 8 ∧ x.width.getD 8 ≤ 1000000000 then
    match lineOf x.line, actionOf x.action x.width, latePolicyOf (x.policies % 4),
        stepPolicyOf (x.policies / 4 % 4), notifyOf (x.policies / 16 % 4) with
    | some l, some a, some lp, some sp, some nt =>
      match repetitionOf a x.period x.count with
      | some r => some ⟨p, l, a, x.time, r, lp, sp, nt⟩
      | none => none
    | _, _, _, _, _ => none
  else none

/-- The items of a RENEW (R144, R186). -/
def renewItems (body : List Byte) : List Byte := body.drop 4

/-- The resource that a RENEW item names. -/
def itemResource (b : Byte) : Option Resource :=
  if b = 0x10#8 then some .authority else (lineOf b.toNat).map Resource.line

/-- The field check, check 4 of R176: from the body alone (R186). -/
def fieldsOk (k : RequestKind) (body : List Byte) : Bool :=
  match k with
  | .attach => decide (field body 1 1 < 8)
  | .setTime => decide (field body 5 4 < billion)
  | .setReference => decide (field body 1 1 ≤ 2) && decide (field body 3 4 ≤ 1000000)
  | .setDiscipline => (paramsOf body).inRange
  | .claimAuthority => leaseInRange (field body 1 2)
  | .renew => leaseInRange (field body 1 2) && decide (1 ≤ field body 3 1 ∧ field body 3 1 ≤ 17) &&
      (renewItems body).all fun b => (itemResource b).isSome
  | .claimOutput => decide (field body 1 1 < 16) && leaseInRange (field body 2 2) &&
      (levelOf (field body 4 1)).isSome && (levelOf (field body 5 1)).isSome
  | .subscribeCapture => decide (field body 1 1 < 16) && leaseInRange (field body 2 2) &&
      (edgeSelectionOf (field body 4 1)).isSome && decide (field body 5 4 ≤ 1000000)
  | .releaseLine => decide (field body 1 1 < 16)
  | .schedule => (entryOf 0 (scheduleFields body)).isSome
  | .cancel => decide (field body 1 1 < 64)
  | .readEntry => decide (field body 1 1 < 64)
  | .setQuota => decide (field body 1 1 < 4) && decide (field body 2 1 ≤ 64)
  | .detach => true
  | .readTime => true
  | .readReference => true
  | .flushReference => true
  | .releaseAuthority => true
  | .readLines => true
  | .listEntries => true
  | .readQuotas => true

/-! ### Status codes and codes of enumerated fields (R186, R187, R188) -/

/-- The status codes (section 10.5). -/
inductive Status where
  | ok
  | badRequest
  | notAttached
  | noAuthority
  | badField
  | notOwner
  | held
  | inUse
  | conflict
  | quota
  | tooSoon
  | staleEpoch
  | noEntry
  | wrongState
  deriving DecidableEq, Repr

def Status.code : Status → Byte
  | .ok => 0x00#8
  | .badRequest => 0x01#8
  | .notAttached => 0x02#8
  | .noAuthority => 0x03#8
  | .badField => 0x04#8
  | .notOwner => 0x05#8
  | .held => 0x06#8
  | .inUse => 0x07#8
  | .conflict => 0x08#8
  | .quota => 0x09#8
  | .tooSoon => 0x0A#8
  | .staleEpoch => 0x0B#8
  | .noEntry => 0x0C#8
  | .wrongState => 0x0D#8

def LockState.code : LockState → Byte
  | .free => 0#8
  | .acquire => 1#8
  | .locked => 2#8
  | .holdover => 3#8

def Selection.modeCode : Selection → Byte
  | .none => 0#8
  | .fixed _ => 1#8
  | .acceptFirst _ => 2#8

def Level.code : Level → Byte
  | .low => 0#8
  | .high => 1#8

def EdgeSelection.code : EdgeSelection → Byte
  | .rising => 1#8
  | .falling => 2#8
  | .both => 3#8

def Edge.code : Edge → Byte
  | .rising => 1#8
  | .falling => 2#8

def LineRecord.modeCode : LineRecord → Byte
  | .unassigned _ => 0#8
  | .output _ => 1#8
  | .capture _ => 2#8

def Action.code : Action → Byte
  | .driveHigh => 1#8
  | .driveLow => 2#8
  | .toggle => 3#8
  | .pulse _ => 4#8

def StepCause.code : StepCause → Byte
  | .discipline => 1#8
  | .setTime => 2#8
  | .wrap => 3#8

def LockCause.code : LockCause → Byte
  | .beacon => 1#8
  | .timeout => 2#8
  | .holdoverLimit => 3#8
  | .selection => 4#8
  | .flush => 5#8

def AuthorityCause.code : AuthorityCause → Byte
  | .claim => 1#8
  | .release => 2#8
  | .expiry => 3#8
  | .teardown => 4#8

def ReferenceCause.code : ReferenceCause → Byte
  | .adopted => 1#8
  | .dropped => 2#8
  | .selected => 3#8

def LeaseKind.code : LeaseKind → Byte
  | .output => 1#8
  | .subscription => 2#8
  | .authority => 3#8

def Resource.code : Resource → Byte
  | .line l => BitVec.ofNat 8 l.val
  | .authority => 0x10#8

/-- The policies byte (R186). -/
def policiesByte (e : Entry) : Byte :=
  BitVec.ofNat 8
    ((match e.latePolicy with | .fireLate => 1 | .discard => 2) +
     4 * (match e.stepPolicy with | .keep => 1 | .void => 2) +
     16 * (if e.notify then 2 else 1))

/-! ### Entry fields as they are reported -/

def Action.isPulse : Action → Bool
  | .pulse _ => true
  | .driveHigh => false
  | .driveLow => false
  | .toggle => false

def Repetition.period : Repetition → Option Nat
  | .oneShot => none
  | .periodic p _ => some p

/-- The remaining count, absent for a one-shot and for an unbounded periodic entry (R97). -/
def Repetition.count : Repetition → Option Nat
  | .oneShot => none
  | .periodic _ c => c

/-! ### Reply bodies (R187) -/

/-- The discipline parameter block (R186). -/
def paramBlock (x : Params) : List Byte :=
  bytesOf 4 x.lockWindow ++ bytesOf 4 x.stepThreshold ++ bytesOf 1 x.lockCount ++ bytesOf 1 x.unlockCount ++
  bytesOf 2 x.beaconTimeout ++ bytesOf 4 x.holdoverLimit ++ bytesOf 4 x.slewLimit ++ bytesOf 1 x.gainShift

/-- The READ_TIME body, 40 bytes: the slew remainder truncated toward zero to whole ns, holdover elapsed in whole seconds
(R5, R12, R52). -/
def readTimeBody (s : State) : List Byte :=
  timeBytes s.reportedTime ++ bytesOf 2 s.time.epoch.toNat ++ bytesOf 4 s.time.uptime.toNat ++ [s.disc.lock.code] ++
  [flagsByte [s.time.trimLimit]] ++ bytesOfInt 4 s.time.trim ++ bytesOfInt 8 (Int.tdiv s.time.slew billion) ++
  bytesOfInt 8 s.disc.lastError ++ bytesOf 4 (s.disc.holdoverElapsed / 1000)

/-- The source id in effect as a byte, 0 if none. -/
def idByte (x : Selection) : Byte := x.idInEffect.getD 0#8

def statsBytes (x : Stats) : List Byte :=
  bytesOf 2 x.usable ++ bytesOf 2 x.seed ++ bytesOf 2 x.outlier ++ bytesOf 2 x.malformed ++ bytesOf 2 x.foreign ++
  bytesOf 2 x.untraceable ++ bytesOf 2 x.duplicate

/-- The READ_REFERENCE body, 47 bytes (R31). -/
def readReferenceBody (s : State) : List Byte :=
  [s.rx.selection.modeCode, flagsByte [s.rx.selection.idInEffect.isSome, s.rx.seedPending], idByte s.rx.selection] ++
  bytesOf 4 s.rx.linkDelay ++ bytesOf 2 s.rx.lastSeq.toNat ++ [s.disc.lock.code] ++ bytesOf 1 s.disc.inWindow ++
  bytesOf 1 s.disc.outliers ++ paramBlock s.disc.params ++ statsBytes s.rx.stats

/-- The ports of a line as bits: the holder, each subscriber, or none. -/
def LineRecord.portBits (x : LineRecord) : Byte :=
  match x with
  | .unassigned _ => 0#8
  | .output o => BitVec.ofNat 8 (2 ^ o.holder.val)
  | .capture c => flagsByte (allPorts.map fun p => c.subscribers.contains p)

/-- One line's six bytes of READ_LINES, as the port `p` sees them (R80). Between the increment that brings the lease of `p` to 0
and its expiry the lease is shown as present with 0 ms (DEDUCED, notes/assumptions/28.md). -/
def lineBytes (p : Port) (s : State) (l : LineNo) : List Byte :=
  let r := s.lines[l]
  let lease := s.lease? (.line l) p
  [r.modeCode, r.portBits,
   flagsByte [(s.pinLevel l).isHigh,
     (match r with | .output o => o.releaseLevel.isHigh | _ => false),
     (match r with | .output o => o.pulse.isSome | _ => false),
     lease.isSome],
   (match r with | .capture c => c.selection.code | _ => 0#8)] ++
  bytesOf 2 (match lease with | some x => x.remaining | none => 0)

/-- The READ_LINES body, 96 bytes. -/
def readLinesBody (p : Port) (s : State) : List Byte := (allLines.map (lineBytes p s)).flatten

/-- The READ_ENTRY body, 26 bytes (R97). -/
def readEntryBody (i : SlotNo) (g : BitVec 8) (e : Entry) (epoch : BitVec 16) : List Byte :=
  handleBytes i g ++ [BitVec.ofNat 8 e.line.val, e.action.code,
    flagsByte [e.action.isPulse, e.repetition.period.isSome, e.repetition.count.isSome], policiesByte e] ++
  timeBytes e.fireTime ++ bytesOf 4 e.action.widthNs ++ bytesOf 4 (e.repetition.period.getD 0) ++
  bytesOf 2 (e.repetition.count.getD 0) ++ bytesOf 2 epoch.toNat

/-- The ATTACH and DETACH body (R187; the flag of a DETACH, DEDUCED, notes/assumptions/16.md). -/
def sessionBody (mask : AlertMask) (performed : Bool) (c : TeardownCounts) : List Byte :=
  [flagsByte [mask.notices, mask.captures, mask.reply], flagsByte [performed, c.authority]] ++
  bytesOf 1 c.lines ++ bytesOf 1 c.subscriptions ++ bytesOf 1 c.entries

/-! ### Capture and notice records (R188) -/

/-- A capture record in 20 bytes. -/
def captureBytes (r : CaptureRecord) : List Byte :=
  [BitVec.ofNat 8 r.line.val, r.edge.code] ++ timeBytes r.stamp ++ bytesOf 2 r.epoch.toNat ++ [r.lock.code] ++
  bytesOf 1 r.lost ++ padding 6

/-- Kind code, flags byte and 14 body bytes of a notice. -/
def NoticeBody.parts : NoticeBody → Byte × Byte × List Byte
  | .fired i g t e n late last =>
    (1#8, flagsByte [late, last], handleBytes i g ++ timeBytes t ++ bytesOf 2 e.toNat ++ bytesOf 2 n)
  | .missed i g t e n last =>
    (2#8, flagsByte [false, last], handleBytes i g ++ timeBytes t ++ bytesOf 2 e.toNat ++ bytesOf 2 n)
  | .voided i g t e c =>
    (3#8, 0#8, handleBytes i g ++ timeBytes t ++ bytesOf 2 e.toNat ++ bytesOf 2 (c.getD 0))
  | .leaseLost r k n => (4#8, 0#8, [r.code, k.code] ++ bytesOf 1 n ++ padding 11)
  | .stepped e a c => (5#8, 0#8, bytesOf 2 e.toNat ++ bytesOfInt 8 a ++ [c.code] ++ padding 3)
  | .lockChanged o n c e => (6#8, 0#8, [o.code, n.code, c.code] ++ padding 3 ++ bytesOfInt 8 e)
  | .authorityChanged o n c ms =>
    (7#8, 0#8, [portByte o, portByte n, c.code] ++ padding 1 ++ bytesOf 2 ms ++ padding 8)
  | .referenceChanged c x =>
    (8#8, 0#8, [c.code, x.modeCode, flagsByte [x.idInEffect.isSome], idByte x] ++ padding 10)

/-- A notice record in 20 bytes. -/
def noticeBytes (n : Notice) : List Byte :=
  [n.body.parts.1, n.body.parts.2.1] ++ bytesOf 4 n.uptime.toNat ++ n.body.parts.2.2

/-! ### Replies (R177) -/

/-- What an owning block answers: the status and the body after the header. -/
structure Answer where
  status : Status
  body   : List Byte
  deriving DecidableEq, Repr

/-- A refusal that carries the header only. -/
def refuse (x : Status) : Answer := ⟨x, []⟩

/-- A reply with status OK. -/
def accept (body : List Byte) : Answer := ⟨.ok, body⟩

/-- The reply: the kind as sent, the status, the session number, then the body (R177). -/
def replyBytes (kind : Byte) (number : BitVec 8) (a : Answer) : List Byte := [kind, a.status.code, number] ++ a.body

/-- The reply enters the port's reply slot, which makes the port ANSWERED; its header carries the session number as it stands
then (R155, R169, R177). -/
def answerPort (p : Port) (kind : Byte) (a : Answer) (s : State) : State :=
  s.setPort p { s.ports[p] with state := .answered (replyBytes kind s.sess[p].number a) }

/-- The checks 2 to 4 of R176 and, if they pass, the owning block's own part `run`. -/
def judge (k : RequestKind) (p : Port) (body : List Byte) (run : List Byte → State → State × Answer) (s : State) :
    State × Answer :=
  if k ≠ .attach ∧ s.sess[p].attached = false then (s, refuse .notAttached)
  else if k.gated = true ∧ s.authority ≠ some p then (s, refuse .noAuthority)
  else if fieldsOk k body = false then (s, refuse .badField)
  else run body s

/-- The owning block takes the request of kind `k` that is in flight on the port `p`, and its reply is made in the same event
(R176). Where no such request is in flight there is nothing to take, and the state stays (notes/assumptions/2.md). -/
def takeRequest (k : RequestKind) (p : Port) (run : List Byte → State → State × Answer) (s : State) : Step :=
  match s.ports[p].state with
  | .working body =>
    if requestOf body = some k then
      let r := judge k p body run s
      .next (answerPort p (kindByte body) r.2 r.1)
    else .next s
  | _ => .next s

end Sys2Proof.Machine
end

