-- ==== Sys2Proof/Machine/Flags.lean ====
section
/-! DEFINITION. The indications and output pins that follow from the state: the pending indications, the status byte, ALERTn,
MISO, and the drive of the trigger lines. -/

namespace Sys2Proof.Machine

/-- The notices-pending indication (R166). -/
def State.noticesPending (s : State) (p : Port) : Bool := !s.sess[p].queue.isEmpty

/-- The captures-pending indication (R134). -/
def State.capturesPending (s : State) (p : Port) : Bool := !s.caps[p].queue.isEmpty

/-- The REPLY condition: the port is ANSWERED (R167). -/
def PortState.isAnswered : PortState → Bool
  | .answered _ => true
  | .idle => false
  | .working _ => false

/-- ALERTn is asserted, driven low (R167). -/
def State.alertAsserted (s : State) (p : Port) : Bool :=
  let x := s.sess[p]
  x.attached && ((x.mask.notices && s.noticesPending p) || (x.mask.captures && s.capturesPending p) ||
    (x.mask.reply && s.ports[p].state.isAnswered))

def PortState.code : PortState → Nat
  | .idle => 0
  | .working _ => 1
  | .answered _ => 2

def FrameOutcome.code : FrameOutcome → Nat
  | .accepted => 0
  | .refusedBusy => 1
  | .badCrc => 2
  | .badLength => 3
  | .aborted => 4
  | .unknownKind => 5

/-- The status byte, formed at the falling edge of CSn (R171, R184). -/
def State.statusByte (s : State) (p : Port) : Byte :=
  BitVec.ofNat 8 (64 * s.ports[p].state.code + (if s.sess[p].attached then 32 else 0) +
    (if s.noticesPending p then 16 else 0) + (if s.capturesPending p then 8 else 0) + s.ports[p].lastOutcome.code)

/-- MISO of the port is driven: CSn is low and the start-up hold is clear (R170, R181); never during a hub reset, which holds
the start-up hold (R192). -/
def State.misoDriven (s : State) (p : Port) : Bool := s.pins.csLow[p] && !s.ports[p].hold

/-- The byte the hub sends as byte `k` (from 1) of the frame in progress: filler 0x00 after what is decided (R170, R184). With
CSn low and no frame in progress, because CSn fell in the start-up hold, the manual gives no byte: a free value (R181,
notes/assumptions/21.md). -/
def State.misoByte (s : State) (p : Port) (k : Nat) : Byte :=
  match s.ports[p].frame with
  | some f => f.sent.getD (k - 1) 0#8
  | none => Config.misoWithoutFrame s.time.tickCount p.val k

/-- The level driven on a line pin, `none` where it is not driven (R60, R76, R192). -/
def State.lineDriven (s : State) (l : LineNo) : Option Level := (s.lines[l]).driven

end Sys2Proof.Machine
end

