-- ==== Sys2Proof/Machine/Calendar.lean ====
section
/-! DEFINITION. The Calendar's requests: SCHEDULE, CANCEL, READ_ENTRY, LIST_ENTRIES, SET_QUOTA and READ_QUOTAS
(spec/05_the_trigger_calendar.md). -/

namespace Sys2Proof.Machine

/-! ### SCHEDULE (R88 to R94) -/

/-- The requested entry `e` collides with the entry `x` held on the same line (R92). -/
def collides (e x : Entry) : Bool :=
  match e.repetition, x.repetition with
  | .oneShot, .oneShot => decide (x.fireTime = e.fireTime)
  | .oneShot, .periodic p c => inGrid x.fireTime p c e.fireTime
  | .periodic _ _, .periodic _ _ => true
  | .periodic p c, .oneShot => inGrid e.fireTime p c x.fireTime

/-- Some entry on the request's line collides with it. -/
def State.conflicts (s : State) (e : Entry) : Bool :=
  !(s.slotsWhere fun x => decide (x.line = e.line) && collides e x).isEmpty

/-- The fire time lies less than 2,000 ns after hub time, which includes its fraction (R91). -/
def State.tooSoon (s : State) (t : Nat) : Bool := decide (t * billion < s.time.hub.units + 2000 * billion)

/-- Insertion: the entry goes into the slot, and the owner's count rises by one (R94). -/
def insertEntry (i : SlotNo) (e : Entry) (s : State) : State :=
  (placeEntry i e s).setCount e.owner (s.cal.count[e.owner] + 1)

/-- The Calendar's own checks on a SCHEDULE, in their order: ownership, epoch, lead, collisions, quota (R89 to R93). -/
def scheduleCheck (p : Port) (epoch : Nat) (e : Entry) (s : State) : Status :=
  if s.holds p e.line = false then .notOwner
  else if epoch ≠ s.time.epoch.toNat then .staleEpoch
  else if s.tooSoon e.fireTime then .tooSoon
  else if s.conflicts e then .conflict
  else if s.cal.quota[p] ≤ s.cal.count[p] then .quota
  else .ok

/-- SCHEDULE whose general checks have passed. -/
def scheduleRun (p : Port) (body : List Byte) (s : State) : State × Answer :=
  let x := scheduleFields body
  match entryOf p x with
  | none => (s, refuse .badField)
  | some e =>
    let v := scheduleCheck p x.epoch e s
    if v ≠ .ok then (s, refuse v)
    else
      match s.freeSlot with
      | none => (s, refuse .quota)
      | some i =>
        let t := insertEntry i e s
        (t, accept (handleBytes i (s.cal.slots[i]).generation ++ bytesOf 4 e.action.widthNs ++
          bytesOf 1 t.cal.count[p] ++ bytesOf 1 t.cal.quota[p]))

/-- SCHEDULE (R94). -/
def execSchedule (p : Port) (s : State) : Step := takeRequest .schedule p (scheduleRun p) s

/-! ### Naming an entry by its handle (R96, R97) -/

/-- The slot field of a body whose field check has passed, at offset 1. -/
def bodySlot (body : List Byte) : SlotNo := Fin.ofNat 64 (field body 1 1)

/-- The generation field, at offset 2. -/
def bodyGeneration (body : List Byte) : BitVec 8 := BitVec.ofNat 8 (field body 2 1)

/-- The requester's entry that the handle names: the slot holds an entry of that generation owned by the requester (R96). -/
def State.named (s : State) (p : Port) (i : SlotNo) (g : BitVec 8) : Option Entry :=
  match s.cal.slots[i].entry with
  | some e => if (s.cal.slots[i]).generation = g ∧ e.owner = p then some e else none
  | none => none

def cancelRun (p : Port) (body : List Byte) (s : State) : State × Answer :=
  let i := bodySlot body
  let g := bodyGeneration body
  match s.named p i g with
  | some e =>
    (removeEntry i s, accept (handleBytes i g ++ timeBytes e.fireTime ++ bytesOf 2 (e.repetition.count.getD 0)))
  | none => (s, refuse .noEntry)

/-- CANCEL (R96). -/
def execCancel (p : Port) (s : State) : Step := takeRequest .cancel p (cancelRun p) s

/-- The reply of a READ_ENTRY that has passed the general checks: the entry's fields and the epoch, as both stand
(notes/assumptions/27.md). -/
def readEntryRun (p : Port) (body : List Byte) (s : State) : State × Answer :=
  let i := bodySlot body
  let g := bodyGeneration body
  match s.named p i g with
  | some e => (s, accept (readEntryBody i g e s.time.epoch))
  | none => (s, refuse .noEntry)

/-- READ_ENTRY (R97). Between a step and its handling by the Calendar (R112) it pairs the new epoch with the fire time as the
entry still holds it (DEDUCED, notes/assumptions/27.md). -/
def execReadEntry (p : Port) (s : State) : Step := takeRequest .readEntry p (readEntryRun p) s

/-! ### LIST_ENTRIES (R98) -/

/-- The slots of a port's entries in ascending order of fire time and, among equal fire times, of slot number (R98). -/
def State.ownSlots (s : State) (p : Port) : List SlotNo :=
  sortBy (fun a b => decide (s.fireTime a ≤ s.fireTime b)) (s.slotsWhere fun e => decide (e.owner = p))

def listEntriesBody (p : Port) (s : State) : List Byte :=
  let l := s.ownSlots p
  bytesOf 1 l.length ++ (l.map fun i => handleBytes i (s.cal.slots[i]).generation).flatten

/-- LIST_ENTRIES (R98). -/
def execListEntries (p : Port) (s : State) : Step :=
  takeRequest .listEntries p (fun _ t => (t, accept (listEntriesBody p t))) s

/-! ### Quotas (R99, R101) -/

/-- The sum of a number for each port. -/
def sumPorts (v : Vector Nat 4) : Nat := v[0] + v[1] + v[2] + v[3]

def portBytes (v : Vector Nat 4) : List Byte := bytesOf 1 v[0] ++ bytesOf 1 v[1] ++ bytesOf 1 v[2] ++ bytesOf 1 v[3]

def setQuotaRun (body : List Byte) (s : State) : State × Answer :=
  let q : Port := Fin.ofNat 4 (field body 1 1)
  let n := field body 2 1
  let v := s.cal.quota.set q n
  if 64 < sumPorts v then (s, refuse .badField)
  else if n < s.cal.count[q] then (s, refuse .inUse)
  else ({ s with cal := { s.cal with quota := v } }, accept (portBytes v))

/-- SET_QUOTA (R99). -/
def execSetQuota (p : Port) (s : State) : Step := takeRequest .setQuota p setQuotaRun s

/-- READ_QUOTAS (R101). -/
def execReadQuotas (p : Port) (s : State) : Step :=
  takeRequest .readQuotas p
    (fun _ t => (t, accept (portBytes t.cal.quota ++ portBytes t.cal.count ++ bytesOf 1 (64 - sumPorts t.cal.count)))) s

end Sys2Proof.Machine
end

