-- ==== Sys2Proof/Machine/Capture.lean ====
section
/-! DEFINITION. The Capture Unit: edges, holdoff, stamping and fan-out (spec/07_edge_capture.md). -/

namespace Sys2Proof.Machine

/-- The edge on a tick, from the last sampled level and the level sampled (R124). -/
def edgeOf (last now : Level) : Option Edge :=
  match last, now with
  | .low, .high => some .rising
  | .high, .low => some .falling
  | .low, .low => none
  | .high, .high => none

/-- An edge matches the edge selection (R125). -/
def EdgeSelection.selects : EdgeSelection → Edge → Bool
  | .rising, .rising => true
  | .rising, .falling => false
  | .falling, .rising => false
  | .falling, .falling => true
  | .both, .rising => true
  | .both, .falling => true

/-- One tick of a watched line: a matching edge is due for stamping unless a holdoff filters it; the last sampled level
follows the pin, and a running holdoff decreases (R124 to R126). -/
def Watch.sample (sel : EdgeSelection) (now : Level) (w : Watch) : Watch where
  last := now
  holdoff := w.holdoff - 1
  due := match edgeOf w.last now with
    | some e => if sel.selects e = true ∧ w.holdoff = 0 then some e else none
    | none => none

/-- One tick of the Capture Unit at one line. -/
def sampleLine (pins : BitVec 16) (s : State) (l : LineNo) : Option Watch :=
  match s.watch[l], s.lines[l] with
  | some w, .capture c => some (w.sample c.selection (Level.ofBool (pins.getLsbD l)))
  | w, _ => w

/-- A record enters a queue, given newest first, ahead of up to `k` records with its hub time and epoch. A lost count belongs to
a place in the queue and stays there (R130, R131; notes/assumptions/24.md). The lock state of the records is not compared: two
stampings of one tick with a change of lock state and no step between them still stand in a drawn order for each port, so a record
with the new lock state may stand ahead of one with the old (DEDUCED: R131 makes no exception for it; notes/assumptions/24.md). -/
def enterQueue (r : CaptureRecord) : Nat → List CaptureRecord → List CaptureRecord
  | _, [] => [r]
  | k, y :: ys =>
    if (y.stamp = r.stamp ∧ y.epoch = r.epoch) ∧ 0 < k then
      { y with lost := r.lost } :: enterQueue { r with lost := y.lost } (k - 1) ys
    else r :: y :: ys

/-- A copy of a record reaches one port's queue: it enters with the port's lost count, which returns to 0, or at 32 records the
last place is discarded and the lost count raised, up to 255 (R130). It may precede only records of its own tick, the fresh ones
(R131), and none of a batch that a frame has fixed (R132). -/
def CapturePort.push (k : Nat) (r : CaptureRecord) (x : CapturePort) : CapturePort :=
  let fixed := x.batch.getD 0
  let entered := enterQueue { r with lost := x.lost } (min k x.fresh) (x.queue.drop fixed).reverse
  if x.queue.length < 32 then { x with queue := x.queue.take fixed ++ entered.reverse, lost := 0, fresh := x.fresh + 1 }
  else { x with queue := x.queue.take fixed ++ (entered.drop 1).reverse, lost := min 255 (x.lost + 1) }

/-- A tick begins: the records queued so far are of earlier ticks, and their order stands (R130, R131). -/
def CapturePort.settleOrder (x : CapturePort) : CapturePort := { x with fresh := 0 }

/-- The record of an edge stamped now, before its lost count is filled in (R127). -/
def stampRecord (l : LineNo) (e : Edge) (s : State) : CaptureRecord :=
  ⟨l, e, s.reportedTime, s.time.epoch, s.disc.lock, 0⟩

/-- The record is copied to one subscriber's queue (R129); its place among the records of its tick is free (R131). -/
def pushCapture (n : Nat) (r : CaptureRecord) (s : State) (p : Port) : State :=
  s.setCap p (s.caps[p].push (Config.copyOrder n p.val) r)

/-- EDGE_STAMPED: the matching unfiltered edge found on this tick is stamped, copied to every subscriber, and starts the
holdoff (R126, R127, R129). -/
def execEdgeStamped (l : LineNo) (s : State) : Step :=
  match s.watch[l], s.lines[l] with
  | some w, .capture c =>
    match w.due with
    | some e =>
      .next (c.subscribers.foldl (pushCapture s.freeCount (stampRecord l e s))
        { s.setWatch l (some ⟨w.last, c.holdoff, none⟩) with freeCount := s.freeCount + 1 })
    | none => .next s
  | _, _ => .next s

end Sys2Proof.Machine
end

