-- ==== Sys2Proof/Machine/Discipline.lean ====
section
/-! DEFINITION. The Discipline Unit: what it does with one beacon, its expiries, and SET_DISCIPLINE
(spec/03_discipline_and_lock_states.md). -/

namespace Sys2Proof.Machine

/-! ### One beacon (R39 to R49) -/

/-- The two classes of beacon that reach the Discipline Unit (R29). -/
inductive BeaconClass where
  | seed
  | usable
  deriving DecidableEq, Repr

/-- The interval of a trim update in µs (R42). -/
def trimInterval (markTick last : Nat) : Nat := (markTick - last) / 125

/-- The change of a trim update in ppb, truncated toward zero (R42). -/
def trimChange (e : Int) (interval gain : Nat) : Int := Int.tdiv (e * 1000000) ((interval * 2 ^ gain : Nat) : Int)

/-- The Timebase takes a trim update: clamped to ±100,000 ppb, TRIM_LIMIT telling whether it was (R7, R42). -/
def takeTrim (v : Int) (s : State) : State :=
  { s with time := { s.time with
    trim := if 100000 < v then 100000 else if v < -100000 then -100000 else v
    trimLimit := decide (100000 < v ∨ v < -100000) } }

/-- The trim update of a beacon that is applied and not handled as a seed: only with a last applied mark at least 1,000 µs
back (R42). -/
def trimUpdate (e : Int) (markTick : Nat) (s : State) : State :=
  match s.disc.lastMark with
  | none => s
  | some last =>
    if 1000 ≤ trimInterval markTick last then
      takeTrim (s.time.trim + trimChange e (trimInterval markTick last) s.disc.params.gainShift) s
    else s

/-- The slew setting: the remainder is replaced by e ns with a fraction of 0 (R5). -/
def setSlew (e : Int) (s : State) : State := { s with time := { s.time with slew := e * billion } }

/-- The last applied error and mark become those of the beacon (R40, R41). -/
def noteApplied (e : Int) (markTick : Nat) (s : State) : State :=
  { s with disc := { s.disc with lastError := e, lastMark := some markTick } }

/-- Applying a beacon, in the order of R41. -/
def applyBeacon (seed : Bool) (e : Int) (markTick : Nat) (s : State) : State :=
  noteApplied e markTick (setSlew e (if seed then s else trimUpdate e markTick s))

/-- Stepping on a beacon (R40). -/
def stepOnBeacon (e : Int) (markTick : Nat) (s : State) : State :=
  let t := noteApplied e markTick (stepBy .discipline e s)
  { t with disc := { t.disc with inWindow := 0 } }

/-- An in-window beacon in ACQUIRE has been counted: at or over the lock count the lock state becomes LOCKED (R45). -/
def lockTest (s : State) : State :=
  let t := { s with disc := { s.disc with inWindow := s.disc.inWindow + 1 } }
  if t.disc.params.lockCount ≤ t.disc.inWindow then changeLock .locked .beacon t else t

/-- A beacon handled in ACQUIRE, by the size of its phase error (R44). -/
def handleInAcquire (seed : Bool) (e : Int) (markTick : Nat) (s : State) : State :=
  let r := restartTimer s
  if r.disc.params.stepThreshold < e.natAbs then stepOnBeacon e markTick r
  else
    let t := applyBeacon seed e markTick r
    if e.natAbs ≤ t.disc.params.lockWindow then lockTest t
    else { t with disc := { t.disc with inWindow := 0 } }

/-- A count of 16 bits that saturates at 65535 (R30). -/
def saturate16 (n : Nat) : Nat := min 65535 (n + 1)

/-- A USABLE beacon outside the lock window in LOCKED is an outlier: counted, not applied; at or over the unlock count the
lock state becomes ACQUIRE (R47). -/
def handleOutlier (s : State) : State :=
  let t := restartTimer { s with
    disc := { s.disc with outliers := s.disc.outliers + 1 }
    rx := { s.rx with stats := { s.rx.stats with outlier := saturate16 s.rx.stats.outlier } } }
  if t.disc.params.unlockCount ≤ t.disc.outliers then changeLock .acquire .beacon t else t

/-- The Discipline Unit handles a beacon in the lock state in effect (R39, R43 to R49; the error that a LOCK_CHANGED from
HOLDOVER to LOCKED carries, DEDUCED, notes/assumptions/19.md). -/
def handleBeacon (c : BeaconClass) (e : Int) (markTick : Nat) (s : State) : State :=
  match s.disc.lock with
  | .free => handleInAcquire true e markTick (changeLock .acquire .beacon s)
  | .acquire => handleInAcquire (decide (c = .seed)) e markTick s
  | .locked =>
    if c = .seed then handleInAcquire true e markTick (changeLock .acquire .beacon s)
    else if e.natAbs ≤ s.disc.params.lockWindow then
      let t := applyBeacon false e markTick (restartTimer s)
      { t with disc := { t.disc with outliers := 0 } }
    else handleOutlier s
  | .holdover =>
    if c = .usable ∧ e.natAbs ≤ s.disc.params.lockWindow then
      applyBeacon false e markTick (restartTimer (changeLock .locked .beacon s))
    else handleInAcquire true e markTick (changeLock .acquire .beacon s)

/-! ### Expiries (R50 to R52) -/

/-- One ms passes for the beacon timeout timer: it advances, and its expiry is due if it reaches the timeout (R50). -/
def Timer.advance (timeout : Nat) : Timer → Timer
  | .stopped => .stopped
  | .running n _ => .running (n + 1) (decide (timeout ≤ n + 1))

/-- The expiry of the timer is due and, by the parameters in effect, still reached (R50, R58). -/
def Timer.expired (timeout : Nat) : Timer → Bool
  | .stopped => false
  | .running n due => due && decide (timeout ≤ n)

/-- BEACON_TIMEOUT_EXPIRY: ACQUIRE goes to FREE and the Receiver is told; LOCKED goes to HOLDOVER (R51). -/
def execBeaconTimeoutExpiry (s : State) : Step :=
  if s.disc.timer.expired s.disc.params.beaconTimeout then
    match s.disc.lock with
    | .acquire => .next (freeEntryNotice (changeLock .free .timeout s))
    | .locked => .next (changeLock .holdover .timeout s)
    | _ => .next s
  else .next s

/-- HOLDOVER_LIMIT_REACHED: HOLDOVER goes to FREE and the Receiver is told (R52). -/
def execHoldoverLimitReached (s : State) : Step :=
  if s.disc.lock = .holdover ∧ s.disc.holdoverDue = true ∧ 1000 * s.disc.params.holdoverLimit ≤ s.disc.holdoverElapsed then
    .next (freeEntryNotice (changeLock .free .holdoverLimit s))
  else .next s

/-! ### SET_DISCIPLINE (R56, R57) -/

/-- All eight parameters are replaced at once; nothing else changes (R56, R57). -/
def setDisciplineRun (body : List Byte) (s : State) : State × Answer :=
  let x := paramsOf body
  ({ s with disc := { s.disc with params := x } }, accept (paramBlock x ++ [s.disc.lock.code]))

/-- SET_DISCIPLINE (R56). -/
def execSetDiscipline (p : Port) (s : State) : Step := takeRequest .setDiscipline p setDisciplineRun s

end Sys2Proof.Machine
end

