-- ==== Sys2Proof/Machine/Firing.lean ====
section
/-! DEFINITION. Firing and the Calendar's handling of a step (spec/06_firing_and_time_steps.md). -/

namespace Sys2Proof.Machine

/-! ### The periodic advance (R109, R116) -/

/-- The entry after `n` of its occurrences are gone: `none` when it ends, because it is a one-shot, its count reaches 0, or
its grid has no further occurrence in the range of hub time (R107, R109, R116). -/
def Entry.advance (n : Nat) (e : Entry) : Option Entry :=
  match e.repetition with
  | .oneShot => none
  | .periodic p c =>
    if c.map (· - n) = some 0 ∨ rangeNs ≤ e.fireTime + n * p then none
    else some { e with fireTime := e.fireTime + n * p, repetition := .periodic p (c.map (· - n)) }

/-- What a slot holds after an execution: the advanced entry, or it is freed (R84, R107). -/
def settleEntry (i : SlotNo) (next : Option Entry) (s : State) : State :=
  match next with
  | some e => placeEntry i e s
  | none => removeEntry i s

/-! ### Ordinary firing (R106, R107) -/

/-- One due entry: its action is executed, its FIRED notice queued if notify is yes, and it is removed or advanced (R107). The
notice reports hub time at the tick of the firing, with the epoch of that hub time, also after a step taken on the same tick and
not yet handled (R10, R108, R121; DEDUCED, notes/assumptions/22.md). -/
def fireEntry (r : Reached) (s : State) (i : SlotNo) : State :=
  match s.cal.slots[i].entry with
  | none => s
  | some e =>
    let next := e.advance 1
    let a := act e.line e.action s
    let b := if e.notify then
        notify e.owner (.fired i (s.cal.slots[i]).generation r.stamp r.epoch 0 false next.isNone) a
      else a
    settleEntry i next b

/-- The firing for a fire time reached: every entry with that fire time, in a free order (R106). -/
def fireAt (r : Reached) (s : State) : State :=
  let due := sortBy (freeLe s.freeCount fun _ => 0) (s.slotsWhere fun e => decide (e.fireTime = r.fireTime))
  due.foldl (fireEntry r) { s with freeCount := s.freeCount + 1 }

/-- A firing is taken when hub time lies at or after the fire time; else it is not taken (R106). -/
def takeFiring (s : State) (r : Reached) : State := if r.fireTime ≤ s.time.hub.ns then fireAt r s else s

/-- FIRING: the Calendar takes the firing for the earliest fire time reached (R106). -/
def execFiring (s : State) : Step :=
  match s.cal.reached with
  | [] => .next s
  | r :: rest => .next (takeFiring { s with cal := { s.cal with reached := rest } } r)

/-! ### VOID removals (R113) -/

/-- A VOID entry is removed with a VOIDED notice to its owner (R113). -/
def voidEntry (epoch : BitVec 16) (s : State) (i : SlotNo) : State :=
  match s.cal.slots[i].entry with
  | none => s
  | some e =>
    removeEntry i (notify e.owner (.voided i (s.cal.slots[i]).generation e.fireTime epoch e.repetition.count) s)

/-- Every VOID entry is removed, in a free order (R113). -/
def voidRemovals (epoch : BitVec 16) (s : State) : State :=
  let l := sortBy (freeLe s.freeCount fun _ => 0) (s.slotsWhere fun e => decide (e.stepPolicy = .void))
  l.foldl (voidEntry epoch) { s with freeCount := s.freeCount + 1 }

/-! ### Late handling (R114 to R118) -/

/-- How many occurrences of a periodic entry lie at or before `h`, limited by its count and by the range of hub time (R116). -/
def passedCount (f p : Nat) (c : Option Nat) (h : Nat) : Nat :=
  let n := (min h (rangeNs - 1) - f) / p + 1
  match c with
  | some k => min n k
  | none => n

/-- The occurrences that a passed entry loses at hub time `h`: one for a one-shot (R115, R116). -/
def Entry.passed (h : Nat) (e : Entry) : Nat :=
  match e.repetition with
  | .oneShot => 1
  | .periodic p c => passedCount e.fireTime p c h

/-- A passed entry by its late policy: FIRE_LATE executes once and reports FIRED with LATE, DISCARD reports MISSED; either
way every passed occurrence is gone (R115, R116, R117). FIRED pairs hub time as it stands with the epoch in effect (R10, R108),
MISSED carries the epoch of the step handled; they differ only where a second step has been taken (DEDUCED,
notes/assumptions/22.md). -/
def lateEntry (epoch : BitVec 16) (s : State) (i : SlotNo) : State :=
  match s.cal.slots[i].entry with
  | none => s
  | some e =>
    let n := e.passed s.time.hub.ns
    let next := e.advance n
    let g := (s.cal.slots[i]).generation
    match e.latePolicy with
    | .fireLate =>
      settleEntry i next
        (notify e.owner (.fired i g s.reportedTime s.time.epoch (min (n - 1) 65535) true next.isNone) (act e.line e.action s))
    | .discard =>
      settleEntry i next (notify e.owner (.missed i g e.fireTime epoch (min n 65535) next.isNone) s)

/-- Late handling: the passed entries in ascending order of original fire time, equal ones in a free order (R114). -/
def lateHandling (epoch : BitVec 16) (s : State) : State :=
  let l := sortBy (freeLe s.freeCount s.fireTime) (s.slotsWhere fun e => decide (e.fireTime ≤ s.time.hub.ns))
  l.foldl (lateEntry epoch) { s with freeCount := s.freeCount + 1 }

/-- A fire time reached before a step, once that step is handled: a firing still to come is then taken in the step's epoch, and
its notices report the hub time that the step set (R10, R121; DEDUCED, notes/assumptions/22.md). -/
def Reached.restamp (h : StepHandoff) (r : Reached) : Reached :=
  if r.epoch + 1 = h.epoch then { r with stamp := h.hub.reported, epoch := h.epoch } else r

/-- The Calendar's handling of one step: VOID removals and late handling (R112). Firings still to come then belong to the step's
epoch (R121). -/
def handleStep (h : StepHandoff) (s : State) : State :=
  let t := voidRemovals h.epoch { s with cal := { s.cal with reached := s.cal.reached.map (Reached.restamp h) } }
  if h.direction = .forward then lateHandling h.epoch t else t

/-- STEP_HANDLING: the Calendar takes the oldest hand-off of a step, once the Session Unit has taken its own part of that
step (R11, R112; DEDUCED, notes/assumptions/13.md). -/
def execStepHandling (s : State) : Step :=
  match s.time.toCalendar with
  | [] => .next s
  | h :: rest =>
    if s.time.toSession.length ≤ rest.length then
      .next (handleStep h { s with time := { s.time with toCalendar := rest } })
    else .next s

end Sys2Proof.Machine
end

