-- ==== Sys2Proof/Machine/HostPorts.lean ====
section
/-! DEFINITION. The Host Ports' commands: frames from their beginning to their end (spec/10_host_port_frames.md). -/

namespace Sys2Proof.Machine

/-- CSn of the port has risen. -/
def raiseCs (p : Port) (s : State) : State := { s with pins := { s.pins with csLow := s.pins.csLow.set p false } }

/-- CSn rises on a frame that is given no outcome (R172). -/
def endWithoutOutcome (p : Port) (s : State) : State :=
  (raiseCs p s).setPort p { s.ports[p] with frame := none }

/-- CSn rises and the frame is given its outcome (R172). -/
def endFrame (p : Port) (o : FrameOutcome) (s : State) : State :=
  (raiseCs p s).setPort p { s.ports[p] with frame := none, lastOutcome := o }

/-- FRAME_BEGIN: CSn falls. The frame in progress becomes an empty frame and the status byte is formed from the state at that
moment (R171). While the start-up hold is held no frame begins (R181; DEDUCED, notes/assumptions/21.md). -/
def execFrameBegin (p : Port) (s : State) : Step :=
  if s.pins.csLow[p] then .next s
  else
    let t := { s with pins := { s.pins with csLow := s.pins.csLow.set p true } }
    if s.ports[p].hold then .next t
    else .next (t.setPort p { s.ports[p] with frame := some ⟨[], .undecided, [s.statusByte p]⟩ })

/-- The frame has fixed a batch or the lack of one, so that byte 2 is complete (R180). -/
def FrameFix.isBatch : FrameFix → Bool
  | .batch _ _ => true
  | .undecided => false
  | .reply _ => false

/-- STATUS_READ: CSn rises before byte 2 is complete. No outcome is given and no state changes (R172); a reply it fixed stays
in the slot (R178). -/
def execStatusRead (p : Port) (s : State) : Step :=
  match s.ports[p].frame with
  | none => .next (raiseCs p s)
  | some f => if f.fix.isBatch then .next s else .next (endWithoutOutcome p s)

/-- The judgement of a REQUEST frame at the rising edge of CSn: length, CRC, port state, in this order (R174;
a part-byte, DEDUCED, notes/assumptions/10.md). -/
def judgeRequest (bytes : List Byte) (partBits : Nat) (x : PortState) : FrameOutcome :=
  let len := field bytes 1 1
  if len = 0 ∨ 40 < len ∨ bytes.length ≠ len + 4 ∨ partBits ≠ 0 then .badLength
  else if crcBytes ((bytes.drop 1).take (len + 1)) ≠ bytes.drop (len + 2) then .badCrc
  else if x ≠ .idle then .refusedBusy
  else .accepted

/-- The body of a REQUEST frame. -/
def requestBody (bytes : List Byte) : List Byte := (bytes.drop 2).take (field bytes 1 1)

/-- The Host Port takes the body of an accepted frame: BAD_REQUEST at once if kind or length is wrong, else the request goes
on its path and the port is WORKING (R175). -/
def handOn (p : Port) (body : List Byte) (s : State) : State :=
  match requestOf body with
  | some _ => s.setPort p { s.ports[p] with state := .working body }
  | none => answerPort p (kindByte body) (refuse .badRequest) s

/-- REQUEST_FRAME_END (R174, R175). -/
def execRequestFrameEnd (p : Port) (bytes : List Byte) (partBits : Nat) (s : State) : Step :=
  match s.ports[p].frame with
  | none => .next (raiseCs p s)
  | some f =>
    if f.fix = .undecided ∧ bytes.head? = some 0xA1#8 ∧ 2 ≤ bytes.length then
      let o := judgeRequest bytes partBits s.ports[p].state
      if o = .accepted then .next (handOn p (requestBody bytes) (endFrame p o s))
      else .next (endFrame p o s)
    else .next s

/-- What a COLLECT_REPLY frame sends after byte 1: the length R, the reply, and the CRC over both (R178). -/
def replyFrame (reply : List Byte) : List Byte :=
  let r := BitVec.ofNat 8 reply.length :: reply
  r ++ crcBytes r

/-- REPLY_FIX: byte 1 of a COLLECT_REPLY frame is complete. The frame fixes a copy of the waiting reply, or R = 0 (R178). -/
def execReplyFix (p : Port) (s : State) : Step :=
  match s.ports[p].frame with
  | none => .next s
  | some f =>
    if f.fix = .undecided then
      let x := s.ports[p]
      match x.state with
      | .answered reply =>
        .next (s.setPort p { x with frame := some ⟨[0xA2#8], .reply true, f.sent ++ replyFrame reply⟩ })
      | _ => .next (s.setPort p { x with frame := some ⟨[0xA2#8], .reply false, f.sent ++ replyFrame []⟩ })
    else .next s

/-- COLLECT_REPLY_END: a completed frame that fixed a reply removes it and makes the port IDLE; a frame cut short is given
ABORTED (R178). -/
def execCollectReplyEnd (p : Port) (whole : Nat) (s : State) : Step :=
  match s.ports[p].frame with
  | none => .next (raiseCs p s)
  | some f =>
    match f.fix with
    | .reply present =>
      if whole < 2 then .next s
      else if whole < f.sent.length then .next (endFrame p .aborted s)
      else
        let t := endFrame p .accepted s
        if present then .next (t.setPort p { t.ports[p] with state := .idle }) else .next t
    | _ => .next s

/-- M is in range, 1 to 8 (R180). -/
def batchLimitOk (m : Byte) : Bool := decide (1 ≤ m.toNat ∧ m.toNat ≤ 8)

/-- What a collection frame sends after byte 1: filler, the batch header, the records and the CRC (R180, R184). -/
def batchFrame (n : Nat) (loss : Bool) (records : List Byte) : List Byte :=
  let r := BitVec.ofNat 8 (n + (if loss then 128 else 0)) :: records
  0#8 :: r ++ crcBytes r

/-- The Session Unit fixes the batch of a COLLECT_NOTICES frame (R164). -/
def noticeBatchFix (p : Port) (m : Byte) (f : Frame) (s : State) : State :=
  let x := s.sess[p]
  let n := min m.toNat x.queue.length
  let t := s.setSess p { x with batch := some ⟨n, x.loss, false⟩ }
  t.setPort p { s.ports[p] with
    frame := some ⟨[0xA3#8, m], .batch .notices true,
      f.sent ++ batchFrame n x.loss ((x.queue.take n).map noticeBytes).flatten⟩ }

/-- The Capture Unit fixes the batch of a COLLECT_CAPTURES frame; with no record the batch is none. The fixed records keep their
places from then on, also after an abortion, so they no longer count as fresh (R132; notes/assumptions/24.md). -/
def captureBatchFix (p : Port) (m : Byte) (f : Frame) (s : State) : State :=
  let x := s.caps[p]
  let n := min m.toNat x.queue.length
  let t := s.setCap p { x with batch := if n = 0 then none else some n, fresh := min x.fresh (x.queue.length - n) }
  t.setPort p { s.ports[p] with
    frame := some ⟨[0xA4#8, m], .batch .captures true,
      f.sent ++ batchFrame n false ((x.queue.take n).map captureBytes).flatten⟩ }

/-- The kind code of a collection frame (R184). -/
def frameCodeOf : QueueName → Byte
  | .notices => 0xA3#8
  | .captures => 0xA4#8

/-- BATCH_FIX: byte 2 of a collection frame is complete. With M from 1 to 8 the owning block fixes the batch; else the frame
sends n = 0 with no loss reported and no batch is fixed (R180). -/
def execBatchFix (p : Port) (q : QueueName) (m : Byte) (s : State) : Step :=
  match s.ports[p].frame with
  | none => .next s
  | some f =>
    if f.fix = .undecided then
      if batchLimitOk m then
        match q with
        | .notices => .next (noticeBatchFix p m f s)
        | .captures => .next (captureBatchFix p m f s)
      else
        .next (s.setPort p { s.ports[p] with
          frame := some ⟨[frameCodeOf q, m], .batch q false, f.sent ++ batchFrame 0 false []⟩ })
    else .next s

/-- The outcome of a collection frame: ABORTED when cut short, BAD_LENGTH with M out of range, else ACCEPTED (R180). -/
def batchOutcome (complete valid : Bool) : FrameOutcome :=
  if complete = false then .aborted else if valid then .accepted else .badLength

/-- The Session Unit settles its batch: completion removes it and makes the loss flag the late-loss mark, abortion removes
nothing (R164). -/
def Session.settleBatch (complete : Bool) (x : Session) : Session :=
  match x.batch with
  | none => x
  | some b =>
    if complete then { x with queue := x.queue.drop b.fixed, loss := b.late, batch := none }
    else { x with batch := none }

/-- COLLECT_NOTICES_END (R164, R180). -/
def execCollectNoticesEnd (p : Port) (whole : Nat) (s : State) : Step :=
  match s.ports[p].frame with
  | none => .next (raiseCs p s)
  | some f =>
    match f.fix with
    | .batch .notices valid =>
      if whole < 2 then .next s
      else
        let complete := decide (f.sent.length ≤ whole)
        let t := endFrame p (batchOutcome complete valid) s
        if valid then .next (t.setSess p (t.sess[p].settleBatch complete)) else .next t
    | _ => .next s

/-- The Capture Unit settles its batch: completion removes it from the front, abortion removes nothing (R132). -/
def CapturePort.settleBatch (complete : Bool) (x : CapturePort) : CapturePort :=
  match x.batch with
  | none => x
  | some n => if complete then { x with queue := x.queue.drop n, batch := none } else { x with batch := none }

/-- COLLECT_CAPTURES_END (R132, R180). -/
def execCollectCapturesEnd (p : Port) (whole : Nat) (s : State) : Step :=
  match s.ports[p].frame with
  | none => .next (raiseCs p s)
  | some f =>
    match f.fix with
    | .batch .captures valid =>
      if whole < 2 then .next s
      else
        let complete := decide (f.sent.length ≤ whole)
        let t := endFrame p (batchOutcome complete valid) s
        if valid then .next (t.setCap p (t.caps[p].settleBatch complete)) else .next t
    | _ => .next s

/-- UNKNOWN_KIND: a frame whose byte 1 is none of the four codes is given UNKNOWN_KIND and changes nothing else (R173). -/
def execUnknownKind (p : Port) (kind : Byte) (s : State) : Step :=
  match s.ports[p].frame with
  | none => .next (raiseCs p s)
  | some f =>
    if f.fix = .undecided ∧ (kind ≠ 0xA1#8 ∧ kind ≠ 0xA2#8 ∧ kind ≠ 0xA3#8 ∧ kind ≠ 0xA4#8) then
      .next (endFrame p .unknownKind s)
    else .next s

end Sys2Proof.Machine
end

