-- ==== Sys2Proof/Machine/Leases.lean ====
section
/-! DEFINITION. The Lease Unit's commands: CLAIM_AUTHORITY, RELEASE_AUTHORITY, RENEW and the expiries
(spec/08_leases_and_the_authority_token.md). -/

namespace Sys2Proof.Machine

/-! ### The authority token (R148, R149) -/

/-- The CLAIM_AUTHORITY reply body: the holder after the request and, to the holder only, its ms remaining (R148). Between the
increment that brings the lease to 0 and its expiry (R146) that is 0 (DEDUCED, notes/assumptions/28.md). -/
def authorityBody (p : Port) (s : State) : List Byte :=
  portByte s.authority ::
    bytesOf 2 (if s.authority = some p then
      (match s.lease? .authority p with | some x => x.remaining | none => 0) else 0)

/-- The token is granted: holder, lease, and AUTHORITY_CHANGED CLAIM to every attached port (R148). -/
def grantAuthority (p : Port) (ms : Nat) (s : State) : State :=
  broadcast (.authorityChanged none (some p) .claim ms)
    (addLease .authority .authority p ms { s with authority := some p })

def claimAuthorityRun (p : Port) (body : List Byte) (s : State) : State × Answer :=
  match s.authority with
  | none =>
    let t := grantAuthority p (field body 1 2) s
    (t, accept (authorityBody p t))
  | some q => (s, ⟨if q = p then .inUse else .held, authorityBody p s⟩)

/-- CLAIM_AUTHORITY (R148). -/
def execClaimAuthority (p : Port) (s : State) : Step := takeRequest .claimAuthority p (claimAuthorityRun p) s

/-- The token is freed and its lease removed (R143, R149). -/
def freeAuthority (p : Port) (s : State) : State := { removeLease .authority p s with authority := none }

def releaseAuthorityRun (p : Port) (_body : List Byte) (s : State) : State × Answer :=
  if s.authority = some p then
    (broadcast (.authorityChanged (some p) none .release 0) (freeAuthority p s), accept [])
  else (s, refuse .notOwner)

/-- RELEASE_AUTHORITY (R149). -/
def execReleaseAuthority (p : Port) (s : State) : Step :=
  takeRequest .releaseAuthority p (releaseAuthorityRun p) s

/-! ### RENEW (R145) -/

/-- One item of a RENEW is held by the requester (R145). -/
def itemHeld (p : Port) (s : State) (b : Byte) : Bool :=
  match itemResource b with
  | some r => (s.lease? r p).isSome
  | none => false

/-- One item of a RENEW: the ms remaining of the requester's lease become the duration (R145). -/
def renewItem (p : Port) (ms : Nat) (s : State) (b : Byte) : State :=
  match itemResource b with
  | some r => renewLease r p ms s
  | none => s

def renewRun (p : Port) (body : List Byte) (s : State) : State × Answer :=
  let ms := field body 1 2
  let items := renewItems body
  (items.foldl (renewItem p ms) s,
   accept (bytesOf 2 ms ++ bytesOf 1 items.length ++ items.map fun b => if itemHeld p s b then 1#8 else 2#8))

/-- RENEW (R145). -/
def execRenew (p : Port) (s : State) : Step := takeRequest .renew p (renewRun p) s

/-! ### Countdown and expiry (R138, R140 to R143) -/

/-- A lease counts down by one ms (R138). -/
def Lease.countDown (x : Lease) : Lease := { x with remaining := x.remaining - 1 }

/-- The lease on a resource, of a kind, that has run out. -/
def State.expiredLease (s : State) (r : Resource) (k : LeaseKind) : Option Lease :=
  s.leases.find? fun x => decide (x.resource = r ∧ x.kind = k ∧ x.remaining = 0)

/-- OUTPUT_LEASE_EXPIRY: the lease goes, the line is released with its cancel by line, and LEASE_LOST carries the count to the
former holder (R141). -/
def execOutputLeaseExpiry (l : LineNo) (s : State) : Step :=
  match s.expiredLease (.line l) .output with
  | some x =>
    let r := releaseOutput l (removeLease (.line l) x.holder s)
    .next (notify x.holder (.leaseLost (.line l) .output r.2) r.1)
  | none => .next s

/-- SUBSCRIPTION_LEASE_EXPIRY: the one subscriber departs, then LEASE_LOST (R142). -/
def execSubscriptionLeaseExpiry (l : LineNo) (p : Port) (s : State) : Step :=
  match s.lease? (.line l) p with
  | some x =>
    if x.kind = .subscription ∧ x.remaining = 0 then
      .next (notify p (.leaseLost (.line l) .subscription 0) (depart l p (removeLease (.line l) p s)))
    else .next s
  | none => .next s

/-- AUTHORITY_LEASE_EXPIRY: the token is freed; LEASE_LOST to the former holder, then AUTHORITY_CHANGED EXPIRY to every
attached port (R143). -/
def execAuthorityLeaseExpiry (s : State) : Step :=
  match s.expiredLease .authority .authority with
  | some x =>
    .next (broadcast (.authorityChanged (some x.holder) none .expiry 0)
      (notify x.holder (.leaseLost .authority .authority 0) (freeAuthority x.holder s)))
  | none => .next s

end Sys2Proof.Machine
end

