-- ==== Sys2Proof/Machine/Lines.lean ====
section
/-! DEFINITION. The Line Table's commands: claims, subscriptions, releases, READ_LINES, and the ends of pulses and release
drives (spec/04_trigger_lines.md). -/

namespace Sys2Proof.Machine

/-- The line field of a body whose field check has passed, at offset 1. -/
def bodyLine (body : List Byte) : LineNo := Fin.ofNat 16 (field body 1 1)

/-! ### CLAIM_OUTPUT (R62, R63) -/

/-- A claim granted on an UNASSIGNED line: OUTPUT at the initial level, no pulse, any release drive ended, and a lease (R63). -/
def grantOutput (p : Port) (l : LineNo) (ms : Nat) (initial release : Level) (s : State) : State :=
  addLease (.line l) .output p ms (s.setLine l (.output ⟨p, initial, release, none⟩))

def claimOutputRun (p : Port) (body : List Byte) (s : State) : State × Answer :=
  let l := bodyLine body
  let ms := field body 2 2
  let initial := (levelOf (field body 4 1)).getD .low
  let release := (levelOf (field body 5 1)).getD .low
  match s.lines[l] with
  | .unassigned _ =>
    (grantOutput p l ms initial release s,
     accept ([BitVec.ofNat 8 l.val, initial.code, release.code] ++ bytesOf 2 ms))
  | .output o => (s, refuse (if o.holder = p then .inUse else .held))
  | .capture _ => (s, refuse .held)

/-- CLAIM_OUTPUT (R62). -/
def execClaimOutput (p : Port) (s : State) : Step := takeRequest .claimOutput p (claimOutputRun p) s

/-! ### SUBSCRIBE_CAPTURE (R65 to R67) -/

/-- A capture grant samples the pin. Where it ends a release drive the driver is letting go of the pin, and the level that the
pin shows at that tick is a free value (R66, notes/assumptions/7.md); else it is the level sampled on the tick. -/
def sampleAtGrant (l : LineNo) (s : State) : State :=
  match s.lines[l] with
  | .unassigned (some _) =>
    { s with
      pins := { s.pins with lines := setLevel l (Config.pinLettingGo s.freeCount) s.pins.lines }
      freeCount := s.freeCount + 1 }
  | _ => s

/-- A subscription granted on an UNASSIGNED line: CAPTURE with the request's configuration, watched from the level sampled at
the grant with no holdoff, and a lease (R66, R123). -/
def grantCapture (p : Port) (l : LineNo) (ms : Nat) (e : EdgeSelection) (holdoff : Nat) (s : State) : State :=
  let t := sampleAtGrant l s
  addLease (.line l) .subscription p ms
    ((t.setLine l (.capture ⟨[p], e, holdoff⟩)).setWatch l (some ⟨Level.ofBool (t.pins.lines.getLsbD l), 0, none⟩))

/-- A port joins a CAPTURE line under its configuration (R67). -/
def joinCapture (p : Port) (l : LineNo) (ms : Nat) (c : CaptureLine) (s : State) : State :=
  addLease (.line l) .subscription p ms (s.setLine l (.capture { c with subscribers := c.subscribers ++ [p] }))

/-- The SUBSCRIBE_CAPTURE reply body: the configuration in effect (R66, R67). -/
def subscribeBody (l : LineNo) (c : CaptureLine) (ms : Nat) : List Byte :=
  [BitVec.ofNat 8 l.val, c.selection.code] ++ bytesOf 4 (c.holdoff * 8) ++ bytesOf 1 c.subscribers.length ++ bytesOf 2 ms

def subscribeCaptureRun (p : Port) (body : List Byte) (s : State) : State × Answer :=
  let l := bodyLine body
  let ms := field body 2 2
  let e := (edgeSelectionOf (field body 4 1)).getD .both
  let h := ticksOfNs (field body 5 4)
  match s.lines[l] with
  | .unassigned _ => (grantCapture p l ms e h s, accept (subscribeBody l ⟨[p], e, h⟩ ms))
  | .capture c =>
    if c.subscribers.contains p then (s, refuse .inUse)
    else (joinCapture p l ms c s, accept (subscribeBody l { c with subscribers := c.subscribers ++ [p] } ms))
  | .output _ => (s, refuse .held)

/-- SUBSCRIBE_CAPTURE (R65). -/
def execSubscribeCapture (p : Port) (s : State) : Step := takeRequest .subscribeCapture p (subscribeCaptureRun p) s

/-! ### RELEASE_LINE and READ_LINES (R74, R80) -/

/-- The RELEASE_LINE reply body: line, cancelled entries, mode after the release. -/
def releaseBody (l : LineNo) (n : Nat) (s : State) : List Byte :=
  [BitVec.ofNat 8 l.val] ++ bytesOf 1 n ++ [(s.lines[l]).modeCode]

def releaseLineRun (p : Port) (body : List Byte) (s : State) : State × Answer :=
  let l := bodyLine body
  if s.holds p l then
    let r := releaseOutput l s
    (r.1, accept (releaseBody l r.2 r.1))
  else if s.subscribes p l then
    let t := depart l p s
    (t, accept (releaseBody l 0 t))
  else (s, refuse .notOwner)

/-- RELEASE_LINE (R74). -/
def execReleaseLine (p : Port) (s : State) : Step := takeRequest .releaseLine p (releaseLineRun p) s

/-- READ_LINES (R80). -/
def execReadLines (p : Port) (s : State) : Step :=
  takeRequest .readLines p (fun _ t => (t, accept (readLinesBody p t))) s

/-! ### Pulses and release drives (R72, R76) -/

/-- One tick for a line record: a pulse in flight and a release drive count down (R72, R76). -/
def LineRecord.countDown : LineRecord → LineRecord
  | .output o => .output { o with pulse := o.pulse.map fun q => { q with remaining := q.remaining - 1 } }
  | .unassigned d => .unassigned (d.map fun x => { x with remaining := x.remaining - 1 })
  | .capture c => .capture c

/-- PULSE_END: when the ticks remaining are 0 the level becomes the return level and the pulse is removed (R72). -/
def execPulseEnd (l : LineNo) (s : State) : Step :=
  match s.lines[l] with
  | .output o =>
    match o.pulse with
    | some q =>
      if q.remaining = 0 then .next (s.setLine l (.output { o with level := q.returnLevel, pulse := none })) else .next s
    | none => .next s
  | _ => .next s

/-- RELEASE_DRIVE_END: when the ticks remaining are 0 the pin is no longer driven (R76). -/
def execReleaseDriveEnd (l : LineNo) (s : State) : Step :=
  match s.lines[l] with
  | .unassigned (some d) => if d.remaining = 0 then .next (s.setLine l (.unassigned none)) else .next s
  | _ => .next s

end Sys2Proof.Machine
end

