-- ==== Sys2Proof/Machine/Reference.lean ====
section
/-! DEFINITION. The Reference Receiver: characters and beacons on REFIN, classification, and the requests READ_REFERENCE,
SET_REFERENCE and FLUSH_REFERENCE (spec/02_reference_beacons.md). -/

namespace Sys2Proof.Machine

/-! ### Sampling REFIN (R17, R18) -/

/-- No beacon is in assembly. -/
def Assembly.isIdle : Assembly → Bool
  | .idle => true
  | .receiving _ _ _ => false

/-- A falling edge: a character is timed from this tick, and in IDLE the mark's values are captured provisionally (R18). -/
def Receiver.fallingEdge (tick hubNs : Nat) (r : Receiver) : Receiver :=
  { r with
    timing := some ⟨tick, false, []⟩
    provisional := if r.assembly.isIdle then some ⟨hubNs, tick⟩ else r.provisional }

/-- The byte of eight data bits, the first the least significant (R17). -/
def byteOfBits (bits : List Bool) : Byte := flagsByte bits

/-- A tick while a character is timed: bit n is sampled 63 + 125 n ticks after the falling edge (R17). -/
def Receiver.timeCharacter (c : CharTiming) (level : Bool) (tick : Nat) (r : Receiver) : Receiver :=
  let d := tick - c.fall
  if d = 63 then
    if level then
      if r.assembly.isIdle then { r with timing := none, provisional := none, adjusts := [] } else { r with timing := none }
    else
      { r with
        timing := some { c with started := true }
        found := if r.assembly.isIdle then r.found ++ [.startBit] else r.found }
  else if d = 1188 then
    { r with
      timing := none
      found := r.found ++ [if level then .character (byteOfBits c.data) tick else .framingError] }
  else if 63 < d ∧ (d - 63) % 125 = 0 then { r with timing := some { c with data := c.data ++ [level] } }
  else r

/-- The Receiver samples REFIN on a tick (R17). A falling edge on the very tick of a stop bit's sample is not acted on (DEDUCED,
notes/assumptions/26.md). -/
def Receiver.sample (level : Bool) (tick hubNs : Nat) (r : Receiver) : Receiver :=
  match r.timing with
  | some c => { r.timeCharacter c level tick with refinHigh := level }
  | none =>
    if r.refinHigh = true ∧ level = false then { r.fallingEdge tick hubNs with refinHigh := level }
    else { r with refinHigh := level }

/-- What has been found and not yet taken, oldest first. A start bit concerns only IDLE, a character only RECEIVING. -/
def Receiver.due (r : Receiver) : List RxEvent :=
  if r.assembly.isIdle then r.found.dropWhile fun e => decide (e ≠ .startBit)
  else r.found.dropWhile fun e => decide (e = .startBit)

/-! ### Assembling a beacon (R18, R19) -/

/-- BEACON_MARK: a start bit in IDLE begins a beacon with the values captured at its falling edge (R18). -/
def execBeaconMark (s : State) : Step :=
  match s.rx.assembly, s.rx.due, s.rx.provisional with
  | .idle, .startBit :: rest, some m =>
    .next { s with rx := { s.rx with assembly := .receiving m [] none, provisional := none, found := rest } }
  | _, _, _ => .next s

/-- CHARACTER_COMPLETED: a character other than the fifteenth, and other than a wrong first one, adds its byte and records its
tick (R18). -/
def execCharacterCompleted (s : State) : Step :=
  match s.rx.assembly, s.rx.due with
  | .receiving m bytes _, .character b t :: rest =>
    if bytes.length < 14 ∧ (bytes.length = 0 → b = 0xC3#8) then
      .next { s with rx := { s.rx with assembly := .receiving m (bytes ++ [b]) (some t), found := rest } }
    else .next s
  | _, _ => .next s

/-- An abandonment: counted as malformed, the bytes and the mark discarded, back to IDLE (R19). -/
def abandon (rest : List RxEvent) (s : State) : State :=
  { s with rx := { s.rx with
    assembly := .idle
    adjusts := []
    found := rest
    stats := { s.rx.stats with malformed := saturate16 s.rx.stats.malformed } } }

/-- BEACON_ABANDONED: a framing error, or a first character that is not 0xC3 (R19). -/
def execBeaconAbandoned (s : State) : Step :=
  match s.rx.assembly, s.rx.due with
  | .receiving _ _ _, .framingError :: rest => .next (abandon rest s)
  | .receiving _ bytes _, .character b _ :: rest =>
    if bytes.length = 0 ∧ b ≠ 0xC3#8 then .next (abandon rest s) else .next s
  | _, _ => .next s

/-- GAP_EXPIRY: from the 2,501st tick after the last completed character on, unless a falling edge is being timed (R19). -/
def execGapExpiry (s : State) : Step :=
  match s.rx.assembly, s.rx.due with
  | .receiving _ _ (some last), [] =>
    if last + 2501 ≤ s.time.tickCount ∧ s.rx.timing = none then .next (abandon [] s) else .next s
  | _, _ => .next s

/-! ### The end of a beacon (R20, R23, R24, R28) -/

/-- The fields of a beacon (R189). -/
structure Beacon where
  source        : Byte
  sequence      : BitVec 16
  traceable     : Bool
  discontinuity : Bool
  time          : Nat
  deriving DecidableEq, Repr

def beaconOf (b : List Byte) : Beacon where
  source := b.getD 1 0#8
  sequence := BitVec.ofNat 16 (field b 2 2)
  traceable := bitAt b 4 0 = 1
  discontinuity := bitAt b 4 1 = 1
  time := timeField b 5

/-- The content check: CRC over the first thirteen bytes, nanoseconds below 1,000,000,000 (R20). -/
def beaconContentOk (b : List Byte) : Bool :=
  decide (crcBytes (b.take 13) = (b.drop 13).take 2) && decide (field b 9 4 < billion)

/-- The class of a well-formed beacon, the first that holds (R23). -/
inductive BeaconVerdict where
  | foreign
  | untraceable
  | adoption
  | duplicate
  | seed
  | usable
  deriving DecidableEq, Repr

/-- The source id is not accepted: mode NONE, or an id in effect that differs (R22, R23). -/
def foreignTo (x : Selection) (source : Byte) : Bool :=
  match x with
  | .none => true
  | .fixed i => decide (i ≠ source)
  | .acceptFirst (some i) => decide (i ≠ source)
  | .acceptFirst none => false

/-- The sequence is old: equal to the last accepted one or 1 to 32768 behind it (R27). -/
def sequenceOld (seq last : BitVec 16) : Bool := decide (seq = last) || decide (32768 ≤ (seq - last).toNat)

def classify (r : Receiver) (b : Beacon) : BeaconVerdict :=
  if foreignTo r.selection b.source then .foreign
  else if b.traceable = false then .untraceable
  else if r.selection = .acceptFirst none then .adoption
  else if r.seedPending = false ∧ b.discontinuity = false ∧ sequenceOld b.sequence r.lastSeq = true then .duplicate
  else if r.seedPending = true ∨ b.discontinuity = true then .seed
  else .usable

/-- The phase error: (beacon time + link delay) less the mark hub time, with every step since the mark added to it (R28). -/
def phaseError (r : Receiver) (m : Mark) (b : Beacon) : Int :=
  ((b.time + r.linkDelay : Nat) : Int) - (m.hub + r.adjusts.foldl (· + ·) 0)

/-- The Receiver's effect of a SEED: count, seed-pending cleared, last accepted sequence (R23). -/
def Receiver.takeSeed (b : Beacon) (r : Receiver) : Receiver :=
  { r with
    seedPending := false
    lastSeq := b.sequence
    stats := { r.stats with seed := saturate16 r.stats.seed } }

/-- The Receiver's effect of a USABLE beacon (R23). -/
def Receiver.takeUsable (b : Beacon) (r : Receiver) : Receiver :=
  { r with lastSeq := b.sequence, stats := { r.stats with usable := saturate16 r.stats.usable } }

/-- Adoption of the beacon's source id, with REFERENCE_CHANGED ADOPTED (R24). -/
def adopt (b : Beacon) (s : State) : State :=
  broadcast (.referenceChanged .adopted (.acceptFirst (some b.source)))
    { s with rx := { s.rx with selection := .acceptFirst (some b.source) } }

/-- The classification of a well-formed beacon and, for SEED and USABLE, its handling by the Discipline Unit (R23, R24, R29). -/
def takeBeacon (m : Mark) (e : Int) (b : Beacon) (s : State) : State :=
  match classify s.rx b with
  | .foreign => { s with rx := { s.rx with stats := { s.rx.stats with foreign := saturate16 s.rx.stats.foreign } } }
  | .untraceable =>
    { s with rx := { s.rx with stats := { s.rx.stats with untraceable := saturate16 s.rx.stats.untraceable } } }
  | .duplicate => { s with rx := { s.rx with stats := { s.rx.stats with duplicate := saturate16 s.rx.stats.duplicate } } }
  | .adoption =>
    let t := adopt b s
    handleBeacon .seed e m.tick { t with rx := t.rx.takeSeed b }
  | .seed => handleBeacon .seed e m.tick { s with rx := s.rx.takeSeed b }
  | .usable => handleBeacon .usable e m.tick { s with rx := s.rx.takeUsable b }

/-- The Receiver is back in IDLE, with the mark and the bytes gone. -/
def endAssembly (rest : List RxEvent) (s : State) : State :=
  { s with rx := { s.rx with assembly := .idle, adjusts := [], found := rest } }

/-- BEACON_END: the fifteenth character. The content is checked, the beacon classified and counted, and a SEED or USABLE one
handled by the Discipline Unit (R20, R23). -/
def execBeaconEnd (s : State) : Step :=
  match s.rx.assembly, s.rx.due with
  | .receiving m bytes _, .character c _ :: rest =>
    if bytes.length < 14 then .next s
    else
      let b := bytes ++ [c]
      if beaconContentOk b then
        .next (takeBeacon m (phaseError s.rx m (beaconOf b)) (beaconOf b) (endAssembly rest s))
      else .next (abandon rest s)
  | _, _ => .next s

/-! ### Steps during a beacon (R11, R18, R21) -/

/-- Add an applied amount to a mark's hub time. -/
def Mark.adjust (a : Int) (m : Mark) : Mark := { m with hub := m.hub + a }

/-- MARK_ADJUST: the oldest applied amount handed on since the mark is added to the mark hub time; the mark tick count stays
(R11, R21). Provisional values of a falling edge are adjusted likewise (R18). -/
def execMarkAdjust (s : State) : Step :=
  match s.rx.adjusts with
  | [] => .next s
  | a :: rest =>
    match s.rx.assembly with
    | .receiving m bytes last =>
      .next { s with rx := { s.rx with assembly := .receiving (m.adjust a) bytes last, adjusts := rest } }
    | .idle => .next { s with rx := { s.rx with provisional := s.rx.provisional.map (Mark.adjust a), adjusts := rest } }

/-! ### Requests (R31 to R34) -/

/-- READ_REFERENCE (R31). -/
def execReadReference (p : Port) (s : State) : Step :=
  takeRequest .readReference p (fun _ t => (t, accept (readReferenceBody t))) s

/-- The requested selection of a SET_REFERENCE body; the current one where the mode names none, which the field check
refuses. -/
def requestedSelection (body : List Byte) (current : Selection) : Selection :=
  (selectionOf (field body 1 1) (BitVec.ofNat 8 (field body 2 1))).getD current

/-- The Receiver's part of a changed selection (R32). -/
def changeSelection (x : Selection) (s : State) : State :=
  broadcast (.referenceChanged .selected x)
    { s with rx := { s.rx with selection := x, seedPending := true, stats := ⟨0, 0, 0, 0, 0, 0, 0⟩ } }

/-- The lock state that a changed selection leaves (R33). -/
def lockAfterSelection (x : Selection) (old : LockState) : LockState :=
  match x with
  | .fixed _ => if old = .free then .free else .acquire
  | .none => .free
  | .acceptFirst _ => .free

/-- The timer is restarted if it runs in the resulting lock state (R33). -/
def restartIfRunning (s : State) : State :=
  if s.disc.lock = .acquire ∨ s.disc.lock = .locked then restartTimer s else s

/-- The Discipline Unit's part of an accepted SET_REFERENCE (R33). -/
def disciplinePart (changed : Bool) (x : Selection) (s : State) : State :=
  if changed then restartIfRunning (zeroCounts (changeLock (lockAfterSelection x s.disc.lock) .selection s))
  else restartIfRunning s

/-- SET_REFERENCE whose checks have passed (R32). -/
def setReferenceRun (body : List Byte) (s : State) : State × Answer :=
  let x := requestedSelection body s.rx.selection
  let changed := decide (x ≠ s.rx.selection)
  let a := { s with rx := { s.rx with linkDelay := field body 3 4 } }
  let t := disciplinePart changed x (if changed then changeSelection x a else a)
  (t, accept ([t.rx.selection.modeCode, flagsByte [t.rx.selection.idInEffect.isSome, changed], idByte t.rx.selection] ++
    bytesOf 4 t.rx.linkDelay ++ [t.disc.lock.code]))

/-- SET_REFERENCE (R32). -/
def execSetReference (p : Port) (s : State) : Step := takeRequest .setReference p setReferenceRun s

/-- FLUSH_REFERENCE whose checks have passed: seed-pending is set, the counts are 0, LOCKED and HOLDOVER go to ACQUIRE (R34). -/
def flushReferenceRun (_body : List Byte) (s : State) : State × Answer :=
  let a := zeroCounts { s with rx := { s.rx with seedPending := true } }
  let t := if a.disc.lock = .locked ∨ a.disc.lock = .holdover then changeLock .acquire .flush a else a
  (t, accept [t.disc.lock.code])

/-- FLUSH_REFERENCE (R34). -/
def execFlushReference (p : Port) (s : State) : Step := takeRequest .flushReference p flushReferenceRun s

end Sys2Proof.Machine
end

