-- ==== Sys2Proof/Machine/Reset.lean ====
section
/-! DEFINITION. Hub reset, its release, and the end of the start-up hold (spec/13_pins_and_operating_conditions.md, R181). -/

namespace Sys2Proof.Machine

/-- Every block at its reset values. The levels on the input pins, the counter of free values and the waiting commands are
not the hub's to reset. -/
def resetBlocks (inReset : Bool) (s : State) : State :=
  { State.reset with
    pins := s.pins
    inReset := inReset
    freeCount := s.freeCount
    pending := s.pending }

/-- HUB_RESET: at power-on, or when RESETn has been sampled low on 125 consecutive periods (R192). -/
def execHubReset (cause : ResetCause) (s : State) : Step :=
  match cause with
  | .powerOn => .next (resetBlocks true s)
  | .resetPin => if 125 ≤ s.pins.resetnLow then .next (resetBlocks true s) else .next s

/-- RESET_RELEASE: a hub reset ends when RESETn is released; every block starts from its reset values and the start-up hold
begins (R193). -/
def execResetRelease (s : State) : Step :=
  if s.inReset = true ∧ s.pins.resetnLow = 0 then .next (resetBlocks false s) else .next s

/-- START_UP_HOLD_END: at uptime 5 the host ports begin to take frames (R181, R193). -/
def execStartUpHoldEnd (s : State) : Step :=
  if s.inReset = false ∧ 5 ≤ s.time.uptime.toNat then
    .next { s with ports := mapVec (fun x => { x with hold := false }) s.ports }
  else .next s

end Sys2Proof.Machine
end

