-- ==== Sys2Proof/Machine/Session.lean ====
section
/-! DEFINITION. The Session Unit's commands: ATTACH, DETACH and the hand-off of a step (spec/09_host_sessions_and_notices.md). -/

namespace Sys2Proof.Machine

/-- The Session Unit takes an ATTACH whose checks have passed: on an attached port it tears the old session down first; the
session number increments and the mask becomes the requested one (R156, R157). -/
def attachRun (p : Port) (body : List Byte) (s : State) : State × Answer :=
  let mask := maskOf body
  if s.sess[p].attached then
    let r := teardown p s
    (r.1.setSess p { r.1.sess[p] with number := r.1.sess[p].number + 1, mask := mask },
     accept (sessionBody mask true r.2))
  else
    (s.setSess p { s.sess[p] with attached := true, number := s.sess[p].number + 1, mask := mask },
     accept (sessionBody mask false ⟨0, 0, 0, false⟩))

/-- ATTACH (R156). -/
def execAttach (p : Port) (s : State) : Step := takeRequest .attach p (attachRun p) s

/-- The Session Unit takes a DETACH: teardown, then DETACHED; number and mask are kept (R158). -/
def detachRun (p : Port) (_body : List Byte) (s : State) : State × Answer :=
  let r := teardown p s
  (r.1.setSess p { r.1.sess[p] with attached := false }, accept (sessionBody r.1.sess[p].mask true r.2))

/-- DETACH (R158). -/
def execDetach (p : Port) (s : State) : Step := takeRequest .detach p (detachRun p) s

/-- STEP_HANDOFF_SESSION: the Session Unit takes the oldest hand-off and queues STEPPED to every attached port (R11). -/
def execStepHandoffSession (s : State) : Step :=
  match s.time.toSession with
  | [] => .next s
  | h :: rest =>
    .next (broadcast (.stepped h.epoch h.applied h.cause) { s with time := { s.time with toSession := rest } })

end Sys2Proof.Machine
end

