-- ==== Sys2Proof/Machine/Timebase.lean ====
section
/-! DEFINITION. The Timebase: the tick, the seconds wrap, the increment of uptime, READ_TIME and SET_TIME
(spec/01_hub_time.md). -/

namespace Sys2Proof.Machine

/-! ### The running advance (R4, R5, R6) -/

/-- The slew part of a tick in units of the fraction: 8 × slew limit with the sign of the remainder, or the whole remainder
where that is less (R5). -/
def slewPart (slew : Int) (limit : Nat) : Int :=
  if slew.natAbs < 8 * limit then slew else slew.sign * (8 * limit : Nat)

/-- Hub time after one tick's advance, in units of the fraction: the nominal part, the trim part and the slew part (R4). -/
def advancedUnits (s : State) : Nat :=
  ((s.time.hub.units : Int) + 8 * billion + 8 * s.time.trim + slewPart s.time.slew s.disc.params.slewLimit).toNat

/-- Insert a time into an ascending list without repetition. -/
def insertTime (t : Nat) (l : List Nat) : List Nat := if l.contains t then l else insertBy (fun a b => decide (a ≤ b)) t l

/-- The fire times that an advance from `old` to `new` units reaches, ascending and each once (R6, R106). -/
def reachedTimes (s : State) (old new : Nat) : List Nat :=
  ((s.slotsWhere fun e => decide (old < e.fireTime * billion ∧ e.fireTime * billion ≤ new)).map s.fireTime).foldr
    insertTime []

/-- The tick count after one more tick: one more, and past the last value of 64 bits a free value (R1). -/
def nextTickCount (s : State) : Nat :=
  if s.time.tickCount + 1 < 2 ^ 64 then s.time.tickCount + 1 else (Config.tickCountPastLast s.freeCount).toNat

/-- The counter of free values after a tick. -/
def freeCountAfterTick (s : State) : Nat :=
  if s.time.tickCount + 1 < 2 ^ 64 then s.freeCount else s.freeCount + 1

/-- The Timebase's part of a tick: the tick count, hub time and the slew remainder move, and the fire times reached wait for
their firings, whose notices report hub time at this tick and its epoch (R1, R4, R5, R6, R108; notes/assumptions/22.md). -/
def advanceTime (s : State) : State :=
  let u := advancedUnits s
  { s with
    time := { s.time with
      tickCount := nextTickCount s
      hub := HubTime.ofUnits u
      slew := s.time.slew - slewPart s.time.slew s.disc.params.slewLimit }
    cal := { s.cal with
      reached := s.cal.reached ++
        (reachedTimes s s.time.hub.units u).map fun t => ⟨t, (HubTime.ofUnits u).reported, s.time.epoch⟩ }
    freeCount := freeCountAfterTick s }

/-- Consecutive low samples of RESETn, up to 125 (R192). -/
def resetnCount (high : Bool) (n : Nat) : Nat := if high then 0 else min 125 (n + 1)

/-- The pins sampled on a tick outside reset: lines and RESETn. -/
def samplePins (x : PinSample) (s : State) : State :=
  { s with pins := { s.pins with lines := x.lines, resetnLow := resetnCount x.resetn s.pins.resetnLow } }

/-- The other blocks' part of a tick: pulses and release drives count down (R72, R76), REFIN is sampled (R17), every watched
line is sampled (R124), and the order of the records queued so far is settled (R131). -/
def tickBlocks (x : PinSample) (s : State) : State :=
  { s with
    lines := mapVec LineRecord.countDown s.lines
    rx := s.rx.sample x.refin s.time.tickCount s.time.hub.ns
    watch := rowOf (sampleLine x.lines s)
    caps := mapVec CapturePort.settleOrder s.caps }

/-- TICK (R4). During a hub reset only RESETn is sampled (R15, R192). -/
def execTick (x : PinSample) (s : State) : Step :=
  if s.inReset then
    .next { s with pins := { s.pins with resetnLow := resetnCount x.resetn s.pins.resetnLow } }
  else .next (tickBlocks x (samplePins x (advanceTime s)))

/-- SECONDS_WRAP: on the tick whose advance carried seconds past the range, the firings of that tick are taken and then the
step with cause WRAP (R9). -/
def execSecondsWrap (s : State) : Step :=
  if rangeNs ≤ s.time.hub.ns then
    let t := s.cal.reached.foldl takeFiring { s with cal := { s.cal with reached := [] } }
    .next (stepBy .wrap (-(rangeNs : Int)) t)
  else .next s

/-! ### Uptime (R2) -/

/-- The tick count has passed a whole multiple of 125,000 that uptime has not counted (R2). -/
def State.uptimeDue (s : State) : Bool := decide (s.time.uptime.toNat ≠ s.time.tickCount / 125000 % 4294967296)

/-- One ms passes for the Discipline Unit: the beacon timeout timer and, in HOLDOVER, holdover elapsed advance (R50, R52). -/
def Discipline.countMs (d : Discipline) : Discipline :=
  { d with
    timer := d.timer.advance d.params.beaconTimeout
    holdoverElapsed := if d.lock = .holdover then d.holdoverElapsed + 1 else d.holdoverElapsed
    holdoverDue := decide (d.lock = .holdover ∧ 1000 * d.params.holdoverLimit ≤ d.holdoverElapsed + 1) }

/-- UPTIME_INCREMENT: uptime increments, every lease counts down, the beacon timeout timer and holdover elapsed advance (R2,
R138). -/
def execUptimeIncrement (s : State) : Step :=
  if s.uptimeDue then
    .next { s with
      time := { s.time with uptime := s.time.uptime + 1 }
      leases := s.leases.map Lease.countDown
      disc := s.disc.countMs }
  else .next s

/-! ### Requests (R12, R13) -/

/-- READ_TIME (R12). -/
def execReadTime (p : Port) (s : State) : Step :=
  takeRequest .readTime p (fun _ t => (t, accept (readTimeBody t))) s

/-- SET_TIME whose general checks have passed: WRONG_STATE outside FREE, else a step to the given time (R13). -/
def setTimeRun (body : List Byte) (s : State) : State × Answer :=
  if s.disc.lock ≠ .free then (s, refuse .wrongState)
  else
    let given := timeField body 1
    let t := stepSet given s
    (t, accept (bytesOf 2 t.time.epoch.toNat ++ bytesOfInt 8 (setTimeAmount given s)))

/-- SET_TIME (R13). -/
def execSetTime (p : Port) (s : State) : Step := takeRequest .setTime p setTimeRun s

end Sys2Proof.Machine
end

