-- ==== Sys2Proof/Machine/Dispatch.lean ====
section
/-! DEFINITION. The meaning of every command: one arm for each row of spec/opcode_table.json. -/

namespace Sys2Proof.Machine

def exec (i : Instr) (s : State) : Host.Outcome State Fault Refusal :=
  match i with
  | .attach p => Sys2Proof.Machine.execAttach p s
  | .detach p => Sys2Proof.Machine.execDetach p s
  | .readTime p => Sys2Proof.Machine.execReadTime p s
  | .setTime p => Sys2Proof.Machine.execSetTime p s
  | .readReference p => Sys2Proof.Machine.execReadReference p s
  | .setReference p => Sys2Proof.Machine.execSetReference p s
  | .flushReference p => Sys2Proof.Machine.execFlushReference p s
  | .setDiscipline p => Sys2Proof.Machine.execSetDiscipline p s
  | .claimAuthority p => Sys2Proof.Machine.execClaimAuthority p s
  | .releaseAuthority p => Sys2Proof.Machine.execReleaseAuthority p s
  | .renew p => Sys2Proof.Machine.execRenew p s
  | .claimOutput p => Sys2Proof.Machine.execClaimOutput p s
  | .subscribeCapture p => Sys2Proof.Machine.execSubscribeCapture p s
  | .releaseLine p => Sys2Proof.Machine.execReleaseLine p s
  | .readLines p => Sys2Proof.Machine.execReadLines p s
  | .schedule p => Sys2Proof.Machine.execSchedule p s
  | .cancel p => Sys2Proof.Machine.execCancel p s
  | .readEntry p => Sys2Proof.Machine.execReadEntry p s
  | .listEntries p => Sys2Proof.Machine.execListEntries p s
  | .setQuota p => Sys2Proof.Machine.execSetQuota p s
  | .readQuotas p => Sys2Proof.Machine.execReadQuotas p s
  | .frameBegin p => Sys2Proof.Machine.execFrameBegin p s
  | .statusRead p => Sys2Proof.Machine.execStatusRead p s
  | .requestFrameEnd p bytes partBits => Sys2Proof.Machine.execRequestFrameEnd p bytes partBits s
  | .replyFix p => Sys2Proof.Machine.execReplyFix p s
  | .collectReplyEnd p whole => Sys2Proof.Machine.execCollectReplyEnd p whole s
  | .batchFix p q m => Sys2Proof.Machine.execBatchFix p q m s
  | .collectNoticesEnd p whole => Sys2Proof.Machine.execCollectNoticesEnd p whole s
  | .collectCapturesEnd p whole => Sys2Proof.Machine.execCollectCapturesEnd p whole s
  | .unknownKind p kind => Sys2Proof.Machine.execUnknownKind p kind s
  | .startUpHoldEnd => Sys2Proof.Machine.execStartUpHoldEnd s
  | .hubReset cause => Sys2Proof.Machine.execHubReset cause s
  | .resetRelease => Sys2Proof.Machine.execResetRelease s
  | .tick pins => Sys2Proof.Machine.execTick pins s
  | .secondsWrap => Sys2Proof.Machine.execSecondsWrap s
  | .uptimeIncrement => Sys2Proof.Machine.execUptimeIncrement s
  | .outputLeaseExpiry l => Sys2Proof.Machine.execOutputLeaseExpiry l s
  | .subscriptionLeaseExpiry l p => Sys2Proof.Machine.execSubscriptionLeaseExpiry l p s
  | .authorityLeaseExpiry => Sys2Proof.Machine.execAuthorityLeaseExpiry s
  | .beaconTimeoutExpiry => Sys2Proof.Machine.execBeaconTimeoutExpiry s
  | .holdoverLimitReached => Sys2Proof.Machine.execHoldoverLimitReached s
  | .stepHandoffSession => Sys2Proof.Machine.execStepHandoffSession s
  | .markAdjust => Sys2Proof.Machine.execMarkAdjust s
  | .stepHandling => Sys2Proof.Machine.execStepHandling s
  | .firing => Sys2Proof.Machine.execFiring s
  | .pulseEnd l => Sys2Proof.Machine.execPulseEnd l s
  | .releaseDriveEnd l => Sys2Proof.Machine.execReleaseDriveEnd l s
  | .beaconMark => Sys2Proof.Machine.execBeaconMark s
  | .beaconAbandoned => Sys2Proof.Machine.execBeaconAbandoned s
  | .gapExpiry => Sys2Proof.Machine.execGapExpiry s
  | .beaconEnd => Sys2Proof.Machine.execBeaconEnd s
  | .edgeStamped l => Sys2Proof.Machine.execEdgeStamped l s
  | .characterCompleted => Sys2Proof.Machine.execCharacterCompleted s

end Sys2Proof.Machine
end

