-- ==== Sys2Proof/Safety.lean ====
section
/-! DEFINITION. The words the statements use: when a request is taken and how it is answered, what the release of an output is,
and the invariants that a safe run keeps. -/

namespace Sys2Proof.Machine

/-! ### Requests -/

/-- The request kind and the port of a request command. -/
def requestCommand : Instr → Option (RequestKind × Port)
  | .attach p => some (.attach, p)
  | .detach p => some (.detach, p)
  | .readTime p => some (.readTime, p)
  | .setTime p => some (.setTime, p)
  | .readReference p => some (.readReference, p)
  | .setReference p => some (.setReference, p)
  | .flushReference p => some (.flushReference, p)
  | .setDiscipline p => some (.setDiscipline, p)
  | .claimAuthority p => some (.claimAuthority, p)
  | .releaseAuthority p => some (.releaseAuthority, p)
  | .renew p => some (.renew, p)
  | .claimOutput p => some (.claimOutput, p)
  | .subscribeCapture p => some (.subscribeCapture, p)
  | .releaseLine p => some (.releaseLine, p)
  | .readLines p => some (.readLines, p)
  | .schedule p => some (.schedule, p)
  | .cancel p => some (.cancel, p)
  | .readEntry p => some (.readEntry, p)
  | .listEntries p => some (.listEntries, p)
  | .setQuota p => some (.setQuota, p)
  | .readQuotas p => some (.readQuotas, p)
  | _ => none

/-- A request of kind `k` with this body waits on the path of port `p` (R175). -/
abbrev InFlight (k : RequestKind) (p : Port) (body : List Byte) (s : State) : Prop :=
  s.ports[p].state = .working body ∧ requestOf body = some k

/-- The request passes the general checks 2 to 4 (R176). -/
abbrev Admitted (k : RequestKind) (p : Port) (body : List Byte) (s : State) : Prop :=
  InFlight k p body s ∧ (k ≠ .attach → s.sess[p].attached = true) ∧ (k.gated = true → s.authority = some p) ∧
    fieldsOk k body = true

/-- The state with this reply in the reply slot of `p`, which is then ANSWERED (R169). -/
def withReply (p : Port) (reply : List Byte) (s : State) : State :=
  { s with ports := s.ports.set p { s.ports[p] with state := .answered reply } }

/-- Every port's session after a notice to every attached port (R162). -/
def toAll (b : NoticeBody) (s : State) : Vector Session 4 := mapVec (Session.push ⟨b, s.time.uptime⟩) s.sess

/-- Every port's session after a notice to the port `p`. -/
def toOne (p : Port) (b : NoticeBody) (s : State) : Vector Session 4 :=
  s.sess.set p (s.sess[p].push ⟨b, s.time.uptime⟩)

/-! ### The release of an output (R75) -/

/-- The slot holds an entry of `p` on the line `l`. -/
def ownedOn (p : Port) (l : LineNo) (x : Slot) : Bool :=
  match x.entry with
  | some e => decide (e.owner = p ∧ e.line = l)
  | none => false

/-- A slot whose entry has been removed (R84). -/
def freedSlot (x : Slot) : Slot := ⟨x.generation + 1, none⟩

/-- `t` is `s` after the release of the output `o` on the line `l`, with `n` entries cancelled, sessions and host ports
apart (R75, R84, R102). -/
def Released (l : LineNo) (o : OutputLine) (s t : State) (n : Nat) : Prop :=
  t.lines = s.lines.set l (.unassigned (some ⟨o.releaseLevel, 16⟩)) ∧
  t.cal.slots = mapVec (fun x => if ownedOn o.holder l x then freedSlot x else x) s.cal.slots ∧
  n = (allSlots.filter fun i => ownedOn o.holder l s.cal.slots[i]).length ∧
  t.cal.count = s.cal.count.set o.holder (s.cal.count[o.holder] - n) ∧
  t.cal.quota = s.cal.quota ∧ t.cal.reached = s.cal.reached ∧
  t.leases = s.leases.filter (fun x => !decide (x.resource = .line l ∧ x.holder = o.holder)) ∧
  t.time = s.time ∧ t.rx = s.rx ∧ t.disc = s.disc ∧ t.watch = s.watch ∧ t.caps = s.caps ∧
  t.authority = s.authority ∧ t.pins = s.pins ∧ t.inReset = s.inReset ∧ t.freeCount = s.freeCount ∧
  t.pending = s.pending

/-! ### Entries -/

/-- `e` is the entry that a SCHEDULE body of the port `p` asks for, field by field from its bytes (R94, R186). -/
def Requested (p : Port) (body : List Byte) (e : Entry) : Prop :=
  let presence := body.getD 5 0#8
  let policies := body.getD 6 0#8
  let afterWidth := 15 + 4 * (presence.getLsbD 0).toNat
  e.owner = p ∧ e.line.val = field body 3 1 ∧
  e.action = (match field body 4 1 with
    | 1 => .driveHigh
    | 2 => .driveLow
    | 3 => .toggle
    | _ => .pulse ((field body 15 4 + 7) / 8)) ∧
  e.fireTime = field body 7 4 * 1000000000 + field body 11 4 ∧
  e.repetition = (if presence.getLsbD 1 then
      .periodic (field body afterWidth 4) (if presence.getLsbD 2 then some (field body (afterWidth + 4) 2) else none)
    else .oneShot) ∧
  e.latePolicy = (if policies.getLsbD 0 then .fireLate else .discard) ∧
  e.stepPolicy = (if policies.getLsbD 2 then .keep else .void) ∧
  e.notify = policies.getLsbD 5

/-- `t` is an occurrence of the grid that starts at `f` with period `n` and remaining count `c`, if there is one (R86). -/
def Occurs (f n : Nat) (c : Option Nat) (t : Nat) : Prop :=
  ∃ k : Nat, t = f + k * n ∧ (∀ m, c = some m → k < m) ∧ t < 4294967296000000000

/-- Two entries that one line cannot hold together (R92). -/
def Collide (e x : Entry) : Prop :=
  match e.repetition, x.repetition with
  | .oneShot, .oneShot => x.fireTime = e.fireTime
  | .oneShot, .periodic n c => Occurs x.fireTime n c e.fireTime
  | .periodic _ _, .periodic _ _ => True
  | .periodic n c, .oneShot => Occurs e.fireTime n c x.fireTime

/-- The slots whose entry in `s` is owned by `p` and is gone in `t`. -/
def endedSlots (p : Port) (s t : State) : List SlotNo :=
  (s.slotsWhere fun e => decide (e.owner = p)).filter fun i => t.cal.slots[i].entry.isNone

/-! ### Invariants -/

/-- The notice queues (R163, R164): at most 16 notices; a batch of at most 8 that are queued; a late-loss mark only with a
full queue; a loss flag only with 8 or more; nothing on a DETACHED port. -/
structure NoticeQueueOk (x : Session) : Prop where
  bound    : x.queue.length ≤ 16
  batch    : ∀ b, x.batch = some b → b.fixed ≤ 8 ∧ b.fixed ≤ x.queue.length ∧ (b.late = true → x.queue.length = 16)
  loss     : x.loss = true → 8 ≤ x.queue.length
  detached : x.attached = false → x.queue = [] ∧ x.loss = false

/-- The capture queues (R130, R132): at most 32 records, a lost count of at most 255, a batch of 1 to 8 that are queued, and
none of them among the records whose order may still be drawn. -/
structure CaptureQueueOk (x : CapturePort) : Prop where
  bound : x.queue.length ≤ 32
  lost  : x.lost ≤ 255
  batch : ∀ n, x.batch = some n → 1 ≤ n ∧ n ≤ 8 ∧ n ≤ x.queue.length
  fresh : x.batch.getD 0 + x.fresh ≤ x.queue.length

def QueuesOk (s : State) : Prop :=
  (∀ p : Port, NoticeQueueOk s.sess[p]) ∧ (∀ p : Port, CaptureQueueOk s.caps[p])

/-- The Timebase and the parameters within their ranges (R3, R5, R7, R55). -/
structure TimeOk (s : State) : Prop where
  nanoseconds : s.time.hub.nanoseconds < 1000000000
  fraction    : s.time.hub.fraction < 1000000000
  trimLow     : -100000 ≤ s.time.trim
  trimHigh    : s.time.trim ≤ 100000
  slew        : s.time.slew.natAbs ≤ 1000000000 * 1000000000
  params      : s.disc.params.inRange = true

/-- The number of entries that a port owns. -/
def ownedCount (s : State) (p : Port) : Nat := (s.slotsWhere fun e => decide (e.owner = p)).length

/-- Quotas and entry counts (R87): the quotas sum to at most 64, each count is the number of entries owned and lies within
the quota. -/
structure QuotaOk (s : State) : Prop where
  sum   : sumPorts s.cal.quota ≤ 64
  count : ∀ p : Port, s.cal.count[p] = ownedCount s p
  quota : ∀ p : Port, s.cal.count[p] ≤ s.cal.quota[p]

/-- The fields of an entry within their ranges (R82). -/
structure EntryOk (e : Entry) : Prop where
  fireTime : e.fireTime < 4294967296000000000
  width    : ∀ w, e.action = .pulse w → 1 ≤ w ∧ w ≤ 125000000
  period   : ∀ n c, e.repetition = .periodic n c → 1000 ≤ n ∧ n ≤ 4000000000
  count    : ∀ n m, e.repetition = .periodic n (some m) → 1 ≤ m ∧ m ≤ 65535

/-- The calendar (R82, R92): every entry's fields are in range, and two entries of one line have different fire times and do not
collide, so that at most one of them is periodic and no one-shot lies on its grid. -/
structure CalendarOk (s : State) : Prop where
  fields : ∀ (i : SlotNo) (e : Entry), s.cal.slots[i].entry = some e → EntryOk e
  apart  : ∀ (i j : SlotNo) (x y : Entry), s.cal.slots[i].entry = some x → s.cal.slots[j].entry = some y → i ≠ j →
    x.line = y.line → x.fireTime ≠ y.fireTime ∧ ¬ Collide x y

/-- One line record against the sessions (R60): only attached ports hold or subscribe, subscribers are not repeated and not
none. -/
def LineOk (s : State) (x : LineRecord) : Prop :=
  match x with
  | .unassigned _ => True
  | .output o => s.sess[o.holder].attached = true
  | .capture c => c.subscribers ≠ [] ∧ c.subscribers.Nodup ∧ ∀ p ∈ c.subscribers, s.sess[p].attached = true

/-- The line is in CAPTURE mode. -/
def LineRecord.isCapture : LineRecord → Bool
  | .capture _ => true
  | .unassigned _ => false
  | .output _ => false

/-- The holding that a lease belongs to exists: an output, a subscription or the token of its holder (R137). -/
def leaseOk (s : State) (x : Lease) : Bool :=
  match x.resource, x.kind with
  | .line l, .output => s.holds x.holder l
  | .line l, .subscription => s.subscribes x.holder l
  | .authority, .authority => decide (s.authority = some x.holder)
  | _, _ => false

/-- Holdings (R60, R89, R123, R137, R148): lines, entries, leases and the token are held by attached ports only; a lease belongs
to a holding, every holding and the token have one lease; an entry's owner holds its line in OUTPUT mode; a line is watched
exactly in CAPTURE mode. -/
structure HoldingsOk (s : State) : Prop where
  lines     : ∀ l : LineNo, LineOk s s.lines[l]
  entries   : ∀ (i : SlotNo) (e : Entry), s.cal.slots[i].entry = some e → s.holds e.owner e.line = true
  leases    : ∀ x ∈ s.leases, s.sess[x.holder].attached = true
  leased    : ∀ x ∈ s.leases, leaseOk s x = true
  single    : s.leases.Pairwise fun x y => ¬ (x.resource = y.resource ∧ x.holder = y.holder)
  lineLease : ∀ (l : LineNo) (p : Port), s.holds p l = true ∨ s.subscribes p l = true →
    ∃ x ∈ s.leases, x.resource = .line l ∧ x.holder = p
  token     : ∀ p : Port, s.authority = some p → ∃ x ∈ s.leases, x.resource = .authority ∧ x.holder = p
  authority : ∀ p, s.authority = some p → s.sess[p].attached = true
  watch     : ∀ l : LineNo, s.watch[l].isSome = (s.lines[l]).isCapture

/-- The timer runs. -/
def Timer.isRunning : Timer → Bool
  | .running _ _ => true
  | .stopped => false

/-- The lock state (R22, R38, R43, R50): outside FREE a source id is in effect; in FREE seed-pending is set; the timer runs
exactly in ACQUIRE and LOCKED; the in-window count is 0 outside ACQUIRE and the outlier count outside LOCKED. -/
structure LockOk (s : State) : Prop where
  source   : s.disc.lock ≠ .free → s.rx.selection.idInEffect.isSome = true
  seed     : s.disc.lock = .free → s.rx.seedPending = true
  timer    : s.disc.timer.isRunning = true ↔ (s.disc.lock = .acquire ∨ s.disc.lock = .locked)
  inWindow : s.disc.lock ≠ .acquire → s.disc.inWindow = 0
  outliers : s.disc.lock ≠ .locked → s.disc.outliers = 0

end Sys2Proof.Machine
end

