-- ==== Sys2Proof/Certificates/Slice0/Obligations.lean ====
section
/-! DEFINITION. The statements about the VH416 model, for the provers. Each docstring names the rule or section it formalises
and, where a choice is the model's own, the log entry. -/

open Sys2Proof Sys2Proof.Machine

/-! ### The queue of commands -/

/-- The model's own step (notes/assumptions/1.md): the front command runs on the state with the queue's rest; an empty queue
idles. -/
def Obligations.StepRunsTheFrontCommand : Prop :=
  (∀ (c : Instr) (rest : List Instr) (s : State), s.pending = c :: rest → step s = exec c { s with pending := rest }) ∧
  (∀ s : State, s.pending = [] → step s = .next s)

/-- The model's own (notes/assumptions/1.md): no command touches the queue of waiting commands. -/
def Obligations.CommandsLeaveTheQueueAlone : Prop :=
  ∀ (c : Instr) (s t : State), exec c s = .next t → t.pending = s.pending

/-! ### Requests at large -/

/-- Sections 8.6, 10.3, 10.4 and 11.4 (R151, R175, R176, R186). A request command takes only a request of its own kind in flight on its port
(notes/assumptions/2.md); a request is refused NOT_ATTACHED, then NO_AUTHORITY, then BAD_FIELD, and a refusal changes nothing
but the reply slot. The field check of each kind is spelt out by the bytes of the body, offsets from the kind byte; those of
SET_DISCIPLINE and SCHEDULE are in SetDisciplineReplacesAllEight and ScheduleFieldsAreChecked. -/
def Obligations.RequestsPassTheGeneralChecks : Prop :=
  (∀ (c : Instr) (k : RequestKind) (p : Port) (s : State), requestCommand c = some (k, p) →
    ((∀ body, ¬ InFlight k p body s) → exec c s = .next s) ∧
    (∀ body, InFlight k p body s →
      (k ≠ .attach → s.sess[p].attached = false →
        exec c s = .next (withReply p [k.code, 0x02#8, s.sess[p].number] s)) ∧
      ((k ≠ .attach → s.sess[p].attached = true) → k.gated = true → s.authority ≠ some p →
        exec c s = .next (withReply p [k.code, 0x03#8, s.sess[p].number] s)) ∧
      ((k ≠ .attach → s.sess[p].attached = true) → (k.gated = true → s.authority = some p) → fieldsOk k body = false →
        exec c s = .next (withReply p [k.code, 0x04#8, s.sess[p].number] s)))) ∧
  (∀ k : RequestKind, k.gated = true ↔
    k = .setTime ∨ k = .setReference ∨ k = .flushReference ∨ k = .setDiscipline ∨ k = .setQuota) ∧
  (∀ (k : RequestKind) (body : List Byte), k ≠ .setDiscipline → k ≠ .schedule →
    let lease (n : Nat) : Prop := 10 ≤ n ∧ n ≤ 65535
    (fieldsOk k body = true ↔ match k with
      | .attach => body.getD 1 0#8 &&& 0xF8#8 = 0#8
      | .setTime => field body 5 4 ≤ 999999999
      | .setReference => field body 1 1 ≤ 2 ∧ field body 3 4 ≤ 1000000
      | .claimAuthority => lease (field body 1 2)
      | .renew => lease (field body 1 2) ∧ 1 ≤ field body 3 1 ∧ field body 3 1 ≤ 17 ∧ ∀ b ∈ body.drop 4, b.toNat ≤ 16
      | .claimOutput => field body 1 1 ≤ 15 ∧ lease (field body 2 2) ∧ field body 4 1 ≤ 1 ∧ field body 5 1 ≤ 1
      | .subscribeCapture => field body 1 1 ≤ 15 ∧ lease (field body 2 2) ∧ 1 ≤ field body 4 1 ∧ field body 4 1 ≤ 3 ∧
          field body 5 4 ≤ 1000000
      | .releaseLine => field body 1 1 ≤ 15
      | .cancel => field body 1 1 ≤ 63
      | .readEntry => field body 1 1 ≤ 63
      | .setQuota => field body 1 1 ≤ 3 ∧ field body 2 1 ≤ 64
      | _ => True))

/-! ### Sessions -/

/-- Section 9.1 (R156, R157): ATTACH on a DETACHED port, and on an ATTACHED one, where the teardown comes first. The bits of the
flags byte that the format does not name are 0 (notes/assumptions/25.md). -/
def Obligations.AttachBeginsASession : Prop :=
  ∀ (p : Port) (body : List Byte) (s : State), Admitted .attach p body s →
    let m := body.getD 1 0#8
    let mask : AlertMask := ⟨m.getLsbD 0, m.getLsbD 1, m.getLsbD 2⟩
    (s.sess[p].attached = false →
      exec (.attach p) s = .next (withReply p [0x01#8, 0x00#8, s.sess[p].number + 1, m, 0#8, 0#8, 0#8, 0#8]
        { s with
          sess := s.sess.set p { s.sess[p] with attached := true, number := s.sess[p].number + 1, mask := mask } })) ∧
    (s.sess[p].attached = true →
      let t := (teardown p s).1
      let n := (teardown p s).2
      exec (.attach p) s = .next (withReply p
        ([0x01#8, 0x00#8, s.sess[p].number + 1, m, (if s.authority = some p then 3#8 else 1#8)] ++
          bytesOf 1 n.lines ++ bytesOf 1 n.subscriptions ++ bytesOf 1 n.entries)
        { t with sess := t.sess.set p ⟨true, s.sess[p].number + 1, mask, [], false, none⟩ }))

/-- Section 9.1 (R158): DETACH of an attached port tears it down and makes it DETACHED; number and mask are kept. R158
does not list the flag "teardown performed": that it is 1 in the reply is the model's reading (DEDUCED,
notes/assumptions/16.md), and that the unnamed bits of the flags byte are 0 is its choice (notes/assumptions/25.md). -/
def Obligations.DetachTearsThePortDown : Prop :=
  ∀ (p : Port) (body : List Byte) (s : State), Admitted .detach p body s →
    let t := (teardown p s).1
    let n := (teardown p s).2
    let x := s.sess[p]
    exec (.detach p) s = .next (withReply p
      ([0x02#8, 0x00#8, x.number,
        BitVec.ofNat 8 (x.mask.notices.toNat + 2 * x.mask.captures.toNat + 4 * x.mask.reply.toNat),
        (if s.authority = some p then 3#8 else 1#8)] ++
        bytesOf 1 n.lines ++ bytesOf 1 n.subscriptions ++ bytesOf 1 n.entries)
      { t with sess := t.sess.set p ⟨false, x.number, x.mask, [], false, none⟩ })

/-- Section 9.2 (R160): what a teardown takes from the port and hands back as counts (R78, R103), and what it
leaves to the others. -/
def Obligations.TeardownClearsThePort : Prop :=
  ∀ (p : Port) (s : State),
    let t := (teardown p s).1
    let n := (teardown p s).2
    (n.lines = (allLines.filter fun l => s.holds p l).length ∧
      n.subscriptions = (allLines.filter fun l => s.subscribes p l).length ∧
      n.entries = ownedCount s p ∧ n.authority = decide (s.authority = some p)) ∧
    (∀ l : LineNo, t.lines[l] =
      match s.lines[l] with
      | .unassigned d => .unassigned d
      | .output o => if o.holder = p then .unassigned (some ⟨o.releaseLevel, 16⟩) else .output o
      | .capture c =>
        if p ∈ c.subscribers then
          (if (c.subscribers.filter (· ≠ p)) = [] then .unassigned none
           else .capture { c with subscribers := c.subscribers.filter (· ≠ p) })
        else .capture c) ∧
    (∀ l : LineNo, t.watch[l] =
      match s.lines[l] with
      | .capture c => if p ∈ c.subscribers ∧ c.subscribers.filter (· ≠ p) = [] then none else s.watch[l]
      | _ => s.watch[l]) ∧
    (∀ i : SlotNo, t.cal.slots[i] =
      match s.cal.slots[i].entry with
      | some e => if e.owner = p then freedSlot s.cal.slots[i] else s.cal.slots[i]
      | none => s.cal.slots[i]) ∧
    t.cal.quota = s.cal.quota ∧ t.cal.reached = s.cal.reached ∧
    t.cal.count = s.cal.count.set p (s.cal.count[p] - ownedCount s p) ∧
    t.leases = s.leases.filter (fun x => decide (x.holder ≠ p)) ∧
    t.authority = (if s.authority = some p then none else s.authority) ∧
    t.caps = s.caps.set p ⟨[], 0, none, 0⟩ ∧
    t.sess[p] = { s.sess[p] with queue := [], loss := false, batch := none } ∧
    (∀ q : Port, q ≠ p → t.sess[q] =
      if s.authority = some p then s.sess[q].push ⟨.authorityChanged (some p) none .teardown 0, s.time.uptime⟩
      else s.sess[q]) ∧
    t.ports = s.ports ∧ t.time = s.time ∧ t.rx = s.rx ∧ t.disc = s.disc ∧ t.pins = s.pins ∧
    t.inReset = s.inReset ∧ t.freeCount = s.freeCount

/-! ### Reading requests -/

/-- Sections 1.8, 2.9 and 11.5 (R12, R31): READ_TIME and READ_REFERENCE change nothing but the reply slot, and the reply carries
every field in its place. Between the TICK that carries past the range of hub time and its SECONDS_WRAP, READ_TIME reports the
last value of the range, which is the model's reading (DEDUCED, notes/assumptions/9.md). The bits of a flags byte that the
format does not name are 0 (notes/assumptions/25.md). -/
def Obligations.TimeAndReferenceAreReported : Prop :=
  ∀ (p : Port) (body : List Byte) (s : State),
    (Admitted .readTime p body s →
      let now := if s.time.hub.ns < 4294967296000000000 then s.time.hub.ns else 4294967295999999999
      exec (.readTime p) s = .next (withReply p
        ([0x10#8, 0x00#8, s.sess[p].number] ++
          bytesOf 4 (now / 1000000000) ++ bytesOf 4 (now % 1000000000) ++
          bytesOf 2 s.time.epoch.toNat ++ bytesOf 4 s.time.uptime.toNat ++ [s.disc.lock.code] ++
          [if s.time.trimLimit then 1#8 else 0#8] ++ bytesOfInt 4 s.time.trim ++
          bytesOfInt 8 (Int.tdiv s.time.slew 1000000000) ++ bytesOfInt 8 s.disc.lastError ++
          bytesOf 4 (s.disc.holdoverElapsed / 1000)) s)) ∧
    (Admitted .readReference p body s →
      let x := s.disc.params
      let n := s.rx.stats
      exec (.readReference p) s = .next (withReply p
        ([0x20#8, 0x00#8, s.sess[p].number, s.rx.selection.modeCode,
          BitVec.ofNat 8 (s.rx.selection.idInEffect.isSome.toNat + 2 * s.rx.seedPending.toNat),
          s.rx.selection.idInEffect.getD 0#8] ++
          bytesOf 4 s.rx.linkDelay ++ bytesOf 2 s.rx.lastSeq.toNat ++ [s.disc.lock.code] ++
          bytesOf 1 s.disc.inWindow ++ bytesOf 1 s.disc.outliers ++
          bytesOf 4 x.lockWindow ++ bytesOf 4 x.stepThreshold ++ bytesOf 1 x.lockCount ++ bytesOf 1 x.unlockCount ++
          bytesOf 2 x.beaconTimeout ++ bytesOf 4 x.holdoverLimit ++ bytesOf 4 x.slewLimit ++ bytesOf 1 x.gainShift ++
          bytesOf 2 n.usable ++ bytesOf 2 n.seed ++ bytesOf 2 n.outlier ++ bytesOf 2 n.malformed ++
          bytesOf 2 n.foreign ++ bytesOf 2 n.untraceable ++ bytesOf 2 n.duplicate) s))

/-- Sections 4.6 and 11.5 (R80): READ_LINES changes nothing but the reply slot and reports six bytes for each line, in line
order. The level of a pin that the hub does not drive is the one last sampled, at a tick or at a capture grant (R66,
notes/assumptions/7.md); the bits of the flags byte that the format does not name are 0 (notes/assumptions/25.md). A lease that has
reached 0 ms and has not yet expired is shown as present with 0 ms, which is the model's reading (DEDUCED,
notes/assumptions/28.md). -/
def Obligations.LinesAreReported : Prop :=
  ∀ (p : Port) (body : List Byte) (s : State), Admitted .readLines p body s →
    ∃ reply : List Byte, exec (.readLines p) s = .next (withReply p reply s) ∧
      reply.take 3 = [0x43#8, 0x00#8, s.sess[p].number] ∧ reply.length = 99 ∧
      ∀ l : LineNo,
        let own := s.leases.find? fun x => decide (x.resource = .line l ∧ x.holder = p)
        let leased := 8 * own.isSome.toNat
        let board := (s.pins.lines.getLsbD l).toNat
        (reply.drop (3 + 6 * l.val)).take 6 =
          (match s.lines[l] with
          | .unassigned none => [0#8, 0#8, BitVec.ofNat 8 (board + leased), 0#8]
          | .unassigned (some d) => [0#8, 0#8, BitVec.ofNat 8 (d.level.isHigh.toNat + leased), 0#8]
          | .output o => [1#8, BitVec.ofNat 8 (2 ^ o.holder.val),
              BitVec.ofNat 8 (o.level.isHigh.toNat + 2 * o.releaseLevel.isHigh.toNat + 4 * o.pulse.isSome.toNat + leased),
              0#8]
          | .capture c => [2#8,
              BitVec.ofNat 8 ((c.subscribers.contains 0).toNat + 2 * (c.subscribers.contains 1).toNat +
                4 * (c.subscribers.contains 2).toNat + 8 * (c.subscribers.contains 3).toNat),
              BitVec.ofNat 8 (board + leased), c.selection.code]) ++
          bytesOf 2 ((own.map fun x => x.remaining).getD 0)

/-- Section 5.5 (R98): LIST_ENTRIES changes nothing but the reply slot and reports the handles of the requester's entries, each
once, in ascending order of fire time and, among equal ones, of slot number. -/
def Obligations.OwnEntriesAreListed : Prop :=
  ∀ (p : Port) (body : List Byte) (s : State), Admitted .listEntries p body s →
    ∃ l : List SlotNo,
      exec (.listEntries p) s = .next (withReply p
        ([0x53#8, 0x00#8, s.sess[p].number] ++ bytesOf 1 l.length ++
          l.flatMap fun i => [BitVec.ofNat 8 i.val, s.cal.slots[i].generation]) s) ∧
      (∀ i : SlotNo, i ∈ l ↔ ∃ e, s.cal.slots[i].entry = some e ∧ e.owner = p) ∧
      l.Pairwise fun a b => s.fireTime a < s.fireTime b ∨ (s.fireTime a = s.fireTime b ∧ a < b)

/-- Section 5.6 (R99, R101): SET_QUOTA with its checks in order, and READ_QUOTAS. -/
def Obligations.QuotasAreSetAndReported : Prop :=
  ∀ (p : Port) (body : List Byte) (s : State),
    (Admitted .setQuota p body s → ∀ q : Port, field body 1 1 = q.val →
      let n := field body 2 1
      let v := s.cal.quota.set q n
      (64 < v[0] + v[1] + v[2] + v[3] →
        exec (.setQuota p) s = .next (withReply p [0x54#8, 0x04#8, s.sess[p].number] s)) ∧
      (v[0] + v[1] + v[2] + v[3] ≤ 64 → n < s.cal.count[q] →
        exec (.setQuota p) s = .next (withReply p [0x54#8, 0x07#8, s.sess[p].number] s)) ∧
      (v[0] + v[1] + v[2] + v[3] ≤ 64 → s.cal.count[q] ≤ n →
        exec (.setQuota p) s = .next (withReply p
          ([0x54#8, 0x00#8, s.sess[p].number] ++ bytesOf 1 v[0] ++ bytesOf 1 v[1] ++ bytesOf 1 v[2] ++ bytesOf 1 v[3])
          { s with cal := { s.cal with quota := v } }))) ∧
    (Admitted .readQuotas p body s →
      let q := s.cal.quota
      let n := s.cal.count
      exec (.readQuotas p) s = .next (withReply p
        ([0x55#8, 0x00#8, s.sess[p].number] ++ bytesOf 1 q[0] ++ bytesOf 1 q[1] ++ bytesOf 1 q[2] ++ bytesOf 1 q[3] ++
          bytesOf 1 n[0] ++ bytesOf 1 n[1] ++ bytesOf 1 n[2] ++ bytesOf 1 n[3] ++
          bytesOf 1 (64 - (n[0] + n[1] + n[2] + n[3]))) s))

/-! ### Settings -/

/-- Section 1.9 (R13): SET_TIME in FREE is a step to exactly the given time, handed on to the Session Unit, the Calendar and
the Receiver; outside FREE it is refused with WRONG_STATE. The applied amount is measured from hub time as it stands, also between
the TICK that carries past the range and its SECONDS_WRAP, which is the model's reading (DEDUCED, notes/assumptions/23.md). -/
def Obligations.SetTimeStepsHubTime : Prop :=
  ∀ (p : Port) (body : List Byte) (s : State), Admitted .setTime p body s →
    let new : HubTime := ⟨field body 1 4, field body 5 4, 0⟩
    let applied := Int.tdiv ((new.units : Int) - (s.time.hub.units : Int)) 1000000000
    let handoff : StepHandoff := ⟨new, applied, direction s.time.hub new, s.time.epoch + 1, .setTime⟩
    (s.disc.lock ≠ .free → exec (.setTime p) s = .next (withReply p [0x11#8, 0x0D#8, s.sess[p].number] s)) ∧
    (s.disc.lock = .free →
      exec (.setTime p) s = .next (withReply p
        ([0x11#8, 0x00#8, s.sess[p].number] ++ bytesOf 2 (s.time.epoch + 1).toNat ++ bytesOfInt 8 applied)
        { s with
          time := { s.time with
            hub := new
            slew := 0
            epoch := s.time.epoch + 1
            toSession := s.time.toSession ++ [handoff]
            toCalendar := s.time.toCalendar ++ [handoff] }
          rx := { s.rx with adjusts := if s.rx.hasMark then s.rx.adjusts ++ [applied] else s.rx.adjusts }
          cal := { s.cal with reached := s.cal.reached.filter fun r => decide (r.fireTime ≤ new.ns) } }))

/-- Section 2.10 (R32, R33): SET_REFERENCE. With an equal selection only the link delay of the Receiver changes, and the beacon
timeout is restarted where it runs. With a changed one the statistics are zeroed, seed-pending is set, REFERENCE_CHANGED SELECTED
goes out, and the Discipline Unit takes its part with its LOCK_CHANGED. The bits of the reply's flags byte that the format does
not name are 0 (notes/assumptions/25.md). -/
def Obligations.SetReferenceTakesTheSelection : Prop :=
  (∀ (p : Port) (body : List Byte) (s : State), Admitted .setReference p body s →
      selectionOf (field body 1 1) (BitVec.ofNat 8 (field body 2 1)) = some s.rx.selection →
      exec (.setReference p) s = .next (withReply p
        ([0x21#8, 0x00#8, s.sess[p].number, s.rx.selection.modeCode,
          (if s.rx.selection.idInEffect.isSome then 1#8 else 0#8), s.rx.selection.idInEffect.getD 0#8] ++
          bytesOf 4 (field body 3 4) ++ [s.disc.lock.code])
        { s with
          rx := { s.rx with linkDelay := field body 3 4 }
          disc := if s.disc.lock = .acquire ∨ s.disc.lock = .locked then { s.disc with timer := .running 0 false }
            else s.disc })) ∧
  (∀ (p : Port) (body : List Byte) (s : State) (x : Selection), Admitted .setReference p body s →
      selectionOf (field body 1 1) (BitVec.ofNat 8 (field body 2 1)) = some x → x ≠ s.rx.selection →
      let new : LockState := match x, s.disc.lock with
        | .none, _ => .free
        | .acceptFirst _, _ => .free
        | .fixed _, .free => .free
        | .fixed _, _ => .acquire
      let selected := toAll (.referenceChanged .selected x) s
      exec (.setReference p) s = .next (withReply p
        ([0x21#8, 0x00#8, s.sess[p].number, x.modeCode,
          (if x.idInEffect.isSome then 3#8 else 2#8), x.idInEffect.getD 0#8] ++
          bytesOf 4 (field body 3 4) ++ [new.code])
        { s with
          rx := { s.rx with
            linkDelay := field body 3 4
            selection := x
            seedPending := true
            stats := ⟨0, 0, 0, 0, 0, 0, 0⟩ }
          disc := { s.disc with
            lock := new
            inWindow := 0
            outliers := 0
            timer := if new = .acquire then .running 0 false
              else if s.disc.lock = .free then s.disc.timer else .stopped
            holdoverDue := if s.disc.lock = new then s.disc.holdoverDue else false }
          sess := if s.disc.lock = new then selected
            else mapVec (Session.push ⟨.lockChanged s.disc.lock new .selection s.disc.lastError, s.time.uptime⟩) selected }))

/-- Section 2.11 (R34): FLUSH_REFERENCE. -/
def Obligations.FlushReferenceAsksForASeed : Prop :=
  ∀ (p : Port) (body : List Byte) (s : State), Admitted .flushReference p body s →
    let leaves := s.disc.lock = .locked ∨ s.disc.lock = .holdover
    exec (.flushReference p) s = .next (withReply p
      [0x22#8, 0x00#8, s.sess[p].number, if s.disc.lock = .free then 0#8 else 1#8]
      { s with
        rx := { s.rx with seedPending := true }
        disc := { s.disc with
          lock := if leaves then .acquire else s.disc.lock
          inWindow := 0
          outliers := 0
          timer := if leaves then .running 0 false else s.disc.timer
          holdoverDue := if leaves then false else s.disc.holdoverDue }
        sess := if leaves then toAll (.lockChanged s.disc.lock .acquire .flush s.disc.lastError) s else s.sess })

/-- Section 3.6 (R55, R56): SET_DISCIPLINE replaces all eight parameters and nothing else; its field check is the table of
ranges. -/
def Obligations.SetDisciplineReplacesAllEight : Prop :=
  ∀ (p : Port) (body : List Byte) (s : State), InFlight .setDiscipline p body s →
    let x : Params := ⟨field body 1 4, field body 5 4, field body 9 1, field body 10 1, field body 11 2, field body 13 4,
      field body 17 4, field body 21 1⟩
    (fieldsOk .setDiscipline body = true ↔
      50 ≤ x.lockWindow ∧ x.lockWindow ≤ 1000000 ∧ 1000 ≤ x.stepThreshold ∧ x.stepThreshold ≤ 1000000000 ∧
      x.lockWindow ≤ x.stepThreshold ∧ 1 ≤ x.lockCount ∧ x.lockCount ≤ 255 ∧ 1 ≤ x.unlockCount ∧ x.unlockCount ≤ 255 ∧
      100 ≤ x.beaconTimeout ∧ x.beaconTimeout ≤ 60000 ∧ 1 ≤ x.holdoverLimit ∧ x.holdoverLimit ≤ 86400 ∧
      1000 ≤ x.slewLimit ∧ x.slewLimit ≤ 500000 ∧ x.gainShift ≤ 7) ∧
    (Admitted .setDiscipline p body s →
      exec (.setDiscipline p) s = .next (withReply p
        ([0x23#8, 0x00#8, s.sess[p].number] ++ body.drop 1 ++ [s.disc.lock.code])
        { s with disc := { s.disc with params := x } }))

/-! ### The authority token and leases -/

/-- Section 8.5 (R148): CLAIM_AUTHORITY is granted on a free token, and answered IN_USE to the holder and HELD to another
port. IN_USE reports 0 ms where the lease has reached 0 and has not yet expired, which is the model's reading (DEDUCED,
notes/assumptions/28.md). -/
def Obligations.ClaimAuthorityGrantsAFreeToken : Prop :=
  ∀ (p : Port) (body : List Byte) (s : State), Admitted .claimAuthority p body s →
    (s.authority = none → (∀ x ∈ s.leases, ¬ (x.resource = .authority ∧ x.holder = p)) →
      exec (.claimAuthority p) s = .next (withReply p
        ([0x30#8, 0x00#8, s.sess[p].number, BitVec.ofNat 8 p.val] ++ bytesOf 2 (field body 1 2))
        { s with
          authority := some p
          leases := s.leases ++ [⟨.authority, .authority, p, field body 1 2⟩]
          sess := toAll (.authorityChanged none (some p) .claim (field body 1 2)) s })) ∧
    (∀ x, s.authority = some p → s.leases.find? (fun y => decide (y.resource = .authority ∧ y.holder = p)) = some x →
      exec (.claimAuthority p) s = .next (withReply p
        ([0x30#8, 0x07#8, s.sess[p].number, BitVec.ofNat 8 p.val] ++ bytesOf 2 x.remaining) s)) ∧
    (∀ q, q ≠ p → s.authority = some q →
      exec (.claimAuthority p) s = .next (withReply p
        ([0x30#8, 0x06#8, s.sess[p].number, BitVec.ofNat 8 q.val, 0#8, 0#8]) s))

/-- R149: RELEASE_AUTHORITY. -/
def Obligations.ReleaseAuthorityFreesTheToken : Prop :=
  ∀ (p : Port) (body : List Byte) (s : State), Admitted .releaseAuthority p body s →
    (s.authority = some p →
      exec (.releaseAuthority p) s = .next (withReply p [0x31#8, 0x00#8, s.sess[p].number]
        { s with
          authority := none
          leases := s.leases.filter fun x => !decide (x.resource = .authority ∧ x.holder = p)
          sess := toAll (.authorityChanged (some p) none .release 0) s })) ∧
    (s.authority ≠ some p →
      exec (.releaseAuthority p) s = .next (withReply p [0x31#8, 0x05#8, s.sess[p].number] s))

/-- Section 8.3 (R144, R145): RENEW replaces the ms remaining of each lease of the requester that an item names, and reports
each item in its place. -/
def Obligations.RenewReplacesMsRemaining : Prop :=
  ∀ (p : Port) (body : List Byte) (s : State), Admitted .renew p body s →
    let items := body.drop 4
    let names (x : Lease) (b : Byte) : Bool := decide
      ((b = 0x10#8 ∧ x.resource = .authority) ∨ (∃ l : LineNo, b = BitVec.ofNat 8 l.val ∧ x.resource = .line l))
    let held (b : Byte) : Bool := s.leases.any fun x => decide (x.holder = p) && names x b
    exec (.renew p) s = .next (withReply p
      ([0x32#8, 0x00#8, s.sess[p].number] ++ bytesOf 2 (field body 1 2) ++ bytesOf 1 items.length ++
        items.map fun b => if held b then 0x01#8 else 0x02#8)
      { s with leases := s.leases.map fun x =>
          if x.holder = p ∧ items.any (names x) then { x with remaining := field body 1 2 } else x })

/-- Section 8.2 (R141, R142, R143): the expiry of an OUTPUT lease releases the line and reports the cancelled entries; the expiry
of a SUBSCRIPTION lease removes one subscriber; that of the AUTHORITY lease frees the token. -/
def Obligations.LeaseExpiriesEndTheHolding : Prop :=
  (∀ (l : LineNo) (o : OutputLine) (x : Lease) (s : State), s.lines[l] = .output o →
      s.leases.find? (fun y => decide (y.resource = .line l ∧ y.kind = .output ∧ y.remaining = 0)) = some x →
      x.holder = o.holder →
      ∃ (t : State) (n : Nat), exec (.outputLeaseExpiry l) s = .next t ∧ Released l o s t n ∧ t.ports = s.ports ∧
        t.sess = toOne o.holder (.leaseLost (.line l) .output n) s) ∧
  (∀ (l : LineNo) (p : Port) (c : CaptureLine) (x : Lease) (s : State), s.lines[l] = .capture c → p ∈ c.subscribers →
    s.leases.find? (fun y => decide (y.resource = .line l ∧ y.holder = p)) = some x →
    x.kind = .subscription → x.remaining = 0 →
    let rest := c.subscribers.filter (· ≠ p)
    exec (.subscriptionLeaseExpiry l p) s = .next
      { s with
        lines := s.lines.set l (if rest = [] then .unassigned none else .capture { c with subscribers := rest })
        watch := if rest = [] then s.watch.set l none else s.watch
        leases := s.leases.filter fun y => !decide (y.resource = .line l ∧ y.holder = p)
        sess := toOne p (.leaseLost (.line l) .subscription 0) s }) ∧
  (∀ (x : Lease) (s : State),
    s.leases.find? (fun y => decide (y.resource = .authority ∧ y.kind = .authority ∧ y.remaining = 0)) = some x →
    exec .authorityLeaseExpiry s = .next
      { s with
        authority := none
        leases := s.leases.filter fun y => !decide (y.resource = .authority ∧ y.holder = x.holder)
        sess := mapVec (Session.push ⟨.authorityChanged (some x.holder) none .expiry 0, s.time.uptime⟩)
          (toOne x.holder (.leaseLost .authority .authority 0) s) })

/-! ### Lines -/

/-- Section 4.2 (R62, R63): CLAIM_OUTPUT. -/
def Obligations.ClaimOutputGrantsAnUnassignedLine : Prop :=
  ∀ (p : Port) (body : List Byte) (s : State) (l : LineNo) (initial release : Level), Admitted .claimOutput p body s →
    field body 1 1 = l.val → field body 4 1 = initial.isHigh.toNat → field body 5 1 = release.isHigh.toNat →
    (∀ d, s.lines[l] = .unassigned d →
      exec (.claimOutput p) s = .next (withReply p
        ([0x40#8, 0x00#8, s.sess[p].number, BitVec.ofNat 8 l.val, initial.code, release.code] ++ bytesOf 2 (field body 2 2))
        { s with
          lines := s.lines.set l (.output ⟨p, initial, release, none⟩)
          leases := s.leases ++ [⟨.line l, .output, p, field body 2 2⟩] })) ∧
    (∀ o, s.lines[l] = .output o → o.holder = p →
      exec (.claimOutput p) s = .next (withReply p [0x40#8, 0x07#8, s.sess[p].number] s)) ∧
    (∀ o, s.lines[l] = .output o → o.holder ≠ p →
      exec (.claimOutput p) s = .next (withReply p [0x40#8, 0x06#8, s.sess[p].number] s)) ∧
    (∀ c, s.lines[l] = .capture c →
      exec (.claimOutput p) s = .next (withReply p [0x40#8, 0x06#8, s.sess[p].number] s))

/-- Section 4.3 (R65, R66, R67): SUBSCRIBE_CAPTURE. The watch starts from the level that the pin shows, which on a
line with a release drive is a free value (notes/assumptions/7.md); the statement holds for every value of it. -/
def Obligations.SubscribeCaptureGrantsOrJoins : Prop :=
  ∀ (p : Port) (body : List Byte) (s : State) (l : LineNo) (e : EdgeSelection), Admitted .subscribeCapture p body s →
    field body 1 1 = l.val → field body 4 1 = e.code.toNat →
    let ms := field body 2 2
    let ticks := (field body 5 4 + 7) / 8
    (∀ d, s.lines[l] = .unassigned d →
      ∃ (shown : BitVec 16) (n : Nat), (d = none → shown = s.pins.lines ∧ n = s.freeCount) ∧
      (∀ k : LineNo, k ≠ l → shown.getLsbD k = s.pins.lines.getLsbD k) ∧
      exec (.subscribeCapture p) s = .next (withReply p
        ([0x41#8, 0x00#8, s.sess[p].number, BitVec.ofNat 8 l.val, e.code] ++ bytesOf 4 (ticks * 8) ++ [1#8] ++ bytesOf 2 ms)
        { s with
          lines := s.lines.set l (.capture ⟨[p], e, ticks⟩)
          watch := s.watch.set l (some ⟨Level.ofBool (shown.getLsbD l), 0, none⟩)
          leases := s.leases ++ [⟨.line l, .subscription, p, ms⟩]
          pins := { s.pins with lines := shown }
          freeCount := n })) ∧
    (∀ c, s.lines[l] = .capture c → p ∉ c.subscribers →
      exec (.subscribeCapture p) s = .next (withReply p
        ([0x41#8, 0x00#8, s.sess[p].number, BitVec.ofNat 8 l.val, c.selection.code] ++ bytesOf 4 (c.holdoff * 8) ++
          bytesOf 1 (c.subscribers.length + 1) ++ bytesOf 2 ms)
        { s with
          lines := s.lines.set l (.capture { c with subscribers := c.subscribers ++ [p] })
          leases := s.leases ++ [⟨.line l, .subscription, p, ms⟩] })) ∧
    (∀ c, s.lines[l] = .capture c → p ∈ c.subscribers →
      exec (.subscribeCapture p) s = .next (withReply p [0x41#8, 0x07#8, s.sess[p].number] s)) ∧
    (∀ o, s.lines[l] = .output o →
      exec (.subscribeCapture p) s = .next (withReply p [0x41#8, 0x06#8, s.sess[p].number] s))

/-- Section 4.5 (R74, R75, R77): RELEASE_LINE by the holder, by a subscriber, and by a port that holds nothing on the line. -/
def Obligations.ReleaseLineEndsTheHolding : Prop :=
  ∀ (p : Port) (body : List Byte) (s : State) (l : LineNo), Admitted .releaseLine p body s → field body 1 1 = l.val →
    (∀ o, s.lines[l] = .output o → o.holder = p →
      ∃ (t : State) (n : Nat), Released l o s t n ∧ t.sess = s.sess ∧ t.ports = s.ports ∧
        exec (.releaseLine p) s = .next (withReply p
          ([0x42#8, 0x00#8, s.sess[p].number, BitVec.ofNat 8 l.val] ++ bytesOf 1 n ++ [0#8]) t)) ∧
    (∀ c, s.lines[l] = .capture c → p ∈ c.subscribers →
      let rest := c.subscribers.filter (· ≠ p)
      exec (.releaseLine p) s = .next (withReply p
        [0x42#8, 0x00#8, s.sess[p].number, BitVec.ofNat 8 l.val, 0#8, if rest = [] then 0#8 else 2#8]
        { s with
          lines := s.lines.set l (if rest = [] then .unassigned none else .capture { c with subscribers := rest })
          watch := if rest = [] then s.watch.set l none else s.watch
          leases := s.leases.filter fun y => !decide (y.resource = .line l ∧ y.holder = p) })) ∧
    (s.holds p l = false → s.subscribes p l = false →
      exec (.releaseLine p) s = .next (withReply p [0x42#8, 0x05#8, s.sess[p].number] s))

/-- R69, R70, R71: the four actions on an output line, with and without a pulse in flight. -/
def Obligations.ActionsChangeTheLineRecord : Prop :=
  ∀ (o : OutputLine) (q : Pulse) (w : Nat),
    o.act .driveHigh = { o with level := .high, pulse := none } ∧
    o.act .driveLow = { o with level := .low, pulse := none } ∧
    (o.act .toggle).level ≠ o.level ∧ (o.act .toggle).pulse = none ∧
    (o.act .toggle).holder = o.holder ∧ (o.act .toggle).releaseLevel = o.releaseLevel ∧
    (o.pulse = none → (o.act (.pulse w)).level ≠ o.level ∧ (o.act (.pulse w)).pulse = some ⟨w, o.level⟩) ∧
    (o.pulse = some q → (o.act (.pulse w)).level = o.level ∧ (o.act (.pulse w)).pulse = some ⟨w, q.returnLevel⟩) ∧
    (o.act (.pulse w)).holder = o.holder ∧ (o.act (.pulse w)).releaseLevel = o.releaseLevel

/-- Sections 4.4 and 4.5 (R72, R76): PULSE_END and RELEASE_DRIVE_END are taken when the ticks remaining are 0, and are no event
before (notes/assumptions/2.md). -/
def Obligations.PulsesAndReleaseDrivesEnd : Prop :=
  (∀ (l : LineNo) (o : OutputLine) (q : Pulse) (s : State), s.lines[l] = .output o → o.pulse = some q →
    exec (.pulseEnd l) s = .next (if q.remaining = 0 then
      { s with lines := s.lines.set l (.output { o with level := q.returnLevel, pulse := none }) } else s)) ∧
  (∀ (l : LineNo) (d : ReleaseDrive) (s : State), s.lines[l] = .unassigned (some d) →
    exec (.releaseDriveEnd l) s = .next (if d.remaining = 0 then
      { s with lines := s.lines.set l (.unassigned none) } else s))

/-! ### The calendar -/

/-- Sections 5.4 and 11.4 (R88, R186): the field check of SCHEDULE, on the bytes of the body. An optional field follows the one
before it without a gap. -/
def Obligations.ScheduleFieldsAreChecked : Prop :=
  ∀ body : List Byte,
    let action := field body 4 1
    let presence := body.getD 5 0#8
    let policies := field body 6 1
    let hasWidth := presence.getLsbD 0
    let hasPeriod := presence.getLsbD 1
    let width := field body 15 4
    let period := field body (15 + 4 * hasWidth.toNat) 4
    let count := field body (15 + 4 * hasWidth.toNat + 4 * hasPeriod.toNat) 2
    fieldsOk .schedule body = true ↔
      field body 3 1 ≤ 15 ∧ 1 ≤ action ∧ action ≤ 4 ∧ presence.toNat < 8 ∧ policies < 64 ∧
      (policies % 4 = 1 ∨ policies % 4 = 2) ∧ (policies / 4 % 4 = 1 ∨ policies / 4 % 4 = 2) ∧
      (policies / 16 % 4 = 1 ∨ policies / 16 % 4 = 2) ∧ field body 11 4 < 1000000000 ∧
      (hasWidth = true ↔ action = 4) ∧ (hasWidth = true → 8 ≤ width ∧ width ≤ 1000000000) ∧
      (hasPeriod = true → 1000 ≤ period ∧ period ≤ 4000000000 ∧ (action = 4 → (width + 7) / 8 * 8 < period)) ∧
      (presence.getLsbD 2 = true → hasPeriod = true ∧ count ≠ 0)

/-- Section 5.4 (R89 to R93): the Calendar's own checks, the first that fails giving the reply; a refused SCHEDULE changes
nothing but the reply slot. Two entries collide as the rows of R92 say: one-shots at one time; a one-shot at an occurrence of a
periodic entry's grid, whichever is requested; two periodic entries, whatever their times. -/
def Obligations.ScheduleChecksComeInOrder : Prop :=
  ∀ (p : Port) (body : List Byte) (s : State) (e : Entry), Admitted .schedule p body s →
    Requested p body e →
    let refused (code : Byte) : Prop := exec (.schedule p) s = .next (withReply p [0x50#8, code, s.sess[p].number] s)
    let current := field body 1 2 = s.time.epoch.toNat
    let lead := (s.time.hub.units : Int) + 2000 * 1000000000 ≤ (e.fireTime * 1000000000 : Nat)
    let collides (x : Entry) : Prop := match e.repetition, x.repetition with
      | .oneShot, .oneShot => x.fireTime = e.fireTime
      | .oneShot, .periodic n c => Occurs x.fireTime n c e.fireTime
      | .periodic _ _, .periodic _ _ => True
      | .periodic n c, .oneShot => Occurs e.fireTime n c x.fireTime
    let clear := ∀ (i : SlotNo) (x : Entry), s.cal.slots[i].entry = some x → x.line = e.line → ¬ collides x
    (s.holds p e.line = false → refused 0x05#8) ∧
    (s.holds p e.line = true → ¬ current → refused 0x0B#8) ∧
    (s.holds p e.line = true → current → ¬ lead → refused 0x0A#8) ∧
    (s.holds p e.line = true → current → lead → ¬ clear → refused 0x08#8) ∧
    (s.holds p e.line = true → current → lead → clear → s.cal.quota[p] ≤ s.cal.count[p] → refused 0x09#8)

/-- Section 5.4 (R83, R94): a SCHEDULE that passes every check is inserted in the lowest free slot, as the entry that the
bytes of its body give. -/
def Obligations.ScheduleInsertsInTheLowestFreeSlot : Prop :=
  ∀ (p : Port) (body : List Byte) (s : State) (e : Entry) (i : SlotNo), Admitted .schedule p body s →
    Requested p body e → s.holds p e.line = true → field body 1 2 = s.time.epoch.toNat →
    (s.time.hub.units : Int) + 2000 * 1000000000 ≤ (e.fireTime * 1000000000 : Nat) →
    (∀ (j : SlotNo) (x : Entry), s.cal.slots[j].entry = some x → x.line = e.line → ¬ Collide e x) →
    s.cal.count[p] < s.cal.quota[p] →
    s.cal.slots[i].entry = none → (∀ j : SlotNo, j < i → s.cal.slots[j].entry ≠ none) →
    let held := match e.action with
      | .pulse w => w * 8
      | _ => 0
    exec (.schedule p) s = .next (withReply p
      ([0x50#8, 0x00#8, s.sess[p].number, BitVec.ofNat 8 i.val, s.cal.slots[i].generation] ++ bytesOf 4 held ++
        bytesOf 1 (s.cal.count[p] + 1) ++ bytesOf 1 s.cal.quota[p])
      { s with cal := { s.cal with
          slots := s.cal.slots.set i ⟨s.cal.slots[i].generation, some e⟩
          count := s.cal.count.set p (s.cal.count[p] + 1) } })

/-- Section 5.5 (R84, R96, R97): CANCEL and READ_ENTRY act only on the requester's entry of the handle's generation.
The body of READ_ENTRY is spelt out, 26 bytes; taken between a step and its handling, it pairs the new epoch with the fire time as
the entry still holds it, which is the model's reading (DEDUCED, notes/assumptions/27.md). -/
def Obligations.HandlesNameOwnEntries : Prop :=
  ∀ (p : Port) (body : List Byte) (s : State) (i : SlotNo), field body 1 1 = i.val →
    let g := BitVec.ofNat 8 (field body 2 1)
    let mine (e : Entry) : Prop := s.cal.slots[i].entry = some e ∧ s.cal.slots[i].generation = g ∧ e.owner = p
    (Admitted .cancel p body s →
      (∀ e, mine e → exec (.cancel p) s = .next (withReply p
        ([0x51#8, 0x00#8, s.sess[p].number, BitVec.ofNat 8 i.val, g] ++ bytesOf 4 (e.fireTime / 1000000000) ++
          bytesOf 4 (e.fireTime % 1000000000) ++ bytesOf 2 (e.repetition.count.getD 0))
        { s with cal := { s.cal with
            slots := s.cal.slots.set i ⟨g + 1, none⟩
            count := s.cal.count.set p (s.cal.count[p] - 1) } })) ∧
      ((∀ e, ¬ mine e) → exec (.cancel p) s = .next (withReply p [0x51#8, 0x0C#8, s.sess[p].number] s))) ∧
    (Admitted .readEntry p body s →
      (∀ e, mine e →
        let action : Byte × Option Nat := match e.action with
          | .driveHigh => (1#8, none)
          | .driveLow => (2#8, none)
          | .toggle => (3#8, none)
          | .pulse w => (4#8, some (w * 8))
        let repeats : Option Nat × Option Nat := match e.repetition with
          | .oneShot => (none, none)
          | .periodic n c => (some n, c)
        let presence := action.2.isSome.toNat + 2 * repeats.1.isSome.toNat + 4 * repeats.2.isSome.toNat
        let policies := (if e.latePolicy = .fireLate then 1 else 2) + 4 * (if e.stepPolicy = .keep then 1 else 2) +
          16 * (if e.notify = true then 2 else 1)
        exec (.readEntry p) s = .next (withReply p
          ([0x52#8, 0x00#8, s.sess[p].number, BitVec.ofNat 8 i.val, g, BitVec.ofNat 8 e.line.val, action.1,
            BitVec.ofNat 8 presence, BitVec.ofNat 8 policies] ++
            bytesOf 4 (e.fireTime / 1000000000) ++ bytesOf 4 (e.fireTime % 1000000000) ++
            bytesOf 4 (action.2.getD 0) ++ bytesOf 4 (repeats.1.getD 0) ++ bytesOf 2 (repeats.2.getD 0) ++
            bytesOf 2 s.time.epoch.toNat) s)) ∧
      ((∀ e, ¬ mine e) → exec (.readEntry p) s = .next (withReply p [0x52#8, 0x0C#8, s.sess[p].number] s)))

/-- Sections 6.1 and 6.2 (R106, R107, R109): a firing executes every entry due, removes or advances it, and touches no other
entry and no other line. The FIRED notices of one owner stand in a free order (notes/assumptions/6.md). Each reports the hub time
and epoch that the fire time waits with: those of the tick that reached it, or those of a step handled since, which is the model's
reading of R10, R108 and R121 (DEDUCED, notes/assumptions/22.md). That due entries are on different lines follows from
CalendarOk. -/
def Obligations.FiringTakesEveryDueEntry : Prop :=
  ∀ (s : State) (f stamp : Nat) (epoch : BitVec 16) (rest : List Reached), s.cal.reached = ⟨f, stamp, epoch⟩ :: rest →
    f ≤ s.time.hub.ns →
    let due (i : SlotNo) (e : Entry) : Prop := s.cal.slots[i].entry = some e ∧ e.fireTime = f
    (∀ (i j : SlotNo) (x y : Entry), due i x → due j y → i ≠ j → x.line ≠ y.line) →
    ∃ t : State, exec .firing s = .next t ∧ t.cal.reached = rest ∧
      (∀ i : SlotNo, (∀ e, ¬ due i e) → t.cal.slots[i] = s.cal.slots[i]) ∧
      (∀ (i : SlotNo) (e : Entry), due i e → t.cal.slots[i] =
        (match e.repetition with
        | .oneShot => freedSlot s.cal.slots[i]
        | .periodic n c =>
          if c.map (· - 1) = some 0 ∨ 4294967296000000000 ≤ f + n then freedSlot s.cal.slots[i]
          else ⟨s.cal.slots[i].generation,
            some { e with fireTime := f + n, repetition := .periodic n (c.map (· - 1)) }⟩)) ∧
      (∀ (i : SlotNo) (e : Entry) (o : OutputLine), due i e → s.lines[e.line] = .output o →
        t.lines[e.line] = .output (o.act e.action)) ∧
      (∀ l : LineNo, (∀ i e, due i e → e.line ≠ l) → t.lines[l] = s.lines[l]) ∧
      (∀ p : Port, ∃ l : List SlotNo, l.Nodup ∧
        (∀ i : SlotNo, i ∈ l ↔ ∃ e, due i e ∧ e.owner = p ∧ e.notify = true) ∧
        t.sess[p] = l.foldl (fun x i => x.push
          ⟨.fired i s.cal.slots[i].generation stamp epoch 0 false (t.cal.slots[i].entry = none), s.time.uptime⟩) s.sess[p]) ∧
      (∀ p : Port, t.cal.count[p] = s.cal.count[p] - (endedSlots p s t).length) ∧
      t.time = s.time ∧ t.rx = s.rx ∧ t.disc = s.disc ∧ t.watch = s.watch ∧ t.caps = s.caps ∧ t.leases = s.leases ∧
      t.authority = s.authority ∧ t.ports = s.ports ∧ t.cal.quota = s.cal.quota ∧ t.pins = s.pins ∧
      t.inReset = s.inReset

/-- Sections 6.4 to 6.6 (R112 to R119): a step handling. VOID entries are removed, each with VOIDED, in a free order
(notes/assumptions/6.md). After a forward step every entry that remains and lies at or before hub time is taken in ascending
order of fire time: it loses its passed occurrences, FIRE_LATE executes its action and reports FIRED with LATE, DISCARD reports
MISSED. VOIDED and MISSED carry the epoch of the step handled, FIRED the epoch in effect. Every other entry stays. A fire time
reached before the step and still waiting for its firing takes the hub time and epoch of the step for its notices. These two are
the model's reading (DEDUCED, notes/assumptions/22.md). -/
def Obligations.StepHandlingSettlesEveryEntry : Prop :=
  ∀ (s : State) (h : StepHandoff) (rest : List StepHandoff), s.time.toCalendar = h :: rest →
    s.time.toSession.length ≤ rest.length →
    let now := s.time.hub.ns
    let gone (e : Entry) : Nat := match e.repetition with
      | .oneShot => 1
      | .periodic n (some m) => min ((min now 4294967295999999999 - e.fireTime) / n + 1) m
      | .periodic n none => (min now 4294967295999999999 - e.fireTime) / n + 1
    ∃ (t : State) (voids lates : List SlotNo), exec .stepHandling s = .next t ∧
      (voids.Nodup ∧ ∀ i : SlotNo, i ∈ voids ↔ ∃ e, s.cal.slots[i].entry = some e ∧ e.stepPolicy = .void) ∧
      (lates.Nodup ∧ (∀ i : SlotNo, i ∈ lates ↔ h.direction = .forward ∧
          ∃ e, s.cal.slots[i].entry = some e ∧ e.stepPolicy = .keep ∧ e.fireTime ≤ now) ∧
        lates.Pairwise fun a b => s.fireTime a ≤ s.fireTime b) ∧
      (∀ i : SlotNo, i ∉ voids → i ∉ lates → t.cal.slots[i] = s.cal.slots[i]) ∧
      (∀ i ∈ voids, t.cal.slots[i] = freedSlot s.cal.slots[i]) ∧
      (∀ i ∈ lates, ∀ e, s.cal.slots[i].entry = some e → t.cal.slots[i] =
        match e.repetition with
        | .oneShot => freedSlot s.cal.slots[i]
        | .periodic n c =>
          if c.map (· - gone e) = some 0 ∨ 4294967296000000000 ≤ e.fireTime + gone e * n then freedSlot s.cal.slots[i]
          else ⟨s.cal.slots[i].generation,
            some { e with fireTime := e.fireTime + gone e * n, repetition := .periodic n (c.map (· - gone e)) }⟩) ∧
      (∀ l : LineNo, t.lines[l] = lates.foldl (fun r i =>
        match s.cal.slots[i].entry, r with
        | some e, .output o => if e.line = l ∧ e.latePolicy = .fireLate then .output (o.act e.action) else .output o
        | _, r => r) s.lines[l]) ∧
      (∀ p : Port, t.sess[p] = lates.foldl (fun x i =>
        match s.cal.slots[i].entry with
        | some e =>
          let ended := decide (t.cal.slots[i].entry = none)
          let g := s.cal.slots[i].generation
          if e.owner = p then x.push
            ⟨match e.latePolicy with
              | .fireLate => .fired i g s.reportedTime s.time.epoch (min (gone e - 1) 65535) true ended
              | .discard => .missed i g e.fireTime h.epoch (min (gone e) 65535) ended,
              s.time.uptime⟩
          else x
        | none => x)
        (voids.foldl (fun x i =>
          match s.cal.slots[i].entry with
          | some e => if e.owner = p then x.push
              ⟨.voided i s.cal.slots[i].generation e.fireTime h.epoch
                (match e.repetition with | .oneShot => none | .periodic _ c => c), s.time.uptime⟩
            else x
          | none => x) s.sess[p])) ∧
      (∀ p : Port, t.cal.count[p] = s.cal.count[p] - (endedSlots p s t).length) ∧
      t.time = { s.time with toCalendar := rest } ∧
      t.cal.reached = s.cal.reached.map (fun r =>
        if r.epoch + 1 = h.epoch then
          ⟨r.fireTime, if h.hub.ns < 4294967296000000000 then h.hub.ns else 4294967295999999999, h.epoch⟩
        else r) ∧
      t.cal.quota = s.cal.quota ∧ t.rx = s.rx ∧ t.disc = s.disc ∧ t.watch = s.watch ∧
      t.caps = s.caps ∧ t.leases = s.leases ∧ t.authority = s.authority ∧ t.ports = s.ports ∧ t.pins = s.pins ∧
      t.inReset = s.inReset

/-! ### Frames -/

/-- Sections 10.2 and 11.2 (R171, R172, R181, R184): FRAME_BEGIN forms the status byte from the state, no frame begins in the
start-up hold, and STATUS_READ gives no outcome. -/
def Obligations.FramesBeginWithTheStatusByte : Prop :=
  ∀ (p : Port) (s : State),
    (s.pins.csLow[p] = false →
      let status := BitVec.ofNat 8 (64 * (match s.ports[p].state with | .idle => 0 | .working _ => 1 | .answered _ => 2) +
        32 * s.sess[p].attached.toNat + 16 * (decide (s.sess[p].queue ≠ [])).toNat +
        8 * (decide (s.caps[p].queue ≠ [])).toNat +
        (match s.ports[p].lastOutcome with
          | .accepted => 0
          | .refusedBusy => 1
          | .badCrc => 2
          | .badLength => 3
          | .aborted => 4
          | .unknownKind => 5))
      exec (.frameBegin p) s = .next
        { s with
          pins := { s.pins with csLow := s.pins.csLow.set p true }
          ports := if s.ports[p].hold then s.ports
            else s.ports.set p { s.ports[p] with frame := some ⟨[], .undecided, [status]⟩ } }) ∧
    (∀ f : Frame, s.ports[p].frame = some f → f.fix.isBatch = false →
      exec (.statusRead p) s = .next
        { s with
          pins := { s.pins with csLow := s.pins.csLow.set p false }
          ports := s.ports.set p { s.ports[p] with frame := none } })

/-- R173: a frame of unknown kind. The hub sends filler after byte 1, and the end of the frame changes nothing but the
outcome. -/
def Obligations.UnknownKindLeavesEveryState : Prop :=
  ∀ (p : Port) (kind status : Byte) (s : State), s.ports[p].frame = some ⟨[], .undecided, [status]⟩ →
    kind ≠ 0xA1#8 → kind ≠ 0xA2#8 → kind ≠ 0xA3#8 → kind ≠ 0xA4#8 →
    (∀ k, 2 ≤ k → s.misoByte p k = 0x00#8) ∧
    exec (.unknownKind p kind) s = .next
      { s with
        pins := { s.pins with csLow := s.pins.csLow.set p false }
        ports := s.ports.set p { s.ports[p] with frame := none, lastOutcome := .unknownKind } }

/-- Sections 10.3 and 11.3 (R174, R175, R185): a REQUEST frame is judged for length, CRC and port state in this order; an accepted
one goes on its path or is answered BAD_REQUEST. A part-byte after L + 4 whole bytes fails the length test, which is the model's
reading of R174's "a final part-byte" (DEDUCED, notes/assumptions/10.md). The kinds are named by the table of codes and body
lengths: a RENEW count above 17 is taken as 17, and the SCHEDULE presence bits give its length. -/
def Obligations.RequestFramesAreJudgedInOrder : Prop :=
  (∀ (p : Port) (f : Frame) (bytes : List Byte) (part : Nat) (s : State), s.ports[p].frame = some f →
    f.fix = .undecided → bytes.head? = some 0xA1#8 → 2 ≤ bytes.length →
    let len := field bytes 1 1
    let lengthOk := 1 ≤ len ∧ len ≤ 40 ∧ bytes.length = len + 4 ∧ part = 0
    let crcOk := bytes.drop (len + 2) = bytesOf 2 (crc16 ((bytes.drop 1).take (len + 1))).toNat
    let body := (bytes.drop 2).take len
    let ended (o : FrameOutcome) (x : PortState) : Host.Outcome State Fault Refusal := .next
      { s with
        pins := { s.pins with csLow := s.pins.csLow.set p false }
        ports := s.ports.set p { s.ports[p] with frame := none, lastOutcome := o, state := x } }
    let result := exec (.requestFrameEnd p bytes part) s
    (¬ lengthOk → result = ended .badLength s.ports[p].state) ∧
    (lengthOk → ¬ crcOk → result = ended .badCrc s.ports[p].state) ∧
    (lengthOk → crcOk → s.ports[p].state ≠ .idle → result = ended .refusedBusy s.ports[p].state) ∧
    (∀ k, lengthOk → crcOk → s.ports[p].state = .idle → requestOf body = some k →
      result = ended .accepted (.working body)) ∧
    (lengthOk → crcOk → s.ports[p].state = .idle → requestOf body = none →
      result = ended .accepted (.answered [body.headD 0#8, 0x01#8, s.sess[p].number]))) ∧
  (∀ (body : List Byte) (k : RequestKind),
    let items := (body.getD 3 0#8).toNat
    let presence := body.getD 5 0#8
    let row : Byte × Nat := match k with
      | .attach => (0x01#8, 2)
      | .detach => (0x02#8, 1)
      | .readTime => (0x10#8, 1)
      | .setTime => (0x11#8, 9)
      | .readReference => (0x20#8, 1)
      | .setReference => (0x21#8, 7)
      | .flushReference => (0x22#8, 1)
      | .setDiscipline => (0x23#8, 22)
      | .claimAuthority => (0x30#8, 3)
      | .releaseAuthority => (0x31#8, 1)
      | .renew => (0x32#8, 4 + if 17 < items then 17 else items)
      | .claimOutput => (0x40#8, 6)
      | .subscribeCapture => (0x41#8, 9)
      | .releaseLine => (0x42#8, 2)
      | .readLines => (0x43#8, 1)
      | .schedule => (0x50#8, 15 + 4 * (presence.getLsbD 0).toNat + 4 * (presence.getLsbD 1).toNat +
          2 * (presence.getLsbD 2).toNat)
      | .cancel => (0x51#8, 3)
      | .readEntry => (0x52#8, 3)
      | .listEntries => (0x53#8, 1)
      | .setQuota => (0x54#8, 3)
      | .readQuotas => (0x55#8, 1)
    k.code = row.1 ∧ (requestOf body = some k ↔ body.head? = some row.1 ∧ body.length = row.2))

/-- Section 10.6 (R178): a COLLECT_REPLY frame fixes the waiting reply at byte 1 and takes it out when it completes. -/
def Obligations.RepliesAreCollected : Prop :=
  ∀ (p : Port) (f : Frame) (s : State), s.ports[p].frame = some f →
    (f.fix = .undecided →
      (∀ reply, s.ports[p].state = .answered reply →
        let r := BitVec.ofNat 8 reply.length :: reply
        exec (.replyFix p) s = .next { s with ports := s.ports.set p { s.ports[p] with
          frame := some ⟨[0xA2#8], .reply true, f.sent ++ (r ++ bytesOf 2 (crc16 r).toNat)⟩ } }) ∧
      ((∀ reply, s.ports[p].state ≠ .answered reply) →
        exec (.replyFix p) s = .next { s with ports := s.ports.set p { s.ports[p] with
          frame := some ⟨[0xA2#8], .reply false, f.sent ++ [0x00#8, 0xE1#8, 0xF0#8]⟩ } })) ∧
    (∀ (present : Bool) (whole : Nat), f.fix = .reply present → 2 ≤ whole →
      let complete := decide (f.sent.length ≤ whole)
      exec (.collectReplyEnd p whole) s = .next
        { s with
          pins := { s.pins with csLow := s.pins.csLow.set p false }
          ports := s.ports.set p { s.ports[p] with
            frame := none
            lastOutcome := if complete then .accepted else .aborted
            state := if complete && present then .idle else s.ports[p].state } })

/-- Section 10.7 (R132, R164, R180): BATCH_FIX. The records fixed for a COLLECT_CAPTURES frame keep their places from then on: they
no longer count among those whose order may be drawn, a count of the model's own (notes/assumptions/24.md). -/
def Obligations.BatchesAreFixedAtByteTwo : Prop :=
  ∀ (p : Port) (f : Frame) (m : Byte) (s : State), s.ports[p].frame = some f → f.fix = .undecided →
    let withFrame (q : QueueName) (code : Byte) (valid : Bool) (header : Byte) (records : List Byte) (t : State) : State :=
      let r := header :: records
      { t with ports := t.ports.set p { t.ports[p] with
        frame := some ⟨[code, m], .batch q valid, f.sent ++ (0x00#8 :: (r ++ bytesOf 2 (crc16 r).toNat))⟩ } }
    (1 ≤ m.toNat → m.toNat ≤ 8 →
      let x := s.sess[p]
      let n := min m.toNat x.queue.length
      exec (.batchFix p .notices m) s = .next (withFrame .notices 0xA3#8 true
        (BitVec.ofNat 8 (n + 128 * x.loss.toNat)) ((x.queue.take n).flatMap noticeBytes)
        { s with sess := s.sess.set p { x with batch := some ⟨n, x.loss, false⟩ } })) ∧
    (1 ≤ m.toNat → m.toNat ≤ 8 →
      let x := s.caps[p]
      let n := min m.toNat x.queue.length
      exec (.batchFix p .captures m) s = .next (withFrame .captures 0xA4#8 true
        (BitVec.ofNat 8 n) ((x.queue.take n).flatMap captureBytes)
        { s with caps := s.caps.set p { x with
          batch := if n = 0 then none else some n, fresh := min x.fresh (x.queue.length - n) } })) ∧
    (m.toNat = 0 ∨ 8 < m.toNat →
      exec (.batchFix p .notices m) s = .next (withFrame .notices 0xA3#8 false 0#8 [] s) ∧
      exec (.batchFix p .captures m) s = .next (withFrame .captures 0xA4#8 false 0#8 [] s))

/-- Sections 7.5, 9.4 and 10.7 (R132, R164, R180): the end of a collection frame. Completion removes the batch, if teardown has
not made it none, and settles the loss flag; abortion removes nothing. -/
def Obligations.BatchesAreSettledAtTheEnd : Prop :=
  ∀ (p : Port) (f : Frame) (valid : Bool) (whole : Nat) (s : State), s.ports[p].frame = some f → 2 ≤ whole →
    let complete := decide (f.sent.length ≤ whole)
    let ended (t : State) : State :=
      { t with
        pins := { t.pins with csLow := t.pins.csLow.set p false }
        ports := t.ports.set p { t.ports[p] with
          frame := none
          lastOutcome := if !complete then .aborted else if valid then .accepted else .badLength } }
    (f.fix = .batch .notices valid →
      let x := s.sess[p]
      exec (.collectNoticesEnd p whole) s = .next (ended (match x.batch with
        | none => s
        | some b =>
          if !valid then s
          else if complete then
            { s with sess := s.sess.set p { x with queue := x.queue.drop b.fixed, loss := b.late, batch := none } }
          else { s with sess := s.sess.set p { x with batch := none } }))) ∧
    (f.fix = .batch .captures valid →
      let x := s.caps[p]
      exec (.collectCapturesEnd p whole) s = .next (ended (match x.batch with
        | none => s
        | some n =>
          if !valid then s
          else if complete then { s with caps := s.caps.set p { x with queue := x.queue.drop n, batch := none } }
          else { s with caps := s.caps.set p { x with batch := none } })))

/-- Section 9.3 (R162, R163): how one notice reaches one port. -/
def Obligations.NoticesAreQueuedOrCountedLost : Prop :=
  ∀ (n : Notice) (x : Session),
    (x.attached = false → x.push n = x) ∧
    (x.attached = true → x.queue.length < 16 → x.push n = { x with queue := x.queue ++ [n] }) ∧
    (x.attached = true → 16 ≤ x.queue.length → (x.push n).queue = x.queue ∧ (x.push n).loss = true ∧
      (∀ b, x.batch = some b → (x.push n).batch = some { b with late := true }) ∧
      (x.batch = none → (x.push n).batch = none) ∧
      (x.push n).attached = x.attached ∧ (x.push n).number = x.number ∧ (x.push n).mask = x.mask)

/-- Sections 4.1, 4.5, 7.5, 9.5 and 13.2 (R60, R76, R134, R166, R167, R192): when ALERTn is driven low, what ATTACH and DETACH make
of it, the drive of a line pin by the line's mode, and the output pins in a hub reset. -/
def Obligations.AlertsFollowTheirConditions : Prop :=
  ∀ (p : Port) (s : State),
    (s.alertAsserted p = true ↔ s.sess[p].attached = true ∧
      ((s.sess[p].mask.notices = true ∧ s.sess[p].queue ≠ []) ∨ (s.sess[p].mask.captures = true ∧ s.caps[p].queue ≠ []) ∨
        (s.sess[p].mask.reply = true ∧ ∃ reply, s.ports[p].state = .answered reply))) ∧
    (∀ body, Admitted .attach p body s → (body.getD 1 0#8).getLsbD 2 = true →
      ∃ t : State, exec (.attach p) s = .next t ∧ t.alertAsserted p = true) ∧
    (∀ body, Admitted .detach p body s → ∃ t : State, exec (.detach p) s = .next t ∧ t.alertAsserted p = false) ∧
    (∀ l : LineNo, s.lineDriven l = match s.lines[l] with
      | .output o => some o.level
      | .unassigned (some d) => some d.level
      | .unassigned none => none
      | .capture _ => none) ∧
    (∃ t : State, exec (.hubReset .powerOn) s = .next t ∧ (∀ l : LineNo, t.lineDriven l = none) ∧
      ∀ q : Port, t.alertAsserted q = false ∧ t.misoDriven q = false)

/-! ### Reset -/

/-- Section 13.2 and the reset tables (R15, R36, R59, R81, R105, R136, R154, R168, R181, R192, R193): HUB_RESET, RESET_RELEASE
and START_UP_HOLD_END. The following are the model's and no value of these tables. REFIN counts as low before its first sample
(`refinHigh`; DEDUCED, notes/assumptions/5.md). The model's own marks start clear: the lists of what was found on REFIN and of the
amounts that wait for a mark are empty (DEDUCED, notes/assumptions/3.md), `holdoverDue` is false (DESIGN CHOICE,
notes/assumptions/14.md), and the count `fresh` of each capture queue is 0 (DESIGN CHOICE, notes/assumptions/24.md). Pin levels, queue and counter of free values are kept through a reset,
and RESET_RELEASE is due once the last sample of RESETn was not low, after a power-on reset as well (DESIGN CHOICE,
notes/assumptions/5.md). -/
def Obligations.ResetStartsFromTheResetValues : Prop :=
  ∀ s : State,
    let blocks (held : Bool) : State :=
      { time := ⟨0, 0, ⟨0, 0, 0⟩, 0, false, 0, 0, [], []⟩
        rx := ⟨false, none, none, .idle, [], [], .acceptFirst none, 0, true, 0, ⟨0, 0, 0, 0, 0, 0, 0⟩⟩
        disc := ⟨.free, 0, 0, .stopped, 0, false, none, 0, ⟨1000, 100000, 4, 3, 2000, 3600, 50000, 3⟩⟩
        lines := Vector.replicate 16 (.unassigned none)
        cal := ⟨Vector.replicate 64 ⟨0, none⟩, Vector.replicate 4 16, Vector.replicate 4 0, []⟩
        watch := Vector.replicate 16 none
        caps := Vector.replicate 4 ⟨[], 0, none, 0⟩
        leases := []
        authority := none
        sess := Vector.replicate 4 ⟨false, 0, ⟨false, false, false⟩, [], false, none⟩
        ports := Vector.replicate 4 ⟨.idle, .accepted, none, true⟩
        pins := s.pins
        inReset := held
        freeCount := s.freeCount
        pending := s.pending }
    exec (.hubReset .powerOn) s = .next (blocks true) ∧
    (125 ≤ s.pins.resetnLow → exec (.hubReset .resetPin) s = .next (blocks true)) ∧
    (s.pins.resetnLow < 125 → exec (.hubReset .resetPin) s = .next s) ∧
    (s.inReset = true → s.pins.resetnLow = 0 → exec .resetRelease s = .next (blocks false)) ∧
    (s.inReset = false → 5 ≤ s.time.uptime.toNat → ∃ t : State, exec .startUpHoldEnd s = .next t ∧
      (∀ p : Port, t.ports[p] = { s.ports[p] with hold := false }) ∧ { t with ports := s.ports } = s)

/-! ### The clock -/

/-- Sections 1.1 to 1.4 (R1, R4, R5, R6): one tick adds exactly the nominal, trim and slew parts to hub time, at least 8 ns
less 0.0048 ns, counts the tick, and leaves everything that is not its own. The
capture queues and lost counts stay, and the order of their records is settled: the model's own count `fresh` returns to 0
(notes/assumptions/24.md). -/
def Obligations.TickAdvancesHubTime : Prop :=
  ∀ (x : PinSample) (s : State), s.inReset = false → s.time.tickCount + 1 < 2 ^ 64 →
    -100000 ≤ s.time.trim → s.time.trim ≤ 100000 → s.disc.params.slewLimit ≤ 500000 →
    let size : Nat := 8 * s.disc.params.slewLimit
    let part : Int := if s.time.slew.natAbs < size then s.time.slew
      else if 0 < s.time.slew then (size : Int) else -(size : Int)
    ∃ t : State, exec (.tick x) s = .next t ∧
      t.time.tickCount = s.time.tickCount + 1 ∧
      (t.time.hub.units : Int) = s.time.hub.units + 8000000000 + 8 * s.time.trim + part ∧
      (s.time.hub.units : Int) + 8000000000 - 4800000 ≤ t.time.hub.units ∧
      t.time.hub.nanoseconds < 1000000000 ∧ t.time.hub.fraction < 1000000000 ∧
      t.time.slew = s.time.slew - part ∧ t.time.slew.natAbs ≤ s.time.slew.natAbs ∧
      t.time.trim = s.time.trim ∧ t.time.trimLimit = s.time.trimLimit ∧ t.time.uptime = s.time.uptime ∧
      t.time.epoch = s.time.epoch ∧ t.time.toSession = s.time.toSession ∧ t.time.toCalendar = s.time.toCalendar ∧
      t.disc = s.disc ∧ t.cal.slots = s.cal.slots ∧ t.cal.quota = s.cal.quota ∧ t.cal.count = s.cal.count ∧
      (∀ p : Port, t.caps[p] = { s.caps[p] with fresh := 0 }) ∧ t.leases = s.leases ∧ t.authority = s.authority ∧
      t.sess = s.sess ∧ t.ports = s.ports ∧ t.pins.lines = x.lines ∧ t.pins.csLow = s.pins.csLow

/-- Sections 1.4, 1.6 and 6.1 (R6, R9, R106, R108): the fire times a tick reaches are those of held entries that hub time passes,
and they wait for their firings in ascending order, each once, with the epoch and hub time of that tick: hub time before the tick
lies below the fire time, so hub time at the tick lies less than one tick after it (notes/assumptions/22.md). Past the range hub
time is reported as its last value (notes/assumptions/9.md). -/
def Obligations.TickReachesFireTimes : Prop :=
  ∀ (x : PinSample) (s t : State), exec (.tick x) s = .next t → s.inReset = false →
    ∃ l : List Reached, t.cal.reached = s.cal.reached ++ l ∧ l.Pairwise (fun a b => a.fireTime < b.fireTime) ∧
      (∀ f : Nat, (∃ r ∈ l, r.fireTime = f) ↔ ∃ (i : SlotNo) (e : Entry), s.cal.slots[i].entry = some e ∧ e.fireTime = f ∧
        s.time.hub.units < f * 1000000000 ∧ f * 1000000000 ≤ t.time.hub.units) ∧
      (∀ r ∈ l, r.epoch = s.time.epoch ∧ t.time.epoch = s.time.epoch ∧
        r.stamp = (if t.time.hub.ns < 4294967296000000000 then t.time.hub.ns else 4294967295999999999) ∧
        (r.fireTime < 4294967296000000000 → r.fireTime ≤ r.stamp) ∧
        s.time.hub.ns < r.fireTime)

/-- Sections 2.1, 2.3, 4.4, 4.5, 7.2 and 13.2 (R17, R18, R72, R76, R124, R125, R126, R192): one tick counts pulses and release
drives down, samples every watched line, and samples REFIN. A falling edge starts the timing of a character, and in IDLE captures
the mark's values; bit n is sampled 63 + 125 n ticks after it. What is found waits in the model's own list
(notes/assumptions/3.md). A stop bit sampled low starts no new character, also where that tick is itself a falling edge, which is
the model's reading (DEDUCED, notes/assumptions/26.md). In a hub reset only RESETn is sampled. -/
def Obligations.TickCountsDownAndSamples : Prop :=
  ∀ (x : PinSample) (s t : State), exec (.tick x) s = .next t →
    t.pins.resetnLow = (if x.resetn then 0 else min 125 (s.pins.resetnLow + 1)) ∧
    (s.inReset = true → t = { s with pins := { s.pins with resetnLow := t.pins.resetnLow } }) ∧
    (s.inReset = false →
      (∀ (l : LineNo) (o : OutputLine), s.lines[l] = .output o → t.lines[l] =
        .output { o with pulse := o.pulse.map fun q => ⟨q.remaining - 1, q.returnLevel⟩ }) ∧
      (∀ (l : LineNo) (d : Option ReleaseDrive), s.lines[l] = .unassigned d → t.lines[l] =
        .unassigned (d.map fun r => ⟨r.level, r.remaining - 1⟩)) ∧
      (∀ (l : LineNo) (c : CaptureLine), s.lines[l] = .capture c → t.lines[l] = .capture c ∧
        ∀ w : Watch, s.watch[l] = some w →
          let high := x.lines.getLsbD l
          ∃ v : Watch, t.watch[l] = some v ∧ v.last = Level.ofBool high ∧ v.holdoff = w.holdoff - 1 ∧
            (v.due = some .rising ↔ w.last = .low ∧ high = true ∧ c.selection ≠ .falling ∧ w.holdoff = 0) ∧
            (v.due = some .falling ↔ w.last = .high ∧ high = false ∧ c.selection ≠ .rising ∧ w.holdoff = 0)) ∧
      (let now := t.time.tickCount
       let idle := s.rx.assembly = .idle
       let sampled : Receiver := { s.rx with refinHigh := x.refin }
       (s.rx.timing = none → s.rx.refinHigh = true → x.refin = false →
          t.rx = { sampled with
            timing := some ⟨now, false, []⟩
            provisional := if idle then some ⟨t.time.hub.ns, now⟩ else s.rx.provisional }) ∧
       (s.rx.timing = none → (s.rx.refinHigh = false ∨ x.refin = true) → t.rx = sampled) ∧
       (∀ c : CharTiming, s.rx.timing = some c →
          (now - c.fall = 63 → x.refin = true → idle →
            t.rx = { sampled with timing := none, provisional := none, adjusts := [] }) ∧
          (now - c.fall = 63 → x.refin = true → ¬ idle → t.rx = { sampled with timing := none }) ∧
          (now - c.fall = 63 → x.refin = false → t.rx = { sampled with
            timing := some { c with started := true }
            found := s.rx.found ++ if idle then [.startBit] else [] }) ∧
          (∀ n, 1 ≤ n → n ≤ 8 → now - c.fall = 63 + 125 * n →
            t.rx = { sampled with timing := some { c with data := c.data ++ [x.refin] } }) ∧
          (now - c.fall = 63 + 125 * 9 → x.refin = true → ∃ b : Byte, (∀ k, k < 8 → b.getLsbD k = c.data.getD k false) ∧
            t.rx = { sampled with timing := none, found := s.rx.found ++ [.character b now] }) ∧
          (now - c.fall = 63 + 125 * 9 → x.refin = false →
            t.rx = { sampled with timing := none, found := s.rx.found ++ [.framingError] }) ∧
          ((∀ n, now - c.fall ≠ 63 + 125 * n) → t.rx = sampled))))

/-- Section 1.6 (R9, R11): the seconds wrap, as a whole next state. The firings of the tick come first, then a step of minus 2^32 s
with cause WRAP, handed on as a backward step to the Session Unit and the Calendar and with its amount to a captured mark; before
the carry it is no event (notes/assumptions/2.md). -/
def Obligations.SecondsWrapIsAStep : Prop :=
  ∀ s : State,
    (s.time.hub.ns < 4294967296000000000 → exec .secondsWrap s = .next s) ∧
    (4294967296000000000 ≤ s.time.hub.ns → s.cal.reached = [] →
      s.time.hub.units < 2 * 4294967296000000000 * 1000000000 →
      ∃ new : HubTime, new.nanoseconds < 1000000000 ∧ new.fraction < 1000000000 ∧
        new.units = s.time.hub.units - 4294967296000000000 * 1000000000 ∧
        let handoff : StepHandoff := ⟨new, -4294967296000000000, .backward, s.time.epoch + 1, .wrap⟩
        exec .secondsWrap s = .next
          { s with
            time := { s.time with
              hub := new
              slew := 0
              epoch := s.time.epoch + 1
              toSession := s.time.toSession ++ [handoff]
              toCalendar := s.time.toCalendar ++ [handoff] }
            rx := { s.rx with
              adjusts := if s.rx.hasMark then s.rx.adjusts ++ [-4294967296000000000] else s.rx.adjusts } }) ∧
    (4294967296000000000 ≤ s.time.hub.ns →
      exec .secondsWrap s = exec .secondsWrap
        (s.cal.reached.foldl takeFiring { s with cal := { s.cal with reached := [] } }))

/-- Sections 1.2, 3.4 and 8.1 (R2, R50, R52, R138): one increment of uptime. It is no event while uptime has counted every whole
ms of the tick count. -/
def Obligations.UptimeIncrementCountsOneMs : Prop :=
  ∀ s : State,
    (s.time.uptime.toNat = s.time.tickCount / 125000 % 2 ^ 32 → exec .uptimeIncrement s = .next s) ∧
    (s.time.uptime.toNat ≠ s.time.tickCount / 125000 % 2 ^ 32 →
      exec .uptimeIncrement s = .next
        { s with
          time := { s.time with uptime := s.time.uptime + 1 }
          leases := s.leases.map fun x => { x with remaining := x.remaining - 1 }
          disc := { s.disc with
            timer := match s.disc.timer with
              | .stopped => .stopped
              | .running n _ => .running (n + 1) (decide (s.disc.params.beaconTimeout ≤ n + 1))
            holdoverElapsed := s.disc.holdoverElapsed + (if s.disc.lock = .holdover then 1 else 0)
            holdoverDue := decide (s.disc.lock = .holdover ∧
              1000 * s.disc.params.holdoverLimit ≤ s.disc.holdoverElapsed + 1) } })

/-- Section 1.6 (R8, R10, R11): a requested step, as a whole next state. It settles its applied amount at the ends of the range,
clears the slew remainder, moves the epoch by one, and is handed on to the Session Unit, the Calendar and a captured mark; fire
times that hub time no longer lies at or after are no longer reached (R106). The target lies below twice the range, as the
largest phase error allows (sections 2.6 and 6.4). The step is measured from hub time as it stands, also between the TICK that
carries past the range and its SECONDS_WRAP, which is the model's reading (DEDUCED, notes/assumptions/23.md). Nothing else changes. -/
def Obligations.StepsAreSettledInRange : Prop :=
  ∀ (c : StepCause) (a : Int) (s : State),
    let range : Nat := 4294967296000000000
    let target : Int := s.time.hub.units + a * 1000000000
    target < 2 * range * 1000000000 →
    let applied : Int := if target < 0 then -(s.time.hub.ns : Int) else if target < range * 1000000000 then a else a - range
    ∃ new : HubTime, new.nanoseconds < 1000000000 ∧ new.fraction < 1000000000 ∧ new.units < range * 1000000000 ∧
      (new.units : Int) = (if target < 0 then 0 else if target < range * 1000000000 then target
        else target - range * 1000000000) ∧
      let direction : Direction := if s.time.hub.units < new.units then .forward
        else if new.units < s.time.hub.units then .backward else .neither
      let handoff : StepHandoff := ⟨new, applied, direction, s.time.epoch + 1, c⟩
      stepBy c a s =
        { s with
          time := { s.time with
            hub := new
            slew := 0
            epoch := s.time.epoch + 1
            toSession := s.time.toSession ++ [handoff]
            toCalendar := s.time.toCalendar ++ [handoff] }
          rx := { s.rx with adjusts := if s.rx.hasMark then s.rx.adjusts ++ [applied] else s.rx.adjusts }
          cal := { s.cal with reached := s.cal.reached.filter fun r => decide (r.fireTime ≤ new.ns) } }

/-- Section 1.6 (R11, R21): the hand-offs of a step to the Session Unit and to the Receiver. -/
def Obligations.StepsAreHandedOn : Prop :=
  (∀ (s : State) (h : StepHandoff) (rest : List StepHandoff), s.time.toSession = h :: rest →
    exec .stepHandoffSession s = .next
      { s with
        time := { s.time with toSession := rest }
        sess := toAll (.stepped h.epoch h.applied h.cause) s }) ∧
  (∀ (s : State) (a : Int) (rest : List Int) (m : Mark) (bytes : List Byte) (last : Option Nat), s.rx.adjusts = a :: rest →
    s.rx.assembly = .receiving m bytes last →
    exec .markAdjust s = .next
      { s with rx := { s.rx with assembly := .receiving ⟨m.hub + a, m.tick⟩ bytes last, adjusts := rest } }) ∧
  (∀ (s : State) (a : Int) (rest : List Int) (m : Mark), s.rx.adjusts = a :: rest → s.rx.assembly = .idle →
    s.rx.provisional = some m →
    exec .markAdjust s = .next
      { s with rx := { s.rx with provisional := some ⟨m.hub + a, m.tick⟩, adjusts := rest } })

/-- Sections 1.1, 1.2 and 1.6 (R1, R2, R10): outside a hub reset only TICK moves the tick count, only UPTIME_INCREMENT moves
uptime, and only the commands that step hub time move the epoch, by one. -/
def Obligations.ClocksMoveOnlyWithTheirEvents : Prop :=
  ∀ (c : Instr) (s t : State), exec c s = .next t → (∀ cause, c ≠ .hubReset cause) → c ≠ .resetRelease →
    s.time.tickCount + 1 < 2 ^ 64 →
    (t.time.tickCount = s.time.tickCount ∨ (∃ x, c = .tick x) ∧ t.time.tickCount = s.time.tickCount + 1) ∧
    (t.time.uptime = s.time.uptime ∨ c = .uptimeIncrement ∧ t.time.uptime = s.time.uptime + 1) ∧
    (t.time.epoch = s.time.epoch ∨
      ((∃ p, c = .setTime p) ∨ c = .secondsWrap ∨ c = .beaconEnd) ∧ t.time.epoch = s.time.epoch + 1)

/-! ### Beacons -/

/-- Section 2.3 (R18, R19): BEACON_MARK, CHARACTER_COMPLETED, BEACON_ABANDONED and GAP_EXPIRY. What was found on REFIN waits in
the model's own list (notes/assumptions/3.md). -/
def Obligations.BeaconsAreAssembledOrAbandoned : Prop :=
  ∀ s : State,
    let abandoned (rest : List RxEvent) : State :=
      { s with rx := { s.rx with
          assembly := .idle
          adjusts := []
          found := rest
          stats := { s.rx.stats with malformed := min 65535 (s.rx.stats.malformed + 1) } } }
    (∀ m rest, s.rx.assembly = .idle → s.rx.found = .startBit :: rest → s.rx.provisional = some m →
      exec .beaconMark s = .next
        { s with rx := { s.rx with assembly := .receiving m [] none, provisional := none, found := rest } }) ∧
    (∀ m bytes last b tick rest, s.rx.assembly = .receiving m bytes last → s.rx.found = .character b tick :: rest →
      bytes.length < 14 → (bytes = [] → b = 0xC3#8) →
      exec .characterCompleted s = .next
        { s with rx := { s.rx with assembly := .receiving m (bytes ++ [b]) (some tick), found := rest } }) ∧
    (∀ m last b tick rest, s.rx.assembly = .receiving m [] last → s.rx.found = .character b tick :: rest → b ≠ 0xC3#8 →
      exec .beaconAbandoned s = .next (abandoned rest)) ∧
    (∀ m bytes last rest, s.rx.assembly = .receiving m bytes last → s.rx.found = .framingError :: rest →
      exec .beaconAbandoned s = .next (abandoned rest)) ∧
    (∀ m bytes last, s.rx.assembly = .receiving m bytes (some last) → s.rx.found = [] →
      exec .gapExpiry s = .next (if last + 2501 ≤ s.time.tickCount ∧ s.rx.timing = none then abandoned [] else s))

/-- Sections 2.5 and 2.6 (R20, R23, R27, R28): the end of a beacon. A beacon that fails its content check or is not accepted has
no effect beyond its count; an accepted one sets the sequence and seed-pending and is handled with its phase error. -/
def Obligations.BeaconsAreClassifiedAtTheirEnd : Prop :=
  ∀ (s : State) (m : Mark) (bytes : List Byte) (last : Option Nat) (c : Byte) (tick : Nat) (rest : List RxEvent),
    s.rx.assembly = .receiving m bytes last → bytes.length = 14 → s.rx.found = .character c tick :: rest →
    let b := bytes ++ [c]
    let source := b.getD 1 0#8
    let seq := BitVec.ofNat 16 (field b 2 2)
    let traceable := (b.getD 4 0#8).getLsbD 0
    let discontinuity := (b.getD 4 0#8).getLsbD 1
    let time := field b 5 4 * 1000000000 + field b 9 4
    let e : Int := (time : Int) + s.rx.linkDelay - (m.hub + s.rx.adjusts.sum)
    let contentOk := b.drop 13 = bytesOf 2 (crc16 (b.take 13)).toNat ∧ field b 9 4 < 1000000000
    let foreign := match s.rx.selection with
      | .none => True
      | .fixed i => i ≠ source
      | .acceptFirst (some i) => i ≠ source
      | .acceptFirst none => False
    let adopts := s.rx.selection = .acceptFirst none
    let old := (seq - s.rx.lastSeq).toNat = 0 ∨ 32768 ≤ (seq - s.rx.lastSeq).toNat
    let counted (n : Stats) : State := { s with rx := { s.rx with assembly := .idle, adjusts := [], found := rest, stats := n } }
    let n := s.rx.stats
    let result := exec .beaconEnd s
    (¬ contentOk → result = .next (counted { n with malformed := min 65535 (n.malformed + 1) })) ∧
    (contentOk → foreign → result = .next (counted { n with foreign := min 65535 (n.foreign + 1) })) ∧
    (contentOk → ¬ foreign → traceable = false →
      result = .next (counted { n with untraceable := min 65535 (n.untraceable + 1) })) ∧
    (contentOk → ¬ foreign → traceable = true → ¬ adopts → s.rx.seedPending = false → discontinuity = false → old →
      result = .next (counted { n with duplicate := min 65535 (n.duplicate + 1) })) ∧
    (contentOk → ¬ foreign → traceable = true → adopts →
      let t := counted { n with seed := min 65535 (n.seed + 1) }
      result = .next (handleBeacon .seed e m.tick
        { t with
          rx := { t.rx with selection := .acceptFirst (some source), seedPending := false, lastSeq := seq }
          sess := toAll (.referenceChanged .adopted (.acceptFirst (some source))) s })) ∧
    (contentOk → ¬ foreign → traceable = true → ¬ adopts → s.rx.seedPending = true ∨ discontinuity = true →
      let t := counted { n with seed := min 65535 (n.seed + 1) }
      result = .next (handleBeacon .seed e m.tick { t with rx := { t.rx with seedPending := false, lastSeq := seq } })) ∧
    (contentOk → ¬ foreign → traceable = true → ¬ adopts → s.rx.seedPending = false → discontinuity = false → ¬ old →
      let t := counted { n with usable := min 65535 (n.usable + 1) }
      result = .next (handleBeacon .usable e m.tick { t with rx := { t.rx with lastSeq := seq } }))

/-- Sections 3.2, 3.3 and 3.5 (R39 to R49, R54): what the Discipline Unit does with one beacon in each lock state: the lock state
it leaves, whether it steps, applies or ignores the beacon, the trim update, and the LOCK_CHANGED notices with cause BEACON. The
notice from HOLDOVER to LOCKED carries the last applied error from before the beacon, which is the model's reading (DEDUCED,
notes/assumptions/19.md). A step is the one that stepBy gives, with its amount for a captured mark. Lines, entries, leases,
ports and all else stay. -/
def Obligations.BeaconsAreHandledByLockState : Prop :=
  ∀ (c : BeaconClass) (e : Int) (tick : Nat) (s : State),
    let t := handleBeacon c e tick s
    let x := s.disc.params
    let ignored := s.disc.lock = .locked ∧ c = .usable ∧ x.lockWindow < e.natAbs
    let direct := (s.disc.lock = .locked ∨ s.disc.lock = .holdover) ∧ c = .usable ∧ e.natAbs ≤ x.lockWindow
    let seed := s.disc.lock = .free ∨ s.disc.lock = .holdover ∨ c = .seed
    let start := if s.disc.lock = .acquire then s.disc.inWindow else 0
    let stepped := ¬ ignored ∧ ¬ direct ∧ x.stepThreshold < e.natAbs
    let locks := ¬ direct ∧ e.natAbs ≤ x.stepThreshold ∧ e.natAbs ≤ x.lockWindow ∧ x.lockCount ≤ start + 1
    let changed (old new : LockState) (error : Int) (v : Vector Session 4) : Vector Session 4 :=
      mapVec (Session.push ⟨.lockChanged old new .beacon error, s.time.uptime⟩) v
    let entered := if s.disc.lock = .acquire then s.sess else changed s.disc.lock .acquire s.disc.lastError s.sess
    (ignored → t.time = s.time ∧ t.disc.lastError = s.disc.lastError ∧ t.disc.lastMark = s.disc.lastMark ∧
      t.rx = { s.rx with stats := { s.rx.stats with outlier := min 65535 (s.rx.stats.outlier + 1) } } ∧
      t.disc.timer = .running 0 false ∧
      (s.disc.outliers + 1 < x.unlockCount → t.disc.lock = .locked ∧ t.disc.outliers = s.disc.outliers + 1 ∧
        t.disc.inWindow = s.disc.inWindow ∧ t.sess = s.sess) ∧
      (x.unlockCount ≤ s.disc.outliers + 1 → t.disc.lock = .acquire ∧ t.disc.outliers = 0 ∧ t.disc.inWindow = 0 ∧
        t.sess = changed .locked .acquire s.disc.lastError s.sess)) ∧
    (direct → t.disc.lock = .locked ∧ t.disc.outliers = 0 ∧ t.disc.timer = .running 0 false ∧
      t.disc.inWindow = (if s.disc.lock = .locked then s.disc.inWindow else 0) ∧
      t.sess = (if s.disc.lock = .locked then s.sess else changed .holdover .locked s.disc.lastError s.sess)) ∧
    (stepped → t.disc.lock = .acquire ∧ t.disc.inWindow = 0 ∧ t.disc.timer = .running 0 false ∧ t.sess = entered ∧
      t.time = (stepBy .discipline e s).time ∧ t.rx = (stepBy .discipline e s).rx ∧
      t.cal = (stepBy .discipline e s).cal) ∧
    (¬ ignored → ¬ direct → e.natAbs ≤ x.stepThreshold → x.lockWindow < e.natAbs →
      t.disc.lock = .acquire ∧ t.disc.inWindow = 0 ∧ t.disc.timer = .running 0 false ∧ t.sess = entered) ∧
    (¬ ignored → ¬ direct → e.natAbs ≤ x.stepThreshold → e.natAbs ≤ x.lockWindow → t.disc.timer = .running 0 false ∧
      (start + 1 < x.lockCount → t.disc.lock = .acquire ∧ t.disc.inWindow = start + 1 ∧ t.sess = entered) ∧
      (x.lockCount ≤ start + 1 → t.disc.lock = .locked ∧ t.disc.inWindow = 0 ∧
        t.sess = changed .acquire .locked e entered)) ∧
    (¬ ignored → ¬ direct → t.disc.outliers = if s.disc.lock = .acquire ∧ ¬ locks then s.disc.outliers else 0) ∧
    (¬ ignored → t.disc.lastError = e ∧ t.disc.lastMark = some tick) ∧
    (¬ ignored → (direct ∨ e.natAbs ≤ x.stepThreshold) →
      t.time = { s.time with slew := e * 1000000000, trim := t.time.trim, trimLimit := t.time.trimLimit } ∧
      ((¬ direct ∧ seed) ∨ s.disc.lastMark = none → t.time.trim = s.time.trim ∧ t.time.trimLimit = s.time.trimLimit) ∧
      (direct ∨ ¬ seed → ∀ last, s.disc.lastMark = some last →
        let interval := (tick - last) / 125
        let v := s.time.trim + Int.tdiv (e * 1000000) ((interval * 2 ^ x.gainShift : Nat) : Int)
        (interval < 1000 → t.time.trim = s.time.trim ∧ t.time.trimLimit = s.time.trimLimit) ∧
        (1000 ≤ interval → t.time.trim = max (-100000) (min 100000 v) ∧
          t.time.trimLimit = decide (v < -100000 ∨ 100000 < v)))) ∧
    (¬ ignored → ¬ stepped → t.rx = s.rx) ∧ (¬ stepped → t.cal = s.cal) ∧
    t.disc.params = x ∧ t.disc.holdoverElapsed = s.disc.holdoverElapsed ∧
    t.lines = s.lines ∧ t.watch = s.watch ∧ t.caps = s.caps ∧ t.leases = s.leases ∧ t.authority = s.authority ∧
    t.ports = s.ports ∧ t.pins = s.pins ∧ t.inReset = s.inReset ∧ t.freeCount = s.freeCount ∧ t.pending = s.pending

/-- Section 3.4 (R51, R52): the expiry of the beacon timeout, and the reaching of the holdover limit. -/
def Obligations.TimeoutsChangeTheLockState : Prop :=
  ∀ (s : State),
    let lockTo (new : LockState) (cause : LockCause) : State :=
      { s with
        disc := { s.disc with
          lock := new
          inWindow := 0
          outliers := 0
          timer := .stopped
          holdoverElapsed := if new = .holdover then 0 else s.disc.holdoverElapsed
          holdoverDue := false }
        sess := toAll (.lockChanged s.disc.lock new cause s.disc.lastError) s }
    let told (t : State) : State := match s.rx.selection with
      | .acceptFirst (some _) =>
        { t with
          rx := { s.rx with seedPending := true, selection := .acceptFirst none }
          sess := mapVec (Session.push ⟨.referenceChanged .dropped (.acceptFirst none), s.time.uptime⟩) t.sess }
      | _ => { t with rx := { s.rx with seedPending := true } }
    (∀ n, s.disc.timer = .running n true → s.disc.params.beaconTimeout ≤ n →
      (s.disc.lock = .acquire → exec .beaconTimeoutExpiry s = .next (told (lockTo .free .timeout))) ∧
      (s.disc.lock = .locked → exec .beaconTimeoutExpiry s = .next (lockTo .holdover .timeout))) ∧
    (s.disc.lock = .holdover → s.disc.holdoverDue = true →
      1000 * s.disc.params.holdoverLimit ≤ s.disc.holdoverElapsed →
      exec .holdoverLimitReached s = .next (told (lockTo .free .holdoverLimit)))

/-! ### Captures -/

/-- Sections 7.3 and 7.4 (R126, R127, R129, R130, R131): EDGE_STAMPED copies one record to every subscriber and starts the holdoff.
The copy goes to the end of each queue, but among the records stamped on the same tick, those that the model's own count `fresh`
counts, its place is free for each port (notes/assumptions/24.md); the lost counts stay in their places, and at 32 records the
record in the last place is lost. The records of a batch that a frame has fixed stay as they are. -/
def Obligations.EdgesAreStampedForEverySubscriber : Prop :=
  ∀ (l : LineNo) (c : CaptureLine) (w : Watch) (e : Edge) (s : State), s.lines[l] = .capture c → s.watch[l] = some w →
    w.due = some e → c.subscribers.Nodup →
    let new : CaptureRecord := ⟨l, e, s.reportedTime, s.time.epoch, s.disc.lock, 0⟩
    let bare (r : CaptureRecord) : CaptureRecord := { r with lost := 0 }
    ∃ t : State, exec (.edgeStamped l) s = .next t ∧
      t.watch = s.watch.set l (some ⟨w.last, c.holdoff, none⟩) ∧
      (∀ p : Port, p ∉ c.subscribers → t.caps[p] = s.caps[p]) ∧
      (∀ p : Port, p ∈ c.subscribers →
        let x := s.caps[p]
        ∃ before group after : List CaptureRecord, x.queue = before ++ group ∧
          x.queue.take (x.batch.getD 0) <+: before ∧ group.length ≤ x.fresh ∧
          (∀ y ∈ group, y.stamp = s.reportedTime ∧ y.epoch = s.time.epoch) ∧
          (after.map bare).Perm (group.map bare ++ [new]) ∧
          after.map CaptureRecord.lost = group.map CaptureRecord.lost ++ [x.lost] ∧
          t.caps[p] = (if x.queue.length < 32 then { x with queue := before ++ after, lost := 0, fresh := x.fresh + 1 }
            else { x with queue := before ++ after.dropLast, lost := min 255 (x.lost + 1) })) ∧
      { t with watch := s.watch, caps := s.caps, freeCount := s.freeCount } = s

/-! ### Encodings -/

/-- Section 11.1 (R183): a quantity of k bytes, most significant byte first, reads back modulo 2^(8k), signed ones in two's
complement. -/
def Obligations.BigEndianReadsBack : Prop :=
  (∀ k n : Nat, (bytesOf k n).length = k ∧ natOf (bytesOf k n) = n % 256 ^ k) ∧
  (∀ (k : Nat) (i : Int), 0 < k → (bytesOfInt k i).length = k ∧ (natOf (bytesOfInt k i) : Int) = i % (256 ^ k : Int)) ∧
  (∀ (l : List Byte), bytesOf l.length (natOf l) = l)

/-- Sections 11.4 to 11.6 (R186, R187, R188): the codes of lock states, selection modes, levels and edge selections, and the 20
bytes of a capture record and of a notice record of each kind. -/
def Obligations.RecordsAreLaidOut : Prop :=
  let time (t : Nat) : List Byte := bytesOf 4 (t / 1000000000) ++ bytesOf 4 (t % 1000000000)
  let port (p : Option Port) : Byte := match p with
    | some q => BitVec.ofNat 8 q.val
    | none => 0xFF#8
  let lock (x : LockState) : Byte := match x with
    | .free => 0#8
    | .acquire => 1#8
    | .locked => 2#8
    | .holdover => 3#8
  let mode (x : Selection) : Byte := match x with
    | .none => 0#8
    | .fixed _ => 1#8
    | .acceptFirst _ => 2#8
  ((∀ x : LockState, x.code = lock x) ∧ (∀ x : Selection, x.modeCode = mode x) ∧
    (Level.low.code = 0#8 ∧ Level.high.code = 1#8) ∧
    (EdgeSelection.rising.code = 1#8 ∧ EdgeSelection.falling.code = 2#8 ∧ EdgeSelection.both.code = 3#8)) ∧
  (∀ r : CaptureRecord, (captureBytes r).length = 20 ∧ captureBytes r =
    [BitVec.ofNat 8 r.line.val, (match r.edge with | .rising => 1#8 | .falling => 2#8)] ++ time r.stamp ++
      bytesOf 2 r.epoch.toNat ++ [lock r.lock] ++ bytesOf 1 r.lost ++ [0#8, 0#8, 0#8, 0#8, 0#8, 0#8]) ∧
  (∀ (b : NoticeBody) (up : BitVec 32), (noticeBytes ⟨b, up⟩).length = 20 ∧ noticeBytes ⟨b, up⟩ =
    match b with
    | .fired i g t e n late last => [1#8, BitVec.ofNat 8 (late.toNat + 2 * last.toNat)] ++ bytesOf 4 up.toNat ++
        ([BitVec.ofNat 8 i.val, g] ++ time t ++ bytesOf 2 e.toNat ++ bytesOf 2 n)
    | .missed i g t e n last => [2#8, BitVec.ofNat 8 (2 * last.toNat)] ++ bytesOf 4 up.toNat ++
        ([BitVec.ofNat 8 i.val, g] ++ time t ++ bytesOf 2 e.toNat ++ bytesOf 2 n)
    | .voided i g t e n => [3#8, 0#8] ++ bytesOf 4 up.toNat ++
        ([BitVec.ofNat 8 i.val, g] ++ time t ++ bytesOf 2 e.toNat ++ bytesOf 2 (n.getD 0))
    | .leaseLost r k n => [4#8, 0#8] ++ bytesOf 4 up.toNat ++
        ([(match r with | .line l => BitVec.ofNat 8 l.val | .authority => 0x10#8),
          (match k with | .output => 1#8 | .subscription => 2#8 | .authority => 3#8)] ++ bytesOf 1 n ++
          List.replicate 11 0#8)
    | .stepped e a k => [5#8, 0#8] ++ bytesOf 4 up.toNat ++
        (bytesOf 2 e.toNat ++ bytesOfInt 8 a ++
          [(match k with | .discipline => 1#8 | .setTime => 2#8 | .wrap => 3#8), 0#8, 0#8, 0#8])
    | .lockChanged o n k e => [6#8, 0#8] ++ bytesOf 4 up.toNat ++
        ([lock o, lock n, (match k with
          | .beacon => 1#8 | .timeout => 2#8 | .holdoverLimit => 3#8 | .selection => 4#8 | .flush => 5#8),
          0#8, 0#8, 0#8] ++ bytesOfInt 8 e)
    | .authorityChanged o n k ms => [7#8, 0#8] ++ bytesOf 4 up.toNat ++
        ([port o, port n, (match k with | .claim => 1#8 | .release => 2#8 | .expiry => 3#8 | .teardown => 4#8), 0#8] ++
          bytesOf 2 ms ++ List.replicate 8 0#8)
    | .referenceChanged k x => [8#8, 0#8] ++ bytesOf 4 up.toNat ++
        ([(match k with | .adopted => 1#8 | .dropped => 2#8 | .selected => 3#8), mode x,
          (if x.idInEffect.isSome then 1#8 else 0#8), x.idInEffect.getD 0#8] ++ List.replicate 10 0#8))

/-! ### Invariants -/

/-- Sections 7.4, 7.5, 9.3 and 9.4 (R130, R132, R163, R164): every step keeps the bounds of the notice and capture queues, and the
records of a fixed batch apart from those whose order may still be drawn (notes/assumptions/24.md). -/
def Obligations.StepKeepsTheQueuesBounded : Prop :=
  ∀ s t : State, QueuesOk s → step s = .next t → QueuesOk t

/-- Sections 1.3, 1.5 and 3.6 (R3, R5, R7, R55): every step keeps the nanoseconds and fraction of hub time, the trim, the slew
remainder and the discipline parameters in their ranges. The seconds field has no bound here: between a TICK that carries it past
its range and the SECONDS_WRAP it stands beyond (DEDUCED, notes/assumptions/9.md). The tick count is left out: past its last value
it is a free value (notes/assumptions/8.md). -/
def Obligations.StepKeepsTheTimebaseInRange : Prop :=
  ∀ s t : State, TimeOk s → step s = .next t → TimeOk t

/-- Section 5.3 (R87): every step keeps each port's entry count the number of entries it owns and within its quota, and the sum
of the quotas at most 64. -/
def Obligations.StepKeepsTheQuotas : Prop :=
  ∀ s t : State, QuotaOk s → step s = .next t → QuotaOk t

/-- Sections 5.1, 5.4 and 6.1 (R82, R92, R106): every step keeps the fields of every entry in their ranges, and the entries of one
line apart: no two share a fire time, at most one is periodic, and no one-shot lies on that one's grid. -/
def Obligations.StepKeepsTheEntriesApart : Prop :=
  ∀ s t : State, CalendarOk s → step s = .next t → CalendarOk t

/-- Sections 4.1, 5.4, 7.1, 8.1, 8.5 and 9.2 (R60, R89, R123, R137, R148, R160): every step keeps all holdings with attached ports,
one lease for each holding and no other lease, every entry on a line that its owner holds, and watching with CAPTURE mode. -/
def Obligations.StepKeepsTheHoldings : Prop :=
  ∀ s t : State, HoldingsOk s → step s = .next t → HoldingsOk t

/-- Sections 2.4 and 3.1 (R22, R38, R43, R50): every step keeps the lock state consistent with the source id in effect, the
seed-pending flag, the timer and the counts. -/
def Obligations.StepKeepsTheLockState : Prop :=
  ∀ s t : State, LockOk s → step s = .next t → LockOk t

/-- The state after reset meets every invariant. -/
def Obligations.ResetMeetsTheInvariants : Prop :=
  QueuesOk State.reset ∧ TimeOk State.reset ∧ QuotaOk State.reset ∧ CalendarOk State.reset ∧
  HoldingsOk State.reset ∧ LockOk State.reset
end

