-- ==== Sys2Proof/Laws/State.lean ====
section
/-! SUPPORT. One lemma for each field of each state update, each true by unfolding the update once, so that no later proof
unfolds a record update. The last section does the same for the fields inside `cal` and `time`. -/

namespace Sys2Proof.Machine

/-! ### State.setSess -/

@[simp] theorem State.setSess_time (s : State) (p : Port) (x : Session) : (s.setSess p x).time = s.time := rfl
@[simp] theorem State.setSess_rx (s : State) (p : Port) (x : Session) : (s.setSess p x).rx = s.rx := rfl
@[simp] theorem State.setSess_disc (s : State) (p : Port) (x : Session) : (s.setSess p x).disc = s.disc := rfl
@[simp] theorem State.setSess_lines (s : State) (p : Port) (x : Session) : (s.setSess p x).lines = s.lines := rfl
@[simp] theorem State.setSess_cal (s : State) (p : Port) (x : Session) : (s.setSess p x).cal = s.cal := rfl
@[simp] theorem State.setSess_watch (s : State) (p : Port) (x : Session) : (s.setSess p x).watch = s.watch := rfl
@[simp] theorem State.setSess_caps (s : State) (p : Port) (x : Session) : (s.setSess p x).caps = s.caps := rfl
@[simp] theorem State.setSess_leases (s : State) (p : Port) (x : Session) : (s.setSess p x).leases = s.leases := rfl
@[simp] theorem State.setSess_authority (s : State) (p : Port) (x : Session) : (s.setSess p x).authority = s.authority := rfl
@[simp] theorem State.setSess_sess (s : State) (p : Port) (x : Session) :
    (s.setSess p x).sess = s.sess.set p x := rfl
@[simp] theorem State.setSess_ports (s : State) (p : Port) (x : Session) : (s.setSess p x).ports = s.ports := rfl
@[simp] theorem State.setSess_pins (s : State) (p : Port) (x : Session) : (s.setSess p x).pins = s.pins := rfl
@[simp] theorem State.setSess_inReset (s : State) (p : Port) (x : Session) : (s.setSess p x).inReset = s.inReset := rfl
@[simp] theorem State.setSess_freeCount (s : State) (p : Port) (x : Session) : (s.setSess p x).freeCount = s.freeCount := rfl
@[simp] theorem State.setSess_pending (s : State) (p : Port) (x : Session) : (s.setSess p x).pending = s.pending := rfl

/-! ### State.setPort -/

@[simp] theorem State.setPort_time (s : State) (p : Port) (x : HostPort) : (s.setPort p x).time = s.time := rfl
@[simp] theorem State.setPort_rx (s : State) (p : Port) (x : HostPort) : (s.setPort p x).rx = s.rx := rfl
@[simp] theorem State.setPort_disc (s : State) (p : Port) (x : HostPort) : (s.setPort p x).disc = s.disc := rfl
@[simp] theorem State.setPort_lines (s : State) (p : Port) (x : HostPort) : (s.setPort p x).lines = s.lines := rfl
@[simp] theorem State.setPort_cal (s : State) (p : Port) (x : HostPort) : (s.setPort p x).cal = s.cal := rfl
@[simp] theorem State.setPort_watch (s : State) (p : Port) (x : HostPort) : (s.setPort p x).watch = s.watch := rfl
@[simp] theorem State.setPort_caps (s : State) (p : Port) (x : HostPort) : (s.setPort p x).caps = s.caps := rfl
@[simp] theorem State.setPort_leases (s : State) (p : Port) (x : HostPort) : (s.setPort p x).leases = s.leases := rfl
@[simp] theorem State.setPort_authority (s : State) (p : Port) (x : HostPort) : (s.setPort p x).authority = s.authority := rfl
@[simp] theorem State.setPort_sess (s : State) (p : Port) (x : HostPort) : (s.setPort p x).sess = s.sess := rfl
@[simp] theorem State.setPort_ports (s : State) (p : Port) (x : HostPort) :
    (s.setPort p x).ports = s.ports.set p x := rfl
@[simp] theorem State.setPort_pins (s : State) (p : Port) (x : HostPort) : (s.setPort p x).pins = s.pins := rfl
@[simp] theorem State.setPort_inReset (s : State) (p : Port) (x : HostPort) : (s.setPort p x).inReset = s.inReset := rfl
@[simp] theorem State.setPort_freeCount (s : State) (p : Port) (x : HostPort) : (s.setPort p x).freeCount = s.freeCount := rfl
@[simp] theorem State.setPort_pending (s : State) (p : Port) (x : HostPort) : (s.setPort p x).pending = s.pending := rfl

/-! ### State.setCap -/

@[simp] theorem State.setCap_time (s : State) (p : Port) (x : CapturePort) : (s.setCap p x).time = s.time := rfl
@[simp] theorem State.setCap_rx (s : State) (p : Port) (x : CapturePort) : (s.setCap p x).rx = s.rx := rfl
@[simp] theorem State.setCap_disc (s : State) (p : Port) (x : CapturePort) : (s.setCap p x).disc = s.disc := rfl
@[simp] theorem State.setCap_lines (s : State) (p : Port) (x : CapturePort) : (s.setCap p x).lines = s.lines := rfl
@[simp] theorem State.setCap_cal (s : State) (p : Port) (x : CapturePort) : (s.setCap p x).cal = s.cal := rfl
@[simp] theorem State.setCap_watch (s : State) (p : Port) (x : CapturePort) : (s.setCap p x).watch = s.watch := rfl
@[simp] theorem State.setCap_caps (s : State) (p : Port) (x : CapturePort) :
    (s.setCap p x).caps = s.caps.set p x := rfl
@[simp] theorem State.setCap_leases (s : State) (p : Port) (x : CapturePort) : (s.setCap p x).leases = s.leases := rfl
@[simp] theorem State.setCap_authority (s : State) (p : Port) (x : CapturePort) : (s.setCap p x).authority = s.authority := rfl
@[simp] theorem State.setCap_sess (s : State) (p : Port) (x : CapturePort) : (s.setCap p x).sess = s.sess := rfl
@[simp] theorem State.setCap_ports (s : State) (p : Port) (x : CapturePort) : (s.setCap p x).ports = s.ports := rfl
@[simp] theorem State.setCap_pins (s : State) (p : Port) (x : CapturePort) : (s.setCap p x).pins = s.pins := rfl
@[simp] theorem State.setCap_inReset (s : State) (p : Port) (x : CapturePort) : (s.setCap p x).inReset = s.inReset := rfl
@[simp] theorem State.setCap_freeCount (s : State) (p : Port) (x : CapturePort) : (s.setCap p x).freeCount = s.freeCount := rfl
@[simp] theorem State.setCap_pending (s : State) (p : Port) (x : CapturePort) : (s.setCap p x).pending = s.pending := rfl

/-! ### State.setLine -/

@[simp] theorem State.setLine_time (s : State) (l : LineNo) (x : LineRecord) : (s.setLine l x).time = s.time := rfl
@[simp] theorem State.setLine_rx (s : State) (l : LineNo) (x : LineRecord) : (s.setLine l x).rx = s.rx := rfl
@[simp] theorem State.setLine_disc (s : State) (l : LineNo) (x : LineRecord) : (s.setLine l x).disc = s.disc := rfl
@[simp] theorem State.setLine_lines (s : State) (l : LineNo) (x : LineRecord) :
    (s.setLine l x).lines = s.lines.set l x := rfl
@[simp] theorem State.setLine_cal (s : State) (l : LineNo) (x : LineRecord) : (s.setLine l x).cal = s.cal := rfl
@[simp] theorem State.setLine_watch (s : State) (l : LineNo) (x : LineRecord) : (s.setLine l x).watch = s.watch := rfl
@[simp] theorem State.setLine_caps (s : State) (l : LineNo) (x : LineRecord) : (s.setLine l x).caps = s.caps := rfl
@[simp] theorem State.setLine_leases (s : State) (l : LineNo) (x : LineRecord) : (s.setLine l x).leases = s.leases := rfl
@[simp] theorem State.setLine_authority (s : State) (l : LineNo) (x : LineRecord) : (s.setLine l x).authority = s.authority := rfl
@[simp] theorem State.setLine_sess (s : State) (l : LineNo) (x : LineRecord) : (s.setLine l x).sess = s.sess := rfl
@[simp] theorem State.setLine_ports (s : State) (l : LineNo) (x : LineRecord) : (s.setLine l x).ports = s.ports := rfl
@[simp] theorem State.setLine_pins (s : State) (l : LineNo) (x : LineRecord) : (s.setLine l x).pins = s.pins := rfl
@[simp] theorem State.setLine_inReset (s : State) (l : LineNo) (x : LineRecord) : (s.setLine l x).inReset = s.inReset := rfl
@[simp] theorem State.setLine_freeCount (s : State) (l : LineNo) (x : LineRecord) : (s.setLine l x).freeCount = s.freeCount := rfl
@[simp] theorem State.setLine_pending (s : State) (l : LineNo) (x : LineRecord) : (s.setLine l x).pending = s.pending := rfl

/-! ### State.setWatch -/

@[simp] theorem State.setWatch_time (s : State) (l : LineNo) (x : Option Watch) : (s.setWatch l x).time = s.time := rfl
@[simp] theorem State.setWatch_rx (s : State) (l : LineNo) (x : Option Watch) : (s.setWatch l x).rx = s.rx := rfl
@[simp] theorem State.setWatch_disc (s : State) (l : LineNo) (x : Option Watch) : (s.setWatch l x).disc = s.disc := rfl
@[simp] theorem State.setWatch_lines (s : State) (l : LineNo) (x : Option Watch) : (s.setWatch l x).lines = s.lines := rfl
@[simp] theorem State.setWatch_cal (s : State) (l : LineNo) (x : Option Watch) : (s.setWatch l x).cal = s.cal := rfl
@[simp] theorem State.setWatch_watch (s : State) (l : LineNo) (x : Option Watch) :
    (s.setWatch l x).watch = s.watch.set l x := rfl
@[simp] theorem State.setWatch_caps (s : State) (l : LineNo) (x : Option Watch) : (s.setWatch l x).caps = s.caps := rfl
@[simp] theorem State.setWatch_leases (s : State) (l : LineNo) (x : Option Watch) : (s.setWatch l x).leases = s.leases := rfl
@[simp] theorem State.setWatch_authority (s : State) (l : LineNo) (x : Option Watch) : (s.setWatch l x).authority = s.authority := rfl
@[simp] theorem State.setWatch_sess (s : State) (l : LineNo) (x : Option Watch) : (s.setWatch l x).sess = s.sess := rfl
@[simp] theorem State.setWatch_ports (s : State) (l : LineNo) (x : Option Watch) : (s.setWatch l x).ports = s.ports := rfl
@[simp] theorem State.setWatch_pins (s : State) (l : LineNo) (x : Option Watch) : (s.setWatch l x).pins = s.pins := rfl
@[simp] theorem State.setWatch_inReset (s : State) (l : LineNo) (x : Option Watch) : (s.setWatch l x).inReset = s.inReset := rfl
@[simp] theorem State.setWatch_freeCount (s : State) (l : LineNo) (x : Option Watch) : (s.setWatch l x).freeCount = s.freeCount := rfl
@[simp] theorem State.setWatch_pending (s : State) (l : LineNo) (x : Option Watch) : (s.setWatch l x).pending = s.pending := rfl

/-! ### State.setSlot -/

@[simp] theorem State.setSlot_time (s : State) (i : SlotNo) (x : Slot) : (s.setSlot i x).time = s.time := rfl
@[simp] theorem State.setSlot_rx (s : State) (i : SlotNo) (x : Slot) : (s.setSlot i x).rx = s.rx := rfl
@[simp] theorem State.setSlot_disc (s : State) (i : SlotNo) (x : Slot) : (s.setSlot i x).disc = s.disc := rfl
@[simp] theorem State.setSlot_lines (s : State) (i : SlotNo) (x : Slot) : (s.setSlot i x).lines = s.lines := rfl
@[simp] theorem State.setSlot_cal (s : State) (i : SlotNo) (x : Slot) :
    (s.setSlot i x).cal = { s.cal with slots := s.cal.slots.set i x } := rfl
@[simp] theorem State.setSlot_watch (s : State) (i : SlotNo) (x : Slot) : (s.setSlot i x).watch = s.watch := rfl
@[simp] theorem State.setSlot_caps (s : State) (i : SlotNo) (x : Slot) : (s.setSlot i x).caps = s.caps := rfl
@[simp] theorem State.setSlot_leases (s : State) (i : SlotNo) (x : Slot) : (s.setSlot i x).leases = s.leases := rfl
@[simp] theorem State.setSlot_authority (s : State) (i : SlotNo) (x : Slot) : (s.setSlot i x).authority = s.authority := rfl
@[simp] theorem State.setSlot_sess (s : State) (i : SlotNo) (x : Slot) : (s.setSlot i x).sess = s.sess := rfl
@[simp] theorem State.setSlot_ports (s : State) (i : SlotNo) (x : Slot) : (s.setSlot i x).ports = s.ports := rfl
@[simp] theorem State.setSlot_pins (s : State) (i : SlotNo) (x : Slot) : (s.setSlot i x).pins = s.pins := rfl
@[simp] theorem State.setSlot_inReset (s : State) (i : SlotNo) (x : Slot) : (s.setSlot i x).inReset = s.inReset := rfl
@[simp] theorem State.setSlot_freeCount (s : State) (i : SlotNo) (x : Slot) : (s.setSlot i x).freeCount = s.freeCount := rfl
@[simp] theorem State.setSlot_pending (s : State) (i : SlotNo) (x : Slot) : (s.setSlot i x).pending = s.pending := rfl

/-! ### State.setCount -/

@[simp] theorem State.setCount_time (s : State) (p : Port) (n : Nat) : (s.setCount p n).time = s.time := rfl
@[simp] theorem State.setCount_rx (s : State) (p : Port) (n : Nat) : (s.setCount p n).rx = s.rx := rfl
@[simp] theorem State.setCount_disc (s : State) (p : Port) (n : Nat) : (s.setCount p n).disc = s.disc := rfl
@[simp] theorem State.setCount_lines (s : State) (p : Port) (n : Nat) : (s.setCount p n).lines = s.lines := rfl
@[simp] theorem State.setCount_cal (s : State) (p : Port) (n : Nat) :
    (s.setCount p n).cal = { s.cal with count := s.cal.count.set p n } := rfl
@[simp] theorem State.setCount_watch (s : State) (p : Port) (n : Nat) : (s.setCount p n).watch = s.watch := rfl
@[simp] theorem State.setCount_caps (s : State) (p : Port) (n : Nat) : (s.setCount p n).caps = s.caps := rfl
@[simp] theorem State.setCount_leases (s : State) (p : Port) (n : Nat) : (s.setCount p n).leases = s.leases := rfl
@[simp] theorem State.setCount_authority (s : State) (p : Port) (n : Nat) : (s.setCount p n).authority = s.authority := rfl
@[simp] theorem State.setCount_sess (s : State) (p : Port) (n : Nat) : (s.setCount p n).sess = s.sess := rfl
@[simp] theorem State.setCount_ports (s : State) (p : Port) (n : Nat) : (s.setCount p n).ports = s.ports := rfl
@[simp] theorem State.setCount_pins (s : State) (p : Port) (n : Nat) : (s.setCount p n).pins = s.pins := rfl
@[simp] theorem State.setCount_inReset (s : State) (p : Port) (n : Nat) : (s.setCount p n).inReset = s.inReset := rfl
@[simp] theorem State.setCount_freeCount (s : State) (p : Port) (n : Nat) : (s.setCount p n).freeCount = s.freeCount := rfl
@[simp] theorem State.setCount_pending (s : State) (p : Port) (n : Nat) : (s.setCount p n).pending = s.pending := rfl

/-! ### placeEntry -/

@[simp] theorem placeEntry_time (s : State) (i : SlotNo) (e : Entry) : (placeEntry i e s).time = s.time := rfl
@[simp] theorem placeEntry_rx (s : State) (i : SlotNo) (e : Entry) : (placeEntry i e s).rx = s.rx := rfl
@[simp] theorem placeEntry_disc (s : State) (i : SlotNo) (e : Entry) : (placeEntry i e s).disc = s.disc := rfl
@[simp] theorem placeEntry_lines (s : State) (i : SlotNo) (e : Entry) : (placeEntry i e s).lines = s.lines := rfl
@[simp] theorem placeEntry_cal (s : State) (i : SlotNo) (e : Entry) :
    (placeEntry i e s).cal = { s.cal with slots := s.cal.slots.set i ⟨s.cal.slots[i].generation, some e⟩ } := rfl
@[simp] theorem placeEntry_watch (s : State) (i : SlotNo) (e : Entry) : (placeEntry i e s).watch = s.watch := rfl
@[simp] theorem placeEntry_caps (s : State) (i : SlotNo) (e : Entry) : (placeEntry i e s).caps = s.caps := rfl
@[simp] theorem placeEntry_leases (s : State) (i : SlotNo) (e : Entry) : (placeEntry i e s).leases = s.leases := rfl
@[simp] theorem placeEntry_authority (s : State) (i : SlotNo) (e : Entry) : (placeEntry i e s).authority = s.authority := rfl
@[simp] theorem placeEntry_sess (s : State) (i : SlotNo) (e : Entry) : (placeEntry i e s).sess = s.sess := rfl
@[simp] theorem placeEntry_ports (s : State) (i : SlotNo) (e : Entry) : (placeEntry i e s).ports = s.ports := rfl
@[simp] theorem placeEntry_pins (s : State) (i : SlotNo) (e : Entry) : (placeEntry i e s).pins = s.pins := rfl
@[simp] theorem placeEntry_inReset (s : State) (i : SlotNo) (e : Entry) : (placeEntry i e s).inReset = s.inReset := rfl
@[simp] theorem placeEntry_freeCount (s : State) (i : SlotNo) (e : Entry) : (placeEntry i e s).freeCount = s.freeCount := rfl
@[simp] theorem placeEntry_pending (s : State) (i : SlotNo) (e : Entry) : (placeEntry i e s).pending = s.pending := rfl

/-! ### notify -/

@[simp] theorem notify_time (s : State) (p : Port) (b : NoticeBody) : (notify p b s).time = s.time := rfl
@[simp] theorem notify_rx (s : State) (p : Port) (b : NoticeBody) : (notify p b s).rx = s.rx := rfl
@[simp] theorem notify_disc (s : State) (p : Port) (b : NoticeBody) : (notify p b s).disc = s.disc := rfl
@[simp] theorem notify_lines (s : State) (p : Port) (b : NoticeBody) : (notify p b s).lines = s.lines := rfl
@[simp] theorem notify_cal (s : State) (p : Port) (b : NoticeBody) : (notify p b s).cal = s.cal := rfl
@[simp] theorem notify_watch (s : State) (p : Port) (b : NoticeBody) : (notify p b s).watch = s.watch := rfl
@[simp] theorem notify_caps (s : State) (p : Port) (b : NoticeBody) : (notify p b s).caps = s.caps := rfl
@[simp] theorem notify_leases (s : State) (p : Port) (b : NoticeBody) : (notify p b s).leases = s.leases := rfl
@[simp] theorem notify_authority (s : State) (p : Port) (b : NoticeBody) : (notify p b s).authority = s.authority := rfl
@[simp] theorem notify_sess (s : State) (p : Port) (b : NoticeBody) :
    (notify p b s).sess = s.sess.set p (s.sess[p].push ⟨b, s.time.uptime⟩) := rfl
@[simp] theorem notify_ports (s : State) (p : Port) (b : NoticeBody) : (notify p b s).ports = s.ports := rfl
@[simp] theorem notify_pins (s : State) (p : Port) (b : NoticeBody) : (notify p b s).pins = s.pins := rfl
@[simp] theorem notify_inReset (s : State) (p : Port) (b : NoticeBody) : (notify p b s).inReset = s.inReset := rfl
@[simp] theorem notify_freeCount (s : State) (p : Port) (b : NoticeBody) : (notify p b s).freeCount = s.freeCount := rfl
@[simp] theorem notify_pending (s : State) (p : Port) (b : NoticeBody) : (notify p b s).pending = s.pending := rfl

/-! ### broadcast -/

@[simp] theorem broadcast_time (s : State) (b : NoticeBody) : (broadcast b s).time = s.time := rfl
@[simp] theorem broadcast_rx (s : State) (b : NoticeBody) : (broadcast b s).rx = s.rx := rfl
@[simp] theorem broadcast_disc (s : State) (b : NoticeBody) : (broadcast b s).disc = s.disc := rfl
@[simp] theorem broadcast_lines (s : State) (b : NoticeBody) : (broadcast b s).lines = s.lines := rfl
@[simp] theorem broadcast_cal (s : State) (b : NoticeBody) : (broadcast b s).cal = s.cal := rfl
@[simp] theorem broadcast_watch (s : State) (b : NoticeBody) : (broadcast b s).watch = s.watch := rfl
@[simp] theorem broadcast_caps (s : State) (b : NoticeBody) : (broadcast b s).caps = s.caps := rfl
@[simp] theorem broadcast_leases (s : State) (b : NoticeBody) : (broadcast b s).leases = s.leases := rfl
@[simp] theorem broadcast_authority (s : State) (b : NoticeBody) : (broadcast b s).authority = s.authority := rfl
@[simp] theorem broadcast_sess (s : State) (b : NoticeBody) :
    (broadcast b s).sess = mapVec (Session.push ⟨b, s.time.uptime⟩) s.sess := rfl
@[simp] theorem broadcast_ports (s : State) (b : NoticeBody) : (broadcast b s).ports = s.ports := rfl
@[simp] theorem broadcast_pins (s : State) (b : NoticeBody) : (broadcast b s).pins = s.pins := rfl
@[simp] theorem broadcast_inReset (s : State) (b : NoticeBody) : (broadcast b s).inReset = s.inReset := rfl
@[simp] theorem broadcast_freeCount (s : State) (b : NoticeBody) : (broadcast b s).freeCount = s.freeCount := rfl
@[simp] theorem broadcast_pending (s : State) (b : NoticeBody) : (broadcast b s).pending = s.pending := rfl

/-! ### broadcastExcept -/

@[simp] theorem broadcastExcept_time (s : State) (p : Port) (b : NoticeBody) : (broadcastExcept p b s).time = s.time := rfl
@[simp] theorem broadcastExcept_rx (s : State) (p : Port) (b : NoticeBody) : (broadcastExcept p b s).rx = s.rx := rfl
@[simp] theorem broadcastExcept_disc (s : State) (p : Port) (b : NoticeBody) : (broadcastExcept p b s).disc = s.disc := rfl
@[simp] theorem broadcastExcept_lines (s : State) (p : Port) (b : NoticeBody) : (broadcastExcept p b s).lines = s.lines := rfl
@[simp] theorem broadcastExcept_cal (s : State) (p : Port) (b : NoticeBody) : (broadcastExcept p b s).cal = s.cal := rfl
@[simp] theorem broadcastExcept_watch (s : State) (p : Port) (b : NoticeBody) : (broadcastExcept p b s).watch = s.watch := rfl
@[simp] theorem broadcastExcept_caps (s : State) (p : Port) (b : NoticeBody) : (broadcastExcept p b s).caps = s.caps := rfl
@[simp] theorem broadcastExcept_leases (s : State) (p : Port) (b : NoticeBody) : (broadcastExcept p b s).leases = s.leases := rfl
@[simp] theorem broadcastExcept_authority (s : State) (p : Port) (b : NoticeBody) : (broadcastExcept p b s).authority = s.authority := rfl
@[simp] theorem broadcastExcept_sess (s : State) (p : Port) (b : NoticeBody) :
    (broadcastExcept p b s).sess = (mapVec (Session.push ⟨b, s.time.uptime⟩) s.sess).set p s.sess[p] := rfl
@[simp] theorem broadcastExcept_ports (s : State) (p : Port) (b : NoticeBody) : (broadcastExcept p b s).ports = s.ports := rfl
@[simp] theorem broadcastExcept_pins (s : State) (p : Port) (b : NoticeBody) : (broadcastExcept p b s).pins = s.pins := rfl
@[simp] theorem broadcastExcept_inReset (s : State) (p : Port) (b : NoticeBody) : (broadcastExcept p b s).inReset = s.inReset := rfl
@[simp] theorem broadcastExcept_freeCount (s : State) (p : Port) (b : NoticeBody) : (broadcastExcept p b s).freeCount = s.freeCount := rfl
@[simp] theorem broadcastExcept_pending (s : State) (p : Port) (b : NoticeBody) : (broadcastExcept p b s).pending = s.pending := rfl

/-! ### addLease -/

@[simp] theorem addLease_time (s : State) (r : Resource) (k : LeaseKind) (p : Port) (ms : Nat) : (addLease r k p ms s).time = s.time := rfl
@[simp] theorem addLease_rx (s : State) (r : Resource) (k : LeaseKind) (p : Port) (ms : Nat) : (addLease r k p ms s).rx = s.rx := rfl
@[simp] theorem addLease_disc (s : State) (r : Resource) (k : LeaseKind) (p : Port) (ms : Nat) : (addLease r k p ms s).disc = s.disc := rfl
@[simp] theorem addLease_lines (s : State) (r : Resource) (k : LeaseKind) (p : Port) (ms : Nat) : (addLease r k p ms s).lines = s.lines := rfl
@[simp] theorem addLease_cal (s : State) (r : Resource) (k : LeaseKind) (p : Port) (ms : Nat) : (addLease r k p ms s).cal = s.cal := rfl
@[simp] theorem addLease_watch (s : State) (r : Resource) (k : LeaseKind) (p : Port) (ms : Nat) : (addLease r k p ms s).watch = s.watch := rfl
@[simp] theorem addLease_caps (s : State) (r : Resource) (k : LeaseKind) (p : Port) (ms : Nat) : (addLease r k p ms s).caps = s.caps := rfl
@[simp] theorem addLease_leases (s : State) (r : Resource) (k : LeaseKind) (p : Port) (ms : Nat) :
    (addLease r k p ms s).leases = s.leases ++ [⟨r, k, p, ms⟩] := rfl
@[simp] theorem addLease_authority (s : State) (r : Resource) (k : LeaseKind) (p : Port) (ms : Nat) : (addLease r k p ms s).authority = s.authority := rfl
@[simp] theorem addLease_sess (s : State) (r : Resource) (k : LeaseKind) (p : Port) (ms : Nat) : (addLease r k p ms s).sess = s.sess := rfl
@[simp] theorem addLease_ports (s : State) (r : Resource) (k : LeaseKind) (p : Port) (ms : Nat) : (addLease r k p ms s).ports = s.ports := rfl
@[simp] theorem addLease_pins (s : State) (r : Resource) (k : LeaseKind) (p : Port) (ms : Nat) : (addLease r k p ms s).pins = s.pins := rfl
@[simp] theorem addLease_inReset (s : State) (r : Resource) (k : LeaseKind) (p : Port) (ms : Nat) : (addLease r k p ms s).inReset = s.inReset := rfl
@[simp] theorem addLease_freeCount (s : State) (r : Resource) (k : LeaseKind) (p : Port) (ms : Nat) : (addLease r k p ms s).freeCount = s.freeCount := rfl
@[simp] theorem addLease_pending (s : State) (r : Resource) (k : LeaseKind) (p : Port) (ms : Nat) : (addLease r k p ms s).pending = s.pending := rfl

/-! ### removeLease -/

@[simp] theorem removeLease_time (s : State) (r : Resource) (p : Port) : (removeLease r p s).time = s.time := rfl
@[simp] theorem removeLease_rx (s : State) (r : Resource) (p : Port) : (removeLease r p s).rx = s.rx := rfl
@[simp] theorem removeLease_disc (s : State) (r : Resource) (p : Port) : (removeLease r p s).disc = s.disc := rfl
@[simp] theorem removeLease_lines (s : State) (r : Resource) (p : Port) : (removeLease r p s).lines = s.lines := rfl
@[simp] theorem removeLease_cal (s : State) (r : Resource) (p : Port) : (removeLease r p s).cal = s.cal := rfl
@[simp] theorem removeLease_watch (s : State) (r : Resource) (p : Port) : (removeLease r p s).watch = s.watch := rfl
@[simp] theorem removeLease_caps (s : State) (r : Resource) (p : Port) : (removeLease r p s).caps = s.caps := rfl
@[simp] theorem removeLease_leases (s : State) (r : Resource) (p : Port) :
    (removeLease r p s).leases = s.leases.filter fun x => !decide (x.resource = r ∧ x.holder = p) := rfl
@[simp] theorem removeLease_authority (s : State) (r : Resource) (p : Port) : (removeLease r p s).authority = s.authority := rfl
@[simp] theorem removeLease_sess (s : State) (r : Resource) (p : Port) : (removeLease r p s).sess = s.sess := rfl
@[simp] theorem removeLease_ports (s : State) (r : Resource) (p : Port) : (removeLease r p s).ports = s.ports := rfl
@[simp] theorem removeLease_pins (s : State) (r : Resource) (p : Port) : (removeLease r p s).pins = s.pins := rfl
@[simp] theorem removeLease_inReset (s : State) (r : Resource) (p : Port) : (removeLease r p s).inReset = s.inReset := rfl
@[simp] theorem removeLease_freeCount (s : State) (r : Resource) (p : Port) : (removeLease r p s).freeCount = s.freeCount := rfl
@[simp] theorem removeLease_pending (s : State) (r : Resource) (p : Port) : (removeLease r p s).pending = s.pending := rfl

/-! ### renewLease -/

@[simp] theorem renewLease_time (s : State) (r : Resource) (p : Port) (ms : Nat) : (renewLease r p ms s).time = s.time := rfl
@[simp] theorem renewLease_rx (s : State) (r : Resource) (p : Port) (ms : Nat) : (renewLease r p ms s).rx = s.rx := rfl
@[simp] theorem renewLease_disc (s : State) (r : Resource) (p : Port) (ms : Nat) : (renewLease r p ms s).disc = s.disc := rfl
@[simp] theorem renewLease_lines (s : State) (r : Resource) (p : Port) (ms : Nat) : (renewLease r p ms s).lines = s.lines := rfl
@[simp] theorem renewLease_cal (s : State) (r : Resource) (p : Port) (ms : Nat) : (renewLease r p ms s).cal = s.cal := rfl
@[simp] theorem renewLease_watch (s : State) (r : Resource) (p : Port) (ms : Nat) : (renewLease r p ms s).watch = s.watch := rfl
@[simp] theorem renewLease_caps (s : State) (r : Resource) (p : Port) (ms : Nat) : (renewLease r p ms s).caps = s.caps := rfl
@[simp] theorem renewLease_leases (s : State) (r : Resource) (p : Port) (ms : Nat) :
    (renewLease r p ms s).leases = s.leases.map fun x => if x.resource = r ∧ x.holder = p then { x with remaining := ms } else x := rfl
@[simp] theorem renewLease_authority (s : State) (r : Resource) (p : Port) (ms : Nat) : (renewLease r p ms s).authority = s.authority := rfl
@[simp] theorem renewLease_sess (s : State) (r : Resource) (p : Port) (ms : Nat) : (renewLease r p ms s).sess = s.sess := rfl
@[simp] theorem renewLease_ports (s : State) (r : Resource) (p : Port) (ms : Nat) : (renewLease r p ms s).ports = s.ports := rfl
@[simp] theorem renewLease_pins (s : State) (r : Resource) (p : Port) (ms : Nat) : (renewLease r p ms s).pins = s.pins := rfl
@[simp] theorem renewLease_inReset (s : State) (r : Resource) (p : Port) (ms : Nat) : (renewLease r p ms s).inReset = s.inReset := rfl
@[simp] theorem renewLease_freeCount (s : State) (r : Resource) (p : Port) (ms : Nat) : (renewLease r p ms s).freeCount = s.freeCount := rfl
@[simp] theorem renewLease_pending (s : State) (r : Resource) (p : Port) (ms : Nat) : (renewLease r p ms s).pending = s.pending := rfl

/-! ### restartTimer -/

@[simp] theorem restartTimer_time (s : State) : (restartTimer s).time = s.time := rfl
@[simp] theorem restartTimer_rx (s : State) : (restartTimer s).rx = s.rx := rfl
@[simp] theorem restartTimer_disc (s : State) :
    (restartTimer s).disc = { s.disc with timer := .running 0 false } := rfl
@[simp] theorem restartTimer_lines (s : State) : (restartTimer s).lines = s.lines := rfl
@[simp] theorem restartTimer_cal (s : State) : (restartTimer s).cal = s.cal := rfl
@[simp] theorem restartTimer_watch (s : State) : (restartTimer s).watch = s.watch := rfl
@[simp] theorem restartTimer_caps (s : State) : (restartTimer s).caps = s.caps := rfl
@[simp] theorem restartTimer_leases (s : State) : (restartTimer s).leases = s.leases := rfl
@[simp] theorem restartTimer_authority (s : State) : (restartTimer s).authority = s.authority := rfl
@[simp] theorem restartTimer_sess (s : State) : (restartTimer s).sess = s.sess := rfl
@[simp] theorem restartTimer_ports (s : State) : (restartTimer s).ports = s.ports := rfl
@[simp] theorem restartTimer_pins (s : State) : (restartTimer s).pins = s.pins := rfl
@[simp] theorem restartTimer_inReset (s : State) : (restartTimer s).inReset = s.inReset := rfl
@[simp] theorem restartTimer_freeCount (s : State) : (restartTimer s).freeCount = s.freeCount := rfl
@[simp] theorem restartTimer_pending (s : State) : (restartTimer s).pending = s.pending := rfl

/-! ### zeroCounts -/

@[simp] theorem zeroCounts_time (s : State) : (zeroCounts s).time = s.time := rfl
@[simp] theorem zeroCounts_rx (s : State) : (zeroCounts s).rx = s.rx := rfl
@[simp] theorem zeroCounts_disc (s : State) :
    (zeroCounts s).disc = { s.disc with inWindow := 0, outliers := 0 } := rfl
@[simp] theorem zeroCounts_lines (s : State) : (zeroCounts s).lines = s.lines := rfl
@[simp] theorem zeroCounts_cal (s : State) : (zeroCounts s).cal = s.cal := rfl
@[simp] theorem zeroCounts_watch (s : State) : (zeroCounts s).watch = s.watch := rfl
@[simp] theorem zeroCounts_caps (s : State) : (zeroCounts s).caps = s.caps := rfl
@[simp] theorem zeroCounts_leases (s : State) : (zeroCounts s).leases = s.leases := rfl
@[simp] theorem zeroCounts_authority (s : State) : (zeroCounts s).authority = s.authority := rfl
@[simp] theorem zeroCounts_sess (s : State) : (zeroCounts s).sess = s.sess := rfl
@[simp] theorem zeroCounts_ports (s : State) : (zeroCounts s).ports = s.ports := rfl
@[simp] theorem zeroCounts_pins (s : State) : (zeroCounts s).pins = s.pins := rfl
@[simp] theorem zeroCounts_inReset (s : State) : (zeroCounts s).inReset = s.inReset := rfl
@[simp] theorem zeroCounts_freeCount (s : State) : (zeroCounts s).freeCount = s.freeCount := rfl
@[simp] theorem zeroCounts_pending (s : State) : (zeroCounts s).pending = s.pending := rfl

/-! ### answerPort -/

@[simp] theorem answerPort_time (s : State) (p : Port) (k : Byte) (a : Answer) : (answerPort p k a s).time = s.time := rfl
@[simp] theorem answerPort_rx (s : State) (p : Port) (k : Byte) (a : Answer) : (answerPort p k a s).rx = s.rx := rfl
@[simp] theorem answerPort_disc (s : State) (p : Port) (k : Byte) (a : Answer) : (answerPort p k a s).disc = s.disc := rfl
@[simp] theorem answerPort_lines (s : State) (p : Port) (k : Byte) (a : Answer) : (answerPort p k a s).lines = s.lines := rfl
@[simp] theorem answerPort_cal (s : State) (p : Port) (k : Byte) (a : Answer) : (answerPort p k a s).cal = s.cal := rfl
@[simp] theorem answerPort_watch (s : State) (p : Port) (k : Byte) (a : Answer) : (answerPort p k a s).watch = s.watch := rfl
@[simp] theorem answerPort_caps (s : State) (p : Port) (k : Byte) (a : Answer) : (answerPort p k a s).caps = s.caps := rfl
@[simp] theorem answerPort_leases (s : State) (p : Port) (k : Byte) (a : Answer) : (answerPort p k a s).leases = s.leases := rfl
@[simp] theorem answerPort_authority (s : State) (p : Port) (k : Byte) (a : Answer) : (answerPort p k a s).authority = s.authority := rfl
@[simp] theorem answerPort_sess (s : State) (p : Port) (k : Byte) (a : Answer) : (answerPort p k a s).sess = s.sess := rfl
@[simp] theorem answerPort_ports (s : State) (p : Port) (k : Byte) (a : Answer) :
    (answerPort p k a s).ports = s.ports.set p { s.ports[p] with state := .answered (replyBytes k s.sess[p].number a) } := rfl
@[simp] theorem answerPort_pins (s : State) (p : Port) (k : Byte) (a : Answer) : (answerPort p k a s).pins = s.pins := rfl
@[simp] theorem answerPort_inReset (s : State) (p : Port) (k : Byte) (a : Answer) : (answerPort p k a s).inReset = s.inReset := rfl
@[simp] theorem answerPort_freeCount (s : State) (p : Port) (k : Byte) (a : Answer) : (answerPort p k a s).freeCount = s.freeCount := rfl
@[simp] theorem answerPort_pending (s : State) (p : Port) (k : Byte) (a : Answer) : (answerPort p k a s).pending = s.pending := rfl

/-! ### stepTo -/

@[simp] theorem stepTo_rx (s : State) (c : StepCause) (u : Nat) (a : Int) :
    (stepTo c u a s).rx = s.rx.noteStep a := rfl
@[simp] theorem stepTo_disc (s : State) (c : StepCause) (u : Nat) (a : Int) : (stepTo c u a s).disc = s.disc := rfl
@[simp] theorem stepTo_lines (s : State) (c : StepCause) (u : Nat) (a : Int) : (stepTo c u a s).lines = s.lines := rfl
@[simp] theorem stepTo_cal (s : State) (c : StepCause) (u : Nat) (a : Int) :
    (stepTo c u a s).cal = { s.cal with reached := s.cal.reached.filter fun r => decide (r.fireTime ≤ (HubTime.ofUnits u).ns) } := rfl
@[simp] theorem stepTo_watch (s : State) (c : StepCause) (u : Nat) (a : Int) : (stepTo c u a s).watch = s.watch := rfl
@[simp] theorem stepTo_caps (s : State) (c : StepCause) (u : Nat) (a : Int) : (stepTo c u a s).caps = s.caps := rfl
@[simp] theorem stepTo_leases (s : State) (c : StepCause) (u : Nat) (a : Int) : (stepTo c u a s).leases = s.leases := rfl
@[simp] theorem stepTo_authority (s : State) (c : StepCause) (u : Nat) (a : Int) : (stepTo c u a s).authority = s.authority := rfl
@[simp] theorem stepTo_sess (s : State) (c : StepCause) (u : Nat) (a : Int) : (stepTo c u a s).sess = s.sess := rfl
@[simp] theorem stepTo_ports (s : State) (c : StepCause) (u : Nat) (a : Int) : (stepTo c u a s).ports = s.ports := rfl
@[simp] theorem stepTo_pins (s : State) (c : StepCause) (u : Nat) (a : Int) : (stepTo c u a s).pins = s.pins := rfl
@[simp] theorem stepTo_inReset (s : State) (c : StepCause) (u : Nat) (a : Int) : (stepTo c u a s).inReset = s.inReset := rfl
@[simp] theorem stepTo_freeCount (s : State) (c : StepCause) (u : Nat) (a : Int) : (stepTo c u a s).freeCount = s.freeCount := rfl
@[simp] theorem stepTo_pending (s : State) (c : StepCause) (u : Nat) (a : Int) : (stepTo c u a s).pending = s.pending := rfl

/-! ### A step's part of the Timebase -/

@[simp] theorem stepTo_hub (s : State) (c : StepCause) (u : Nat) (a : Int) :
    (stepTo c u a s).time.hub = HubTime.ofUnits u := rfl
@[simp] theorem stepTo_slew (s : State) (c : StepCause) (u : Nat) (a : Int) : (stepTo c u a s).time.slew = 0 := rfl
@[simp] theorem stepTo_epoch (s : State) (c : StepCause) (u : Nat) (a : Int) :
    (stepTo c u a s).time.epoch = s.time.epoch + 1 := rfl
@[simp] theorem stepTo_trim (s : State) (c : StepCause) (u : Nat) (a : Int) :
    (stepTo c u a s).time.trim = s.time.trim := rfl
@[simp] theorem stepTo_trimLimit (s : State) (c : StepCause) (u : Nat) (a : Int) :
    (stepTo c u a s).time.trimLimit = s.time.trimLimit := rfl
@[simp] theorem stepTo_uptime (s : State) (c : StepCause) (u : Nat) (a : Int) :
    (stepTo c u a s).time.uptime = s.time.uptime := rfl
@[simp] theorem stepTo_tickCount (s : State) (c : StepCause) (u : Nat) (a : Int) :
    (stepTo c u a s).time.tickCount = s.time.tickCount := rfl
@[simp] theorem stepTo_toSession (s : State) (c : StepCause) (u : Nat) (a : Int) :
    (stepTo c u a s).time.toSession = s.time.toSession ++
      [⟨HubTime.ofUnits u, a, direction s.time.hub (HubTime.ofUnits u), s.time.epoch + 1, c⟩] := rfl
@[simp] theorem stepTo_toCalendar (s : State) (c : StepCause) (u : Nat) (a : Int) :
    (stepTo c u a s).time.toCalendar = s.time.toCalendar ++
      [⟨HubTime.ofUnits u, a, direction s.time.hub (HubTime.ofUnits u), s.time.epoch + 1, c⟩] := rfl

end Sys2Proof.Machine
end

