-- ==== Sys2Proof/Laws/Calendar.lean ====
section
/-! SUPPORT. What the removal, cancellation and settling of calendar entries can do (R84, R102, R103, R107). -/

namespace Sys2Proof.Machine

/-! ### Fixed rows by element -/

theorem getElem_set_fin {α : Type} {n : Nat} (v : Vector α n) (i j : Fin n) (x : α) :
    (v.set i x)[j] = if j = i then x else v[j] := by
  simp only [Fin.getElem_fin, Vector.getElem_set]
  by_cases h : j = i
  · simp [h]
  · have : ¬ i.val = j.val := fun e => h (Fin.ext e.symm)
    simp [h, this]

theorem ext_fin {α : Type} {n : Nat} {v w : Vector α n} (h : ∀ i : Fin n, v[i] = w[i]) : v = w := by
  ext i hi
  exact h ⟨i, hi⟩

theorem mem_allSlots (i : SlotNo) : i ∈ allSlots := List.mem_finRange i

theorem nodup_allSlots : allSlots.Nodup := List.nodup_finRange 64

theorem mem_slotsWhere {f : Entry → Bool} {s : State} {i : SlotNo} :
    i ∈ s.slotsWhere f ↔ ∃ e, s.cal.slots[i].entry = some e ∧ f e = true := by
  unfold State.slotsWhere
  rw [List.mem_filter]
  cases h : s.cal.slots[i].entry with
  | none => simp
  | some e => simp [mem_allSlots]

theorem nodup_slotsWhere (f : Entry → Bool) (s : State) : (s.slotsWhere f).Nodup :=
  List.Nodup.filter _ nodup_allSlots

/-! ### Ordering -/

theorem insertBy_perm {α : Type} (le : α → α → Bool) (x : α) (l : List α) : (insertBy le x l).Perm (x :: l) := by
  induction l with
  | nil => exact .refl _
  | cons y ys ih =>
    unfold insertBy
    split
    · exact .refl _
    · exact (List.Perm.cons y ih).trans (.swap x y ys)

/-- An ordered list holds what the list held. -/
theorem sortBy_perm {α : Type} (le : α → α → Bool) (l : List α) : (sortBy le l).Perm l := by
  induction l with
  | nil => exact .refl _
  | cons x xs ih => exact (insertBy_perm le x _).trans (ih.cons x)

theorem mem_sortBy {α : Type} {le : α → α → Bool} {l : List α} {x : α} : x ∈ sortBy le l ↔ x ∈ l :=
  (sortBy_perm le l).mem_iff

theorem nodup_sortBy {α : Type} {le : α → α → Bool} {l : List α} (h : l.Nodup) : (sortBy le l).Nodup :=
  (sortBy_perm le l).nodup_iff.2 h

/-- Insertion keeps a list in order, for an order that the test decides one way or the other. -/
theorem insertBy_pairwise {α : Type} {le : α → α → Bool} {R : α → α → Prop} (ht : ∀ a b c, R a b → R b c → R a c)
    (h1 : ∀ a b, le a b = true → R a b) (h2 : ∀ a b, le a b = false → R b a) (x : α) {l : List α}
    (hl : l.Pairwise R) : (insertBy le x l).Pairwise R := by
  induction l with
  | nil => simp [insertBy]
  | cons y ys ih =>
    rw [List.pairwise_cons] at hl
    unfold insertBy
    split
    · next h =>
      refine List.pairwise_cons.2 ⟨fun z hz => ?_, List.pairwise_cons.2 hl⟩
      rcases List.mem_cons.1 hz with rfl | hz
      · exact h1 _ _ h
      · exact ht _ _ _ (h1 _ _ h) (hl.1 z hz)
    · next h =>
      refine List.pairwise_cons.2 ⟨fun z hz => ?_, ih hl.2⟩
      rcases List.mem_cons.1 ((insertBy_perm le x ys).mem_iff.1 hz) with rfl | hz
      · exact h2 _ _ (by simpa using h)
      · exact hl.1 z hz

theorem sortBy_pairwise {α : Type} {le : α → α → Bool} {R : α → α → Prop} (ht : ∀ a b c, R a b → R b c → R a c)
    (h1 : ∀ a b, le a b = true → R a b) (h2 : ∀ a b, le a b = false → R b a) (l : List α) :
    (sortBy le l).Pairwise R := by
  induction l with
  | nil => simp [sortBy]
  | cons x l ih => exact insertBy_pairwise ht h1 h2 x ih

/-- The free order keeps the order of its key (R114). -/
theorem sortBy_freeLe (k : Nat) (key : SlotNo → Nat) (l : List SlotNo) :
    (sortBy (freeLe k key) l).Pairwise fun a b => key a ≤ key b := by
  refine sortBy_pairwise (R := fun a b => key a ≤ key b) (fun _ _ _ => Nat.le_trans) (fun a b h => ?_)
    (fun a b h => ?_) l
  · unfold freeLe at h
    by_cases g : key b < key a
    · rw [if_neg (by omega), if_pos g] at h; cases h
    · omega
  · unfold freeLe at h
    by_cases g : key a < key b
    · rw [if_pos g] at h; cases h
    · omega

/-! ### Removal of one entry -/

/-- The removal of an entry changes the slot and the owner's count only. -/
theorem removeEntry_some {i : SlotNo} {s : State} {e : Entry} (h : s.cal.slots[i].entry = some e) :
    removeEntry i s = { s with cal := { s.cal with
      slots := s.cal.slots.set i (freedSlot s.cal.slots[i])
      count := s.cal.count.set e.owner (s.cal.count[e.owner] - 1) } } := by
  unfold removeEntry
  rw [h]
  rfl

theorem removeEntry_none {i : SlotNo} {s : State} (h : s.cal.slots[i].entry = none) : removeEntry i s = s := by
  unfold removeEntry
  rw [h]

/-! ### removeEntry: the fields that stay -/

@[simp] theorem removeEntry_time (i : SlotNo) (s : State) : (removeEntry i s).time = s.time := by
  unfold removeEntry; split <;> rfl
@[simp] theorem removeEntry_rx (i : SlotNo) (s : State) : (removeEntry i s).rx = s.rx := by
  unfold removeEntry; split <;> rfl
@[simp] theorem removeEntry_disc (i : SlotNo) (s : State) : (removeEntry i s).disc = s.disc := by
  unfold removeEntry; split <;> rfl
@[simp] theorem removeEntry_lines (i : SlotNo) (s : State) : (removeEntry i s).lines = s.lines := by
  unfold removeEntry; split <;> rfl
@[simp] theorem removeEntry_watch (i : SlotNo) (s : State) : (removeEntry i s).watch = s.watch := by
  unfold removeEntry; split <;> rfl
@[simp] theorem removeEntry_caps (i : SlotNo) (s : State) : (removeEntry i s).caps = s.caps := by
  unfold removeEntry; split <;> rfl
@[simp] theorem removeEntry_leases (i : SlotNo) (s : State) : (removeEntry i s).leases = s.leases := by
  unfold removeEntry; split <;> rfl
@[simp] theorem removeEntry_authority (i : SlotNo) (s : State) : (removeEntry i s).authority = s.authority := by
  unfold removeEntry; split <;> rfl
@[simp] theorem removeEntry_sess (i : SlotNo) (s : State) : (removeEntry i s).sess = s.sess := by
  unfold removeEntry; split <;> rfl
@[simp] theorem removeEntry_ports (i : SlotNo) (s : State) : (removeEntry i s).ports = s.ports := by
  unfold removeEntry; split <;> rfl
@[simp] theorem removeEntry_pins (i : SlotNo) (s : State) : (removeEntry i s).pins = s.pins := by
  unfold removeEntry; split <;> rfl
@[simp] theorem removeEntry_inReset (i : SlotNo) (s : State) : (removeEntry i s).inReset = s.inReset := by
  unfold removeEntry; split <;> rfl
@[simp] theorem removeEntry_freeCount (i : SlotNo) (s : State) : (removeEntry i s).freeCount = s.freeCount := by
  unfold removeEntry; split <;> rfl
@[simp] theorem removeEntry_pending (i : SlotNo) (s : State) : (removeEntry i s).pending = s.pending := by
  unfold removeEntry; split <;> rfl
@[simp] theorem removeEntry_quota (i : SlotNo) (s : State) : (removeEntry i s).cal.quota = s.cal.quota := by
  unfold removeEntry; split <;> rfl
@[simp] theorem removeEntry_reached (i : SlotNo) (s : State) : (removeEntry i s).cal.reached = s.cal.reached := by
  unfold removeEntry; split <;> rfl

-- end of these fields

/-- Outside the calendar's slots and counts a removal changes nothing. -/
theorem removeEntry_frame (i : SlotNo) (s : State) :
    removeEntry i s = { s with cal := { s.cal with
      slots := (removeEntry i s).cal.slots, count := (removeEntry i s).cal.count } } := by
  cases h : s.cal.slots[i].entry with
  | none => rw [removeEntry_none h]
  | some e => rw [removeEntry_some h]

theorem removeEntry_slots (i j : SlotNo) (s : State) :
    (removeEntry i s).cal.slots[j] =
      if j = i ∧ s.cal.slots[j].entry ≠ none then freedSlot s.cal.slots[j] else s.cal.slots[j] := by
  cases h : s.cal.slots[i].entry with
  | none =>
    rw [removeEntry_none h, if_neg]
    rintro ⟨rfl, a⟩
    exact a h
  | some e =>
    rw [removeEntry_some h]
    show (s.cal.slots.set i _)[j] = _
    rw [getElem_set_fin]
    by_cases hj : j = i
    · subst hj; rw [if_pos rfl, if_pos ⟨rfl, by rw [h]; simp⟩]
    · rw [if_neg hj, if_neg fun c => hj c.1]

/-! ### Removal of several entries -/

theorem foldl_removeEntry_frame (l : List SlotNo) (s : State) :
    l.foldl (fun t i => removeEntry i t) s = { s with cal := { s.cal with
      slots := (l.foldl (fun t i => removeEntry i t) s).cal.slots
      count := (l.foldl (fun t i => removeEntry i t) s).cal.count } } := by
  induction l generalizing s with
  | nil => rfl
  | cons i l ih =>
    rw [List.foldl_cons, ih, removeEntry_frame]

theorem foldl_removeEntry_slots (l : List SlotNo) (hl : l.Nodup) (s : State) (j : SlotNo) :
    (l.foldl (fun t i => removeEntry i t) s).cal.slots[j] =
      if j ∈ l ∧ s.cal.slots[j].entry ≠ none then freedSlot s.cal.slots[j] else s.cal.slots[j] := by
  induction l generalizing s with
  | nil => simp
  | cons i l ih =>
    rw [List.foldl_cons, ih (List.nodup_cons.1 hl).2, removeEntry_slots]
    have hi := (List.nodup_cons.1 hl).1
    by_cases hj : j = i
    · subst hj
      simp only [hi, false_and, if_false, List.mem_cons, true_or, true_and]
    · simp only [hj, false_and, if_false, List.mem_cons, false_or]

/-- The counts after the removal of entries that all have the owner `p`. -/
theorem foldl_removeEntry_count (p : Port) (l : List SlotNo) (hl : l.Nodup) (s : State)
    (h : ∀ i ∈ l, ∃ e, s.cal.slots[i].entry = some e ∧ e.owner = p) :
    (l.foldl (fun t i => removeEntry i t) s).cal.count = s.cal.count.set p (s.cal.count[p] - l.length) := by
  induction l generalizing s with
  | nil =>
    refine ext_fin fun q => ?_
    rw [getElem_set_fin]
    split
    · next h => subst h; rfl
    · rfl
  | cons i l ih =>
    obtain ⟨e, he, rfl⟩ := h i (by simp)
    rw [List.foldl_cons, ih (List.nodup_cons.1 hl).2]
    · rw [removeEntry_some he]
      refine ext_fin fun q => ?_
      simp only [getElem_set_fin, if_true, List.length_cons]
      split <;> omega
    · intro j hj
      have : j ≠ i := fun c => (List.nodup_cons.1 hl).1 (c ▸ hj)
      rw [removeEntry_slots, if_neg fun c => this c.1]
      exact h j (by simp [hj])

/-! ### Cancellation -/

theorem cancelWhere_frame (f : Entry → Bool) (s : State) :
    (cancelWhere f s).1 = { s with cal := { s.cal with
      slots := (cancelWhere f s).1.cal.slots, count := (cancelWhere f s).1.cal.count } } :=
  foldl_removeEntry_frame _ s

/-- A cancellation frees exactly the slots whose entry satisfies the condition. -/
theorem cancelWhere_slots (f : Entry → Bool) (s : State) (i : SlotNo) :
    (cancelWhere f s).1.cal.slots[i] =
      match s.cal.slots[i].entry with
      | some e => if f e = true then freedSlot s.cal.slots[i] else s.cal.slots[i]
      | none => s.cal.slots[i] := by
  unfold cancelWhere
  rw [foldl_removeEntry_slots _ (nodup_slotsWhere f s)]
  simp only [mem_slotsWhere]
  cases h : s.cal.slots[i].entry with
  | none => simp only [ne_eq, not_true_eq_false, and_false, if_false]
  | some e => simp

theorem cancelWhere_count (f : Entry → Bool) (p : Port) (s : State) (h : ∀ e, f e = true → e.owner = p) :
    (cancelWhere f s).1.cal.count = s.cal.count.set p (s.cal.count[p] - (cancelWhere f s).2) := by
  refine foldl_removeEntry_count p _ (nodup_slotsWhere f s) s fun i hi => ?_
  obtain ⟨e, he, hf⟩ := mem_slotsWhere.1 hi
  exact ⟨e, he, h e hf⟩

end Sys2Proof.Machine
end

