-- ==== Sys2Proof/Laws/Capture.lean ====
section
/-! SUPPORT. What a copy of a capture record can do to a port's queue (R130, R131), and what the sample at a capture grant does
to the levels (R66). -/

namespace Sys2Proof.Machine

/-- Replacing the level of one line leaves the others. -/
theorem getLsbD_setLevel (l k : LineNo) (high : Bool) (v : BitVec 16) :
    (setLevel l high v).getLsbD k = if k = l then high else v.getLsbD k := by
  have hk := k.isLt
  have h1 : (1#16 <<< l.val).getLsbD k = decide (k = l) := by
    rw [BitVec.getLsbD_shiftLeft, BitVec.getLsbD_one]
    rcases Nat.lt_trichotomy k.val l.val with g | g | g
    · have hv : ¬ k = l := by rintro rfl; omega
      simp [g, hv]
    · simp [Fin.ext g]
    · have hv : ¬ k = l := by rintro rfl; omega
      simp [hv, show k.val - l.val ≠ 0 by omega]
  unfold setLevel
  by_cases h : k = l
  · subst h
    cases high <;> simp
  · cases high <;>
      simp only [BitVec.getLsbD_or, BitVec.getLsbD_and, BitVec.getLsbD_not, h1, h, hk, decide_false, decide_true,
        Bool.not_false, Bool.and_true, Bool.or_false, if_true, if_false, Bool.false_eq_true, BitVec.getLsbD_zero]

/-- The sample at a grant changes the level of its line alone, and nothing where no release drive ends. -/
theorem sampleAtGrant_frame (l : LineNo) (s : State) :
    sampleAtGrant l s = { s with
      pins := { s.pins with lines := (sampleAtGrant l s).pins.lines }
      freeCount := (sampleAtGrant l s).freeCount } ∧
    ∀ k : LineNo, k ≠ l → (sampleAtGrant l s).pins.lines.getLsbD k = s.pins.lines.getLsbD k := by
  unfold sampleAtGrant
  split
  · refine ⟨rfl, fun k hk => ?_⟩
    show (setLevel l _ s.pins.lines).getLsbD k = _
    rw [getLsbD_setLevel, if_neg hk]
  · exact ⟨rfl, fun _ _ => rfl⟩

/-- A record without its lost count, which belongs to its place in a queue. -/
def CaptureRecord.bare (r : CaptureRecord) : CaptureRecord := { r with lost := 0 }

/-- A record enters a queue ahead of at most `k` records with its hub time and epoch; the lost counts stay in their places. -/
theorem enterQueue_cases (r : CaptureRecord) (k : Nat) (q : List CaptureRecord) :
    ∃ a b c : List CaptureRecord, q = a ++ b ∧ enterQueue r k q = c ++ b ∧ a.length ≤ k ∧
      (∀ y ∈ a, y.stamp = r.stamp ∧ y.epoch = r.epoch) ∧
      (c.map CaptureRecord.bare).Perm ((r :: a).map CaptureRecord.bare) ∧
      c.map CaptureRecord.lost = (r :: a).map CaptureRecord.lost := by
  induction q generalizing r k with
  | nil => exact ⟨[], [], [r], rfl, rfl, Nat.zero_le _, by simp, .refl _, rfl⟩
  | cons y ys ih =>
    by_cases h : (y.stamp = r.stamp ∧ y.epoch = r.epoch) ∧ 0 < k
    · obtain ⟨a, b, c, hq, he, hn, ha, hp, hl⟩ := ih { r with lost := y.lost } (k - 1)
      refine ⟨y :: a, b, { y with lost := r.lost } :: c, by rw [hq]; rfl, ?_, ?_, ?_, ?_, ?_⟩
      · rw [enterQueue, if_pos h, he]; rfl
      · rw [List.length_cons]; omega
      · intro z hz
        rcases List.mem_cons.1 hz with rfl | hz
        · exact h.1
        · exact ha z hz
      · have := hp.cons y.bare
        exact this.trans (.swap _ _ _)
      · rw [List.map_cons, hl]; rfl
    · exact ⟨[], y :: ys, [r], rfl, by rw [enterQueue, if_neg h]; rfl, Nat.zero_le _, by simp, .refl _, rfl⟩

/-- Everything that a copy of a record can do to one port: it is added, or at 32 records the last place is lost. Only the fresh
records, those of its own tick, can come to stand behind it. -/
theorem CapturePort.push_cases (k : Nat) (r : CaptureRecord) (x : CapturePort) :
    ∃ before group after : List CaptureRecord, x.queue = before ++ group ∧
      x.queue.take (x.batch.getD 0) <+: before ∧ group.length ≤ x.fresh ∧
      (∀ y ∈ group, y.stamp = r.stamp ∧ y.epoch = r.epoch) ∧
      (after.map CaptureRecord.bare).Perm (group.map CaptureRecord.bare ++ [r.bare]) ∧
      after.map CaptureRecord.lost = group.map CaptureRecord.lost ++ [x.lost] ∧
      x.push k r = if x.queue.length < 32 then { x with queue := before ++ after, lost := 0, fresh := x.fresh + 1 }
        else { x with queue := before ++ after.dropLast, lost := min 255 (x.lost + 1) } := by
  obtain ⟨a, b, c, hq, he, hn, ha, hp, hl⟩ :=
    enterQueue_cases { r with lost := x.lost } (min k x.fresh) (x.queue.drop (x.batch.getD 0)).reverse
  have hne : c ≠ [] := by
    intro h
    rw [h] at hl
    simp at hl
  have hd : (List.drop 1 (c ++ b)).reverse = b.reverse ++ c.reverse.dropLast := by
    cases c with
    | nil => exact absurd rfl hne
    | cons z zs => simp
  refine ⟨x.queue.take (x.batch.getD 0) ++ b.reverse, a.reverse, c.reverse, ?_, List.prefix_append _ _, ?_, ?_, ?_, ?_,
    ?_⟩
  · have : x.queue.drop (x.batch.getD 0) = b.reverse ++ a.reverse := by
      rw [← List.reverse_append, ← hq, List.reverse_reverse]
    rw [List.append_assoc, ← this, List.take_append_drop]
  · rw [List.length_reverse]; omega
  · intro y hy
    exact ha y (by simpa using hy)
  · rw [List.map_reverse, List.map_reverse]
    refine (List.reverse_perm _).trans (hp.trans ?_)
    exact (List.perm_append_singleton _ _).symm.trans ((List.reverse_perm _).symm.append_right _)
  · rw [List.map_reverse, hl]
    simp
  · simp only [CapturePort.push, he, hd, List.reverse_append, List.append_assoc]

/-- With no fresh record a copy goes to the tail, or at 32 records it is the one discarded (R130): records of earlier ticks and
those of a fixed batch keep their places. -/
theorem CapturePort.push_settled (k : Nat) (r : CaptureRecord) (x : CapturePort) (h : x.fresh = 0) :
    x.push k r = if x.queue.length < 32 then { x with queue := x.queue ++ [{ r with lost := x.lost }], lost := 0, fresh := 1 }
      else { x with lost := min 255 (x.lost + 1) } := by
  have he : ∀ q : List CaptureRecord, enterQueue { r with lost := x.lost } 0 q = { r with lost := x.lost } :: q := by
    intro q
    cases q with
    | nil => rfl
    | cons y ys => rw [enterQueue, if_neg (by simp)]
  simp only [CapturePort.push, h, Nat.min_zero, he, List.reverse_cons, List.reverse_reverse, List.drop_succ_cons, List.drop_zero]
  simp only [← List.append_assoc, List.take_append_drop]

/-- A tick settles the order of every port's records and leaves the rest of its capture state. -/
@[simp] theorem CapturePort.settleOrder_queue (x : CapturePort) : x.settleOrder.queue = x.queue := rfl
@[simp] theorem CapturePort.settleOrder_lost (x : CapturePort) : x.settleOrder.lost = x.lost := rfl
@[simp] theorem CapturePort.settleOrder_batch (x : CapturePort) : x.settleOrder.batch = x.batch := rfl
@[simp] theorem CapturePort.settleOrder_fresh (x : CapturePort) : x.settleOrder.fresh = 0 := rfl

theorem CapturePort.push_batch (k : Nat) (r : CaptureRecord) (x : CapturePort) : (x.push k r).batch = x.batch := by
  unfold CapturePort.push
  dsimp only
  split <;> rfl

end Sys2Proof.Machine
end

