-- ==== Sys2Proof/Laws/Lines.lean ====
section
/-! SUPPORT. What the release of an output, the departure of a subscriber and a line action can do (R68, R75, R77). -/

namespace Sys2Proof.Machine

theorem getElem_mapVec_fin {α β : Type} {n : Nat} (f : α → β) (v : Vector α n) (i : Fin n) :
    (mapVec f v)[i] = f v[i] := getElem_mapVec f v i i.isLt

theorem slotsWhere_owned (p : Port) (l : LineNo) (s : State) :
    s.slotsWhere (fun e => decide (e.owner = p ∧ e.line = l)) =
      allSlots.filter fun i => ownedOn p l s.cal.slots[i] := by
  unfold State.slotsWhere ownedOn
  rfl

/-- Everything that the release of an output does (R75). -/
theorem releaseOutput_released {l : LineNo} {s : State} {o : OutputLine} (h : s.lines[l] = .output o) :
    Released l o s (releaseOutput l s).1 (releaseOutput l s).2 ∧
      (releaseOutput l s).1.sess = s.sess ∧ (releaseOutput l s).1.ports = s.ports := by
  have hr : releaseOutput l s =
      (removeLease (.line l) o.holder
        ((cancelByLine l o.holder s).1.setLine l (.unassigned (some ⟨o.releaseLevel, 16⟩))),
       (cancelByLine l o.holder s).2) := by
    unfold releaseOutput
    rw [h]
  have hs : (cancelByLine l o.holder s).1.cal.slots =
      mapVec (fun x => if ownedOn o.holder l x then freedSlot x else x) s.cal.slots := by
    refine ext_fin fun i => ?_
    unfold cancelByLine
    rw [cancelWhere_slots, getElem_mapVec_fin]
    unfold ownedOn
    cases s.cal.slots[i].entry <;> rfl
  have hc : (cancelByLine l o.holder s).1.cal.count =
      s.cal.count.set o.holder (s.cal.count[o.holder] - (cancelByLine l o.holder s).2) :=
    cancelWhere_count _ o.holder s fun e he => by simp at he; exact he.1
  have hf : (cancelByLine l o.holder s).1 = { s with cal := { s.cal with
      slots := (cancelByLine l o.holder s).1.cal.slots, count := (cancelByLine l o.holder s).1.cal.count } } :=
    cancelWhere_frame _ s
  have hn : (cancelByLine l o.holder s).2 = (allSlots.filter fun i => ownedOn o.holder l s.cal.slots[i]).length := by
    rw [← slotsWhere_owned]; rfl
  rw [hr]
  rw [hs, hc] at hf
  refine ⟨⟨?_, ?_, hn, ?_, ?_, ?_, ?_, ?_, ?_, ?_, ?_, ?_, ?_, ?_, ?_, ?_, ?_⟩, ?_, ?_⟩ <;>
    simp only [removeLease_time, removeLease_rx, removeLease_disc, removeLease_lines, removeLease_cal, removeLease_watch,
      removeLease_caps, removeLease_leases, removeLease_authority, removeLease_sess, removeLease_ports,
      removeLease_pins, removeLease_inReset, removeLease_freeCount, removeLease_pending, State.setLine_time,
      State.setLine_rx, State.setLine_disc, State.setLine_lines, State.setLine_cal, State.setLine_watch,
      State.setLine_caps, State.setLine_leases, State.setLine_authority, State.setLine_sess, State.setLine_ports,
      State.setLine_pins, State.setLine_inReset, State.setLine_freeCount, State.setLine_pending] <;>
    rw [hf]

/-- A line that is not in OUTPUT mode is not released. -/
theorem releaseOutput_other {l : LineNo} {s : State} (h : ∀ o, s.lines[l] ≠ .output o) : releaseOutput l s = (s, 0) := by
  unfold releaseOutput
  split
  · next o ho => exact absurd ho (h o)
  · rfl

/-- Everything that the departure of a port from a captured line does (R77). -/
theorem depart_capture {l : LineNo} {p : Port} {s : State} {c : CaptureLine} (h : s.lines[l] = .capture c) :
    depart l p s = { s with
      lines := s.lines.set l
        (if c.subscribers.filter (· ≠ p) = [] then .unassigned none
         else .capture { c with subscribers := c.subscribers.filter (· ≠ p) })
      watch := if c.subscribers.filter (· ≠ p) = [] then s.watch.set l none else s.watch
      leases := s.leases.filter fun x => !decide (x.resource = .line l ∧ x.holder = p) } := by
  have hq : (c.subscribers.filter fun q => !decide (q = p)) = c.subscribers.filter (· ≠ p) := by
    congr 1; ext q; simp
  unfold depart
  rw [h]
  simp only [hq, List.isEmpty_iff]
  split <;> rfl

theorem depart_other {l : LineNo} {p : Port} {s : State} (h : ∀ c, s.lines[l] ≠ .capture c) : depart l p s = s := by
  unfold depart
  split
  · next c hc => exact absurd hc (h c)
  · rfl

/-- A line action changes the record of an output line only (R68). -/
theorem act_output {l : LineNo} {a : Action} {s : State} {o : OutputLine} (h : s.lines[l] = .output o) :
    act l a s = { s with lines := s.lines.set l (.output (o.act a)) } := by
  unfold act
  rw [h]
  rfl

/-! ### act: the fields that stay -/

@[simp] theorem act_time (l : LineNo) (a : Action) (s : State) : (act l a s).time = s.time := by
  unfold act; split <;> rfl
@[simp] theorem act_rx (l : LineNo) (a : Action) (s : State) : (act l a s).rx = s.rx := by
  unfold act; split <;> rfl
@[simp] theorem act_disc (l : LineNo) (a : Action) (s : State) : (act l a s).disc = s.disc := by
  unfold act; split <;> rfl
@[simp] theorem act_cal (l : LineNo) (a : Action) (s : State) : (act l a s).cal = s.cal := by
  unfold act; split <;> rfl
@[simp] theorem act_watch (l : LineNo) (a : Action) (s : State) : (act l a s).watch = s.watch := by
  unfold act; split <;> rfl
@[simp] theorem act_caps (l : LineNo) (a : Action) (s : State) : (act l a s).caps = s.caps := by
  unfold act; split <;> rfl
@[simp] theorem act_leases (l : LineNo) (a : Action) (s : State) : (act l a s).leases = s.leases := by
  unfold act; split <;> rfl
@[simp] theorem act_authority (l : LineNo) (a : Action) (s : State) : (act l a s).authority = s.authority := by
  unfold act; split <;> rfl
@[simp] theorem act_sess (l : LineNo) (a : Action) (s : State) : (act l a s).sess = s.sess := by
  unfold act; split <;> rfl
@[simp] theorem act_ports (l : LineNo) (a : Action) (s : State) : (act l a s).ports = s.ports := by
  unfold act; split <;> rfl
@[simp] theorem act_pins (l : LineNo) (a : Action) (s : State) : (act l a s).pins = s.pins := by
  unfold act; split <;> rfl
@[simp] theorem act_inReset (l : LineNo) (a : Action) (s : State) : (act l a s).inReset = s.inReset := by
  unfold act; split <;> rfl
@[simp] theorem act_freeCount (l : LineNo) (a : Action) (s : State) : (act l a s).freeCount = s.freeCount := by
  unfold act; split <;> rfl
@[simp] theorem act_pending (l : LineNo) (a : Action) (s : State) : (act l a s).pending = s.pending := by
  unfold act; split <;> rfl

-- end of these fields

theorem act_frame (l : LineNo) (a : Action) (s : State) : act l a s = { s with lines := (act l a s).lines } := by
  unfold act
  split <;> rfl

theorem act_lines_other {l m : LineNo} (a : Action) (s : State) (h : m ≠ l) : (act l a s).lines[m] = s.lines[m] := by
  unfold act
  split
  · show (s.lines.set l _)[m] = _
    rw [getElem_set_fin, if_neg h]
  · rfl

theorem OutputLine.act_holder (a : Action) (o : OutputLine) : (o.act a).holder = o.holder := by
  cases a <;> try rfl
  unfold OutputLine.act
  cases o.pulse <;> rfl

theorem OutputLine.act_releaseLevel (a : Action) (o : OutputLine) : (o.act a).releaseLevel = o.releaseLevel := by
  cases a <;> try rfl
  unfold OutputLine.act
  cases o.pulse <;> rfl

end Sys2Proof.Machine
end

