-- ==== Sys2Proof/Laws/Notices.lean ====
section
/-! SUPPORT. What the queuing of a notice can do to a session (R162, R163). -/

namespace Sys2Proof.Machine

@[simp] theorem Session.push_attached (n : Notice) (x : Session) : (x.push n).attached = x.attached := by
  unfold Session.push; split
  · split <;> rfl
  · rfl

@[simp] theorem Session.push_number (n : Notice) (x : Session) : (x.push n).number = x.number := by
  unfold Session.push; split
  · split <;> rfl
  · rfl

@[simp] theorem Session.push_mask (n : Notice) (x : Session) : (x.push n).mask = x.mask := by
  unfold Session.push; split
  · split <;> rfl
  · rfl

/-- A DETACHED port receives no notice. -/
@[simp] theorem Session.push_detached (n : Notice) (x : Session) (h : x.attached = false) : x.push n = x := by
  simp [Session.push, h]

/-- A notice is queued, or lost with the loss flag and the late-loss mark of a batch in collection. -/
theorem Session.push_cases (n : Notice) (x : Session) :
    (x.attached = false ∧ x.push n = x) ∨
    (x.attached = true ∧ x.queue.length < 16 ∧ x.push n = { x with queue := x.queue ++ [n] }) ∨
    (x.attached = true ∧ 16 ≤ x.queue.length ∧
      x.push n = { x with loss := true, batch := x.batch.map fun b => { b with late := true } }) := by
  unfold Session.push
  cases h : x.attached
  · exact .inl ⟨rfl, rfl⟩
  · by_cases hl : x.queue.length < 16
    · exact .inr (.inl ⟨rfl, hl, by simp [hl]⟩)
    · exact .inr (.inr ⟨rfl, by omega, by simp [hl]⟩)

@[simp] theorem getElem_broadcast_sess (b : NoticeBody) (s : State) (p : Nat) (h : p < 4) :
    (broadcast b s).sess[p] = s.sess[p].push ⟨b, s.time.uptime⟩ := by
  simp

theorem getElem_notify_sess (p q : Port) (b : NoticeBody) (s : State) :
    (notify p b s).sess[q] = if q = p then s.sess[p].push ⟨b, s.time.uptime⟩ else s.sess[q] := by
  simp only [notify_sess, Fin.getElem_fin, Vector.getElem_set]
  by_cases h : q = p
  · simp [h]
  · have : ¬ p.val = q.val := fun e => h (Fin.ext e.symm)
    simp [h, this]

theorem getElem_broadcastExcept_sess (p q : Port) (b : NoticeBody) (s : State) :
    (broadcastExcept p b s).sess[q] = if q = p then s.sess[q] else s.sess[q].push ⟨b, s.time.uptime⟩ := by
  simp only [broadcastExcept_sess, Fin.getElem_fin, Vector.getElem_set]
  by_cases h : q = p
  · simp [h]
  · have : ¬ p.val = q.val := fun e => h (Fin.ext e.symm)
    simp [h, this]

end Sys2Proof.Machine
end

