-- ==== Sys2Proof/Laws/Entries.lean ====
section
/-! SUPPORT. Firing, VOID removals and late handling seen as one shape: each takes its entries one by one, and for each may
execute the action, may queue a notice, and settles the slot (R107, R113 to R117). One lemma for each part of the state says
what a whole pass does. -/

namespace Sys2Proof.Machine

/-- What a pass does with an entry, as functions of the slot, its generation and the entry. -/
structure Handling where
  acts : Entry → Bool
  note : SlotNo → BitVec 8 → Entry → Option NoticeBody
  next : Entry → Option Entry

/-- A slot with its entry replaced, or freed. -/
def settledSlot (x : Slot) : Option Entry → Slot
  | some n => ⟨x.generation, some n⟩
  | none => freedSlot x

/-- The slot after the handling of its entry. -/
def Handling.slot (h : Handling) (x : Slot) : Slot :=
  match x.entry with
  | none => x
  | some e => settledSlot x (h.next e)

/-- One entry taken by a pass. -/
def Handling.take (h : Handling) (s : State) (i : SlotNo) : State :=
  match s.cal.slots[i].entry with
  | none => s
  | some e =>
    let a := if h.acts e = true then act e.line e.action s else s
    let b := match h.note i s.cal.slots[i].generation e with
      | some n => notify e.owner n a
      | none => a
    settleEntry i (h.next e) b

/-- The firing of one entry as a handling, with what it reads of hub time and the epoch. -/
def fireHandling (now : Nat) (epoch : BitVec 16) : Handling where
  acts := fun _ => true
  note := fun i g e => if e.notify = true then some (.fired i g now epoch 0 false (e.advance 1).isNone) else none
  next := Entry.advance 1

/-- The VOID removal of one entry as a handling. -/
def voidHandling (epoch : BitVec 16) : Handling where
  acts := fun _ => false
  note := fun i g e => some (.voided i g e.fireTime epoch e.repetition.count)
  next := fun _ => none

/-- The late handling of one entry as a handling. -/
def lateHandlingOf (epoch current : BitVec 16) (hub now : Nat) : Handling where
  acts := fun e => decide (e.latePolicy = .fireLate)
  note := fun i g e =>
    let n := e.passed hub
    some (match e.latePolicy with
      | .fireLate => .fired i g now current (min (n - 1) 65535) true (e.advance n).isNone
      | .discard => .missed i g e.fireTime epoch (min n 65535) (e.advance n).isNone)
  next := fun e => e.advance (e.passed hub)

/-! ### Settling one slot -/

/-- The settling of a slot changes that slot and, when the entry ends, the owner's count. -/
theorem settleEntry_eq {i : SlotNo} {next : Option Entry} {s : State} {e : Entry} (h : s.cal.slots[i].entry = some e) :
    settleEntry i next s = { s with cal := { s.cal with
      slots := s.cal.slots.set i (settledSlot s.cal.slots[i] next)
      count := if next.isSome then s.cal.count else s.cal.count.set e.owner (s.cal.count[e.owner] - 1) } } := by
  cases next with
  | some n => rfl
  | none => exact removeEntry_some h

theorem settleEntry_frame (i : SlotNo) (next : Option Entry) (s : State) :
    settleEntry i next s = { s with cal := { s.cal with
      slots := (settleEntry i next s).cal.slots, count := (settleEntry i next s).cal.count } } := by
  cases next with
  | some n => rfl
  | none => exact removeEntry_frame i s

/-! ### settleEntry: the fields that stay -/

@[simp] theorem settleEntry_time (i : SlotNo) (n : Option Entry) (s : State) :
    (settleEntry i n s).time = s.time := by
  cases n <;> simp [settleEntry]
@[simp] theorem settleEntry_rx (i : SlotNo) (n : Option Entry) (s : State) : (settleEntry i n s).rx = s.rx := by
  cases n <;> simp [settleEntry]
@[simp] theorem settleEntry_disc (i : SlotNo) (n : Option Entry) (s : State) :
    (settleEntry i n s).disc = s.disc := by
  cases n <;> simp [settleEntry]
@[simp] theorem settleEntry_lines (i : SlotNo) (n : Option Entry) (s : State) :
    (settleEntry i n s).lines = s.lines := by
  cases n <;> simp [settleEntry]
@[simp] theorem settleEntry_watch (i : SlotNo) (n : Option Entry) (s : State) :
    (settleEntry i n s).watch = s.watch := by
  cases n <;> simp [settleEntry]
@[simp] theorem settleEntry_caps (i : SlotNo) (n : Option Entry) (s : State) :
    (settleEntry i n s).caps = s.caps := by
  cases n <;> simp [settleEntry]
@[simp] theorem settleEntry_leases (i : SlotNo) (n : Option Entry) (s : State) :
    (settleEntry i n s).leases = s.leases := by
  cases n <;> simp [settleEntry]
@[simp] theorem settleEntry_authority (i : SlotNo) (n : Option Entry) (s : State) :
    (settleEntry i n s).authority = s.authority := by
  cases n <;> simp [settleEntry]
@[simp] theorem settleEntry_sess (i : SlotNo) (n : Option Entry) (s : State) :
    (settleEntry i n s).sess = s.sess := by
  cases n <;> simp [settleEntry]
@[simp] theorem settleEntry_ports (i : SlotNo) (n : Option Entry) (s : State) :
    (settleEntry i n s).ports = s.ports := by
  cases n <;> simp [settleEntry]
@[simp] theorem settleEntry_pins (i : SlotNo) (n : Option Entry) (s : State) :
    (settleEntry i n s).pins = s.pins := by
  cases n <;> simp [settleEntry]
@[simp] theorem settleEntry_inReset (i : SlotNo) (n : Option Entry) (s : State) :
    (settleEntry i n s).inReset = s.inReset := by
  cases n <;> simp [settleEntry]
@[simp] theorem settleEntry_freeCount (i : SlotNo) (n : Option Entry) (s : State) :
    (settleEntry i n s).freeCount = s.freeCount := by
  cases n <;> simp [settleEntry]
@[simp] theorem settleEntry_pending (i : SlotNo) (n : Option Entry) (s : State) :
    (settleEntry i n s).pending = s.pending := by
  cases n <;> simp [settleEntry]

-- end of these fields

/-! ### The three passes are handlings -/

theorem fireEntry_eq (r : Reached) (s : State) (i : SlotNo) : fireEntry r s i = (fireHandling r.stamp r.epoch).take s i := by
  unfold fireEntry Handling.take fireHandling
  cases h : s.cal.slots[i].entry with
  | none => rfl
  | some e =>
    cases hn : e.notify <;> simp [hn]

theorem voidEntry_eq (epoch : BitVec 16) (s : State) (i : SlotNo) :
    voidEntry epoch s i = (voidHandling epoch).take s i := by
  unfold voidEntry Handling.take voidHandling
  cases h : s.cal.slots[i].entry <;> rfl

theorem lateEntry_eq (epoch : BitVec 16) (s : State) (i : SlotNo) :
    lateEntry epoch s i = (lateHandlingOf epoch s.time.epoch s.time.hub.ns s.reportedTime).take s i := by
  unfold lateEntry Handling.take lateHandlingOf
  cases h : s.cal.slots[i].entry with
  | none => rfl
  | some e => cases hp : e.latePolicy <;> simp [hp]

/-! ### One entry -/

namespace Handling

/-- Outside lines, calendar and sessions the handling of an entry changes nothing. -/
theorem take_frame (h : Handling) (s : State) (i : SlotNo) :
    h.take s i = { s with
      lines := (h.take s i).lines
      sess := (h.take s i).sess
      cal := { s.cal with slots := (h.take s i).cal.slots, count := (h.take s i).cal.count } } := by
  unfold Handling.take
  cases s.cal.slots[i].entry with
  | none => rfl
  | some e =>
    dsimp only
    rw [settleEntry_frame]
    cases h.note i s.cal.slots[i].generation e <;> cases h.acts e <;> simp

theorem take_some (h : Handling) {s : State} {i : SlotNo} {e : Entry} (he : s.cal.slots[i].entry = some e) :
    h.take s i = settleEntry i (h.next e)
      (match h.note i s.cal.slots[i].generation e with
       | some n => notify e.owner n (if h.acts e = true then act e.line e.action s else s)
       | none => if h.acts e = true then act e.line e.action s else s) := by
  unfold Handling.take
  rw [he]

theorem take_none (h : Handling) {s : State} {i : SlotNo} (he : s.cal.slots[i].entry = none) : h.take s i = s := by
  unfold Handling.take
  rw [he]

theorem take_slots (h : Handling) (s : State) (i j : SlotNo) :
    (h.take s i).cal.slots[j] = if j = i then h.slot s.cal.slots[j] else s.cal.slots[j] := by
  have key : ∀ e t, s.cal.slots[i].entry = some e → t.cal = s.cal →
      (settleEntry i (h.next e) t).cal.slots[j] = if j = i then h.slot s.cal.slots[j] else s.cal.slots[j] := by
    intro e t he ht
    rw [settleEntry_eq (e := e) (by rw [ht]; exact he)]
    show (t.cal.slots.set i (settledSlot t.cal.slots[i] _))[j] = _
    rw [getElem_set_fin, ht]
    by_cases hj : j = i
    · subst hj
      rw [if_pos rfl, if_pos rfl, Handling.slot, he]
    · rw [if_neg hj, if_neg hj]
  cases he : s.cal.slots[i].entry with
  | none =>
    rw [take_none h he]
    by_cases hj : j = i
    · subst hj; rw [if_pos rfl, Handling.slot, he]
    · rw [if_neg hj]
  | some e =>
    rw [take_some h he]
    refine key e _ he ?_
    cases h.note i s.cal.slots[i].generation e <;> cases h.acts e <;> simp

/-- The actions that the handling of the slots in `l` executes on the line `m`, in order. -/
def actions (h : Handling) (s : State) (l : List SlotNo) (m : LineNo) : List Action :=
  l.filterMap fun i => match s.cal.slots[i].entry with
    | some e => if h.acts e = true ∧ e.line = m then some e.action else none
    | none => none

/-- The notices that the handling of the slots in `l` queues to the port `p`, in order. -/
def notices (h : Handling) (s : State) (l : List SlotNo) (p : Port) : List NoticeBody :=
  l.filterMap fun i => match s.cal.slots[i].entry with
    | some e => if e.owner = p then h.note i s.cal.slots[i].generation e else none
    | none => none

end Handling

/-- A line record after actions. -/
def LineRecord.acted (as : List Action) : LineRecord → LineRecord
  | .output o => .output (as.foldl (fun x a => x.act a) o)
  | .unassigned d => .unassigned d
  | .capture c => .capture c

/-- A session after notices. -/
def Session.noted (up : BitVec 32) (ns : List NoticeBody) (x : Session) : Session :=
  ns.foldl (fun y n => y.push ⟨n, up⟩) x

theorem act_lines (l m : LineNo) (a : Action) (s : State) :
    (act l a s).lines[m] = if m = l then s.lines[m].acted [a] else s.lines[m] := by
  unfold act
  by_cases h : m = l
  · subst h
    rw [if_pos rfl]
    cases hr : s.lines[m] with
    | output o =>
      show (s.lines.set m _)[m] = _
      rw [getElem_set_fin, if_pos rfl]
      rfl
    | unassigned d => exact hr
    | capture c => exact hr
  · rw [if_neg h]
    split
    · show (s.lines.set l _)[m] = _
      rw [getElem_set_fin, if_neg h]
    · rfl

theorem LineRecord.acted_nil (r : LineRecord) : r.acted [] = r := by cases r <;> rfl

theorem LineRecord.acted_append (r : LineRecord) (as bs : List Action) : r.acted (as ++ bs) = (r.acted as).acted bs := by
  cases r <;> simp [LineRecord.acted]

namespace Handling

theorem take_lines (h : Handling) (s : State) (i : SlotNo) (m : LineNo) :
    (h.take s i).lines[m] = s.lines[m].acted (h.actions s [i] m) := by
  cases he : s.cal.slots[i].entry with
  | none =>
    rw [take_none h he, Handling.actions, List.filterMap_cons, he]
    exact (LineRecord.acted_nil _).symm
  | some e =>
    have hl : (h.take s i).lines = (if h.acts e = true then act e.line e.action s else s).lines := by
      rw [take_some h he]
      cases h.note i s.cal.slots[i].generation e <;> simp
    rw [hl, Handling.actions, List.filterMap_cons, he]
    by_cases ha : h.acts e = true
    · rw [if_pos ha, act_lines]
      by_cases hm : m = e.line
      · subst hm; simp [ha]
      · have : ¬ e.line = m := fun c => hm c.symm
        simp [hm, this, LineRecord.acted_nil]
    · rw [if_neg ha]
      simp [ha, LineRecord.acted_nil]

theorem take_sess (h : Handling) (s : State) (i : SlotNo) (p : Port) :
    (h.take s i).sess[p] = s.sess[p].noted s.time.uptime (h.notices s [i] p) := by
  cases he : s.cal.slots[i].entry with
  | none =>
    rw [take_none h he, Handling.notices, List.filterMap_cons, he]
    rfl
  | some e =>
    rw [take_some h he, Handling.notices, List.filterMap_cons, he]
    dsimp only
    cases hn : h.note i s.cal.slots[i].generation e with
    | none =>
      simp only [ite_self]
      cases h.acts e <;> simp [Session.noted]
    | some n =>
      simp only [settleEntry_sess]
      rw [getElem_notify_sess]
      by_cases hp : p = e.owner
      · subst hp; cases h.acts e <;> simp [Session.noted]
      · have : ¬ e.owner = p := fun c => hp c.symm
        cases h.acts e <;> simp [Session.noted, hp, this]

/-! ### A whole pass -/

theorem foldl_take_frame (h : Handling) (l : List SlotNo) (s : State) :
    l.foldl h.take s = { s with
      lines := (l.foldl h.take s).lines
      sess := (l.foldl h.take s).sess
      cal := { s.cal with slots := (l.foldl h.take s).cal.slots, count := (l.foldl h.take s).cal.count } } := by
  induction l generalizing s with
  | nil => rfl
  | cons i l ih => rw [List.foldl_cons, ih, take_frame]

theorem foldl_take_slots (h : Handling) (l : List SlotNo) (hl : l.Nodup) (s : State) (j : SlotNo) :
    (l.foldl h.take s).cal.slots[j] = if j ∈ l then h.slot s.cal.slots[j] else s.cal.slots[j] := by
  induction l generalizing s with
  | nil => simp
  | cons i l ih =>
    have hi := (List.nodup_cons.1 hl).1
    rw [List.foldl_cons, ih (List.nodup_cons.1 hl).2, take_slots]
    by_cases hj : j = i
    · subst hj; simp [hi]
    · simp [hj]

theorem actions_congr {h : Handling} {s t : State} {l : List SlotNo} (m : LineNo)
    (ht : ∀ i ∈ l, t.cal.slots[i] = s.cal.slots[i]) : h.actions t l m = h.actions s l m := by
  unfold Handling.actions
  induction l with
  | nil => rfl
  | cons i l ih =>
    rw [List.filterMap_cons, List.filterMap_cons, ht i (by simp), ih fun j hj => ht j (by simp [hj])]

theorem notices_congr {h : Handling} {s t : State} {l : List SlotNo} (p : Port)
    (ht : ∀ i ∈ l, t.cal.slots[i] = s.cal.slots[i]) : h.notices t l p = h.notices s l p := by
  unfold Handling.notices
  induction l with
  | nil => rfl
  | cons i l ih =>
    rw [List.filterMap_cons, List.filterMap_cons, ht i (by simp), ih fun j hj => ht j (by simp [hj])]

theorem actions_cons (h : Handling) (s : State) (i : SlotNo) (l : List SlotNo) (m : LineNo) :
    h.actions s (i :: l) m = h.actions s [i] m ++ h.actions s l m := by
  unfold Handling.actions
  rw [← List.singleton_append, List.filterMap_append]

theorem notices_cons (h : Handling) (s : State) (i : SlotNo) (l : List SlotNo) (p : Port) :
    h.notices s (i :: l) p = h.notices s [i] p ++ h.notices s l p := by
  unfold Handling.notices
  rw [← List.singleton_append, List.filterMap_append]

/-- A line after a pass: the actions of its entries, one after the other. -/
theorem foldl_take_lines (h : Handling) (l : List SlotNo) (hl : l.Nodup) (s : State) (m : LineNo) :
    (l.foldl h.take s).lines[m] = s.lines[m].acted (h.actions s l m) := by
  induction l generalizing s with
  | nil => exact (LineRecord.acted_nil _).symm
  | cons i l ih =>
    rw [List.foldl_cons, ih (List.nodup_cons.1 hl).2, take_lines, ← LineRecord.acted_append, actions_cons h s i l m]
    congr 2
    refine actions_congr m fun j hj => ?_
    rw [take_slots, if_neg]
    exact fun c => (List.nodup_cons.1 hl).1 (c ▸ hj)

/-- A session after a pass: the notices to it, one after the other. -/
theorem foldl_take_sess (h : Handling) (l : List SlotNo) (hl : l.Nodup) (s : State) (p : Port) :
    (l.foldl h.take s).sess[p] = s.sess[p].noted s.time.uptime (h.notices s l p) := by
  induction l generalizing s with
  | nil => rfl
  | cons i l ih =>
    have ht : (h.take s i).time = s.time := by rw [take_frame]
    rw [List.foldl_cons, ih (List.nodup_cons.1 hl).2, take_sess, ht, notices_cons h s i l p]
    have hc : h.notices (h.take s i) l p = h.notices s l p := by
      refine notices_congr p fun j hj => ?_
      rw [take_slots, if_neg]
      exact fun c => (List.nodup_cons.1 hl).1 (c ▸ hj)
    rw [hc]
    simp [Session.noted]

/-- The notices of a pass to a port, as one fold over its slots. -/
theorem noted_eq_foldl (h : Handling) (s : State) (l : List SlotNo) (p : Port) (x : Session)
    (f : Session → SlotNo → Session)
    (hf : ∀ y i, i ∈ l → f y i = match s.cal.slots[i].entry with
      | some e => if e.owner = p then
          (match h.note i s.cal.slots[i].generation e with
          | some b => y.push ⟨b, s.time.uptime⟩
          | none => y) else y
      | none => y) :
    x.noted s.time.uptime (h.notices s l p) = l.foldl f x := by
  induction l generalizing x with
  | nil => rfl
  | cons i l ih =>
    have hh := ih (x := f x i) fun y j hj => hf y j (by simp [hj])
    rw [List.foldl_cons, ← hh, notices_cons, Session.noted, List.foldl_append]
    unfold Session.noted
    congr 1
    rw [hf x i (by simp), Handling.notices, List.filterMap_cons]
    cases s.cal.slots[i].entry with
    | none => rfl
    | some e =>
      by_cases ho : e.owner = p
      · cases hn : h.note i s.cal.slots[i].generation e <;> simp [-Fin.getElem_fin, ho, hn]
      · simp [-Fin.getElem_fin, ho]

/-- The actions of a pass on a line, as one fold over its slots. -/
theorem acted_eq_foldl (h : Handling) (s : State) (l : List SlotNo) (m : LineNo) (r : LineRecord)
    (f : LineRecord → SlotNo → LineRecord)
    (hf : ∀ y i, i ∈ l → f y i = match s.cal.slots[i].entry, y with
      | some e, .output o => if h.acts e = true ∧ e.line = m then .output (o.act e.action) else .output o
      | _, y => y) :
    r.acted (h.actions s l m) = l.foldl f r := by
  induction l generalizing r with
  | nil => exact LineRecord.acted_nil _
  | cons i l ih =>
    have hh := ih (r := f r i) fun y j hj => hf y j (by simp [hj])
    rw [List.foldl_cons, ← hh, actions_cons, LineRecord.acted_append]
    congr 1
    rw [hf r i (by simp), Handling.actions, List.filterMap_cons]
    cases s.cal.slots[i].entry with
    | none => exact LineRecord.acted_nil _
    | some e => by_cases ho : h.acts e = true ∧ e.line = m <;> cases r <;> simp [ho, LineRecord.acted]

/-- The slots in `l` whose entry is the port's and ends in the pass. -/
def ended (h : Handling) (s : State) (l : List SlotNo) (p : Port) : List SlotNo :=
  l.filter fun i => match s.cal.slots[i].entry with
    | some e => decide (e.owner = p) && (h.next e).isNone
    | none => false

theorem take_count (h : Handling) (s : State) (i : SlotNo) (p : Port) :
    (h.take s i).cal.count[p] = s.cal.count[p] - (h.ended s [i] p).length := by
  cases he : s.cal.slots[i].entry with
  | none =>
    rw [take_none h he]
    simp [-Fin.getElem_fin, Handling.ended, he]
  | some e =>
    have key : ∀ t : State, t.cal = s.cal → (settleEntry i (h.next e) t).cal.count[p] =
        s.cal.count[p] - (h.ended s [i] p).length := by
      intro t ht
      rw [settleEntry_eq (e := e) (by rw [ht]; exact he)]
      cases hn : h.next e with
      | some x => simp [-Fin.getElem_fin, Handling.ended, he, hn, ht]
      | none =>
        by_cases ho : e.owner = p
        · subst ho
          simp [-Fin.getElem_fin, Handling.ended, he, hn, ht, getElem_set_fin]
        · have ho' : ¬ p = e.owner := fun c => ho c.symm
          simp [-Fin.getElem_fin, Handling.ended, he, hn, ht, getElem_set_fin, ho, ho']
    rw [take_some h he]
    refine key _ ?_
    cases h.note i s.cal.slots[i].generation e <;> cases h.acts e <;> simp

theorem ended_congr {h : Handling} {s t : State} {l : List SlotNo} (p : Port)
    (ht : ∀ i ∈ l, t.cal.slots[i] = s.cal.slots[i]) : h.ended t l p = h.ended s l p := by
  refine List.filter_congr fun i hi => ?_
  rw [ht i hi]

/-- An entry count after a pass: less by the owner's entries that ended. -/
theorem foldl_take_count (h : Handling) (l : List SlotNo) (hl : l.Nodup) (s : State) (p : Port) :
    (l.foldl h.take s).cal.count[p] = s.cal.count[p] - (h.ended s l p).length := by
  induction l generalizing s with
  | nil => rfl
  | cons i l ih =>
    have hc : h.ended (h.take s i) l p = h.ended s l p := by
      refine ended_congr p fun j hj => ?_
      rw [take_slots, if_neg]
      exact fun c => (List.nodup_cons.1 hl).1 (c ▸ hj)
    have hs : h.ended s (i :: l) p = h.ended s [i] p ++ h.ended s l p := by
      unfold Handling.ended
      rw [← List.singleton_append, List.filter_append]
    rw [List.foldl_cons, ih (List.nodup_cons.1 hl).2, take_count, hc, hs, List.length_append, Nat.sub_add_eq]

end Handling

/-! ### A fire time reached, after a step is handled (R121) -/

@[simp] theorem Reached.restamp_fireTime (h : StepHandoff) (r : Reached) : (r.restamp h).fireTime = r.fireTime := by
  unfold Reached.restamp
  split <;> rfl

/-- A fire time that was reached in the epoch just before the step takes the step's hub time and epoch; another is left. -/
theorem Reached.restamp_cases (h : StepHandoff) (r : Reached) :
    (r.epoch + 1 = h.epoch ∧ r.restamp h = ⟨r.fireTime, h.hub.reported, h.epoch⟩) ∨
    (r.epoch + 1 ≠ h.epoch ∧ r.restamp h = r) := by
  by_cases g : r.epoch + 1 = h.epoch
  · exact .inl ⟨g, if_pos g⟩
  · exact .inr ⟨g, if_neg g⟩

/-! ### The passes themselves -/

theorem foldl_fireEntry (r : Reached) (l : List SlotNo) (s : State) :
    l.foldl (fireEntry r) s = l.foldl (fireHandling r.stamp r.epoch).take s := by
  have : fireEntry r = (fireHandling r.stamp r.epoch).take := by funext s i; exact fireEntry_eq r s i
  rw [this]

theorem foldl_voidEntry (epoch : BitVec 16) (l : List SlotNo) (s : State) :
    l.foldl (voidEntry epoch) s = l.foldl (voidHandling epoch).take s := by
  have : voidEntry epoch = (voidHandling epoch).take := by funext s i; exact voidEntry_eq epoch s i
  rw [this]

theorem foldl_lateEntry (epoch : BitVec 16) (l : List SlotNo) (s : State) :
    l.foldl (lateEntry epoch) s = l.foldl (lateHandlingOf epoch s.time.epoch s.time.hub.ns s.reportedTime).take s := by
  induction l generalizing s with
  | nil => rfl
  | cons i l ih =>
    have ht : (lateEntry epoch s i).time = s.time := by rw [lateEntry_eq, Handling.take_frame]
    have hr : (lateEntry epoch s i).reportedTime = s.reportedTime := by unfold State.reportedTime; rw [ht]
    rw [List.foldl_cons, ih, hr, ht, List.foldl_cons, lateEntry_eq]

end Sys2Proof.Machine
end

