-- ==== Sys2Proof/Laws/Requests.lean ====
section
/-! SUPPORT. What the taking of a request can do, said once (R175, R176, R177). -/

namespace Sys2Proof.Machine

theorem RequestKind.ofCode_code {b : Byte} {k : RequestKind} (h : RequestKind.ofCode b = some k) : k.code = b := by
  simpa using List.find?_some h

/-- A body that is a request of kind `k` begins with its code. -/
theorem requestOf_code {body : List Byte} {k : RequestKind} (h : requestOf body = some k) : kindByte body = k.code := by
  unfold requestOf at h
  split at h
  · next j hj =>
    split at h
    · cases h; exact (RequestKind.ofCode_code hj).symm
    · cases h
  · cases h

/-- A body that is a request of kind `k` has that kind's length. -/
theorem requestOf_length {body : List Byte} {k : RequestKind} (h : requestOf body = some k) :
    body.length = k.bodyLength body := by
  unfold requestOf at h
  split at h
  · split at h
    · cases h; assumption
    · cases h
  · cases h

/-- A request in flight is answered with what `judge` gives. -/
theorem takeRequest_inFlight {k : RequestKind} {p : Port} {body : List Byte} {s : State}
    (run : List Byte → State → State × Answer) (h : InFlight k p body s) :
    takeRequest k p run s =
      .next (answerPort p k.code (judge k p body run s).2 (judge k p body run s).1) := by
  unfold takeRequest
  simp only [h.1, h.2, if_true, requestOf_code h.2]

/-- Without a request of its kind in flight a request command is no event. -/
theorem takeRequest_idle {k : RequestKind} {p : Port} {s : State} (run : List Byte → State → State × Answer)
    (h : ∀ body, ¬ InFlight k p body s) : takeRequest k p run s = .next s := by
  unfold takeRequest
  split
  · next body hb =>
    split
    · next hk => exact absurd ⟨hb, hk⟩ (h body)
    · rfl
  · rfl

/-- An admitted request reaches the owning block's own part. -/
theorem judge_admitted {k : RequestKind} {p : Port} {body : List Byte} {s : State}
    (run : List Byte → State → State × Answer) (h : Admitted k p body s) : judge k p body run s = run body s := by
  obtain ⟨-, h1, h2, h3⟩ := h
  unfold judge
  rw [if_neg fun c => by have := h1 c.1; simp_all, if_neg fun c => c.2 (h2 c.1), if_neg (by simp [h3])]

/-- The owning block's answer in the reply slot. -/
theorem takeRequest_admitted {k : RequestKind} {p : Port} {body : List Byte} {s : State}
    (run : List Byte → State → State × Answer) (h : Admitted k p body s) :
    takeRequest k p run s =
      .next (withReply p ([k.code, (run body s).2.status.code, (run body s).1.sess[p].number] ++ (run body s).2.body)
        (run body s).1) := by
  rw [takeRequest_inFlight run h.1, judge_admitted run h]
  rfl

/-- Every outcome of the taking of a request: nothing in flight, a refusal that changes the reply slot only, or the owning
block's own part. -/
theorem takeRequest_cases {k : RequestKind} {p : Port} {s t : State} {run : List Byte → State → State × Answer}
    (h : takeRequest k p run s = .next t) :
    t = s ∨
    (∃ body status, InFlight k p body s ∧ t = withReply p [k.code, status, s.sess[p].number] s) ∨
    ∃ body, Admitted k p body s ∧
      t = withReply p ([k.code, (run body s).2.status.code, (run body s).1.sess[p].number] ++ (run body s).2.body)
        (run body s).1 := by
  by_cases hf : ∃ body, InFlight k p body s
  · obtain ⟨body, hf⟩ := hf
    by_cases ha : Admitted k p body s
    · rw [takeRequest_admitted run ha] at h
      cases h
      exact .inr (.inr ⟨body, ha, rfl⟩)
    · rw [takeRequest_inFlight run hf] at h
      cases h
      refine .inr (.inl ?_)
      unfold judge
      split
      · exact ⟨body, _, hf, rfl⟩
      · split
        · exact ⟨body, _, hf, rfl⟩
        · split
          · exact ⟨body, _, hf, rfl⟩
          · next a b c =>
            refine absurd ⟨hf, fun x => ?_, fun x => ?_, ?_⟩ ha
            · simpa [x] using a
            · simpa [x] using b
            · simpa using c
  · rw [takeRequest_idle run fun body hb => hf ⟨body, hb⟩] at h
    cases h
    exact .inl rfl

/-- The taking of a request always answers a next state. -/
theorem takeRequest_next (k : RequestKind) (p : Port) (s : State) (run : List Byte → State → State × Answer) :
    ∃ t, takeRequest k p run s = .next t := by
  unfold takeRequest
  split
  · split
    · exact ⟨_, rfl⟩
    · exact ⟨_, rfl⟩
  · exact ⟨_, rfl⟩

/-! ### withReply: what it leaves -/

@[simp] theorem withReply_time (p : Port) (r : List Byte) (s : State) : (withReply p r s).time = s.time := rfl
@[simp] theorem withReply_rx (p : Port) (r : List Byte) (s : State) : (withReply p r s).rx = s.rx := rfl
@[simp] theorem withReply_disc (p : Port) (r : List Byte) (s : State) : (withReply p r s).disc = s.disc := rfl
@[simp] theorem withReply_lines (p : Port) (r : List Byte) (s : State) : (withReply p r s).lines = s.lines := rfl
@[simp] theorem withReply_cal (p : Port) (r : List Byte) (s : State) : (withReply p r s).cal = s.cal := rfl
@[simp] theorem withReply_watch (p : Port) (r : List Byte) (s : State) : (withReply p r s).watch = s.watch := rfl
@[simp] theorem withReply_caps (p : Port) (r : List Byte) (s : State) : (withReply p r s).caps = s.caps := rfl
@[simp] theorem withReply_leases (p : Port) (r : List Byte) (s : State) : (withReply p r s).leases = s.leases := rfl
@[simp] theorem withReply_authority (p : Port) (r : List Byte) (s : State) :
    (withReply p r s).authority = s.authority := rfl
@[simp] theorem withReply_sess (p : Port) (r : List Byte) (s : State) : (withReply p r s).sess = s.sess := rfl
@[simp] theorem withReply_pins (p : Port) (r : List Byte) (s : State) : (withReply p r s).pins = s.pins := rfl
@[simp] theorem withReply_inReset (p : Port) (r : List Byte) (s : State) : (withReply p r s).inReset = s.inReset := rfl
@[simp] theorem withReply_freeCount (p : Port) (r : List Byte) (s : State) :
    (withReply p r s).freeCount = s.freeCount := rfl
@[simp] theorem withReply_pending (p : Port) (r : List Byte) (s : State) : (withReply p r s).pending = s.pending := rfl

end Sys2Proof.Machine
end

