-- ==== Sys2Proof/Laws/Teardown.lean ====
section
/-! SUPPORT. What the release of a line, the cancellation of entries and the teardown of a port leave unchanged, and what a
teardown leaves of lines, entries, leases and sessions (R75, R77, R102, R160). -/

namespace Sys2Proof.Machine

/-! ### The fields that stay -/

@[simp] theorem cancelWhere_time (f : Entry → Bool) (s : State) : (cancelWhere f s).1.time = s.time := by
  rw [cancelWhere_frame]
@[simp] theorem cancelWhere_rx (f : Entry → Bool) (s : State) : (cancelWhere f s).1.rx = s.rx := by
  rw [cancelWhere_frame]
@[simp] theorem cancelWhere_disc (f : Entry → Bool) (s : State) : (cancelWhere f s).1.disc = s.disc := by
  rw [cancelWhere_frame]
@[simp] theorem cancelWhere_caps (f : Entry → Bool) (s : State) : (cancelWhere f s).1.caps = s.caps := by
  rw [cancelWhere_frame]
@[simp] theorem cancelWhere_authority (f : Entry → Bool) (s : State) :
    (cancelWhere f s).1.authority = s.authority := by
  rw [cancelWhere_frame]
@[simp] theorem cancelWhere_sess (f : Entry → Bool) (s : State) : (cancelWhere f s).1.sess = s.sess := by
  rw [cancelWhere_frame]
@[simp] theorem cancelWhere_ports (f : Entry → Bool) (s : State) : (cancelWhere f s).1.ports = s.ports := by
  rw [cancelWhere_frame]
@[simp] theorem cancelWhere_pins (f : Entry → Bool) (s : State) : (cancelWhere f s).1.pins = s.pins := by
  rw [cancelWhere_frame]
@[simp] theorem cancelWhere_inReset (f : Entry → Bool) (s : State) : (cancelWhere f s).1.inReset = s.inReset := by
  rw [cancelWhere_frame]
@[simp] theorem cancelWhere_freeCount (f : Entry → Bool) (s : State) :
    (cancelWhere f s).1.freeCount = s.freeCount := by
  rw [cancelWhere_frame]
@[simp] theorem cancelWhere_pending (f : Entry → Bool) (s : State) : (cancelWhere f s).1.pending = s.pending := by
  rw [cancelWhere_frame]
@[simp] theorem cancelWhere_lines (f : Entry → Bool) (s : State) : (cancelWhere f s).1.lines = s.lines := by
  rw [cancelWhere_frame]
@[simp] theorem cancelWhere_watch (f : Entry → Bool) (s : State) : (cancelWhere f s).1.watch = s.watch := by
  rw [cancelWhere_frame]
@[simp] theorem cancelWhere_leases (f : Entry → Bool) (s : State) : (cancelWhere f s).1.leases = s.leases := by
  rw [cancelWhere_frame]
@[simp] theorem cancelWhere_cal_quota (f : Entry → Bool) (s : State) :
    (cancelWhere f s).1.cal.quota = s.cal.quota := by
  rw [cancelWhere_frame]
@[simp] theorem cancelWhere_cal_reached (f : Entry → Bool) (s : State) :
    (cancelWhere f s).1.cal.reached = s.cal.reached := by
  rw [cancelWhere_frame]

@[simp] theorem releaseOutput_time (l : LineNo) (s : State) : (releaseOutput l s).1.time = s.time := by
  unfold releaseOutput cancelByLine; split <;> simp
@[simp] theorem releaseOutput_rx (l : LineNo) (s : State) : (releaseOutput l s).1.rx = s.rx := by
  unfold releaseOutput cancelByLine; split <;> simp
@[simp] theorem releaseOutput_disc (l : LineNo) (s : State) : (releaseOutput l s).1.disc = s.disc := by
  unfold releaseOutput cancelByLine; split <;> simp
@[simp] theorem releaseOutput_caps (l : LineNo) (s : State) : (releaseOutput l s).1.caps = s.caps := by
  unfold releaseOutput cancelByLine; split <;> simp
@[simp] theorem releaseOutput_authority (l : LineNo) (s : State) :
    (releaseOutput l s).1.authority = s.authority := by
  unfold releaseOutput cancelByLine; split <;> simp
@[simp] theorem releaseOutput_sess (l : LineNo) (s : State) : (releaseOutput l s).1.sess = s.sess := by
  unfold releaseOutput cancelByLine; split <;> simp
@[simp] theorem releaseOutput_ports (l : LineNo) (s : State) : (releaseOutput l s).1.ports = s.ports := by
  unfold releaseOutput cancelByLine; split <;> simp
@[simp] theorem releaseOutput_pins (l : LineNo) (s : State) : (releaseOutput l s).1.pins = s.pins := by
  unfold releaseOutput cancelByLine; split <;> simp
@[simp] theorem releaseOutput_inReset (l : LineNo) (s : State) : (releaseOutput l s).1.inReset = s.inReset := by
  unfold releaseOutput cancelByLine; split <;> simp
@[simp] theorem releaseOutput_freeCount (l : LineNo) (s : State) :
    (releaseOutput l s).1.freeCount = s.freeCount := by
  unfold releaseOutput cancelByLine; split <;> simp
@[simp] theorem releaseOutput_pending (l : LineNo) (s : State) : (releaseOutput l s).1.pending = s.pending := by
  unfold releaseOutput cancelByLine; split <;> simp
@[simp] theorem releaseOutput_watch (l : LineNo) (s : State) : (releaseOutput l s).1.watch = s.watch := by
  unfold releaseOutput cancelByLine; split <;> simp
@[simp] theorem releaseOutput_cal_quota (l : LineNo) (s : State) :
    (releaseOutput l s).1.cal.quota = s.cal.quota := by
  unfold releaseOutput cancelByLine; split <;> simp
@[simp] theorem releaseOutput_cal_reached (l : LineNo) (s : State) :
    (releaseOutput l s).1.cal.reached = s.cal.reached := by
  unfold releaseOutput cancelByLine; split <;> simp

@[simp] theorem depart_time (l : LineNo) (p : Port) (s : State) : (depart l p s).time = s.time := by
  unfold depart; split
  · dsimp only; split <;> rfl
  · rfl
@[simp] theorem depart_rx (l : LineNo) (p : Port) (s : State) : (depart l p s).rx = s.rx := by
  unfold depart; split
  · dsimp only; split <;> rfl
  · rfl
@[simp] theorem depart_disc (l : LineNo) (p : Port) (s : State) : (depart l p s).disc = s.disc := by
  unfold depart; split
  · dsimp only; split <;> rfl
  · rfl
@[simp] theorem depart_caps (l : LineNo) (p : Port) (s : State) : (depart l p s).caps = s.caps := by
  unfold depart; split
  · dsimp only; split <;> rfl
  · rfl
@[simp] theorem depart_authority (l : LineNo) (p : Port) (s : State) : (depart l p s).authority = s.authority := by
  unfold depart; split
  · dsimp only; split <;> rfl
  · rfl
@[simp] theorem depart_sess (l : LineNo) (p : Port) (s : State) : (depart l p s).sess = s.sess := by
  unfold depart; split
  · dsimp only; split <;> rfl
  · rfl
@[simp] theorem depart_ports (l : LineNo) (p : Port) (s : State) : (depart l p s).ports = s.ports := by
  unfold depart; split
  · dsimp only; split <;> rfl
  · rfl
@[simp] theorem depart_pins (l : LineNo) (p : Port) (s : State) : (depart l p s).pins = s.pins := by
  unfold depart; split
  · dsimp only; split <;> rfl
  · rfl
@[simp] theorem depart_inReset (l : LineNo) (p : Port) (s : State) : (depart l p s).inReset = s.inReset := by
  unfold depart; split
  · dsimp only; split <;> rfl
  · rfl
@[simp] theorem depart_freeCount (l : LineNo) (p : Port) (s : State) : (depart l p s).freeCount = s.freeCount := by
  unfold depart; split
  · dsimp only; split <;> rfl
  · rfl
@[simp] theorem depart_pending (l : LineNo) (p : Port) (s : State) : (depart l p s).pending = s.pending := by
  unfold depart; split
  · dsimp only; split <;> rfl
  · rfl
@[simp] theorem depart_cal (l : LineNo) (p : Port) (s : State) : (depart l p s).cal = s.cal := by
  unfold depart; split
  · dsimp only; split <;> rfl
  · rfl

@[simp] theorem teardownLine_time (p : Port) (r : State × TeardownCounts) (l : LineNo) :
    (teardownLine p r l).1.time = r.1.time := by
  unfold teardownLine; split <;> (try split) <;> simp
@[simp] theorem teardownLine_rx (p : Port) (r : State × TeardownCounts) (l : LineNo) :
    (teardownLine p r l).1.rx = r.1.rx := by
  unfold teardownLine; split <;> (try split) <;> simp
@[simp] theorem teardownLine_disc (p : Port) (r : State × TeardownCounts) (l : LineNo) :
    (teardownLine p r l).1.disc = r.1.disc := by
  unfold teardownLine; split <;> (try split) <;> simp
@[simp] theorem teardownLine_caps (p : Port) (r : State × TeardownCounts) (l : LineNo) :
    (teardownLine p r l).1.caps = r.1.caps := by
  unfold teardownLine; split <;> (try split) <;> simp
@[simp] theorem teardownLine_authority (p : Port) (r : State × TeardownCounts) (l : LineNo) :
    (teardownLine p r l).1.authority = r.1.authority := by
  unfold teardownLine; split <;> (try split) <;> simp
@[simp] theorem teardownLine_sess (p : Port) (r : State × TeardownCounts) (l : LineNo) :
    (teardownLine p r l).1.sess = r.1.sess := by
  unfold teardownLine; split <;> (try split) <;> simp
@[simp] theorem teardownLine_ports (p : Port) (r : State × TeardownCounts) (l : LineNo) :
    (teardownLine p r l).1.ports = r.1.ports := by
  unfold teardownLine; split <;> (try split) <;> simp
@[simp] theorem teardownLine_pins (p : Port) (r : State × TeardownCounts) (l : LineNo) :
    (teardownLine p r l).1.pins = r.1.pins := by
  unfold teardownLine; split <;> (try split) <;> simp
@[simp] theorem teardownLine_inReset (p : Port) (r : State × TeardownCounts) (l : LineNo) :
    (teardownLine p r l).1.inReset = r.1.inReset := by
  unfold teardownLine; split <;> (try split) <;> simp
@[simp] theorem teardownLine_freeCount (p : Port) (r : State × TeardownCounts) (l : LineNo) :
    (teardownLine p r l).1.freeCount = r.1.freeCount := by
  unfold teardownLine; split <;> (try split) <;> simp
@[simp] theorem teardownLine_pending (p : Port) (r : State × TeardownCounts) (l : LineNo) :
    (teardownLine p r l).1.pending = r.1.pending := by
  unfold teardownLine; split <;> (try split) <;> simp
@[simp] theorem teardownLine_cal_quota (p : Port) (r : State × TeardownCounts) (l : LineNo) :
    (teardownLine p r l).1.cal.quota = r.1.cal.quota := by
  unfold teardownLine; split <;> (try split) <;> simp
@[simp] theorem teardownLine_cal_reached (p : Port) (r : State × TeardownCounts) (l : LineNo) :
    (teardownLine p r l).1.cal.reached = r.1.cal.reached := by
  unfold teardownLine; split <;> (try split) <;> simp

@[simp] theorem foldl_teardownLine_time (p : Port) (ls : List LineNo) (r : State × TeardownCounts) :
    (ls.foldl (teardownLine p) r).1.time = r.1.time := by
  induction ls generalizing r with
  | nil => rfl
  | cons l ls ih => rw [List.foldl_cons, ih, teardownLine_time]
@[simp] theorem foldl_teardownLine_rx (p : Port) (ls : List LineNo) (r : State × TeardownCounts) :
    (ls.foldl (teardownLine p) r).1.rx = r.1.rx := by
  induction ls generalizing r with
  | nil => rfl
  | cons l ls ih => rw [List.foldl_cons, ih, teardownLine_rx]
@[simp] theorem foldl_teardownLine_disc (p : Port) (ls : List LineNo) (r : State × TeardownCounts) :
    (ls.foldl (teardownLine p) r).1.disc = r.1.disc := by
  induction ls generalizing r with
  | nil => rfl
  | cons l ls ih => rw [List.foldl_cons, ih, teardownLine_disc]
@[simp] theorem foldl_teardownLine_caps (p : Port) (ls : List LineNo) (r : State × TeardownCounts) :
    (ls.foldl (teardownLine p) r).1.caps = r.1.caps := by
  induction ls generalizing r with
  | nil => rfl
  | cons l ls ih => rw [List.foldl_cons, ih, teardownLine_caps]
@[simp] theorem foldl_teardownLine_authority (p : Port) (ls : List LineNo) (r : State × TeardownCounts) :
    (ls.foldl (teardownLine p) r).1.authority = r.1.authority := by
  induction ls generalizing r with
  | nil => rfl
  | cons l ls ih => rw [List.foldl_cons, ih, teardownLine_authority]
@[simp] theorem foldl_teardownLine_sess (p : Port) (ls : List LineNo) (r : State × TeardownCounts) :
    (ls.foldl (teardownLine p) r).1.sess = r.1.sess := by
  induction ls generalizing r with
  | nil => rfl
  | cons l ls ih => rw [List.foldl_cons, ih, teardownLine_sess]
@[simp] theorem foldl_teardownLine_ports (p : Port) (ls : List LineNo) (r : State × TeardownCounts) :
    (ls.foldl (teardownLine p) r).1.ports = r.1.ports := by
  induction ls generalizing r with
  | nil => rfl
  | cons l ls ih => rw [List.foldl_cons, ih, teardownLine_ports]
@[simp] theorem foldl_teardownLine_pins (p : Port) (ls : List LineNo) (r : State × TeardownCounts) :
    (ls.foldl (teardownLine p) r).1.pins = r.1.pins := by
  induction ls generalizing r with
  | nil => rfl
  | cons l ls ih => rw [List.foldl_cons, ih, teardownLine_pins]
@[simp] theorem foldl_teardownLine_inReset (p : Port) (ls : List LineNo) (r : State × TeardownCounts) :
    (ls.foldl (teardownLine p) r).1.inReset = r.1.inReset := by
  induction ls generalizing r with
  | nil => rfl
  | cons l ls ih => rw [List.foldl_cons, ih, teardownLine_inReset]
@[simp] theorem foldl_teardownLine_freeCount (p : Port) (ls : List LineNo) (r : State × TeardownCounts) :
    (ls.foldl (teardownLine p) r).1.freeCount = r.1.freeCount := by
  induction ls generalizing r with
  | nil => rfl
  | cons l ls ih => rw [List.foldl_cons, ih, teardownLine_freeCount]
@[simp] theorem foldl_teardownLine_pending (p : Port) (ls : List LineNo) (r : State × TeardownCounts) :
    (ls.foldl (teardownLine p) r).1.pending = r.1.pending := by
  induction ls generalizing r with
  | nil => rfl
  | cons l ls ih => rw [List.foldl_cons, ih, teardownLine_pending]
@[simp] theorem foldl_teardownLine_cal_quota (p : Port) (ls : List LineNo) (r : State × TeardownCounts) :
    (ls.foldl (teardownLine p) r).1.cal.quota = r.1.cal.quota := by
  induction ls generalizing r with
  | nil => rfl
  | cons l ls ih => rw [List.foldl_cons, ih, teardownLine_cal_quota]
@[simp] theorem foldl_teardownLine_cal_reached (p : Port) (ls : List LineNo) (r : State × TeardownCounts) :
    (ls.foldl (teardownLine p) r).1.cal.reached = r.1.cal.reached := by
  induction ls generalizing r with
  | nil => rfl
  | cons l ls ih => rw [List.foldl_cons, ih, teardownLine_cal_reached]

@[simp] theorem teardownLeases_time (p : Port) (s : State) : (teardownLeases p s).time = s.time := by
  unfold teardownLeases; dsimp only; split <;> simp
@[simp] theorem teardownLeases_rx (p : Port) (s : State) : (teardownLeases p s).rx = s.rx := by
  unfold teardownLeases; dsimp only; split <;> simp
@[simp] theorem teardownLeases_disc (p : Port) (s : State) : (teardownLeases p s).disc = s.disc := by
  unfold teardownLeases; dsimp only; split <;> simp
@[simp] theorem teardownLeases_caps (p : Port) (s : State) : (teardownLeases p s).caps = s.caps := by
  unfold teardownLeases; dsimp only; split <;> simp
@[simp] theorem teardownLeases_ports (p : Port) (s : State) : (teardownLeases p s).ports = s.ports := by
  unfold teardownLeases; dsimp only; split <;> simp
@[simp] theorem teardownLeases_pins (p : Port) (s : State) : (teardownLeases p s).pins = s.pins := by
  unfold teardownLeases; dsimp only; split <;> simp
@[simp] theorem teardownLeases_inReset (p : Port) (s : State) : (teardownLeases p s).inReset = s.inReset := by
  unfold teardownLeases; dsimp only; split <;> simp
@[simp] theorem teardownLeases_freeCount (p : Port) (s : State) : (teardownLeases p s).freeCount = s.freeCount := by
  unfold teardownLeases; dsimp only; split <;> simp
@[simp] theorem teardownLeases_pending (p : Port) (s : State) : (teardownLeases p s).pending = s.pending := by
  unfold teardownLeases; dsimp only; split <;> simp
@[simp] theorem teardownLeases_lines (p : Port) (s : State) : (teardownLeases p s).lines = s.lines := by
  unfold teardownLeases; dsimp only; split <;> simp
@[simp] theorem teardownLeases_watch (p : Port) (s : State) : (teardownLeases p s).watch = s.watch := by
  unfold teardownLeases; dsimp only; split <;> simp
@[simp] theorem teardownLeases_cal (p : Port) (s : State) : (teardownLeases p s).cal = s.cal := by
  unfold teardownLeases; dsimp only; split <;> simp

@[simp] theorem teardown_time (p : Port) (s : State) : (teardown p s).1.time = s.time := by
  unfold teardown cancelByPort; simp
@[simp] theorem teardown_rx (p : Port) (s : State) : (teardown p s).1.rx = s.rx := by
  unfold teardown cancelByPort; simp
@[simp] theorem teardown_disc (p : Port) (s : State) : (teardown p s).1.disc = s.disc := by
  unfold teardown cancelByPort; simp
@[simp] theorem teardown_ports (p : Port) (s : State) : (teardown p s).1.ports = s.ports := by
  unfold teardown cancelByPort; simp
@[simp] theorem teardown_pins (p : Port) (s : State) : (teardown p s).1.pins = s.pins := by
  unfold teardown cancelByPort; simp
@[simp] theorem teardown_inReset (p : Port) (s : State) : (teardown p s).1.inReset = s.inReset := by
  unfold teardown cancelByPort; simp
@[simp] theorem teardown_freeCount (p : Port) (s : State) : (teardown p s).1.freeCount = s.freeCount := by
  unfold teardown cancelByPort; simp
@[simp] theorem teardown_pending (p : Port) (s : State) : (teardown p s).1.pending = s.pending := by
  unfold teardown cancelByPort; simp
@[simp] theorem teardown_cal_quota (p : Port) (s : State) : (teardown p s).1.cal.quota = s.cal.quota := by
  unfold teardown cancelByPort; simp
@[simp] theorem teardown_cal_reached (p : Port) (s : State) : (teardown p s).1.cal.reached = s.cal.reached := by
  unfold teardown cancelByPort; simp

/-! ### A teardown's part of a line -/

/-- A line record without the port `p`. -/
def LineRecord.without (p : Port) (r : LineRecord) : LineRecord :=
  match r with
  | .unassigned d => .unassigned d
  | .output o => if o.holder = p then .unassigned (some ⟨o.releaseLevel, 16⟩) else .output o
  | .capture c =>
    if p ∈ c.subscribers then
      (if c.subscribers.filter (· ≠ p) = [] then .unassigned none
       else .capture { c with subscribers := c.subscribers.filter (· ≠ p) })
    else .capture c

/-- The watch of a line whose record was `r`, without the port `p`. -/
def watchWithout (p : Port) (r : LineRecord) (w : Option Watch) : Option Watch :=
  match r with
  | .capture c => if p ∈ c.subscribers ∧ c.subscribers.filter (· ≠ p) = [] then none else w
  | .unassigned _ => w
  | .output _ => w

theorem teardownLine_output {p : Port} {r : State × TeardownCounts} {l : LineNo} {o : OutputLine}
    (h : r.1.lines[l] = .output o) (ho : o.holder = p) : (teardownLine p r l).1 = (releaseOutput l r.1).1 := by
  have hh : r.1.holds p l = true := by unfold State.holds; rw [h]; simp [ho]
  unfold teardownLine
  rw [if_pos hh]

theorem teardownLine_capture {p : Port} {r : State × TeardownCounts} {l : LineNo} {c : CaptureLine}
    (h : r.1.lines[l] = .capture c) (hc : p ∈ c.subscribers) : (teardownLine p r l).1 = depart l p r.1 := by
  have hh : ¬ r.1.holds p l = true := by unfold State.holds; rw [h]; simp
  have hs : r.1.subscribes p l = true := by unfold State.subscribes; rw [h]; simpa using hc
  unfold teardownLine
  rw [if_neg hh, if_pos hs]

theorem teardownLine_other {p : Port} {r : State × TeardownCounts} {l : LineNo}
    (ho : ∀ o, r.1.lines[l] = .output o → o.holder ≠ p) (hc : ∀ c, r.1.lines[l] = .capture c → p ∉ c.subscribers) :
    teardownLine p r l = r := by
  have hh : ¬ r.1.holds p l = true := by
    unfold State.holds
    split
    · next o h => simpa using ho o h
    · simp
  have hs : ¬ r.1.subscribes p l = true := by
    unfold State.subscribes
    split
    · next c h => simpa using hc c h
    · simp
  unfold teardownLine
  rw [if_neg hh, if_neg hs]

/-- The three cases of one line's part. -/
theorem teardownLine_cases (p : Port) (r : State × TeardownCounts) (l : LineNo) :
    (∃ o, r.1.lines[l] = .output o ∧ o.holder = p ∧ (teardownLine p r l).1 = (releaseOutput l r.1).1) ∨
    (∃ c, r.1.lines[l] = .capture c ∧ p ∈ c.subscribers ∧ (teardownLine p r l).1 = depart l p r.1) ∨
    (r.1.lines[l].without p = r.1.lines[l] ∧ (∀ w, watchWithout p r.1.lines[l] w = w) ∧ teardownLine p r l = r) := by
  cases h : r.1.lines[l] with
  | unassigned d =>
    exact .inr (.inr ⟨rfl, fun _ => rfl, teardownLine_other (fun o ho => by rw [h] at ho; cases ho)
      fun c hc => by rw [h] at hc; cases hc⟩)
  | output o =>
    by_cases ho : o.holder = p
    · exact .inl ⟨o, rfl, ho, teardownLine_output h ho⟩
    · refine .inr (.inr ⟨by rw [LineRecord.without, if_neg ho], fun _ => rfl, teardownLine_other ?_ ?_⟩)
      · intro x hx; rw [h] at hx; cases hx; exact ho
      · intro c hc; rw [h] at hc; cases hc
  | capture c =>
    by_cases hc : p ∈ c.subscribers
    · exact .inr (.inl ⟨c, rfl, hc, teardownLine_capture h hc⟩)
    · refine .inr (.inr ⟨by rw [LineRecord.without, if_neg hc], fun w => ?_, teardownLine_other ?_ ?_⟩)
      · rw [watchWithout, if_neg fun x => hc x.1]
      · intro o ho; rw [h] at ho; cases ho
      · intro x hx; rw [h] at hx; cases hx; exact hc

theorem teardownLine_lines (p : Port) (r : State × TeardownCounts) (l m : LineNo) :
    (teardownLine p r l).1.lines[m] = if m = l then r.1.lines[m].without p else r.1.lines[m] := by
  rcases teardownLine_cases p r l with ⟨o, h, ho, ht⟩ | ⟨c, h, hc, ht⟩ | ⟨h, -, ht⟩
  · rw [ht, (releaseOutput_released h).1.1, getElem_set_fin]
    by_cases hm : m = l
    · subst hm; rw [if_pos rfl, if_pos rfl, h, LineRecord.without, if_pos ho]
    · rw [if_neg hm, if_neg hm]
  · rw [ht, depart_capture h]
    show (r.1.lines.set l _)[m] = _
    rw [getElem_set_fin]
    by_cases hm : m = l
    · subst hm; rw [if_pos rfl, if_pos rfl, h, LineRecord.without, if_pos hc]
    · rw [if_neg hm, if_neg hm]
  · rw [ht]
    by_cases hm : m = l
    · subst hm; rw [if_pos rfl, h]
    · rw [if_neg hm]

theorem teardownLine_watch (p : Port) (r : State × TeardownCounts) (l m : LineNo) :
    (teardownLine p r l).1.watch[m] =
      if m = l then watchWithout p r.1.lines[m] r.1.watch[m] else r.1.watch[m] := by
  rcases teardownLine_cases p r l with ⟨o, h, ho, ht⟩ | ⟨c, h, hc, ht⟩ | ⟨-, h, ht⟩
  · rw [ht, releaseOutput_watch]
    by_cases hm : m = l
    · subst hm; rw [if_pos rfl, h]; rfl
    · rw [if_neg hm]
  · rw [ht, depart_capture h]
    show (if c.subscribers.filter (· ≠ p) = [] then r.1.watch.set l none else r.1.watch)[m] = _
    by_cases hr : c.subscribers.filter (· ≠ p) = []
    · rw [if_pos hr, getElem_set_fin]
      by_cases hm : m = l
      · subst hm; rw [if_pos rfl, if_pos rfl, h, watchWithout, if_pos ⟨hc, hr⟩]
      · rw [if_neg hm, if_neg hm]
    · rw [if_neg hr]
      by_cases hm : m = l
      · subst hm; rw [if_pos rfl, h, watchWithout, if_neg fun x => hr x.2]
      · rw [if_neg hm]
  · rw [ht]
    by_cases hm : m = l
    · subst hm; rw [if_pos rfl, h]
    · rw [if_neg hm]

/-- A slot stays, or is freed because its entry is owned by `p`. -/
def FreedOnlyFor (p : Port) (old new : Slot) : Prop :=
  new = old ∨ new = freedSlot old ∧ ∃ e, old.entry = some e ∧ e.owner = p

theorem FreedOnlyFor.trans {p : Port} {a b c : Slot} (h : FreedOnlyFor p a b) (g : FreedOnlyFor p b c) :
    FreedOnlyFor p a c := by
  rcases h with rfl | ⟨rfl, h⟩
  · exact g
  · rcases g with rfl | ⟨rfl, e, he, -⟩
    · exact .inr ⟨rfl, h⟩
    · cases he

theorem teardownLine_slots (p : Port) (r : State × TeardownCounts) (l : LineNo) (i : SlotNo) :
    FreedOnlyFor p r.1.cal.slots[i] (teardownLine p r l).1.cal.slots[i] := by
  rcases teardownLine_cases p r l with ⟨o, h, ho, ht⟩ | ⟨c, h, hc, ht⟩ | ⟨-, -, ht⟩
  · rw [ht, (releaseOutput_released h).1.2.1, getElem_mapVec_fin]
    split
    · next hi =>
      refine .inr ⟨rfl, ?_⟩
      unfold ownedOn at hi
      split at hi
      · next e he => exact ⟨e, he, by rw [(of_decide_eq_true hi).1, ho]⟩
      · cases hi
    · exact .inl rfl
  · rw [ht, depart_cal]; exact .inl rfl
  · rw [ht]; exact .inl rfl

theorem teardownLine_count (p q : Port) (r : State × TeardownCounts) (l : LineNo) (hq : q ≠ p) :
    (teardownLine p r l).1.cal.count[q] = r.1.cal.count[q] := by
  rcases teardownLine_cases p r l with ⟨o, h, ho, ht⟩ | ⟨c, h, hc, ht⟩ | ⟨-, -, ht⟩
  · rw [ht, (releaseOutput_released h).1.2.2.2.1, getElem_set_fin, if_neg (ho ▸ hq)]
  · rw [ht, depart_cal]
  · rw [ht]

theorem teardownLine_leases (p : Port) (r : State × TeardownCounts) (l : LineNo) :
    (teardownLine p r l).1.leases.filter (fun x => !decide (x.holder = p)) =
      r.1.leases.filter fun x => !decide (x.holder = p) := by
  have key : (r.1.leases.filter fun x => !decide (x.resource = .line l ∧ x.holder = p)).filter
      (fun x => !decide (x.holder = p)) = r.1.leases.filter fun x => !decide (x.holder = p) := by
    rw [List.filter_filter]
    congr 1
    funext x
    by_cases hx : x.holder = p <;> simp [hx]
  rcases teardownLine_cases p r l with ⟨o, h, ho, ht⟩ | ⟨c, h, hc, ht⟩ | ⟨-, -, ht⟩
  · rw [ht, (releaseOutput_released h).1.2.2.2.2.2.2.1, ho]; exact key
  · rw [ht, depart_capture h]; exact key
  · rw [ht]

/-! ### All lines -/

theorem foldl_teardownLine_lines (p : Port) (ls : List LineNo) (hl : ls.Nodup) (r : State × TeardownCounts)
    (m : LineNo) :
    (ls.foldl (teardownLine p) r).1.lines[m] = if m ∈ ls then r.1.lines[m].without p else r.1.lines[m] := by
  induction ls generalizing r with
  | nil => simp
  | cons l ls ih =>
    have hn := (List.nodup_cons.1 hl).1
    rw [List.foldl_cons, ih (List.nodup_cons.1 hl).2, teardownLine_lines]
    by_cases hm : m = l
    · subst hm; simp [hn]
    · simp [hm]

theorem foldl_teardownLine_watch (p : Port) (ls : List LineNo) (hl : ls.Nodup) (r : State × TeardownCounts)
    (m : LineNo) :
    (ls.foldl (teardownLine p) r).1.watch[m] =
      if m ∈ ls then watchWithout p r.1.lines[m] r.1.watch[m] else r.1.watch[m] := by
  induction ls generalizing r with
  | nil => simp
  | cons l ls ih =>
    have hn := (List.nodup_cons.1 hl).1
    rw [List.foldl_cons, ih (List.nodup_cons.1 hl).2, teardownLine_watch, teardownLine_lines]
    by_cases hm : m = l
    · subst hm; simp [hn]
    · simp [hm]

theorem foldl_teardownLine_slots (p : Port) (ls : List LineNo) (r : State × TeardownCounts) (i : SlotNo) :
    FreedOnlyFor p r.1.cal.slots[i] (ls.foldl (teardownLine p) r).1.cal.slots[i] := by
  induction ls generalizing r with
  | nil => exact .inl rfl
  | cons l ls ih => exact (teardownLine_slots p r l i).trans (ih _)

theorem foldl_teardownLine_count (p q : Port) (ls : List LineNo) (r : State × TeardownCounts) (hq : q ≠ p) :
    (ls.foldl (teardownLine p) r).1.cal.count[q] = r.1.cal.count[q] := by
  induction ls generalizing r with
  | nil => rfl
  | cons l ls ih => rw [List.foldl_cons, ih, teardownLine_count p q r l hq]

theorem foldl_teardownLine_leases (p : Port) (ls : List LineNo) (r : State × TeardownCounts) :
    (ls.foldl (teardownLine p) r).1.leases.filter (fun x => !decide (x.holder = p)) =
      r.1.leases.filter fun x => !decide (x.holder = p) := by
  induction ls generalizing r with
  | nil => rfl
  | cons l ls ih => rw [List.foldl_cons, ih, teardownLine_leases]

/-! ### The counts -/

theorem length_filter_split {α : Type} (L : List α) (a b c : α → Bool) (h : ∀ x, b x = (a x || c x))
    (hd : ∀ x, a x = true → c x = false) : (L.filter b).length = (L.filter a).length + (L.filter c).length := by
  induction L with
  | nil => rfl
  | cons x xs ih =>
    simp only [List.filter_cons, h x]
    cases ha : a x
    · cases c x <;> simp [ih]; omega
    · simp [hd x ha, ih]; omega

/-- A cancellation takes away as many of the owner's entries as it counts. -/
theorem cancelWhere_owned (f : Entry → Bool) (p : Port) (s : State) (h : ∀ e, f e = true → e.owner = p) :
    ownedCount s p = (cancelWhere f s).2 + ownedCount (cancelWhere f s).1 p := by
  refine length_filter_split allSlots _ _ _ (fun i => ?_) (fun i => ?_) <;> rw [cancelWhere_slots]
  · cases he : s.cal.slots[i].entry with
    | none => simp only [he, Bool.or_self]
    | some e =>
      by_cases hf : f e = true
      · simp [-Fin.getElem_fin, hf, freedSlot, h e hf]
      · simp [-Fin.getElem_fin, hf, he]
  · cases he : s.cal.slots[i].entry with
    | none => simp
    | some e => intro hf; simp [show f e = true from hf, freedSlot]

theorem releaseOutput_owned {l : LineNo} {s : State} {o : OutputLine} (h : s.lines[l] = .output o) :
    ownedCount s o.holder = (releaseOutput l s).2 + ownedCount (releaseOutput l s).1 o.holder := by
  have := cancelWhere_owned (fun e => decide (e.owner = o.holder ∧ e.line = l)) o.holder s fun e he => by
    simp at he; exact he.1
  unfold releaseOutput
  rw [h]
  exact this

/-- One line's part of the counts of a teardown: what the port holds on the line, and the entries it takes away. -/
theorem teardownLine_counts (p : Port) (r : State × TeardownCounts) (l : LineNo) :
    ∃ n : Nat, (teardownLine p r l).2 = { r.2 with
        lines := r.2.lines + (r.1.holds p l).toNat
        subscriptions := r.2.subscriptions + (r.1.subscribes p l).toNat
        entries := r.2.entries + n } ∧
      ownedCount r.1 p = n + ownedCount (teardownLine p r l).1 p ∧
      (teardownLine p r l).1.cal.count[p] = r.1.cal.count[p] - n := by
  cases h : r.1.lines[l] with
  | unassigned d =>
    have hh : r.1.holds p l = false := by unfold State.holds; rw [h]
    have hs : r.1.subscribes p l = false := by unfold State.subscribes; rw [h]
    refine ⟨0, ?_⟩
    simp [teardownLine, hh, hs]
  | output o =>
    have hs : r.1.subscribes p l = false := by unfold State.subscribes; rw [h]
    by_cases ho : o.holder = p
    · have hh : r.1.holds p l = true := by unfold State.holds; rw [h]; simp [ho]
      have hr := (releaseOutput_released h).1.2.2.2.1
      subst ho
      refine ⟨(releaseOutput l r.1).2, by simp [teardownLine, hh, hs], ?_, ?_⟩
      · rw [teardownLine_output h rfl]; exact releaseOutput_owned h
      · rw [teardownLine_output h rfl, hr, getElem_set_fin, if_pos rfl]
    · have hh : r.1.holds p l = false := by unfold State.holds; rw [h]; simp [ho]
      refine ⟨0, ?_⟩
      simp [teardownLine, hh, hs]
  | capture c =>
    have hh : r.1.holds p l = false := by unfold State.holds; rw [h]
    refine ⟨0, ?_⟩
    by_cases hc : r.1.subscribes p l = true
    · simp [teardownLine, hh, hc, ownedCount, State.slotsWhere]
    · rw [Bool.not_eq_true] at hc
      simp [teardownLine, hh, hc]

theorem teardownLine_holds (p : Port) (r : State × TeardownCounts) {l m : LineNo} (h : m ≠ l) :
    (teardownLine p r l).1.holds p m = r.1.holds p m ∧ (teardownLine p r l).1.subscribes p m = r.1.subscribes p m := by
  unfold State.holds State.subscribes
  rw [teardownLine_lines, if_neg h]
  exact ⟨rfl, rfl⟩

/-- All lines' part of the counts of a teardown. -/
theorem foldl_teardownLine_counts (p : Port) (ls : List LineNo) (hl : ls.Nodup) (r : State × TeardownCounts) :
    ∃ n : Nat, (ls.foldl (teardownLine p) r).2 = { r.2 with
        lines := r.2.lines + (ls.filter fun l => r.1.holds p l).length
        subscriptions := r.2.subscriptions + (ls.filter fun l => r.1.subscribes p l).length
        entries := r.2.entries + n } ∧
      ownedCount r.1 p = n + ownedCount (ls.foldl (teardownLine p) r).1 p ∧
      (ls.foldl (teardownLine p) r).1.cal.count[p] = r.1.cal.count[p] - n := by
  induction ls generalizing r with
  | nil => exact ⟨0, by simp⟩
  | cons l ls ih =>
    obtain ⟨a, ha, hao, hac⟩ := teardownLine_counts p r l
    obtain ⟨b, hb, hbo, hbc⟩ := ih (List.nodup_cons.1 hl).2 (teardownLine p r l)
    have key : ∀ f g : LineNo → Bool, (∀ m, m ≠ l → f m = g m) → ls.filter f = ls.filter g := fun f g hfg =>
      List.filter_congr fun m hm => hfg m fun e => (List.nodup_cons.1 hl).1 (e ▸ hm)
    have hh := key _ _ fun m hm => (teardownLine_holds p r hm).1
    have hs := key _ _ fun m hm => (teardownLine_holds p r hm).2
    refine ⟨a + b, ?_, by rw [List.foldl_cons]; omega, by rw [List.foldl_cons]; omega⟩
    rw [List.foldl_cons, hb, ha, hh, hs]
    simp only [List.filter_cons, TeardownCounts.mk.injEq]
    cases r.1.holds p l <;> cases r.1.subscribes p l <;> simp [Nat.add_assoc, Nat.add_comm 1]

/-- The cancellation of all of a port's entries counts as many as it owns. -/
theorem cancelByPort_counts (p : Port) (s : State) :
    (cancelByPort p s).2 = ownedCount s p ∧
    (cancelByPort p s).1.cal.count = s.cal.count.set p (s.cal.count[p] - ownedCount s p) := by
  have h : (cancelByPort p s).2 = ownedCount s p := rfl
  exact ⟨h, by rw [← h]; exact cancelWhere_count (fun e => decide (e.owner = p)) p s (by simp)⟩

/-- The counts that a teardown hands back (R78, R103), and what it makes of the entry counts. -/
theorem teardown_counts (p : Port) (s : State) :
    (teardown p s).2 = ⟨(allLines.filter fun l => s.holds p l).length,
      (allLines.filter fun l => s.subscribes p l).length, ownedCount s p, decide (s.authority = some p)⟩ ∧
    (teardown p s).1.cal.count = s.cal.count.set p (s.cal.count[p] - ownedCount s p) := by
  obtain ⟨n, h1, h2, h3⟩ := foldl_teardownLine_counts p allLines (List.nodup_finRange 16) (s, ⟨0, 0, 0, false⟩)
  have hq := fun q hq => foldl_teardownLine_count p q allLines (s, ⟨0, 0, 0, false⟩) hq
  have hc : (teardown p s).1.cal =
      (cancelByPort p (allLines.foldl (teardownLine p) (s, ⟨0, 0, 0, false⟩)).1).1.cal := by
    unfold teardown; simp
  rw [hc]
  unfold teardown
  dsimp only
  revert h1 h2 h3 hq
  generalize allLines.foldl (teardownLine p) (s, ⟨0, 0, 0, false⟩) = a
  intro h1 h2 h3 hq
  have hb := cancelByPort_counts p a.1
  constructor
  · rw [h1, hb.1]
    simp only [TeardownCounts.mk.injEq, Nat.zero_add, true_and, and_true]
    exact h2.symm
  · rw [hb.2]
    refine ext_fin fun q => ?_
    rw [getElem_set_fin, getElem_set_fin]
    by_cases h : q = p
    · subst h
      rw [if_pos rfl, if_pos rfl, h3]
      dsimp only at h2 ⊢
      omega
    · rw [if_neg h, if_neg h, hq q h]

end Sys2Proof.Machine
end

