-- ==== Sys2Proof/Laws/Timebase.lean ====
section
/-! SUPPORT. What an advance of hub time, a step and a change of lock state do, said once (R3 to R8, R38). -/

namespace Sys2Proof.Machine

/-! ### Hub time as a count of units (R3, R4) -/

@[simp] theorem HubTime.units_ofUnits (u : Nat) : (HubTime.ofUnits u).units = u := by
  simp only [HubTime.units, HubTime.ofUnits, billion]
  omega

theorem HubTime.ns_ofUnits (u : Nat) : (HubTime.ofUnits u).ns = u / 1000000000 := by
  simp only [HubTime.ns, HubTime.ofUnits, billion]
  omega

theorem HubTime.ofUnits_nanoseconds_lt (u : Nat) : (HubTime.ofUnits u).nanoseconds < 1000000000 := by
  simp only [HubTime.ofUnits, billion]
  omega

theorem HubTime.ofUnits_fraction_lt (u : Nat) : (HubTime.ofUnits u).fraction < 1000000000 := by
  simp only [HubTime.ofUnits, billion]
  omega

/-! ### The slew part of a tick (R5) -/

/-- The slew part is the remainder or the full rate with the remainder's sign, and it never exceeds the rate. -/
theorem slewPart_cases (slew : Int) (limit : Nat) :
    (slew.natAbs < 8 * limit ∧ slewPart slew limit = slew) ∨
    (8 * limit ≤ slew.natAbs ∧ 0 < slew ∧ slewPart slew limit = (8 * limit : Nat)) ∨
    (8 * limit ≤ slew.natAbs ∧ slew ≤ 0 ∧ slewPart slew limit = -(8 * limit : Nat)) := by
  unfold slewPart
  split
  · next h => exact .inl ⟨h, rfl⟩
  · next h =>
    rcases lt_trichotomy slew 0 with g | g | g
    · exact .inr (.inr ⟨by omega, by omega, by rw [Int.sign_eq_neg_one_of_neg g]; omega⟩)
    · subst g
      exact .inr (.inr ⟨by omega, by omega, by simp at h; subst h; simp⟩)
    · exact .inr (.inl ⟨by omega, g, by rw [Int.sign_eq_one_of_pos g]; omega⟩)

/-- A tick moves the remainder toward 0 and not past it. -/
theorem slew_toward_zero (slew : Int) (limit : Nat) : (slew - slewPart slew limit).natAbs ≤ slew.natAbs := by
  rcases slewPart_cases slew limit with ⟨-, h⟩ | ⟨_, _, h⟩ | ⟨_, _, h⟩ <;> rw [h] <;> omega

/-! ### A step (R8, R11) -/

/-- What a step leaves as it was. -/
theorem stepTo_frame (c : StepCause) (u : Nat) (a : Int) (s : State) :
    (stepTo c u a s).time.trim = s.time.trim ∧ (stepTo c u a s).time.trimLimit = s.time.trimLimit ∧
    (stepTo c u a s).time.uptime = s.time.uptime ∧ (stepTo c u a s).time.tickCount = s.time.tickCount ∧
    (stepTo c u a s).disc = s.disc ∧ (stepTo c u a s).sess = s.sess ∧ (stepTo c u a s).lines = s.lines ∧
    (stepTo c u a s).cal.slots = s.cal.slots := ⟨rfl, rfl, rfl, rfl, rfl, rfl, rfl, rfl⟩

/-- The hand-off of a step to the Receiver changes the waiting amounts alone. -/
theorem Receiver.noteStep_eq (a : Int) (r : Receiver) :
    r.noteStep a = { r with adjusts := if r.hasMark then r.adjusts ++ [a] else r.adjusts } := by
  unfold Receiver.noteStep
  split <;> rfl

/-- A requested step is settled in one of three ways (R8). -/
theorem stepBy_cases (c : StepCause) (a : Int) (s : State) :
    ((s.time.hub.units : Int) + a * billion < 0 ∧ stepBy c a s = stepTo c 0 (-(s.time.hub.ns : Int)) s) ∨
    (((rangeNs * billion : Nat) : Int) ≤ s.time.hub.units + a * billion ∧
      stepBy c a s = stepTo c ((s.time.hub.units : Int) + a * billion - (rangeNs * billion : Nat)).toNat (a - rangeNs) s) ∨
    (0 ≤ (s.time.hub.units : Int) + a * billion ∧ (s.time.hub.units : Int) + a * billion < (rangeNs * billion : Nat) ∧
      stepBy c a s = stepTo c ((s.time.hub.units : Int) + a * billion).toNat a s) := by
  unfold stepBy
  by_cases h : (s.time.hub.units : Int) + a * billion < 0
  · exact .inl ⟨h, if_pos h⟩
  · by_cases g : ((rangeNs * billion : Nat) : Int) ≤ s.time.hub.units + a * billion
    · exact .inr (.inl ⟨g, by simp only [if_neg h, if_pos g]⟩)
    · exact .inr (.inr ⟨not_lt.mp h, not_le.mp g, by simp only [if_neg h, if_neg g]⟩)

/-! ### A change of lock state (R38, R50, R52, R54) -/

theorem changeLock_same {new : LockState} {c : LockCause} {s : State} (h : s.disc.lock = new) : changeLock new c s = s :=
  if_pos h

/-- A change of lock state sets the Discipline Unit's own items and queues LOCK_CHANGED, and nothing else. -/
theorem changeLock_of_ne {new : LockState} {c : LockCause} {s : State} (h : s.disc.lock ≠ new) :
    changeLock new c s =
      { s with
        disc := { s.disc with
          lock := new
          inWindow := 0
          outliers := 0
          timer := timerAtEntry new s.disc.timer
          holdoverElapsed := if new = .holdover then 0 else s.disc.holdoverElapsed
          holdoverDue := false }
        sess := toAll (.lockChanged s.disc.lock new c s.disc.lastError) s } := if_neg h

@[simp] theorem changeLock_lock (new : LockState) (c : LockCause) (s : State) : (changeLock new c s).disc.lock = new := by
  by_cases h : s.disc.lock = new
  · rw [changeLock_same h, h]
  · rw [changeLock_of_ne h]

@[simp] theorem changeLock_params (new : LockState) (c : LockCause) (s : State) :
    (changeLock new c s).disc.params = s.disc.params := by
  unfold changeLock
  split <;> rfl

@[simp] theorem changeLock_time (new : LockState) (c : LockCause) (s : State) : (changeLock new c s).time = s.time := by
  unfold changeLock
  split <;> rfl

@[simp] theorem changeLock_rx (new : LockState) (c : LockCause) (s : State) : (changeLock new c s).rx = s.rx := by
  unfold changeLock
  split <;> rfl

/-! ### The flags byte of a reply -/

theorem flagsByte_one (a : Bool) : flagsByte [a] = if a then 1#8 else 0#8 := by
  cases a <;> rfl

theorem flagsByte_two (a b : Bool) : flagsByte [a, b] = BitVec.ofNat 8 (a.toNat + 2 * b.toNat) := by
  cases a <;> cases b <;> rfl

theorem flagsByte_three (a b c : Bool) :
    flagsByte [a, b, c] = BitVec.ofNat 8 (a.toNat + 2 * b.toNat + 4 * c.toNat) := by
  cases a <;> cases b <;> cases c <;> rfl

end Sys2Proof.Machine
end

