-- ==== Sys2Proof/Tests/Slice0.lean ====
section
/-! SUPPORT. Tests: ill-formed terms that WellFormed refuses, one-step tests with results worked out from the manual's examples
and tables, and for every statement with hypotheses a state and operands that meet them. -/

namespace Sys2Proof.Tests

set_option Elab.async false

open Sys2Proof.Machine

/-! ### Helpers -/

/-- The next state that a command answers, if it answers one. -/
def after (c : Instr) (s : State) : Option State :=
  match exec c s with
  | .next t => some t
  | .fault _ => none
  | .refused _ => none

/-- What a view of the next state shows. -/
def sees {α : Type} (c : Instr) (s : State) (f : State → α) : Option α := (after c s).map f

/-- All four ports attached in session 4 with every alert enabled, the start-up hold over. -/
def att : State :=
  { State.reset with
    sess := Vector.replicate 4 ⟨true, 4, ⟨true, true, true⟩, [], false, none⟩
    ports := Vector.replicate 4 ⟨.idle, .accepted, none, false⟩ }

/-- A request body on a port's path. -/
def ask (p : Port) (body : List Byte) (s : State) : State := s.setPort p { s.ports[p] with state := .working body }

def token (p : Port) (s : State) : State := addLease .authority .authority p 40 { s with authority := some p }

def output (l : LineNo) (p : Port) (s : State) : State :=
  addLease (.line l) .output p 50 (s.setLine l (.output ⟨p, .low, .high, none⟩))

def capture (l : LineNo) (ps : List Port) (holdoff : Nat) (s : State) : State :=
  { (s.setLine l (.capture ⟨ps, .both, holdoff⟩)).setWatch l (some ⟨.low, 0, none⟩) with
    leases := s.leases ++ ps.map fun p => ⟨.line l, .subscription, p, 30⟩ }

def entry (p : Port) (l : LineNo) (t : Nat) : Entry := ⟨p, l, .driveHigh, t, .oneShot, .fireLate, .keep, true⟩

def hold (i : SlotNo) (e : Entry) (s : State) : State :=
  (placeEntry i e s).setCount e.owner (s.cal.count[e.owner] + 1)

def inLock (x : LockState) (s : State) : State :=
  { s with
    disc := { s.disc with lock := x, timer := .running 5 false, lastMark := some 0 }
    rx := { s.rx with selection := .fixed 4, seedPending := false, lastSeq := 10 } }

def framed (p : Port) (f : Frame) (s : State) : State :=
  { s with
    ports := s.ports.set p { s.ports[p] with frame := some f }
    pins := { s.pins with csLow := s.pins.csLow.set p true } }

def plain : Frame := ⟨[], .undecided, [0x20]⟩

def atTime (sec ns : Nat) (s : State) : State := { s with time := { s.time with hub := ⟨sec, ns, 0⟩ } }

def idlePins : PinSample := ⟨true, true, 0⟩

def full (p : Port) (s : State) : State :=
  s.setSess p { s.sess[p] with queue := List.replicate 16 ⟨.leaseLost .authority .authority 0, 0⟩ }

/-- The status of the reply in a port's slot. -/
def status (p : Port) (s : State) : Option Byte :=
  match s.ports[p].state with
  | .answered r => r[1]?
  | .idle => none
  | .working _ => none

/-- The reply body in a port's slot, without its header. -/
def body (p : Port) (s : State) : List Byte :=
  match s.ports[p].state with
  | .answered r => r.drop 3
  | .idle => []
  | .working _ => []

/-! ### WellFormed refuses -/

theorem test_wf_request_needs_byte_two : Instr.wellFormed (.requestFrameEnd 0 [0xA1] 0) = false := by decide
theorem test_wf_request_needs_its_code : Instr.wellFormed (.requestFrameEnd 0 [0xA2, 1, 2] 0) = false := by decide
theorem test_wf_request_part_is_below_a_byte : Instr.wellFormed (.requestFrameEnd 0 [0xA1, 1] 8) = false := by decide
theorem test_wf_reply_frame_has_byte_two : Instr.wellFormed (.collectReplyEnd 0 1) = false := by decide
theorem test_wf_notices_frame_has_byte_two : Instr.wellFormed (.collectNoticesEnd 0 1) = false := by decide
theorem test_wf_captures_frame_has_byte_two : Instr.wellFormed (.collectCapturesEnd 0 1) = false := by decide
theorem test_wf_unknown_kind_is_no_code : Instr.wellFormed (.unknownKind 0 0xA3) = false := by decide
theorem test_wf_accepts : Instr.wellFormed (.requestFrameEnd 0 [0xA1, 1, 0x10, 0x3C, 0x0F] 0) = true := by decide

/-! ### Encodings: section 11.1, section 11.2, section 11.3 -/

theorem test_crc_digits : crc16 [0x31, 0x32, 0x33, 0x34, 0x35, 0x36, 0x37, 0x38, 0x39] = 0x29B1 := by decide +kernel
theorem test_crc_zero : crc16 [0x00] = 0xE1F0 := by decide +kernel
theorem test_crc_read_time : crc16 [0x01, 0x10] = 0x3C0F := by decide +kernel
theorem test_renew_length_counts_to_17 : requestOf (0x32 :: 0 :: 100 :: 200 :: List.replicate 17 0) = some .renew := by
  decide +kernel
theorem test_schedule_length_with_width_and_period :
    requestOf ([0x50, 0, 0, 3, 4, 3, 0x25] ++ List.replicate 16 0) = some .schedule := by decide +kernel
theorem test_table_gives_no_bits : decodeTableWord 8 0x10 = none := rfl

/-! ### Frames: section 10.8 and section 11.2 -/

theorem test_status_byte_attached : sees (.frameBegin 2) att (fun s => s.misoByte 2 1) = some 0x20 := by decide +kernel
theorem test_status_byte_working :
    sees (.frameBegin 2) (ask 2 [0x10] att) (fun s => s.misoByte 2 1) = some 0x60 := by decide +kernel
theorem test_no_frame_in_the_hold : sees (.frameBegin 0) State.reset (fun s => s.ports[0].frame) = some none := by
  decide +kernel
theorem test_status_read_gives_no_outcome :
    sees (.statusRead 2) (framed 2 plain (att.setPort 2 ⟨.idle, .badCrc, none, false⟩))
      (fun s => (s.ports[2].lastOutcome, s.ports[2].frame)) = some (.badCrc, none) := by decide +kernel
theorem test_request_good :
    sees (.requestFrameEnd 2 [0xA1, 1, 0x10, 0x3C, 0x0F] 0) (framed 2 plain att)
      (fun s => (s.ports[2].state, s.ports[2].lastOutcome)) = some (.working [0x10], .accepted) := by decide +kernel
theorem test_request_bad_crc :
    sees (.requestFrameEnd 2 [0xA1, 1, 0x10, 0x3C, 0x0E] 0) (framed 2 plain att)
      (fun s => (s.ports[2].state, s.ports[2].lastOutcome)) = some (.idle, .badCrc) := by decide +kernel
theorem test_reply_fix_working :
    sees (.replyFix 2) (framed 2 plain (ask 2 [0x10] att)) (fun s => (s.ports[2].frame).map Frame.sent) =
      some (some [0x20, 0x00, 0xE1, 0xF0]) := by decide +kernel
theorem test_collect_reply_cut_short :
    sees (.collectReplyEnd 2 20) (framed 2 ⟨[0xA2], .reply true, List.replicate 47 0⟩ (att.setPort 2
        ⟨.answered [1, 0, 4], .refusedBusy, none, false⟩))
      (fun s => (s.ports[2].state, s.ports[2].lastOutcome)) = some (.answered [1, 0, 4], .aborted) := by decide +kernel
theorem test_batch_fix_reports_loss :
    sees (.batchFix 1 .notices 8) (framed 1 plain (att.setSess 1 ⟨true, 4, ⟨true, true, true⟩, [], true, none⟩))
      (fun s => (s.ports[1].frame).map fun f => f.sent.take 3) = some (some [0x20, 0x00, 0x80]) := by decide +kernel
theorem test_batch_fix_limit_out_of_range :
    sees (.batchFix 1 .captures 9) (framed 1 plain att) (fun s => (s.ports[1].frame).map Frame.sent) =
      some (some [0x20, 0x00, 0x00, 0xE1, 0xF0]) := by decide +kernel
theorem test_notices_collected :
    sees (.collectNoticesEnd 1 165) (framed 1 ⟨[0xA3, 8], .batch .notices true, List.replicate 165 0⟩
        ((full 1 att).setSess 1 { (full 1 att).sess[1] with loss := true, batch := some ⟨8, true, false⟩ }))
      (fun s => (s.sess[1].queue.length, s.sess[1].loss)) = some (8, false) := by decide +kernel
theorem test_captures_collected :
    sees (.collectCapturesEnd 1 25) (framed 1 ⟨[0xA4, 1], .batch .captures true, List.replicate 25 0⟩
        (att.setCap 1 ⟨[⟨3, .rising, 0, 0, .free, 0⟩, ⟨4, .falling, 0, 0, .free, 0⟩], 0, some 1, 0⟩))
      (fun s => s.caps[1].queue.map CaptureRecord.line) = some [4] := by decide +kernel
/-- R130, R131: a record of an earlier tick is not fresh after the next TICK, one in a fixed batch not after the fixing (R132). -/
theorem test_order_is_settled :
    let s := att.setCap 1 ⟨[⟨3, .rising, 0, 0, .free, 0⟩, ⟨4, .falling, 0, 0, .free, 0⟩], 0, none, 2⟩
    sees (.tick idlePins) s (fun s => s.caps[1].fresh) = some 0 ∧
    sees (.batchFix 1 .captures 1) (framed 1 plain s) (fun s => (s.caps[1].batch, s.caps[1].fresh)) = some (some 1, 1) := by
  decide +kernel
theorem test_unknown_kind :
    sees (.unknownKind 3 0x55) (framed 3 plain (ask 3 [0x10] att))
      (fun s => (s.ports[3].state, s.ports[3].lastOutcome)) = some (.working [0x10], .unknownKind) := by decide +kernel

/-! ### Sessions: section 9.2 -/

/-- P1 of the re-attach example, with its two lines, three entries, one subscription and the token. -/
def rebooted : State :=
  hold 2 (entry 1 10 9000) (hold 1 (entry 1 3 8000) (hold 0 (entry 1 3 7000)
    (capture 6 [0, 1] 0 (output 10 1 (output 3 1 (token 1 (att.setSess 1 ⟨true, 6, ⟨true, false, true⟩, [], true, none⟩)))))))

theorem test_reattach_counts : sees (.attach 1) (ask 1 [0x01, 0x07] rebooted) (body 1) = some [7, 3, 2, 1, 3] := by
  decide +kernel
theorem test_reattach_frees :
    sees (.attach 1) (ask 1 [0x01, 0x07] rebooted)
      (fun s => (s.sess[1].number, s.lines[3], s.cal.count[1], s.authority)) =
      some (7, .unassigned (some ⟨.high, 16⟩), 0, none) := by decide +kernel
theorem test_detach_keeps_the_number :
    sees (.detach 1) (ask 1 [0x02] rebooted) (fun s => (s.sess[1].attached, s.sess[1].number)) = some (false, 6) := by
  decide +kernel
theorem test_stepped_reaches_attached_ports :
    sees .stepHandoffSession
      { att with time := { att.time with toSession := [⟨⟨0, 0, 0⟩, -4, .backward, 8, .discipline⟩] } }
      (fun s => (s.sess[3].queue.map Notice.body, s.time.toSession)) = some ([.stepped 8 (-4) .discipline], []) := by
  decide +kernel

/-! ### Hub time: section 1.7 -/

theorem test_read_time :
    sees (.readTime 0) (ask 0 [0x10] (atTime 5 6 att)) (fun s => (body 0 s).take 8) = some [0, 0, 0, 5, 0, 0, 0, 6] := by
  decide +kernel
theorem test_set_time_forward :
    sees (.setTime 0) (ask 0 [0x11, 0, 0, 0, 2, 0, 0, 0, 9] (token 0 (atTime 1 4 att)))
      (fun s => (s.time.hub, s.time.epoch, body 0 s)) =
      some (⟨2, 9, 0⟩, 1, [0, 1, 0, 0, 0, 0, 0x3B, 0x9A, 0xCA, 5]) := by decide +kernel
theorem test_discipline_step_back :
    ((stepBy .discipline (-600000000) (atTime 100 500000000 att)).time.hub,
      (stepBy .discipline (-1000000) { att with time := { att.time with hub := ⟨0, 400000, 250⟩ } }).time.toSession.map
        StepHandoff.applied) = (⟨99, 900000000, 0⟩, [-400000]) := by decide +kernel
theorem test_tick_trim_and_slew :
    sees (.tick idlePins) { att with time := { att.time with trim := 2000, slew := 1000 * 1000000000 } }
      (fun s => (s.time.hub, s.time.slew)) = some (⟨0, 8, 416000⟩, 1000 * 1000000000 - 400000) := by decide +kernel
theorem test_seconds_wrap :
    sees .secondsWrap (atTime 4294967296 3 att) (fun s => (s.time.hub, s.time.epoch)) = some (⟨0, 3, 0⟩, 1) := by
  decide +kernel
theorem test_uptime :
    sees .uptimeIncrement { token 2 att with time := { att.time with tickCount := 125000 } }
      (fun s => (s.time.uptime, s.leases.map Lease.remaining)) = some (1, [39]) := by decide +kernel

/-! ### Reference and discipline: section 2.8, section 3.7 and section 3.8 -/

theorem test_read_reference_defaults :
    sees (.readReference 0) (ask 0 [0x20] att) (fun s => (body 0 s).take 12) =
      some [2, 2, 0, 0, 0, 0, 0, 0, 0, 0, 0, 0] := by decide +kernel
theorem test_set_reference_fixed :
    sees (.setReference 0) (ask 0 [0x21, 1, 9, 0, 0, 1, 44] (token 0 (inLock .locked att)))
      (fun s => (s.disc.lock, body 0 s)) = some (.acquire, [1, 3, 9, 0, 0, 1, 44, 1]) := by decide +kernel
theorem test_flush_reference :
    sees (.flushReference 0) (ask 0 [0x22] (token 0 (inLock .holdover att)))
      (fun s => (s.disc.lock, s.rx.seedPending)) = some (.acquire, true) := by decide +kernel
theorem test_set_discipline :
    sees (.setDiscipline 0) (ask 0 [0x23, 0, 0, 3, 0xE8, 0, 1, 0x86, 0xA0, 2, 3, 7, 0xD0, 0, 0, 0x0E, 0x10, 0, 0, 0xC3, 0x50,
        0] (token 0 att)) (fun s => (s.disc.params.lockCount, s.disc.params.gainShift)) = some (2, 0) := by decide +kernel
theorem test_trim_changes :
    (trimChange 300 1000000 3, trimChange 200 2000000 3, trimChange 4300 4000000 3, trimChange 2000 999998 0) =
      (37, 12, 134, 2000) := by decide +kernel

/-- A beacon of source 4 at 1,000 s 0 ns with sequence 20, its CRC computed as R183 says. -/
def beacon : List Byte :=
  let b : List Byte := [0xC3, 4, 0, 20, 1, 0, 0, 3, 0xE8, 0, 0, 0, 0]
  b ++ crcBytes b

def receiving (bytes : List Byte) (found : List RxEvent) (s : State) : State :=
  { s with rx := { s.rx with assembly := .receiving ⟨800000000, 100000000⟩ bytes (some 5), found := found } }

def lastCharacter : RxEvent := .character (beacon.getD 14 0) 100018688

theorem test_first_beacon_adopts_and_steps :
    sees .beaconEnd (receiving (beacon.take 14) [lastCharacter] (atTime 0 800149504 att))
      (fun s => (s.rx.selection, s.disc.lock, s.time.hub, s.time.epoch)) =
      some (.acceptFirst (some 4), .acquire, ⟨1000, 149504, 0⟩, 1) := by decide +kernel
theorem test_duplicate_is_counted :
    sees .beaconEnd (receiving (beacon.take 14) [lastCharacter]
        { inLock .locked att with rx := { (inLock .locked att).rx with lastSeq := 20 } })
      (fun s => (s.rx.stats.duplicate, s.rx.assembly, s.disc.lock)) = some (1, .idle, .locked) := by decide +kernel
theorem test_outlier_is_not_applied :
    let s := handleBeacon .usable 5000 125000000 (inLock .locked att)
    (s.disc.outliers, s.time.trim, s.time.slew, s.rx.stats.outlier) = (1, 0, 0, 1) := by decide +kernel
theorem test_mark :
    sees .beaconMark { att with rx := { att.rx with found := [.startBit], provisional := some ⟨77, 9⟩ } }
      (fun s => s.rx.assembly) = some (.receiving ⟨77, 9⟩ [] none) := by decide +kernel
theorem test_character :
    sees .characterCompleted (receiving [0xC3] [.character 4 2000] att) (fun s => s.rx.assembly) =
      some (.receiving ⟨800000000, 100000000⟩ [0xC3, 4] (some 2000)) := by decide +kernel
theorem test_wrong_code_is_abandoned :
    sees .beaconAbandoned (receiving [] [.character 0xC4 1188] att) (fun s => (s.rx.assembly, s.rx.stats.malformed)) =
      some (.idle, 1) := by decide +kernel
theorem test_gap :
    sees .gapExpiry { receiving [0xC3] [] att with time := { att.time with tickCount := 2506 } }
      (fun s => (s.rx.assembly, s.rx.stats.malformed)) = some (.idle, 1) := by decide +kernel
theorem test_mark_adjust :
    sees .markAdjust { receiving [0xC3] [] att with rx := { (receiving [0xC3] [] att).rx with adjusts := [-500] } }
      (fun s => s.rx.assembly) = some (.receiving ⟨799999500, 100000000⟩ [0xC3] (some 5)) := by decide +kernel
theorem test_timeout_holdover :
    sees .beaconTimeoutExpiry { inLock .locked att with
        disc := { (inLock .locked att).disc with timer := .running 2000 true } }
      (fun s => (s.disc.lock, s.disc.timer)) = some (.holdover, .stopped) := by decide +kernel
theorem test_holdover_limit :
    sees .holdoverLimitReached { inLock .holdover att with
        disc := { (inLock .holdover att).disc with holdoverElapsed := 3600000, holdoverDue := true } }
      (fun s => (s.disc.lock, s.rx.seedPending)) = some (.free, true) := by decide +kernel

/-! ### Leases and the token: section 8.8, section 12.5 -/

theorem test_claim_authority :
    sees (.claimAuthority 0) (ask 0 [0x30, 0x0B, 0xB8] att) (fun s => (s.authority, body 0 s)) =
      some (some 0, [0, 0x0B, 0xB8]) := by decide +kernel
theorem test_claim_authority_held :
    sees (.claimAuthority 3) (ask 3 [0x30, 0x0B, 0xB8] (token 0 att)) (fun s => (status 3 s, body 3 s)) =
      some (some 6, [0, 0, 0]) := by decide +kernel
theorem test_release_authority :
    sees (.releaseAuthority 0) (ask 0 [0x31] (token 0 att)) (fun s => (s.authority, s.leases)) = some (none, []) := by
  decide +kernel
theorem test_renew :
    sees (.renew 2) (ask 2 [0x32, 0, 100, 3, 1, 8, 9] (capture 8 [2] 0 (output 1 2 att)))
      (fun s => (s.leases.map Lease.remaining, body 2 s)) = some ([100, 100], [0, 100, 3, 1, 1, 2]) := by decide +kernel
theorem test_output_expiry :
    sees (.outputLeaseExpiry 1) (hold 0 (entry 2 1 9000) (addLease (.line 1) .output 2 0
        (att.setLine 1 (.output ⟨2, .low, .low, none⟩))))
      (fun s => (s.lines[1], s.cal.count[2], s.sess[2].queue.map Notice.body)) =
      some (.unassigned (some ⟨.low, 16⟩), 0, [.leaseLost (.line 1) .output 1]) := by decide +kernel
theorem test_subscription_expiry :
    sees (.subscriptionLeaseExpiry 8 2) (addLease (.line 8) .subscription 2 0 (att.setLine 8 (.capture ⟨[2], .both, 5⟩)))
      (fun s => (s.lines[8], s.leases)) = some (.unassigned none, []) := by decide +kernel
theorem test_authority_expiry :
    sees .authorityLeaseExpiry (addLease .authority .authority 2 0 { att with authority := some 2 })
      (fun s => (s.sess[0].queue.length, s.sess[2].queue.length, s.authority)) = some (1, 2, none) := by decide +kernel

/-! ### Lines: section 4.2 to section 4.5 -/

theorem test_claim_output :
    sees (.claimOutput 3) (ask 3 [0x40, 5, 0, 50, 1, 0] att) (fun s => (s.lines[5], body 3 s)) =
      some (.output ⟨3, .high, .low, none⟩, [5, 1, 0, 0, 50]) := by decide +kernel
theorem test_subscribe_holdoff_rounds_up :
    sees (.subscribeCapture 0) (ask 0 [0x41, 7, 0, 30, 3, 0, 0, 0, 5] att) (body 0) =
      some [7, 3, 0, 0, 0, 8, 1, 0, 30] := by decide +kernel
theorem test_release_line :
    sees (.releaseLine 2) (ask 2 [0x42, 1] (hold 0 (entry 2 1 9000) (output 1 2 att)))
      (fun s => (s.lines[1], body 2 s)) = some (.unassigned (some ⟨.high, 16⟩), [1, 1, 0]) := by decide +kernel
theorem test_read_lines :
    sees (.readLines 0) (ask 0 [0x43] (output 0 3 att)) (fun s => (body 0 s).take 6) = some [1, 8, 2, 0, 0, 0] := by
  decide +kernel
theorem test_pulse_end :
    sees (.pulseEnd 4) (att.setLine 4 (.output ⟨0, .high, .low, some ⟨0, .low⟩⟩)) (fun s => s.lines[4]) =
      some (.output ⟨0, .low, .low, none⟩) := by decide +kernel
theorem test_release_drive_end :
    sees (.releaseDriveEnd 4) (att.setLine 4 (.unassigned (some ⟨.high, 0⟩))) (fun s => s.lines[4]) =
      some (.unassigned none) := by decide +kernel
theorem test_toggle_during_pulse :
    OutputLine.act .toggle ⟨0, .high, .low, some ⟨9, .low⟩⟩ = ⟨0, .low, .low, none⟩ := by decide
theorem test_edge_on_a_tick :
    sees (.tick ⟨true, true, 0x0080⟩) (capture 7 [0] 5 att) (fun s => s.watch[7]) =
      some (some ⟨.high, 0, some .rising⟩) := by decide +kernel
theorem test_edge_stamped :
    sees (.edgeStamped 7) ((capture 7 [0, 2] 5 (atTime 3 4 att)).setWatch 7 (some ⟨.high, 0, some .rising⟩))
      (fun s => (s.watch[7], s.caps[2].queue, s.caps[1].queue)) =
      some (some ⟨.high, 5, none⟩, [⟨7, .rising, 3000000004, 0, .free, 0⟩], []) := by decide +kernel

/-! ### The calendar: section 5.4 to section 5.6, section 6.2, section 6.5 -/

theorem test_schedule :
    sees (.schedule 2) (ask 2 [0x50, 0, 0, 1, 4, 1, 0x25, 0, 0, 0, 0, 0, 0, 0x23, 0x28, 0, 0, 0, 9] (output 1 2 att))
      (fun s => (s.cal.slots[0].entry, body 2 s)) =
      some (some ⟨2, 1, .pulse 2, 9000, .oneShot, .fireLate, .keep, true⟩, [0, 0, 0, 0, 0, 16, 1, 16]) := by decide +kernel
theorem test_cancel :
    sees (.cancel 2) (ask 2 [0x51, 0, 0] (hold 0 (entry 2 1 9000) (output 1 2 att)))
      (fun s => (s.cal.slots[0], s.cal.count[2])) = some (⟨1, none⟩, 0) := by decide +kernel
theorem test_read_entry_of_another_port :
    sees (.readEntry 3) (ask 3 [0x52, 0, 0] (hold 0 (entry 2 1 9000) (output 1 2 att))) (status 3) = some (some 0x0C) := by
  decide +kernel
theorem test_list_entries :
    sees (.listEntries 2) (ask 2 [0x53] (hold 1 (entry 2 1 8000) (hold 0 (entry 2 1 9000) (output 1 2 att)))) (body 2) =
      some [2, 1, 0, 0, 0] := by decide +kernel
theorem test_set_quota_sum :
    sees (.setQuota 0) (ask 0 [0x54, 1, 17] (token 0 att)) (status 0) = some (some 4) := by decide +kernel
theorem test_read_quotas :
    sees (.readQuotas 0) (ask 0 [0x55] (hold 0 (entry 2 1 9000) att)) (body 0) =
      some [16, 16, 16, 16, 0, 0, 1, 0, 63] := by decide +kernel

/-- One entry due at 9,000 ns, which the last tick reached when hub time was 9,003 ns. -/
def dueEntry (e : Entry) : State :=
  let s := hold 0 e (output 1 2 (atTime 0 9003 att))
  { s with cal := { s.cal with reached := [⟨9000, 9003, 0⟩] } }

theorem test_firing_one_shot :
    sees .firing (dueEntry (entry 2 1 9000)) (fun s => (s.lines[1], s.cal.slots[0], s.sess[2].queue.map Notice.body)) =
      some (.output ⟨2, .high, .high, none⟩, ⟨1, none⟩, [.fired 0 0 9003 0 0 false true]) := by decide +kernel
/-- R108, R121, log entry 22: the Timebase has stepped, forward, and the step is not yet handled. -/
theorem test_firing_reports_the_tick_that_reached_it :
    sees .firing (stepSet 5000000000 (dueEntry (entry 2 1 9000))) (fun s => s.sess[2].queue.map Notice.body) =
      some [.fired 0 0 9003 0 0 false true] := by decide +kernel
/-- R121: the firing comes after the handling of a step that leaves hub time at or after the fire time. -/
theorem test_a_handled_step_restamps_what_is_reached :
    let s := stepSet 9001 (dueEntry (entry 2 1 9000))
    sees .stepHandling { s with time := { s.time with toSession := [] } } (fun s => s.cal.reached) =
      some [⟨9000, 9001, 1⟩] := by decide +kernel
theorem test_tick_stamps_what_it_reaches :
    sees (.tick idlePins) (hold 0 (entry 2 1 9000) (output 1 2 (atTime 0 8997 att))) (fun s => s.cal.reached) =
      some [⟨9000, 9005, 0⟩] := by decide +kernel
theorem test_firing_periodic :
    sees .firing (dueEntry { entry 2 1 9000 with repetition := .periodic 1000 (some 2) })
      (fun s => s.cal.slots[0].entry.map fun e => (e.fireTime, e.repetition)) =
      some (some (10000, .periodic 1000 (some 1))) := by decide +kernel

def stepped (e : Entry) : State :=
  let s := hold 0 e (output 1 2 (atTime 1 0 att))
  { s with time := { s.time with epoch := 1, toCalendar := [⟨s.time.hub, 1000000000, .forward, 1, .setTime⟩] } }

theorem test_late_periodic_counts_skipped :
    sees .stepHandling (stepped { entry 2 1 1000 with repetition := .periodic 1000 none })
      (fun s => (s.sess[2].queue.map Notice.body, s.cal.slots[0].entry.map Entry.fireTime)) =
      some ([.fired 0 0 1000000000 1 65535 true false], some 1000001000) := by decide +kernel
/-- R10, log entry 22: a second step has been taken before the first is handled. -/
theorem test_late_firing_carries_the_epoch_in_effect :
    let s := stepped (entry 2 1 1000)
    sees .stepHandling { s with time := { s.time with epoch := 2, toCalendar := s.time.toCalendar ++ s.time.toCalendar } }
      (fun s => s.sess[2].queue.map Notice.body) = some [.fired 0 0 1000000000 2 0 true true] := by decide +kernel
theorem test_void_is_removed :
    sees .stepHandling (stepped { entry 2 1 5000000000 with stepPolicy := .void })
      (fun s => (s.sess[2].queue.map Notice.body, s.cal.slots[0])) =
      some ([.voided 0 0 5000000000 1 none], ⟨1, none⟩) := by decide +kernel

/-! ### Reset: section 13.2 -/

theorem test_power_on_keeps_resetting : sees (.hubReset .powerOn) att (fun s => (s.inReset, s.sess[0].attached)) =
    some (true, false) := by decide +kernel
theorem test_short_low_is_no_reset :
    sees (.hubReset .resetPin) { att with pins := { att.pins with resetnLow := 124 } } (fun s => s.inReset) =
      some false := by decide +kernel
theorem test_release :
    sees .resetRelease { att with inReset := true } (fun s => (s.inReset, s.ports[0].hold)) = some (false, true) := by
  decide +kernel
theorem test_hold_ends :
    sees .startUpHoldEnd { State.reset with time := { State.reset.time with uptime := 5 } } (fun s => s.ports[3].hold) =
      some false := by decide +kernel
theorem test_last_tick_moves_hub_time :
    sees (.tick idlePins) { att with time := { att.time with tickCount := 2 ^ 64 - 1 } }
      (fun s => (s.time.hub, s.freeCount)) = some (⟨0, 8, 0⟩, 1) := by decide +kernel

/-! ### Witnesses: each shows operands and a state that meet the hypotheses of one statement, clause by clause -/

/-- A check of every slot is a fact about every entry. -/
theorem entries_of_check {s : State} {f : SlotNo → Entry → Bool}
    (h : ∀ i : SlotNo, (match s.cal.slots[i].entry with | some e => f i e | none => true) = true) :
    ∀ (i : SlotNo) (e : Entry), s.cal.slots[i].entry = some e → f i e = true := by
  intro i e he
  have := h i
  rwa [he] at this

theorem next_of_sees {c : Instr} {s : State} (h : (after c s).isSome = true) : ∃ t, exec c s = .next t := by
  unfold after at h
  cases he : exec c s with
  | next t => exact ⟨t, rfl⟩
  | fault r => simp [he] at h
  | refused r => simp [he] at h

theorem step_of_front {c : Instr} {s : State} (hp : s.pending = [c]) (h : (after c { s with pending := [] }).isSome = true) :
    ∃ t, step s = .next t := by
  obtain ⟨t, ht⟩ := next_of_sees h
  refine ⟨t, ?_⟩
  unfold step
  rw [hp]
  exact ht

theorem witness_StepRunsTheFrontCommand :
    { att with pending := [.firing, .secondsWrap] }.pending = [.firing, .secondsWrap] ∧ State.reset.pending = [] := by
  decide +kernel

theorem witness_CommandsLeaveTheQueueAlone :
    ∃ t, exec (.claimOutput 3) (ask 3 [0x40, 5, 0, 50, 1, 0] att) = .next t := next_of_sees (by decide +kernel)

theorem witness_RequestsPassTheGeneralChecks :
    requestCommand (.setTime 0) = some (.setTime, 0) ∧
    att.ports[(0 : Port)].state = .idle ∧
    (InFlight .setTime 0 [0x11, 0, 0, 0, 2, 0, 0, 0, 9] (ask 0 [0x11, 0, 0, 0, 2, 0, 0, 0, 9] State.reset) ∧
      State.reset.sess[(0 : Port)].attached = false) ∧
    (InFlight .setTime 0 [0x11, 0, 0, 0, 2, 0, 0, 0, 9] (ask 0 [0x11, 0, 0, 0, 2, 0, 0, 0, 9] (token 1 att)) ∧
      att.sess[(0 : Port)].attached = true ∧ RequestKind.gated .setTime = true ∧ (token 1 att).authority ≠ some 0) ∧
    (InFlight .setTime 0 [0x11, 0, 0, 0, 2, 0x3B, 0x9A, 0xCA, 0] (ask 0 [0x11, 0, 0, 0, 2, 0x3B, 0x9A, 0xCA, 0] (token 0 att)) ∧
      (token 0 att).authority = some 0 ∧ fieldsOk .setTime [0x11, 0, 0, 0, 2, 0x3B, 0x9A, 0xCA, 0] = false) := by
  decide +kernel

/-- The field checks on both sides of their bounds: alert mask, nanoseconds, mode and link delay, lease, items, line, levels, edge
selection, holdoff, slot, port and quota (R186). -/
theorem witness_RequestsPassTheGeneralChecks_fields :
    (fieldsOk .attach [0x01, 7] = true ∧ fieldsOk .attach [0x01, 8] = false) ∧
    (fieldsOk .setTime [0x11, 0, 0, 0, 2, 0x3B, 0x9A, 0xC9, 0xFF] = true ∧
      fieldsOk .setTime [0x11, 0, 0, 0, 2, 0x3B, 0x9A, 0xCA, 0] = false) ∧
    (fieldsOk .setReference [0x21, 2, 0, 0, 0x0F, 0x42, 0x40] = true ∧
      fieldsOk .setReference [0x21, 3, 0, 0, 0, 0, 0] = false ∧
      fieldsOk .setReference [0x21, 2, 0, 0, 0x0F, 0x42, 0x41] = false) ∧
    (fieldsOk .claimAuthority [0x30, 0, 10] = true ∧ fieldsOk .claimAuthority [0x30, 0, 9] = false ∧
      fieldsOk .claimAuthority [0x30, 0xFF, 0xFF] = true) ∧
    (fieldsOk .renew [0x32, 0, 10, 1, 0x10] = true ∧ fieldsOk .renew [0x32, 0, 10, 1, 0x11] = false ∧
      fieldsOk .renew [0x32, 0, 10, 0] = false ∧ fieldsOk .renew (0x32 :: 0 :: 10 :: 17 :: List.replicate 17 0) = true ∧
      fieldsOk .renew (0x32 :: 0 :: 10 :: 18 :: List.replicate 17 0) = false) ∧
    (fieldsOk .claimOutput [0x40, 15, 0, 10, 1, 0] = true ∧ fieldsOk .claimOutput [0x40, 16, 0, 10, 1, 0] = false ∧
      fieldsOk .claimOutput [0x40, 15, 0, 10, 2, 0] = false ∧ fieldsOk .claimOutput [0x40, 15, 0, 10, 1, 2] = false) ∧
    (fieldsOk .subscribeCapture [0x41, 15, 0, 10, 3, 0, 0x0F, 0x42, 0x40] = true ∧
      fieldsOk .subscribeCapture [0x41, 15, 0, 10, 0, 0, 0, 0, 0] = false ∧
      fieldsOk .subscribeCapture [0x41, 15, 0, 10, 4, 0, 0, 0, 0] = false ∧
      fieldsOk .subscribeCapture [0x41, 15, 0, 10, 3, 0, 0x0F, 0x42, 0x41] = false) ∧
    (fieldsOk .releaseLine [0x42, 15] = true ∧ fieldsOk .releaseLine [0x42, 16] = false) ∧
    (fieldsOk .cancel [0x51, 63, 0] = true ∧ fieldsOk .cancel [0x51, 64, 0] = false ∧
      fieldsOk .readEntry [0x52, 63, 0] = true ∧ fieldsOk .readEntry [0x52, 64, 0] = false) ∧
    (fieldsOk .setQuota [0x54, 3, 64] = true ∧ fieldsOk .setQuota [0x54, 4, 0] = false ∧
      fieldsOk .setQuota [0x54, 0, 65] = false) := by decide +kernel

theorem witness_RequestsPassTheGeneralChecks_nothing_in_flight : ∀ body, ¬ InFlight .setTime 0 body att := by
  intro body h
  have e : att.ports[(0 : Port)].state = .idle := by decide +kernel
  have := e.symm.trans h.1
  simp at this

theorem witness_AttachBeginsASession :
    (Admitted .attach 1 [0x01, 0x07] (ask 1 [0x01, 0x07] State.reset) ∧ State.reset.sess[(1 : Port)].attached = false) ∧
    (Admitted .attach 1 [0x01, 0x00] (ask 1 [0x01, 0x00] rebooted) ∧ rebooted.sess[(1 : Port)].attached = true) := by
  decide +kernel

theorem witness_DetachTearsThePortDown : Admitted .detach 1 [0x02] (ask 1 [0x02] rebooted) := by decide +kernel

theorem witness_TimeAndReferenceAreReported :
    Admitted .readTime 3 [0x10] (ask 3 [0x10] att) ∧ Admitted .readReference 0 [0x20] (ask 0 [0x20] att) := by
  decide +kernel

theorem witness_LinesAreReported : Admitted .readLines 0 [0x43] (ask 0 [0x43] (output 0 3 att)) := by decide +kernel

theorem witness_OwnEntriesAreListed : Admitted .listEntries 2 [0x53] (ask 2 [0x53] (hold 0 (entry 2 1 9000) att)) := by
  decide +kernel

/-- The token with P0, and one entry of P2. -/
def quotas (body : List Byte) : State := ask 0 body (hold 0 (entry 2 1 9000) (token 0 att))

/-- A quota of 17 makes the sum 65, one of 16 makes it 64; a count of one is above 0 and not above 1. -/
theorem witness_QuotasAreSetAndReported :
    (Admitted .setQuota 0 [0x54, 3, 17] (quotas [0x54, 3, 17]) ∧ field [0x54, 3, 17] 1 1 = 3 ∧
      64 < sumPorts ((quotas []).cal.quota.set 3 (field [0x54, 3, 17] 2 1))) ∧
    (Admitted .setQuota 0 [0x54, 3, 16] (quotas [0x54, 3, 16]) ∧
      sumPorts ((quotas []).cal.quota.set 3 (field [0x54, 3, 16] 2 1)) = 64 ∧ (quotas []).cal.count[(3 : Port)] ≤ 16) ∧
    (Admitted .setQuota 0 [0x54, 2, 0] (quotas [0x54, 2, 0]) ∧ field [0x54, 2, 0] 1 1 = 2 ∧
      sumPorts ((quotas []).cal.quota.set 2 0) ≤ 64 ∧ 0 < (quotas []).cal.count[(2 : Port)]) ∧
    (Admitted .setQuota 0 [0x54, 2, 1] (quotas [0x54, 2, 1]) ∧ (quotas []).cal.count[(2 : Port)] = 1) ∧
    Admitted .readQuotas 0 [0x55] (ask 0 [0x55] att) := by decide +kernel

theorem witness_SetTimeStepsHubTime :
    (Admitted .setTime 0 [0x11, 0, 0, 0, 2, 0, 0, 0, 9] (ask 0 [0x11, 0, 0, 0, 2, 0, 0, 0, 9] (token 0 att)) ∧
      (token 0 att).disc.lock = .free) ∧
    (Admitted .setTime 0 [0x11, 0, 0, 0, 2, 0, 0, 0, 9] (ask 0 [0x11, 0, 0, 0, 2, 0, 0, 0, 9] (token 0 (inLock .locked att))) ∧
      (inLock .locked att).disc.lock ≠ .free) := by decide +kernel

theorem witness_SetReferenceTakesTheSelection :
    (Admitted .setReference 0 [0x21, 1, 4, 0, 0, 1, 44] (ask 0 [0x21, 1, 4, 0, 0, 1, 44] (token 0 (inLock .locked att))) ∧
      selectionOf (field [0x21, 1, 4, 0, 0, 1, 44] 1 1) (BitVec.ofNat 8 (field [0x21, 1, 4, 0, 0, 1, 44] 2 1)) =
        some (inLock .locked att).rx.selection) ∧
    (Admitted .setReference 0 [0x21, 1, 9, 0, 0, 1, 44] (ask 0 [0x21, 1, 9, 0, 0, 1, 44] (token 0 (inLock .locked att))) ∧
      selectionOf (field [0x21, 1, 9, 0, 0, 1, 44] 1 1) (BitVec.ofNat 8 (field [0x21, 1, 9, 0, 0, 1, 44] 2 1)) =
        some (.fixed 9) ∧ Selection.fixed 9 ≠ (inLock .locked att).rx.selection) := by decide +kernel

theorem witness_FlushReferenceAsksForASeed :
    Admitted .flushReference 0 [0x22] (ask 0 [0x22] (token 0 (inLock .holdover att))) := by decide +kernel

/-- The defaults of R55 as a request. -/
def defaults : List Byte :=
  [0x23, 0, 0, 3, 0xE8, 0, 1, 0x86, 0xA0, 4, 3, 7, 0xD0, 0, 0, 0x0E, 0x10, 0, 0, 0xC3, 0x50, 3]

theorem witness_SetDisciplineReplacesAllEight : Admitted .setDiscipline 0 defaults (ask 0 defaults (token 0 att)) := by
  decide +kernel

theorem witness_ClaimAuthorityGrantsAFreeToken :
    (Admitted .claimAuthority 0 [0x30, 0, 10] (ask 0 [0x30, 0, 10] att) ∧ att.authority = none ∧
      ∀ x ∈ att.leases, ¬ (x.resource = .authority ∧ x.holder = 0)) ∧
    (Admitted .claimAuthority 0 [0x30, 0, 10] (ask 0 [0x30, 0, 10] (token 0 att)) ∧ (token 0 att).authority = some 0 ∧
      (token 0 att).leases.find? (fun y => decide (y.resource = .authority ∧ y.holder = 0)) =
        some ⟨.authority, .authority, 0, 40⟩) ∧
    (Admitted .claimAuthority 3 [0x30, 0, 10] (ask 3 [0x30, 0, 10] (token 0 att)) ∧ (0 : Port) ≠ 3) := by decide +kernel

theorem witness_ReleaseAuthorityFreesTheToken :
    (Admitted .releaseAuthority 0 [0x31] (ask 0 [0x31] (token 0 att)) ∧ (token 0 att).authority = some 0) ∧
    (Admitted .releaseAuthority 1 [0x31] (ask 1 [0x31] (token 0 att)) ∧ (token 0 att).authority ≠ some 1) := by
  decide +kernel

theorem witness_RenewReplacesMsRemaining :
    Admitted .renew 2 [0x32, 0, 100, 3, 1, 0x10, 15] (ask 2 [0x32, 0, 100, 3, 1, 0x10, 15] (output 1 2 att)) := by
  decide +kernel

/-- An OUTPUT lease of P2 on TL1 that has run out, with an entry on the line. -/
def ranOut : State :=
  hold 0 (entry 2 1 9000) (addLease (.line 1) .output 2 0 (att.setLine 1 (.output ⟨2, .low, .low, none⟩)))

theorem witness_LeaseExpiriesEndTheHolding_output :
    ranOut.lines[(1 : LineNo)] = .output ⟨2, .low, .low, none⟩ ∧
    ranOut.leases.find? (fun y => decide (y.resource = .line 1 ∧ y.kind = .output ∧ y.remaining = 0)) =
      some ⟨.line 1, .output, 2, 0⟩ := by decide +kernel

/-- SUBSCRIPTION leases that have run out: of one of two subscribers, of the last one, and an AUTHORITY lease that has. -/
theorem witness_LeaseExpiriesEndTheHolding_others :
    (let s := (addLease (.line 8) .subscription 2 0 (capture 8 [0] 5 att)).setLine 8 (.capture ⟨[0, 2], .both, 5⟩)
     s.lines[(8 : LineNo)] = .capture ⟨[0, 2], .both, 5⟩ ∧
      s.leases.find? (fun y => decide (y.resource = .line 8 ∧ y.holder = 2)) = some ⟨.line 8, .subscription, 2, 0⟩) ∧
    (let s := addLease (.line 8) .subscription 2 0 (att.setLine 8 (.capture ⟨[2], .both, 5⟩))
     s.lines[(8 : LineNo)] = .capture ⟨[2], .both, 5⟩ ∧
      s.leases.find? (fun y => decide (y.resource = .line 8 ∧ y.holder = 2)) = some ⟨.line 8, .subscription, 2, 0⟩) ∧
    (addLease .authority .authority 2 0 { att with authority := some 2 }).leases.find?
      (fun y => decide (y.resource = .authority ∧ y.kind = .authority ∧ y.remaining = 0)) =
        some ⟨.authority, .authority, 2, 0⟩ := by decide +kernel

theorem witness_ClaimOutputGrantsAnUnassignedLine :
    let body : List Byte := [0x40, 15, 0, 50, 1, 0]
    (field body 1 1 = 15 ∧ field body 4 1 = Level.high.isHigh.toNat ∧ field body 5 1 = Level.low.isHigh.toNat) ∧
    (Admitted .claimOutput 3 body (ask 3 body att) ∧ att.lines[(15 : LineNo)] = .unassigned none) ∧
    (Admitted .claimOutput 3 body (ask 3 body (output 15 3 att)) ∧
      (output 15 3 att).lines[(15 : LineNo)] = .output ⟨3, .low, .high, none⟩) ∧
    (Admitted .claimOutput 3 body (ask 3 body (output 15 0 att)) ∧
      (output 15 0 att).lines[(15 : LineNo)] = .output ⟨0, .low, .high, none⟩) ∧
    (Admitted .claimOutput 3 body (ask 3 body (capture 15 [3] 0 att)) ∧
      (capture 15 [3] 0 att).lines[(15 : LineNo)] = .capture ⟨[3], .both, 0⟩) := by decide +kernel

theorem witness_SubscribeCaptureGrantsOrJoins :
    let body : List Byte := [0x41, 0, 0, 30, 3, 0, 0, 0, 5]
    (field body 1 1 = 0 ∧ field body 4 1 = EdgeSelection.both.code.toNat) ∧
    (Admitted .subscribeCapture 0 body (ask 0 body att) ∧ att.lines[(0 : LineNo)] = .unassigned none) ∧
    (Admitted .subscribeCapture 0 body (ask 0 body (att.setLine 0 (.unassigned (some ⟨.high, 16⟩)))) ∧
      (att.setLine 0 (.unassigned (some ⟨.high, 16⟩))).lines[(0 : LineNo)] = .unassigned (some ⟨.high, 16⟩)) ∧
    (Admitted .subscribeCapture 0 body (ask 0 body (capture 0 [1, 2, 3] 4 att)) ∧
      (capture 0 [1, 2, 3] 4 att).lines[(0 : LineNo)] = .capture ⟨[1, 2, 3], .both, 4⟩) ∧
    (Admitted .subscribeCapture 0 body (ask 0 body (capture 0 [0] 4 att)) ∧
      (capture 0 [0] 4 att).lines[(0 : LineNo)] = .capture ⟨[0], .both, 4⟩) ∧
    (Admitted .subscribeCapture 0 body (ask 0 body (output 0 0 att)) ∧
      (output 0 0 att).lines[(0 : LineNo)] = .output ⟨0, .low, .high, none⟩) := by decide +kernel

theorem witness_ReleaseLineEndsTheHolding :
    (Admitted .releaseLine 2 [0x42, 1] (ask 2 [0x42, 1] (output 1 2 att)) ∧ field [0x42, 1] 1 1 = 1 ∧
      (output 1 2 att).lines[(1 : LineNo)] = .output ⟨2, .low, .high, none⟩) ∧
    (Admitted .releaseLine 2 [0x42, 1] (ask 2 [0x42, 1] (capture 1 [2, 3] 0 att)) ∧
      (capture 1 [2, 3] 0 att).lines[(1 : LineNo)] = .capture ⟨[2, 3], .both, 0⟩) ∧
    (Admitted .releaseLine 2 [0x42, 1] (ask 2 [0x42, 1] (output 1 3 att)) ∧
      (output 1 3 att).holds 2 1 = false ∧ (output 1 3 att).subscribes 2 1 = false) := by decide +kernel

theorem witness_ActionsChangeTheLineRecord :
    (⟨0, .high, .low, none⟩ : OutputLine).pulse = none ∧
    (⟨0, .high, .low, some ⟨9, .low⟩⟩ : OutputLine).pulse = some ⟨9, .low⟩ := by decide

theorem witness_PulsesAndReleaseDrivesEnd :
    ((att.setLine 4 (.output ⟨0, .high, .low, some ⟨0, .low⟩⟩)).lines[(4 : LineNo)] =
      .output ⟨0, .high, .low, some ⟨0, .low⟩⟩) ∧
    ((att.setLine 4 (.unassigned (some ⟨.high, 1⟩))).lines[(4 : LineNo)] = .unassigned (some ⟨.high, 1⟩)) := by decide +kernel

/-- A SCHEDULE of P2: drive TL1 high at 2,000 ns of epoch 0. -/
def plan : List Byte := [0x50, 0, 0, 1, 1, 0, 0x25, 0, 0, 0, 0, 0, 0, 0x07, 0xD0]

theorem witness_ScheduleFieldsAreChecked :
    fieldsOk .schedule plan = true ∧ fieldsOk .schedule (plan.set 3 16) = false := by decide +kernel

/-- The fire time lies exactly 2,000 ns ahead at 0, and one ns less at 1 ns. -/
theorem witness_ScheduleChecksComeInOrder :
    let a := output 1 2 att
    (Admitted .schedule 2 plan (ask 2 plan att) ∧ att.holds 2 1 = false) ∧
    (Admitted .schedule 2 (plan.set 2 1) (ask 2 (plan.set 2 1) a) ∧ a.holds 2 1 = true ∧
      field (plan.set 2 1) 1 2 ≠ a.time.epoch.toNat) ∧
    (Admitted .schedule 2 plan (ask 2 plan (atTime 0 1 a)) ∧ field plan 1 2 = a.time.epoch.toNat ∧
      ¬ ((atTime 0 1 a).time.hub.units : Int) + 2000 * 1000000000 ≤ (2000 * 1000000000 : Nat)) ∧
    (Admitted .schedule 2 plan (ask 2 plan (hold 0 (entry 2 1 2000) a)) ∧
      (a.time.hub.units : Int) + 2000 * 1000000000 ≤ (2000 * 1000000000 : Nat) ∧
      (hold 0 (entry 2 1 2000) a).cal.slots[(0 : SlotNo)].entry = some (entry 2 1 2000)) ∧
    (Admitted .schedule 2 plan (ask 2 plan { a with cal.quota := a.cal.quota.set 2 0 }) ∧
      (a.cal.quota.set (2 : Port) 0)[(2 : Port)] ≤ a.cal.count[(2 : Port)]) := by decide +kernel

theorem witness_ScheduleChecksComeInOrder_requested : Requested 2 plan (entry 2 1 2000) := by
  refine ⟨?_, ?_, ?_, ?_, ?_, ?_, ?_, ?_⟩ <;> decide +kernel

/-- A PULSE of 1,000 ns every 1,001 ns, five times, DISCARD, VOID, no notices: every optional field. -/
theorem witness_ScheduleChecksComeInOrder_requested_periodic :
    Requested 2 [0x50, 0, 0, 1, 4, 7, 0x1A, 0, 0, 0, 0, 0, 0, 0x07, 0xD0, 0, 0, 0x03, 0xE8, 0, 0, 0x03, 0xE9, 0, 5]
      ⟨2, 1, .pulse 125, 2000, .periodic 1001 (some 5), .discard, .void, false⟩ := by
  refine ⟨?_, ?_, ?_, ?_, ?_, ?_, ?_, ?_⟩ <;> decide +kernel

/-- The rows of R92 at their bounds: one time; the last occurrence of a grid, on either side, and the time after it; two
periodic entries. -/
theorem witness_ScheduleChecksComeInOrder_collisions :
    let grid (p : Port) : Entry := { entry p 5 10000000 with repetition := .periodic 2000000 (some 5) }
    Collide (entry 2 5 7) (entry 2 5 7) ∧ Collide (entry 2 5 18000000) (grid 2) ∧ Collide (grid 2) (entry 2 5 18000000) ∧
    ¬ Collide (entry 2 5 20000000) (grid 2) ∧ Collide (grid 2) (grid 2) := by
  refine ⟨rfl, ⟨4, rfl, ?_, by decide⟩, ⟨4, rfl, ?_, by decide⟩, ?_, trivial⟩
  · intro m h; cases h; decide
  · intro m h; cases h; decide
  · rintro ⟨k, hk, hc, -⟩
    have := hc 5 rfl
    simp only [entry] at hk
    omega

theorem witness_ScheduleChecksComeInOrder_clear :
    ∀ (i : SlotNo) (x : Entry), (output 1 2 att).cal.slots[i].entry = some x → x.line = 1 →
      ¬ Collide (entry 2 1 2000) x := by
  intro i x hx _
  have := entries_of_check (s := output 1 2 att) (f := fun _ _ => false) (by decide +kernel) i x hx
  simp at this

/-- With an entry in slot 0, the lowest free slot is slot 1; the entry fires 7,000 ns later. -/
theorem witness_ScheduleInsertsInTheLowestFreeSlot :
    let a := hold 0 (entry 2 1 9000) (output 1 2 att)
    Admitted .schedule 2 plan (ask 2 plan a) ∧
    a.holds 2 1 = true ∧ field plan 1 2 = a.time.epoch.toNat ∧
    (a.time.hub.units : Int) + 2000 * 1000000000 ≤ (2000 * 1000000000 : Nat) ∧
    a.cal.count[(2 : Port)] < a.cal.quota[(2 : Port)] ∧ a.cal.slots[(1 : SlotNo)].entry = none ∧
    (∀ j : SlotNo, j < 1 → a.cal.slots[j].entry ≠ none) := by decide +kernel

theorem witness_ScheduleInsertsInTheLowestFreeSlot_clear :
    ∀ (i : SlotNo) (x : Entry), (hold 0 (entry 2 1 9000) (output 1 2 att)).cal.slots[i].entry = some x →
      x.line = 1 → ¬ Collide (entry 2 1 2000) x := by
  intro i x hx _
  have := entries_of_check (s := hold 0 (entry 2 1 9000) (output 1 2 att))
    (f := fun _ y => decide (y = entry 2 1 9000)) (by decide +kernel) i x hx
  rw [of_decide_eq_true this]
  simp [Collide, entry]

/-- P2 names its entry; P3, and P2 with the next generation, name none. -/
theorem witness_HandlesNameOwnEntries :
    let a := hold 63 (entry 2 1 9000) (output 1 2 att)
    (Admitted .cancel 2 [0x51, 63, 0] (ask 2 [0x51, 63, 0] a) ∧ field [0x51, 63, 0] 1 1 = 63 ∧
      a.cal.slots[(63 : SlotNo)] = ⟨0, some (entry 2 1 9000)⟩) ∧
    (Admitted .cancel 2 [0x51, 63, 1] (ask 2 [0x51, 63, 1] a) ∧ a.cal.slots[(63 : SlotNo)].generation ≠ 1) ∧
    (Admitted .readEntry 2 [0x52, 63, 0] (ask 2 [0x52, 63, 0] a)) ∧
    (Admitted .readEntry 3 [0x52, 63, 0] (ask 3 [0x52, 63, 0] a) ∧ (entry 2 1 9000).owner ≠ 3) := by decide +kernel

/-- Two entries of one port due at once on two lines. -/
def twoDue : State := hold 1 (entry 2 4 9000) (output 4 2 (dueEntry (entry 2 1 9000)))

theorem witness_FiringTakesEveryDueEntry :
    twoDue.cal.reached = [⟨9000, 9003, 0⟩] ∧ 9000 ≤ twoDue.time.hub.ns ∧
    (∀ (i j : SlotNo) (x y : Entry), (twoDue.cal.slots[i].entry = some x ∧ x.fireTime = 9000) →
      (twoDue.cal.slots[j].entry = some y ∧ y.fireTime = 9000) → i ≠ j → x.line ≠ y.line) := by
  refine ⟨by decide +kernel, by decide +kernel, ?_⟩
  have all := entries_of_check (s := twoDue)
    (f := fun i x => decide ((i = 0 ∧ x.line = 1) ∨ (i = 1 ∧ x.line = 4))) (by decide +kernel)
  intro i j x y hx hy hij
  have a := of_decide_eq_true (all i x hx.1)
  have b := of_decide_eq_true (all j y hy.1)
  rcases a with ⟨rfl, a⟩ | ⟨rfl, a⟩ <;> rcases b with ⟨rfl, b⟩ | ⟨rfl, b⟩ <;> simp_all

/-- A forward step over a periodic entry, one short of another entry, and a backward step; a firing that still waits for its turn
from before the step, and one reached after it. -/
theorem witness_StepHandlingSettlesEveryEntry :
    let a := stepped { entry 2 1 1000 with repetition := .periodic 1000 none }
    let b := stepped (entry 2 1 5000000000)
    let c := { b with time := { b.time with toCalendar := [⟨⟨0, 0, 0⟩, -4, .backward, 1, .discipline⟩] } }
    (a.time.toCalendar = [⟨⟨1, 0, 0⟩, 1000000000, .forward, 1, .setTime⟩] ∧ a.time.toSession.length ≤ 0) ∧
    (b.time.toCalendar.map StepHandoff.direction = [.forward] ∧ b.time.hub.ns < 5000000000) ∧
    (c.time.toCalendar.map StepHandoff.direction = [.backward] ∧ c.time.toSession.length ≤ 0) ∧
    (let d := stepSet 9001 { dueEntry (entry 2 1 9000) with
        cal := { (dueEntry (entry 2 1 9000)).cal with reached := [⟨9000, 9003, 0⟩, ⟨9001, 9003, 1⟩] } }
     d.time.toCalendar.map StepHandoff.epoch = [1] ∧ d.cal.reached.map Reached.epoch = [0, 1]) := by decide +kernel

theorem witness_FramesBeginWithTheStatusByte :
    att.pins.csLow[(2 : Port)] = false ∧ (framed 2 plain att).ports[(2 : Port)].frame = some plain ∧
    plain.fix.isBatch = false := by decide +kernel

theorem witness_UnknownKindLeavesEveryState :
    (framed 3 plain att).ports[(3 : Port)].frame = some ⟨[], .undecided, [0x20]⟩ ∧
    (0xA0#8 ≠ 0xA1#8 ∧ 0xA0#8 ≠ 0xA2#8 ∧ 0xA0#8 ≠ 0xA3#8 ∧ 0xA0#8 ≠ 0xA4#8) := by decide +kernel

/-- A REQUEST frame around a body. -/
def wrap (body : List Byte) : List Byte :=
  let l : List Byte := BitVec.ofNat 8 body.length :: body
  0xA1 :: l ++ bytesOf 2 (crc16 l).toNat

/-- Length 41 fails, and so does a part-byte (below) after L + 4 whole bytes; a wrong CRC; a busy port; READ_TIME; a code that
names no request. -/
theorem witness_RequestFramesAreJudgedInOrder :
    (framed 2 plain att).ports[(2 : Port)].frame = some plain ∧ plain.fix = .undecided ∧
    (field (wrap (List.replicate 41 0x10)) 1 1 = 41 ∧ (wrap (List.replicate 41 0x10)).head? = some 0xA1) ∧
    (field (wrap [0x10]) 1 1 = 1 ∧ (wrap [0x10]).length = 5 ∧
      (wrap [0x10]).drop 3 = bytesOf 2 (crc16 (((wrap [0x10]).drop 1).take 2)).toNat) ∧
    ([0xA1, 1, 0x10, 0x3C, 0x0E] : List Byte).drop 3 ≠ bytesOf 2 (crc16 [1, 0x10]).toNat ∧
    (framed 2 plain (ask 2 [0x10] att)).ports[(2 : Port)].state ≠ .idle ∧
    (framed 2 plain att).ports[(2 : Port)].state = .idle ∧
    requestOf [0x10] = some .readTime ∧ requestOf [0x03] = none := by decide +kernel

/-- RENEW with 0, 17 and 18 items; SCHEDULE with a count and no period; a known code with another length (R185). -/
theorem witness_RequestFramesAreJudgedInOrder_table :
    requestOf [0x32, 0, 100, 0] = some .renew ∧
    requestOf (0x32 :: 0 :: 100 :: 18 :: List.replicate 17 0) = some .renew ∧
    requestOf (0x32 :: 0 :: 100 :: 18 :: List.replicate 18 0) = none ∧
    requestOf ([0x50, 0, 0, 1, 1, 4, 0x15] ++ List.replicate 10 0) = some .schedule ∧
    requestOf [0x01] = none := by decide +kernel

/-- The READ_TIME frame with one bit after its five whole bytes: only the part-byte fails the length test. -/
theorem witness_RequestFramesAreJudgedInOrder_part :
    let bytes := wrap [0x10]
    bytes.head? = some 0xA1 ∧ 2 ≤ bytes.length ∧ 1 ≤ field bytes 1 1 ∧ field bytes 1 1 ≤ 40 ∧
    bytes.length = field bytes 1 1 + 4 ∧ ¬ (1 ≤ field bytes 1 1 ∧ field bytes 1 1 ≤ 40 ∧
      bytes.length = field bytes 1 1 + 4 ∧ (1 : Nat) = 0) := by decide +kernel

theorem witness_RepliesAreCollected :
    let a := framed 2 plain (att.setPort 2 ⟨.answered [1, 0, 4], .accepted, none, false⟩)
    (a.ports[(2 : Port)].frame = some plain ∧ a.ports[(2 : Port)].state = .answered [1, 0, 4]) ∧
    (framed 2 plain (ask 2 [0x10] att)).ports[(2 : Port)].state = .working [0x10] ∧
    (∃ f : Frame, (framed 2 ⟨[0xA2], .reply true, List.replicate 7 0⟩ att).ports[(2 : Port)].frame = some f ∧
      f.fix = .reply true ∧ 2 ≤ f.sent.length) :=
  ⟨by decide +kernel, by decide +kernel, ⟨[0xA2], .reply true, List.replicate 7 0⟩, by decide +kernel⟩

/-- M at 1, at 8, at 0 and at 9. -/
theorem witness_BatchesAreFixedAtByteTwo :
    (framed 1 plain (full 1 att)).ports[(1 : Port)].frame = some plain ∧ plain.fix = .undecided ∧
    (1 ≤ (1#8).toNat ∧ (8#8).toNat ≤ 8) ∧ ((0#8).toNat = 0 ∧ 8 < (9#8).toNat) := by decide +kernel

theorem witness_BatchesAreSettledAtTheEnd :
    (∃ f : Frame, (framed 1 ⟨[0xA3, 8], .batch .notices true, List.replicate 165 0⟩ att).ports[(1 : Port)].frame = some f ∧
      f.fix = .batch .notices true) ∧
    (∃ f : Frame, (framed 1 ⟨[0xA4, 9], .batch .captures false, List.replicate 5 0⟩ att).ports[(1 : Port)].frame = some f ∧
      f.fix = .batch .captures false) :=
  ⟨⟨⟨[0xA3, 8], .batch .notices true, List.replicate 165 0⟩, by decide +kernel⟩,
   ⟨⟨[0xA4, 9], .batch .captures false, List.replicate 5 0⟩, by decide +kernel⟩⟩

theorem witness_NoticesAreQueuedOrCountedLost :
    State.reset.sess[(0 : Port)].attached = false ∧
    (att.sess[(0 : Port)].attached = true ∧ att.sess[(0 : Port)].queue.length < 16) ∧
    ((full 0 att).sess[(0 : Port)].attached = true ∧ (full 0 att).sess[(0 : Port)].queue.length = 16) := by decide +kernel

theorem witness_AlertsFollowTheirConditions :
    (Admitted .attach 1 [0x01, 0x04] (ask 1 [0x01, 0x04] State.reset) ∧
      (([0x01, 0x04] : List Byte).getD 1 0#8).getLsbD 2 = true) ∧
    Admitted .detach 1 [0x02] (ask 1 [0x02] rebooted) := by decide +kernel

theorem witness_ResetStartsFromTheResetValues :
    125 ≤ { att with pins := { att.pins with resetnLow := 125 } }.pins.resetnLow ∧
    { att with pins := { att.pins with resetnLow := 124 } }.pins.resetnLow < 125 ∧
    ({ att with inReset := true }.inReset = true ∧ att.pins.resetnLow = 0) ∧
    (att.inReset = false ∧ 5 ≤ { att with time := { att.time with uptime := 5 } }.time.uptime.toNat) := by decide +kernel

/-- The bounds of trim and slew limit, and the last tick that is counted. -/
theorem witness_TickAdvancesHubTime :
    let s := { att with
      time := { att.time with tickCount := 2 ^ 64 - 2, trim := -100000, slew := -(10 ^ 18) }
      disc := { att.disc with params := { att.disc.params with slewLimit := 500000 } } }
    s.inReset = false ∧ s.time.tickCount + 1 < 2 ^ 64 ∧ -100000 ≤ s.time.trim ∧ s.time.trim ≤ 100000 ∧
    s.disc.params.slewLimit ≤ 500000 := by decide +kernel

theorem witness_TickReachesFireTimes :
    (∃ t, exec (.tick idlePins) (hold 0 (entry 2 1 8) (output 1 2 att)) = .next t) ∧
    (hold 0 (entry 2 1 8) (output 1 2 att)).inReset = false ∧
    (let last := hold 0 (entry 2 1 4294967295999999999) (output 1 2 (atTime 4294967295 999999998 att))
     (∃ t, exec (.tick idlePins) last = .next t) ∧
     sees (.tick idlePins) last (fun s => s.cal.reached) = some [⟨4294967295999999999, 4294967295999999999, 0⟩]) :=
  ⟨next_of_sees (by decide +kernel), by decide +kernel, next_of_sees (by decide +kernel), by decide +kernel⟩

theorem witness_TickCountsDownAndSamples :
    (∃ t, exec (.tick ⟨true, false, 0⟩) { att with inReset := true } = .next t) ∧
    (∃ t, exec (.tick ⟨true, true, 0x0080⟩) (capture 7 [0] 5 (output 1 2 att)) = .next t) ∧
    ((capture 7 [0] 5 (output 1 2 att)).inReset = false ∧
      (capture 7 [0] 5 (output 1 2 att)).lines[(1 : LineNo)] = .output ⟨2, .low, .high, none⟩ ∧
      (capture 7 [0] 5 att).lines[(0 : LineNo)] = .unassigned none ∧
      (capture 7 [0] 5 att).lines[(7 : LineNo)] = .capture ⟨[0], .both, 5⟩ ∧
      (capture 7 [0] 5 att).watch[(7 : LineNo)] = some ⟨.low, 0, none⟩) :=
  ⟨next_of_sees (by decide +kernel), next_of_sees (by decide +kernel), by decide +kernel⟩

/-- A hub whose next tick lies `d` ticks after the falling edge of a character. -/
def timed (d : Nat) (s : State) : State :=
  { s with
    time := { s.time with tickCount := 1000 + d - 1 }
    rx := { s.rx with timing := some ⟨1000, true, [true]⟩ } }

/-- REFIN on one tick: a falling edge, none; the samples at 63, 188, 1,063 and 1,188 ticks, high and low, in IDLE and in
RECEIVING; and a tick between two samples. -/
theorem witness_TickCountsDownAndSamples_refin :
    (let s := { att with rx := { att.rx with refinHigh := true } }
     s.rx.timing = none ∧ s.rx.refinHigh = true ∧ att.rx.refinHigh = false ∧ att.rx.timing = none) ∧
    (∀ d ∈ [63, 63 + 125 * 1, 63 + 125 * 8, 63 + 125 * 9, 64], ∀ x ∈ [true, false],
      (after (.tick ⟨x, true, 0⟩) (timed d att)).isSome = true ∧ (timed d att).rx.timing = some ⟨1000, true, [true]⟩ ∧
      sees (.tick ⟨x, true, 0⟩) (timed d att) (fun t => t.time.tickCount - 1000) = some d) ∧
    att.rx.assembly = .idle ∧ (timed 63 (receiving [0xC3] [] att)).rx.assembly ≠ .idle := by decide +kernel

theorem witness_SecondsWrapIsAStep :
    (atTime 4294967295 999999999 att).time.hub.ns < 4294967296000000000 ∧
    (4294967296000000000 ≤ (atTime 4294967296 0 att).time.hub.ns ∧ (atTime 4294967296 0 att).cal.reached = [] ∧
      (atTime 4294967296 0 att).time.hub.units < 2 * 4294967296000000000 * 1000000000) := by decide +kernel

theorem witness_UptimeIncrementCountsOneMs :
    att.time.uptime.toNat = { att with time := { att.time with tickCount := 124999 } }.time.tickCount / 125000 % 2 ^ 32 ∧
    att.time.uptime.toNat ≠ { att with time := { att.time with tickCount := 125000 } }.time.tickCount / 125000 % 2 ^ 32 := by
  decide +kernel

/-- A step below zero, one that fits, one past the range, and one larger than the range, as the link delay allows. -/
theorem witness_StepsAreSettledInRange :
    let range : Nat := 4294967296000000000
    let target (s : State) (a : Int) : Int := s.time.hub.units + a * 1000000000
    (target (atTime 4294967295 999999999 att) (-range) < 0) ∧
    (target (atTime 4294967295 999999999 att) 0 < range * 1000000000) ∧
    (range * 1000000000 ≤ target (atTime 4294967295 999999999 att) range ∧
      target (atTime 4294967295 999999999 att) range < 2 * range * 1000000000) ∧
    (range * 1000000000 ≤ target (atTime 0 0 att) (range + 999999) ∧
      target (atTime 0 0 att) (range + 999999) < 2 * range * 1000000000) := by decide +kernel

theorem witness_StepsAreHandedOn :
    { att with time := { att.time with toSession := [⟨⟨0, 0, 0⟩, -4, .backward, 8, .discipline⟩] } }.time.toSession =
      [⟨⟨0, 0, 0⟩, -4, .backward, 8, .discipline⟩] ∧
    (let s := { receiving [0xC3] [] att with rx := { (receiving [0xC3] [] att).rx with adjusts := [-500] } }
     s.rx.adjusts = [-500] ∧ s.rx.assembly = .receiving ⟨800000000, 100000000⟩ [0xC3] (some 5)) ∧
    (let s := { att with rx := { att.rx with adjusts := [7], provisional := some ⟨77, 9⟩ } }
     s.rx.adjusts = [7] ∧ s.rx.assembly = .idle ∧ s.rx.provisional = some ⟨77, 9⟩) := by decide +kernel

theorem witness_ClocksMoveOnlyWithTheirEvents :
    (∃ t, exec .secondsWrap (atTime 4294967296 3 att) = .next t) ∧
    (∀ cause, Instr.secondsWrap ≠ .hubReset cause) ∧ Instr.secondsWrap ≠ .resetRelease ∧
    (atTime 4294967296 3 att).time.tickCount + 1 < 2 ^ 64 :=
  ⟨next_of_sees (by decide +kernel), by simp, by simp, by decide +kernel⟩

theorem witness_BeaconsAreAssembledOrAbandoned :
    (let s := { att with rx := { att.rx with found := [.startBit], provisional := some ⟨77, 9⟩ } }
     s.rx.assembly = .idle ∧ s.rx.found = [.startBit] ∧ s.rx.provisional = some ⟨77, 9⟩) ∧
    ((receiving (beacon.take 13) [.character 4 2000] att).rx.found = [.character 4 2000] ∧ (beacon.take 13).length < 14) ∧
    ((receiving [] [.character 0xC4 1188] att).rx.assembly = .receiving ⟨800000000, 100000000⟩ [] (some 5) ∧
      0xC4#8 ≠ 0xC3#8) ∧
    (receiving [0xC3] [.framingError] att).rx.found = [.framingError] ∧
    ((receiving [0xC3] [] att).rx.assembly = .receiving ⟨800000000, 100000000⟩ [0xC3] (some 5) ∧
      (receiving [0xC3] [] att).rx.found = []) := by decide +kernel

/-- A beacon of source 4 with these flags and this sequence, its CRC computed as R183 says. -/
def beaconWith (flags seq : Byte) : List Byte :=
  let b : List Byte := [0xC3, 4, 0, seq, flags, 0, 0, 3, 0xE8, 0, 0, 0, 0]
  b ++ crcBytes b

/-- A content failure; a beacon that is foreign, untraceable, old, adopted, a seed, usable. The greatest sequence that is new
is 32,767 ahead of the last. -/
theorem witness_BeaconsAreClassifiedAtTheirEnd :
    (receiving (beacon.take 14) [lastCharacter] att).rx.assembly =
      .receiving ⟨800000000, 100000000⟩ (beacon.take 14) (some 5) ∧ (beacon.take 14).length = 14 ∧
    (beacon.take 13 ++ [0, 0]).drop 13 ≠ bytesOf 2 (crc16 (beacon.take 13)).toNat ∧
    (beacon.drop 13 = bytesOf 2 (crc16 (beacon.take 13)).toNat ∧ field beacon 9 4 < 1000000000) ∧
    ((inLock .locked att).rx.selection = .fixed 4 ∧ beacon.getD 1 0 = 4 ∧ att.rx.selection = .acceptFirst none) ∧
    (((beaconWith 0 20).getD 4 0#8).getLsbD 0 = false ∧ (beacon.getD 4 0#8).getLsbD 0 = true) ∧
    ((inLock .locked att).rx.seedPending = false ∧ (beacon.getD 4 0#8).getLsbD 1 = false ∧
      ((beaconWith 3 20).getD 4 0#8).getLsbD 1 = true) ∧
    ((BitVec.ofNat 16 (field (beaconWith 1 10) 2 2) - (inLock .locked att).rx.lastSeq).toNat = 0 ∧
      (BitVec.ofNat 16 (field beacon 2 2) - (inLock .locked att).rx.lastSeq).toNat = 10) ∧
    ((32777#16 - 10#16).toNat = 32767 ∧ (32778#16 - 10#16).toNat = 32768) := by decide +kernel

/-- Parameters at their defaults: lock window 1,000 ns, step threshold 100,000 ns, lock count 4, unlock count 3. -/
theorem witness_BeaconsAreHandledByLockState :
    let x := (inLock .locked att).disc.params
    ((inLock .locked att).disc.lock = .locked ∧ x.lockWindow < (1001 : Int).natAbs) ∧
    ((inLock .locked att).disc.outliers + 1 < x.unlockCount ∧
      x.unlockCount ≤ { (inLock .locked att).disc with outliers := 2 }.outliers + 1) ∧
    ((-1000 : Int).natAbs ≤ x.lockWindow) ∧
    (att.disc.lock = .free ∧ x.stepThreshold < (-100001 : Int).natAbs ∧ (100000 : Int).natAbs ≤ x.stepThreshold ∧
      x.lockWindow < (100000 : Int).natAbs) ∧
    ((inLock .acquire att).disc.lock = .acquire ∧ 0 + 1 < x.lockCount ∧
      x.lockCount ≤ { (inLock .acquire att).disc with inWindow := 3 }.inWindow + 1) ∧
    ((inLock .holdover att).disc.lock = .holdover ∧ (1000 : Int).natAbs ≤ x.lockWindow) ∧
    ((inLock .locked att).disc.lastMark = some 0 ∧ (124999 - 0) / 125 < 1000 ∧ 1000 ≤ (125000 - 0) / 125) := by decide +kernel

theorem witness_TimeoutsChangeTheLockState :
    (∀ x ∈ [LockState.acquire, LockState.locked],
      let s := { inLock x att with disc := { (inLock x att).disc with timer := .running 2000 true } }
      s.disc.timer = .running 2000 true ∧ s.disc.params.beaconTimeout ≤ 2000 ∧ s.disc.lock = x) ∧
    (let s := { inLock .holdover att with
        disc := { (inLock .holdover att).disc with holdoverElapsed := 3600000, holdoverDue := true } }
     s.disc.lock = .holdover ∧ s.disc.holdoverDue = true ∧
      1000 * s.disc.params.holdoverLimit ≤ s.disc.holdoverElapsed) := by decide +kernel

/-- Two subscribers, one with a record of the same tick from another line, the other with a full queue and a batch of two. -/
theorem witness_EdgesAreStampedForEverySubscriber :
    let old : CaptureRecord := ⟨6, .rising, 0, 0, .free, 0⟩
    let s := ((capture 7 [0, 2] 5 att).setWatch 7 (some ⟨.high, 0, some .rising⟩)).setCap 0 ⟨[old], 0, none, 1⟩
    let s := s.setCap 2 ⟨List.replicate 32 old, 3, some 2, 30⟩
    s.lines[(7 : LineNo)] = .capture ⟨[0, 2], .both, 5⟩ ∧ s.watch[(7 : LineNo)] = some ⟨.high, 0, some .rising⟩ ∧
    [(0 : Port), 2].Nodup ∧ s.caps[(0 : Port)].queue.length < 32 ∧ ¬ s.caps[(2 : Port)].queue.length < 32 ∧
    (old.stamp = s.reportedTime ∧ old.epoch = s.time.epoch) := by decide +kernel

theorem witness_BigEndianReadsBack : 0 < 8 := by decide

/-- The state of the invariants' witnesses: a line held, an entry on it, the token, a captured line, a loss that stands. -/
def busy (c : Instr) : State :=
  { capture 7 [0] 5 (hold 0 (entry 2 1 9000) (output 1 2 (token 2 ((full 3 att).setSess 3
      { (full 3 att).sess[3] with loss := true, batch := some ⟨8, true, true⟩ })))) with pending := [c] }

theorem busy_steps : ∃ t, step (busy (.tick idlePins)) = .next t := step_of_front rfl (by decide +kernel)

theorem witness_StepKeepsTheQueuesBounded :
    QueuesOk (busy (.tick idlePins)) ∧ ∃ t, step (busy (.tick idlePins)) = .next t := by
  refine ⟨⟨fun p => ?_, fun p => ?_⟩, busy_steps⟩
  · have h : ∀ p : Port, (busy (.tick idlePins)).sess[p] =
        if p = 3 then ⟨true, 4, ⟨true, true, true⟩, List.replicate 16 ⟨.leaseLost .authority .authority 0, 0⟩, true,
          some ⟨8, true, true⟩⟩
        else ⟨true, 4, ⟨true, true, true⟩, [], false, none⟩ := by decide +kernel
    rw [h p]
    split <;> constructor <;> simp
  · have h : ∀ p : Port, (busy (.tick idlePins)).caps[p] = ⟨[], 0, none, 0⟩ := by decide +kernel
    rw [h p]
    constructor <;> simp

theorem witness_StepKeepsTheTimebaseInRange :
    TimeOk (busy (.tick idlePins)) ∧ ∃ t, step (busy (.tick idlePins)) = .next t := by
  refine ⟨?_, busy_steps⟩
  constructor <;> decide +kernel

theorem witness_StepKeepsTheQuotas :
    QuotaOk (busy (.tick idlePins)) ∧ ∃ t, step (busy (.tick idlePins)) = .next t := by
  refine ⟨?_, busy_steps⟩
  constructor <;> decide +kernel

/-- A periodic entry and a one-shot on one line, the one-shot after the last occurrence of the grid. -/
def shared : State :=
  { hold 1 (entry 2 1 13000) (hold 0 { entry 2 1 9000 with repetition := .periodic 2000 (some 2) } (output 1 2 att)) with
    pending := [.tick idlePins] }

theorem shared_entries (i : SlotNo) (e : Entry) (h : shared.cal.slots[i].entry = some e) :
    (i = 0 ∧ e = { entry 2 1 9000 with repetition := .periodic 2000 (some 2) }) ∨ (i = 1 ∧ e = entry 2 1 13000) :=
  of_decide_eq_true (entries_of_check (s := shared)
    (f := fun i e => decide ((i = 0 ∧ e = { entry 2 1 9000 with repetition := .periodic 2000 (some 2) }) ∨
      (i = 1 ∧ e = entry 2 1 13000))) (by decide +kernel) i e h)

theorem shared_apart : ¬ Occurs 9000 2000 (some 2) 13000 := by
  rintro ⟨k, hk, hc, -⟩
  have := hc 2 rfl
  omega

theorem witness_StepKeepsTheEntriesApart : CalendarOk shared ∧ ∃ t, step shared = .next t := by
  refine ⟨⟨fun i e h => ?_, fun i j x y hx hy hij _ => ?_⟩, step_of_front rfl (by decide +kernel)⟩
  · rcases shared_entries i e h with ⟨-, rfl⟩ | ⟨-, rfl⟩ <;> constructor <;> simp [entry]
  · rcases shared_entries i x hx with ⟨rfl, rfl⟩ | ⟨rfl, rfl⟩ <;>
      rcases shared_entries j y hy with ⟨rfl, rfl⟩ | ⟨rfl, rfl⟩
    · exact absurd rfl hij
    · exact ⟨by decide, shared_apart⟩
    · exact ⟨by decide, shared_apart⟩
    · exact absurd rfl hij

theorem witness_StepKeepsTheHoldings :
    HoldingsOk (busy (.tick idlePins)) ∧ ∃ t, step (busy (.tick idlePins)) = .next t := by
  refine ⟨⟨fun l => ?_, ?_, by decide +kernel, by decide +kernel, by decide +kernel, by decide +kernel, by decide +kernel,
    by decide +kernel, by decide +kernel⟩, busy_steps⟩
  · have h : ∀ l : LineNo, (busy (.tick idlePins)).lines[l] =
        if l = 1 then .output ⟨2, .low, .high, none⟩ else if l = 7 then .capture ⟨[0], .both, 5⟩ else .unassigned none := by
      decide +kernel
    rw [h l]
    split
    · show (busy (.tick idlePins)).sess[(2 : Port)].attached = true
      decide +kernel
    · split
      · exact ⟨by simp, by simp, by decide +kernel⟩
      · trivial
  · exact entries_of_check (s := busy (.tick idlePins)) (f := fun _ e => (busy (.tick idlePins)).holds e.owner e.line)
      (by decide +kernel)

theorem witness_StepKeepsTheLockState :
    LockOk { inLock .locked att with pending := [.tick idlePins] } ∧
    ∃ t, step { inLock .locked att with pending := [.tick idlePins] } = .next t := by
  refine ⟨?_, step_of_front rfl (by decide +kernel)⟩
  constructor <;> decide +kernel

end Sys2Proof.Tests
end

/-! ## The actions on an output line (section 4.4, R69 to R71) -/

namespace Sys2Proof.Machine

theorem Level.invert_ne (v : Level) : v.invert ≠ v := by
  cases v <;> decide

/-! ### One equation per action; PULSE has one without and one with a pulse in flight -/

theorem OutputLine.act_driveHigh (o : OutputLine) :
    o.act .driveHigh = { o with level := .high, pulse := none } := rfl

theorem OutputLine.act_driveLow (o : OutputLine) :
    o.act .driveLow = { o with level := .low, pulse := none } := rfl

theorem OutputLine.act_toggle (o : OutputLine) :
    o.act .toggle = { o with level := o.level.invert, pulse := none } := rfl

theorem OutputLine.act_pulse_of_idle {o : OutputLine} (w : Nat) (h : o.pulse = none) :
    o.act (.pulse w) = { o with level := o.level.invert, pulse := some ⟨w, o.level⟩ } := by
  unfold OutputLine.act
  rw [h]

theorem OutputLine.act_pulse_of_inFlight {o : OutputLine} {q : Pulse} (w : Nat) (h : o.pulse = some q) :
    o.act (.pulse w) = { o with pulse := some ⟨w, q.returnLevel⟩ } := by
  unfold OutputLine.act
  rw [h]

/-- Settles O22, from the equation of each action; a level always differs from its inverse. -/
theorem actionsChangeTheLineRecord : Obligations.ActionsChangeTheLineRecord := by
  unfold Obligations.ActionsChangeTheLineRecord
  intro o q w
  obtain ⟨toggled, unpulsed⟩ : (o.act .toggle).level ≠ o.level ∧ (o.act .toggle).pulse = none := by
    rw [o.act_toggle]
    exact ⟨o.level.invert_ne, rfl⟩
  have started (h : o.pulse = none) :
      (o.act (.pulse w)).level ≠ o.level ∧ (o.act (.pulse w)).pulse = some ⟨w, o.level⟩ := by
    rw [OutputLine.act_pulse_of_idle w h]
    exact ⟨o.level.invert_ne, rfl⟩
  have restarted (h : o.pulse = some q) :
      (o.act (.pulse w)).level = o.level ∧ (o.act (.pulse w)).pulse = some ⟨w, q.returnLevel⟩ := by
    rw [OutputLine.act_pulse_of_inFlight w h]
    exact ⟨rfl, rfl⟩
  exact ⟨o.act_driveHigh, o.act_driveLow, toggled, unpulsed, OutputLine.act_holder _ o,
    OutputLine.act_releaseLevel _ o, started, restarted, OutputLine.act_holder _ o, OutputLine.act_releaseLevel _ o⟩

end Sys2Proof.Machine

/-! ## RELEASE_AUTHORITY (section 8.5, R149) -/

namespace Sys2Proof.Machine

/-- A notice to every attached port leaves the session numbers, so a reply queued after it names the same session. -/
theorem broadcast_number (b : NoticeBody) (s : State) (p : Port) :
    (broadcast b s).sess[p].number = s.sess[p].number := by
  simp only [Fin.getElem_fin, getElem_broadcast_sess, Session.push_number]

/-! ### The Lease Unit's own part: one equation for the holder, one for every other port -/

theorem releaseAuthorityRun_of_holder {p : Port} {s : State} (body : List Byte) (h : s.authority = some p) :
    releaseAuthorityRun p body s =
      (broadcast (.authorityChanged (some p) none .release 0) (freeAuthority p s), accept []) := if_pos h

theorem releaseAuthorityRun_of_not_holder {p : Port} {s : State} (body : List Byte) (h : s.authority ≠ some p) :
    releaseAuthorityRun p body s = (s, refuse .notOwner) := if_neg h

/-- The command on an admitted request, whoever sent it. -/
theorem exec_releaseAuthority_admitted {p : Port} {body : List Byte} {s : State}
    (h : Admitted .releaseAuthority p body s) :
    exec (.releaseAuthority p) s = .next (withReply p
      ([0x31#8, (releaseAuthorityRun p body s).2.status.code, (releaseAuthorityRun p body s).1.sess[p].number] ++
        (releaseAuthorityRun p body s).2.body)
      (releaseAuthorityRun p body s).1) :=
  takeRequest_admitted (releaseAuthorityRun p) h

/-- Settles O16: the Lease Unit's part either frees the token and tells every attached port, or refuses and changes
nothing; the reply carries the requester's session number, which the notice leaves as it was. -/
theorem releaseAuthorityFreesTheToken : Obligations.ReleaseAuthorityFreesTheToken := by
  unfold Obligations.ReleaseAuthorityFreesTheToken
  intro p body s admitted
  rw [exec_releaseAuthority_admitted admitted]
  constructor
  · intro holder
    have number : (broadcast (.authorityChanged (some p) none .release 0) (freeAuthority p s)).sess[p].number =
        s.sess[p].number := broadcast_number _ (freeAuthority p s) p
    rw [releaseAuthorityRun_of_holder body holder, number]
    rfl
  · intro notHolder
    rw [releaseAuthorityRun_of_not_holder body notHolder]
    rfl

end Sys2Proof.Machine

/-! ## Frames of unknown kind (section 10.3, R173) -/

namespace Sys2Proof.Machine

/-! ### The byte on MISO in a frame -/

theorem State.misoByte_of_frame {s : State} {p : Port} {f : Frame} (h : s.ports[p].frame = some f) (k : Nat) :
    s.misoByte p k = f.sent.getD (k - 1) 0#8 := by
  simp only [State.misoByte, h]

/-- R170, R184: after the bytes that are decided, counted from 1, the hub sends filler. -/
theorem State.misoByte_filler {s : State} {p : Port} {f : Frame} (h : s.ports[p].frame = some f) {k : Nat}
    (past : f.sent.length < k) : s.misoByte p k = 0x00#8 := by
  rw [State.misoByte_of_frame h]
  exact List.getD_eq_default f.sent 0#8 (by omega)

/-! ### The end of a frame -/

/-- A frame's end sets CSn high, clears the frame and records the outcome: the port's state (and with it the reply slot)
and every queue stay. -/
theorem endFrame_eq (p : Port) (o : FrameOutcome) (s : State) :
    endFrame p o s =
      { s with
        pins := { s.pins with csLow := s.pins.csLow.set p false }
        ports := s.ports.set p { s.ports[p] with frame := none, lastOutcome := o } } := rfl

/-- A frame that has decided nothing and whose byte 1 is no code ends as a frame does, with UNKNOWN_KIND. -/
theorem exec_unknownKind_of_undecided {p : Port} {kind : Byte} {s : State} {f : Frame}
    (h : s.ports[p].frame = some f) (undecided : f.fix = .undecided)
    (noCode : kind ≠ 0xA1#8 ∧ kind ≠ 0xA2#8 ∧ kind ≠ 0xA3#8 ∧ kind ≠ 0xA4#8) :
    exec (.unknownKind p kind) s = .next (endFrame p .unknownKind s) := by
  have dispatch : exec (.unknownKind p kind) s = execUnknownKind p kind s := rfl
  simp only [dispatch, execUnknownKind, h]
  exact if_pos ⟨undecided, noCode⟩

/-- Settles O31: only the status byte was sent, so every byte from the second on is filler; and the end of the frame is
the plain end with its outcome. -/
theorem unknownKindLeavesEveryState : Obligations.UnknownKindLeavesEveryState := by
  unfold Obligations.UnknownKindLeavesEveryState
  intro p kind status s frame notRequest notReply notNotices notCaptures
  constructor
  · intro k afterByte1
    exact State.misoByte_filler frame afterByte1
  · rw [exec_unknownKind_of_undecided frame rfl ⟨notRequest, notReply, notNotices, notCaptures⟩, endFrame_eq]

end Sys2Proof.Machine

/-! ## What a command leaves as it was: the aspects of the state (support for O2, O46 and O54 to O59) -/

namespace Sys2Proof.Machine

/-! ### The taking of a request, by its kind -/

/-- The owning block's own part, by the kind of the request. -/
def requestRun (p : Port) : RequestKind → List Byte → State → State × Answer
  | .attach => attachRun p
  | .detach => detachRun p
  | .readTime => fun _ t => (t, accept (readTimeBody t))
  | .setTime => setTimeRun
  | .readReference => fun _ t => (t, accept (readReferenceBody t))
  | .setReference => setReferenceRun
  | .flushReference => flushReferenceRun
  | .setDiscipline => setDisciplineRun
  | .claimAuthority => claimAuthorityRun p
  | .releaseAuthority => releaseAuthorityRun p
  | .renew => renewRun p
  | .claimOutput => claimOutputRun p
  | .subscribeCapture => subscribeCaptureRun p
  | .releaseLine => releaseLineRun p
  | .readLines => fun _ t => (t, accept (readLinesBody p t))
  | .schedule => scheduleRun p
  | .cancel => cancelRun p
  | .readEntry => readEntryRun p
  | .listEntries => fun _ t => (t, accept (listEntriesBody p t))
  | .setQuota => setQuotaRun
  | .readQuotas => fun _ t =>
      (t, accept (portBytes t.cal.quota ++ portBytes t.cal.count ++ bytesOf 1 (64 - sumPorts t.cal.count)))

/-- A request command is the taking of its kind on its port. -/
theorem exec_of_requestCommand {c : Instr} {k : RequestKind} {p : Port} (h : requestCommand c = some (k, p)) (s : State) :
    exec c s = takeRequest k p (requestRun p k) s := by
  cases c <;> cases h <;> rfl

/-- What holds of the state, is kept by a reply, and holds after the owning block's part of an admitted request, holds after
the command. -/
theorem exec_request_keeps {P : State → Prop} {c : Instr} {k : RequestKind} {p : Port} {s t : State}
    (hc : requestCommand c = some (k, p)) (ht : exec c s = .next t) (hs : P s)
    (reply : ∀ r u, P u → P (withReply p r u))
    (run : ∀ body, Admitted k p body s → P (requestRun p k body s).1) : P t := by
  rw [exec_of_requestCommand hc] at ht
  rcases takeRequest_cases ht with rfl | ⟨body, status, -, rfl⟩ | ⟨body, admitted, rfl⟩
  · exact hs
  · exact reply _ _ hs
  · exact reply _ _ (run body admitted)

/-! ### Aspects -/

/-- Who holds a line: what the record says apart from levels, pulse, drive and capture configuration. -/
inductive LineHolding where
  | nobody
  | holder (p : Port)
  | subscribers (ps : List Port)

def LineRecord.holding : LineRecord → LineHolding
  | .unassigned _ => .nobody
  | .output o => .holder o.holder
  | .capture c => .subscribers c.subscribers

/-- A lease without its ms remaining. -/
def Lease.claim (x : Lease) : Resource × LeaseKind × Port := (x.resource, x.kind, x.holder)

/-- `y` is the entry `x`, or what is left of it after passed occurrences (R86, R107, R116). -/
def Entry.Descends (x y : Entry) : Prop :=
  y = x ∨ ∃ n c k, x.repetition = .periodic n c ∧ x.fireTime + k * n < rangeNs ∧ c.map (· - k) ≠ some 0 ∧
    y = { x with fireTime := x.fireTime + k * n, repetition := .periodic n (c.map (· - k)) }

/-- The entry counts are right (R87). -/
def Tallied (s : State) : Prop := ∀ p : Port, s.cal.count[p] = ownedCount s p

/-- The parts of the state that the statements over all commands speak of. -/
inductive Aspect where
  | tickCount
  | uptime
  | epoch
  | clock
  | params
  | lock
  | lines
  | watch
  | entries
  | tally
  | quota
  | leases
  | authority
  | attached
  | sessions
  | caps
  | pending

/-- An aspect of `s` is kept in `t`: it is equal, except that lines keep their holders, leases their claims, the watch its
lines; entries may be removed or lose passed occurrences; the tally may follow removed entries; sessions may receive notices. -/
def Aspect.Kept (a : Aspect) (s t : State) : Prop :=
  match a with
  | .tickCount => t.time.tickCount = s.time.tickCount
  | .uptime => t.time.uptime = s.time.uptime
  | .epoch => t.time.epoch = s.time.epoch
  | .clock => t.time.hub = s.time.hub ∧ t.time.trim = s.time.trim ∧ t.time.slew = s.time.slew
  | .params => t.disc.params = s.disc.params
  | .lock => (t.disc.lock = s.disc.lock ∧ t.disc.timer = s.disc.timer ∧ t.disc.inWindow = s.disc.inWindow ∧
      t.disc.outliers = s.disc.outliers) ∧ t.rx.selection = s.rx.selection ∧ t.rx.seedPending = s.rx.seedPending
  | .lines => ∀ l : LineNo, (t.lines[l]).holding = (s.lines[l]).holding
  | .watch => ∀ l : LineNo, t.watch[l].isSome = s.watch[l].isSome
  | .entries => ∀ (i : SlotNo) (y : Entry), t.cal.slots[i].entry = some y →
      ∃ x, s.cal.slots[i].entry = some x ∧ x.Descends y
  | .tally => Tallied s → Tallied t ∧ ∀ p : Port, t.cal.count[p] ≤ s.cal.count[p]
  | .quota => t.cal.quota = s.cal.quota
  | .leases => t.leases.map Lease.claim = s.leases.map Lease.claim
  | .authority => t.authority = s.authority
  | .attached => ∀ p : Port, t.sess[p].attached = s.sess[p].attached
  | .sessions => ∀ p : Port, ∃ ns : List Notice, t.sess[p] = ns.foldl (fun x n => x.push n) s.sess[p]
  | .caps => t.caps = s.caps
  | .pending => t.pending = s.pending

/-- The fields that an aspect reads are equal. -/
def Aspect.Same (a : Aspect) (s t : State) : Prop :=
  match a with
  | .tickCount => t.time.tickCount = s.time.tickCount
  | .uptime => t.time.uptime = s.time.uptime
  | .epoch => t.time.epoch = s.time.epoch
  | .clock => t.time.hub = s.time.hub ∧ t.time.trim = s.time.trim ∧ t.time.slew = s.time.slew
  | .params => t.disc.params = s.disc.params
  | .lock => (t.disc.lock = s.disc.lock ∧ t.disc.timer = s.disc.timer ∧ t.disc.inWindow = s.disc.inWindow ∧
      t.disc.outliers = s.disc.outliers) ∧ t.rx.selection = s.rx.selection ∧ t.rx.seedPending = s.rx.seedPending
  | .lines => t.lines = s.lines
  | .watch => t.watch = s.watch
  | .entries => t.cal.slots = s.cal.slots
  | .tally => t.cal.slots = s.cal.slots ∧ t.cal.count = s.cal.count
  | .quota => t.cal.quota = s.cal.quota
  | .leases => t.leases = s.leases
  | .authority => t.authority = s.authority
  | .attached => t.sess = s.sess
  | .sessions => t.sess = s.sess
  | .caps => t.caps = s.caps
  | .pending => t.pending = s.pending

theorem Entry.Descends.refl (x : Entry) : x.Descends x := .inl rfl

theorem Entry.Descends.trans {x y z : Entry} (h : x.Descends y) (g : y.Descends z) : x.Descends z := by
  rcases h with rfl | ⟨n, c, k, hx, hr, hc, rfl⟩
  · exact g
  · rcases g with rfl | ⟨n', c', j, hy, hr', hc', rfl⟩
    · exact .inr ⟨n, c, k, hx, hr, hc, rfl⟩
    · cases hy
      have hm : (c.map (· - k)).map (· - j) = c.map (· - (k + j)) := by
        cases c <;> simp [Nat.sub_sub]
      have hf : x.fireTime + k * n + j * n = x.fireTime + (k + j) * n := by rw [Nat.add_mul]; omega
      rw [hm] at hc'
      refine .inr ⟨n, c, k + j, hx, hf ▸ hr', hc', ?_⟩
      simp only [hm, hf]

theorem Entry.Descends.owner {x y : Entry} (h : x.Descends y) : y.owner = x.owner := by
  rcases h with rfl | ⟨n, c, k, -, -, -, rfl⟩ <;> rfl

theorem Entry.Descends.line {x y : Entry} (h : x.Descends y) : y.line = x.line := by
  rcases h with rfl | ⟨n, c, k, -, -, -, rfl⟩ <;> rfl

theorem Entry.Descends.action {x y : Entry} (h : x.Descends y) : y.action = x.action := by
  rcases h with rfl | ⟨n, c, k, -, -, -, rfl⟩ <;> rfl

/-- What is left of an entry after executions descends from it. -/
theorem Entry.advance_descends {n : Nat} {x y : Entry} (h : x.advance n = some y) : x.Descends y := by
  unfold Entry.advance at h
  split at h
  · cases h
  · next p c hx =>
    split at h
    · cases h
    · next hn =>
      cases h
      rw [not_or, not_le] at hn
      exact .inr ⟨p, c, n, hx, hn.2, hn.1, rfl⟩

theorem ownedCount_congr {s t : State} (h : t.cal.slots = s.cal.slots) (p : Port) : ownedCount t p = ownedCount s p := by
  unfold ownedCount State.slotsWhere
  rw [h]

theorem Aspect.Same.kept {a : Aspect} {s t : State} (h : a.Same s t) : a.Kept s t := by
  cases a
  case lines => exact fun l => by rw [show t.lines = s.lines from h]
  case watch => exact fun l => by rw [show t.watch = s.watch from h]
  case entries => exact fun i y hy => ⟨y, by rwa [show t.cal.slots = s.cal.slots from h] at hy, .refl y⟩
  case tally =>
    obtain ⟨hs, hc⟩ := h
    exact fun ok => ⟨fun p => by rw [hc, ownedCount_congr hs]; exact ok p, fun p => by rw [hc]⟩
  case leases => exact congrArg _ (show t.leases = s.leases from h)
  case attached => exact fun p => by rw [show t.sess = s.sess from h]
  case sessions => exact fun p => ⟨[], by rw [show t.sess = s.sess from h]; rfl⟩
  all_goals exact h

theorem Aspect.Kept.refl (a : Aspect) (s : State) : a.Kept s s := by
  refine Same.kept ?_
  cases a <;> simp [Aspect.Same]

theorem Aspect.Kept.trans {a : Aspect} {s t u : State} (h : a.Kept s t) (g : a.Kept t u) : a.Kept s u := by
  cases a
  case clock => exact ⟨g.1.trans h.1, g.2.1.trans h.2.1, g.2.2.trans h.2.2⟩
  case lock =>
    obtain ⟨⟨h1, h2, h3, h4⟩, h5, h6⟩ := h
    obtain ⟨⟨g1, g2, g3, g4⟩, g5, g6⟩ := g
    exact ⟨⟨g1.trans h1, g2.trans h2, g3.trans h3, g4.trans h4⟩, g5.trans h5, g6.trans h6⟩
  case lines => exact fun l => (g l).trans (h l)
  case watch => exact fun l => (g l).trans (h l)
  case entries =>
    intro i z hz
    obtain ⟨y, hy, hyz⟩ := g i z hz
    obtain ⟨x, hx, hxy⟩ := h i y hy
    exact ⟨x, hx, hxy.trans hyz⟩
  case tally =>
    intro ok
    obtain ⟨ok', le⟩ := h ok
    obtain ⟨ok'', le'⟩ := g ok'
    exact ⟨ok'', fun p => (le' p).trans (le p)⟩
  case attached => exact fun p => (g p).trans (h p)
  case sessions =>
    intro p
    obtain ⟨ns, hn⟩ := h p
    obtain ⟨ms, hm⟩ := g p
    exact ⟨ns ++ ms, by rw [hm, hn, List.foldl_append]⟩
  all_goals exact Eq.trans g h

/-- From `s` to `t` nothing moves but the aspects listed. -/
def Moves (m : List Aspect) (s t : State) : Prop := ∀ a, a ∉ m → a.Kept s t

theorem Moves.refl {m : List Aspect} (s : State) : Moves m s s := fun a _ => .refl a s

theorem Moves.trans {m : List Aspect} {s t u : State} (h : Moves m s t) (g : Moves m t u) : Moves m s u :=
  fun a ha => (h a ha).trans (g a ha)

theorem Moves.mono {m n : List Aspect} {s t : State} (h : Moves m s t) (hmn : m ⊆ n) : Moves n s t :=
  fun a ha => h a fun hm => ha (hmn hm)

/-- A next state whose other fields are equal moves nothing else. -/
theorem Moves.of_same {m : List Aspect} {s t : State} (h : ∀ a, a ∉ m → a.Same s t) : Moves m s t :=
  fun a ha => (h a ha).kept

theorem Moves.foldl {α : Type} {m : List Aspect} {f : State → α → State} (h : ∀ s x, Moves m s (f s x)) (l : List α)
    (s : State) : Moves m s (l.foldl f s) := by
  induction l generalizing s with
  | nil => exact .refl s
  | cons x l ih => exact (h s x).trans (ih _)

end Sys2Proof.Machine

/-! ## What the shared operations move -/

namespace Sys2Proof.Machine

/-! ### Notices -/

theorem Aspect.attached_of_sessions {s t : State} (h : Aspect.sessions.Kept s t) : Aspect.attached.Kept s t := by
  intro p
  obtain ⟨ns, hn⟩ := h p
  rw [hn]
  clear hn
  generalize s.sess[p] = x
  induction ns generalizing x with
  | nil => rfl
  | cons n ns ih => rw [List.foldl_cons, ih, Session.push_attached]

/-- A change of the sessions by notices alone moves nothing. -/
theorem moves_of_notices {s t : State} (h : Aspect.sessions.Kept s t) (frame : { t with sess := s.sess } = s) :
    Moves [] s t := by
  have same : ∀ a : Aspect, a ≠ .sessions → a ≠ .attached → a.Same s t := by
    intro a h1 h2
    rw [← frame]
    cases a <;> simp_all [Aspect.Same]
  intro a _
  cases a
  case sessions => exact h
  case attached => exact Aspect.attached_of_sessions h
  all_goals exact (same _ (by simp) (by simp)).kept

theorem notify_moves (p : Port) (b : NoticeBody) (s : State) : Moves [] s (notify p b s) := by
  refine moves_of_notices (fun q => ?_) rfl
  rw [getElem_notify_sess]
  split
  · next h => subst h; exact ⟨[⟨b, s.time.uptime⟩], rfl⟩
  · exact ⟨[], rfl⟩

theorem broadcast_moves (b : NoticeBody) (s : State) : Moves [] s (broadcast b s) := by
  refine moves_of_notices (fun q => ⟨[⟨b, s.time.uptime⟩], ?_⟩) rfl
  exact getElem_broadcast_sess b s q q.isLt

/-! ### Leases and lines -/

theorem setPort_moves (p : Port) (x : HostPort) (s : State) : Moves [] s (s.setPort p x) :=
  .of_same fun a _ => by cases a <;> simp [Aspect.Same]

theorem withReply_moves (p : Port) (r : List Byte) (s : State) : Moves [] s (withReply p r s) :=
  .of_same fun a _ => by cases a <;> simp [Aspect.Same]

theorem setLine_moves (l : LineNo) (x : LineRecord) (s : State) : Moves [.lines] s (s.setLine l x) :=
  .of_same fun a h => by cases a <;> simp_all [Aspect.Same]

theorem setWatch_moves (l : LineNo) (x : Option Watch) (s : State) : Moves [.watch] s (s.setWatch l x) :=
  .of_same fun a h => by cases a <;> simp_all [Aspect.Same]

theorem setCap_moves (p : Port) (x : CapturePort) (s : State) : Moves [.caps] s (s.setCap p x) :=
  .of_same fun a h => by cases a <;> simp_all [Aspect.Same]

theorem setSess_moves (p : Port) (x : Session) (s : State) : Moves [.sessions, .attached] s (s.setSess p x) :=
  .of_same fun a h => by cases a <;> simp_all [Aspect.Same]

theorem addLease_moves (r : Resource) (k : LeaseKind) (p : Port) (ms : Nat) (s : State) :
    Moves [.leases] s (addLease r k p ms s) :=
  .of_same fun a h => by cases a <;> simp_all [Aspect.Same]

theorem removeLease_moves (r : Resource) (p : Port) (s : State) : Moves [.leases] s (removeLease r p s) :=
  .of_same fun a h => by cases a <;> simp_all [Aspect.Same]

/-- A session with its attachment as it was moves the notice queues alone. -/
theorem setSess_moves_of_attached {p : Port} {x : Session} {s : State} (h : x.attached = s.sess[p].attached) :
    Moves [.sessions] s (s.setSess p x) := by
  intro a ha
  cases a
  case attached =>
    intro q
    rw [State.setSess_sess, getElem_set_fin]
    split
    · next hq => rw [hq]; exact h
    · rfl
  case sessions => simp at ha
  all_goals exact setSess_moves p x s _ (by simp)

/-- A line record of the same holders moves nothing. -/
theorem setLine_moves_of_holding {l : LineNo} {x : LineRecord} {s : State} (h : x.holding = (s.lines[l]).holding) :
    Moves [] s (s.setLine l x) := by
  intro a _
  cases a
  case lines =>
    intro m
    rw [State.setLine_lines, getElem_set_fin]
    split
    · next hm => rw [hm]; exact h
    · rfl
  all_goals exact setLine_moves l x s _ (by simp)

/-- A watch in the place of a watch moves nothing. -/
theorem setWatch_moves_of_isSome {l : LineNo} {x : Option Watch} {s : State} (h : x.isSome = s.watch[l].isSome) :
    Moves [] s (s.setWatch l x) := by
  intro a _
  cases a
  case watch =>
    intro m
    rw [State.setWatch_watch, getElem_set_fin]
    split
    · next hm => rw [hm]; exact h
    · rfl
  all_goals exact setWatch_moves l x s _ (by simp)

theorem act_moves (l : LineNo) (x : Action) (s : State) : Moves [] s (act l x s) := by
  unfold act
  split
  · next o ho =>
    refine setLine_moves_of_holding ?_
    rw [ho]
    simp only [LineRecord.holding, OutputLine.act_holder]
  · exact .refl s

/-! ### Entries and their tally -/

/-- The slot holds an entry of `p`. -/
def Slot.ownedBy (p : Port) (x : Slot) : Bool :=
  match x.entry with
  | some e => decide (e.owner = p)
  | none => false

theorem ownedCount_eq (s : State) (p : Port) :
    ownedCount s p = (allSlots.filter fun i => s.cal.slots[i].ownedBy p).length := rfl

/-- The number owned after a slot that held an entry of another owner, or none, is given an entry. -/
theorem length_filter_set (v : Vector Slot 64) (i : SlotNo) (x : Slot) (p : Port) :
    (allSlots.filter fun j => (v.set i x)[j].ownedBy p).length + (v[i].ownedBy p).toNat =
      (allSlots.filter fun j => v[j].ownedBy p).length + (x.ownedBy p).toNat := by
  have one : ∀ b : Bool, (allSlots.filter fun j => decide (j = i) && b).length = b.toNat := by
    intro b
    cases b
    · simp
    · simp only [Bool.and_true, Bool.toNat_true]
      rw [← List.countP_eq_length_filter]
      exact List.count_eq_one_of_mem nodup_allSlots (mem_allSlots i)
  have rest : ∀ w : Vector Slot 64, (∀ j, j ≠ i → w[j] = v[j]) →
      (allSlots.filter fun j => w[j].ownedBy p).length =
        (w[i].ownedBy p).toNat + (allSlots.filter fun j => !decide (j = i) && v[j].ownedBy p).length := by
    intro w hw
    rw [← one]
    refine length_filter_split allSlots _ _ _ (fun j => ?_) (fun j hj => ?_)
    · by_cases hj : j = i
      · subst hj; simp
      · rw [hw j hj]; simp [hj]
    · simp_all
  rw [rest v fun _ _ => rfl, rest (v.set i x) fun j hj => by rw [getElem_set_fin, if_neg hj], getElem_set_fin, if_pos rfl]
  omega

/-- An entry replaced by one of the same owner leaves the numbers owned. -/
theorem placeEntry_ownedCount {i : SlotNo} {s : State} {e n : Entry} (he : s.cal.slots[i].entry = some e)
    (ho : n.owner = e.owner) (p : Port) : ownedCount (placeEntry i n s) p = ownedCount s p := by
  have h := length_filter_set s.cal.slots i ⟨s.cal.slots[i].generation, some n⟩ p
  have hn : (⟨s.cal.slots[i].generation, some n⟩ : Slot).ownedBy p = s.cal.slots[i].ownedBy p := by
    simp only [Slot.ownedBy, he, ho]
  rw [hn] at h
  exact Nat.add_right_cancel h

theorem removeEntry_ownedCount {i : SlotNo} {s : State} {e : Entry} (he : s.cal.slots[i].entry = some e) (p : Port) :
    ownedCount (removeEntry i s) p + (if e.owner = p then 1 else 0) = ownedCount s p := by
  have h := length_filter_set s.cal.slots i (freedSlot s.cal.slots[i]) p
  have h1 : s.cal.slots[i].ownedBy p = decide (e.owner = p) := by simp only [Slot.ownedBy, he]
  have h0 : (freedSlot s.cal.slots[i]).ownedBy p = false := rfl
  rw [h1, h0] at h
  rw [removeEntry_some he, ownedCount_eq, ownedCount_eq]
  by_cases ho : e.owner = p <;> simp only [ho, decide_true, decide_false, if_true, if_false] at h ⊢ <;> exact h

theorem removeEntry_entry {i j : SlotNo} {s : State} {y : Entry} (h : (removeEntry i s).cal.slots[j].entry = some y) :
    s.cal.slots[j].entry = some y := by
  rw [removeEntry_slots] at h
  split at h
  · cases h
  · exact h

theorem removeEntry_moves (i : SlotNo) (s : State) : Moves [] s (removeEntry i s) := by
  intro a _
  cases a
  case entries => exact fun j y hy => ⟨y, removeEntry_entry hy, .refl y⟩
  case tally =>
    intro ok
    cases he : s.cal.slots[i].entry with
    | none => rw [removeEntry_none he]; exact ⟨ok, fun p => Nat.le_refl _⟩
    | some e =>
      have count : ∀ p : Port, (removeEntry i s).cal.count[p] = s.cal.count[p] - (if e.owner = p then 1 else 0) := by
        intro p
        rw [removeEntry_some he]
        show (s.cal.count.set e.owner _)[p] = _
        rw [getElem_set_fin]
        by_cases hp : p = e.owner
        · subst hp; simp only [if_true]
        · rw [if_neg hp, if_neg fun h => hp h.symm, Nat.sub_zero]
      refine ⟨fun p => ?_, fun p => by rw [count]; omega⟩
      have owned := removeEntry_ownedCount he p
      have := ok p
      rw [count]
      omega
  all_goals exact Aspect.Same.kept (by simp [Aspect.Same])

@[simp] theorem settleEntry_quota (i : SlotNo) (n : Option Entry) (s : State) :
    (settleEntry i n s).cal.quota = s.cal.quota := by
  cases n <;> simp [settleEntry]

/-- A settled slot holds an entry that descends from the one before, or none. -/
theorem settleEntry_moves {i : SlotNo} {next : Option Entry} {s : State} {e : Entry} (he : s.cal.slots[i].entry = some e)
    (hn : ∀ n, next = some n → e.Descends n) : Moves [] s (settleEntry i next s) := by
  cases next with
  | none => exact removeEntry_moves i s
  | some n =>
    have descends := hn n rfl
    intro a _
    cases a
    case entries =>
      intro j y hy
      change (s.cal.slots.set i _)[j].entry = some y at hy
      rw [getElem_set_fin] at hy
      split at hy
      · next hj => cases hy; exact ⟨e, hj ▸ he, descends⟩
      · exact ⟨y, hy, .refl y⟩
    case tally =>
      exact fun ok => ⟨fun p => (ok p).trans (placeEntry_ownedCount he descends.owner p).symm, fun p => Nat.le_refl _⟩
    all_goals exact Aspect.Same.kept (by simp [Aspect.Same])

theorem cancelWhere_moves (f : Entry → Bool) (s : State) : Moves [] s (cancelWhere f s).1 :=
  Moves.foldl (fun s i => removeEntry_moves i s) _ s

/-! ### Passes over the calendar -/

/-- What is left of an entry after a pass descends from it. -/
def Handling.Proper (h : Handling) : Prop := ∀ e n, h.next e = some n → e.Descends n

theorem fireHandling_proper (now : Nat) (epoch : BitVec 16) : (fireHandling now epoch).Proper :=
  fun _ _ h => Entry.advance_descends h

theorem voidHandling_proper (epoch : BitVec 16) : (voidHandling epoch).Proper := fun _ _ h => by cases h

theorem lateHandlingOf_proper (epoch current : BitVec 16) (hub now : Nat) : (lateHandlingOf epoch current hub now).Proper :=
  fun _ _ h => Entry.advance_descends h

theorem Handling.take_moves {h : Handling} (proper : h.Proper) (s : State) (i : SlotNo) : Moves [] s (h.take s i) := by
  cases he : s.cal.slots[i].entry with
  | none => rw [take_none h he]; exact .refl s
  | some e =>
    rw [take_some h he]
    have acted : Moves [] s (if h.acts e = true then act e.line e.action s else s) := by
      split
      · exact act_moves _ _ s
      · exact .refl s
    have cal : (if h.acts e = true then act e.line e.action s else s).cal = s.cal := by split <;> simp
    cases h.note i s.cal.slots[i].generation e with
    | none => exact acted.trans (settleEntry_moves (by rw [cal]; exact he) (proper e))
    | some n =>
      exact (acted.trans (notify_moves _ _ _)).trans
        (settleEntry_moves (by rw [notify_cal, cal]; exact he) (proper e))

theorem takeFiring_moves (s : State) (r : Reached) : Moves [] s (takeFiring s r) := by
  unfold takeFiring
  split
  · unfold fireAt
    simp only [foldl_fireEntry]
    refine Moves.trans (t := { s with freeCount := s.freeCount + 1 }) (.of_same fun a _ => by cases a <;> simp [Aspect.Same])
      (Moves.foldl (fun u i => Handling.take_moves (fireHandling_proper _ _) u i) _ _)
  · exact .refl s

theorem voidRemovals_moves (epoch : BitVec 16) (s : State) : Moves [] s (voidRemovals epoch s) := by
  unfold voidRemovals
  simp only [foldl_voidEntry]
  exact Moves.trans (t := { s with freeCount := s.freeCount + 1 }) (.of_same fun a _ => by cases a <;> simp [Aspect.Same])
    (Moves.foldl (fun u i => Handling.take_moves (voidHandling_proper _) u i) _ _)

theorem lateHandling_moves (epoch : BitVec 16) (s : State) : Moves [] s (lateHandling epoch s) := by
  unfold lateHandling
  simp only [foldl_lateEntry]
  exact Moves.trans (t := { s with freeCount := s.freeCount + 1 }) (.of_same fun a _ => by cases a <;> simp [Aspect.Same])
    (Moves.foldl (fun u i => Handling.take_moves (lateHandlingOf_proper _ _ _ _) u i) _ _)

theorem handleStep_moves (h : StepHandoff) (s : State) : Moves [] s (handleStep h s) := by
  have first : Moves [] s (voidRemovals h.epoch { s with cal := { s.cal with reached := s.cal.reached.map (Reached.restamp h) } }) :=
    Moves.trans (.of_same fun a _ => by cases a <;> simp [Aspect.Same]) (voidRemovals_moves _ _)
  unfold handleStep
  dsimp only
  split
  · exact first.trans (lateHandling_moves _ _)
  · exact first

/-! ### Releases and teardown -/

theorem releaseOutput_moves (l : LineNo) (s : State) : Moves [.lines, .leases] s (releaseOutput l s).1 := by
  unfold releaseOutput
  split
  · next o _ =>
    have cancelled : Moves [.lines, .leases] s (cancelByLine l o.holder s).1 := (cancelWhere_moves _ s).mono (by simp)
    exact (cancelled.trans ((setLine_moves _ _ _).mono (by simp))).trans ((removeLease_moves _ _ _).mono (by simp))
  · exact .refl s

theorem depart_moves (l : LineNo) (p : Port) (s : State) : Moves [.lines, .watch, .leases] s (depart l p s) :=
  .of_same fun a h => by
    unfold depart
    split
    · dsimp only
      split <;> cases a <;> simp_all [Aspect.Same]
    · cases a <;> simp [Aspect.Same]

theorem teardownLine_moves (p : Port) (r : State × TeardownCounts) (l : LineNo) :
    Moves [.lines, .watch, .leases] r.1 (teardownLine p r l).1 := by
  rcases teardownLine_cases p r l with ⟨o, -, -, h⟩ | ⟨c, -, -, h⟩ | ⟨-, -, h⟩ <;> rw [h]
  · exact (releaseOutput_moves l r.1).mono (by simp)
  · exact depart_moves l p r.1
  · exact .refl r.1

theorem teardownLines_moves (p : Port) (ls : List LineNo) (r : State × TeardownCounts) :
    Moves [.lines, .watch, .leases] r.1 (ls.foldl (teardownLine p) r).1 := by
  induction ls generalizing r with
  | nil => exact .refl r.1
  | cons l ls ih => exact (teardownLine_moves p r l).trans (ih _)

theorem teardownLeases_moves (p : Port) (s : State) :
    Moves [.leases, .authority, .sessions, .attached] s (teardownLeases p s) :=
  .of_same fun a h => by
    unfold teardownLeases
    dsimp only
    split <;> cases a <;> simp_all [Aspect.Same]

theorem teardown_moves (p : Port) (s : State) :
    Moves [.lines, .watch, .leases, .authority, .attached, .sessions, .caps] s (teardown p s).1 := by
  refine Moves.trans (((teardownLines_moves p allLines (s, ⟨0, 0, 0, false⟩)).mono (by simp)).trans
    ((cancelWhere_moves (fun e => decide (e.owner = p)) _).mono (by simp))) ?_
  refine Moves.trans ((teardownLeases_moves p _).mono (by simp)) ?_
  exact ((setCap_moves p _ _).mono (by simp)).trans ((setSess_moves p _ _).mono (by simp))

/-! ### Steps and lock states -/

theorem stepTo_moves (c : StepCause) (u : Nat) (x : Int) (s : State) : Moves [.clock, .epoch] s (stepTo c u x s) :=
  .of_same fun a h => by cases a <;> simp_all [Aspect.Same, Receiver.noteStep_eq]

theorem stepBy_moves (c : StepCause) (x : Int) (s : State) : Moves [.clock, .epoch] s (stepBy c x s) := by
  rcases stepBy_cases c x s with ⟨-, h⟩ | ⟨-, h⟩ | ⟨-, -, h⟩ <;> rw [h] <;> exact stepTo_moves _ _ _ s

theorem changeLock_moves (new : LockState) (c : LockCause) (s : State) : Moves [.lock] s (changeLock new c s) := by
  unfold changeLock
  split
  · exact .refl s
  · exact Moves.trans (.of_same fun a h => by cases a <;> simp_all [Aspect.Same]) ((broadcast_moves _ _).mono (by simp))

theorem restartTimer_moves (s : State) : Moves [.lock] s (restartTimer s) :=
  .of_same fun a h => by cases a <;> simp_all [Aspect.Same]

theorem zeroCounts_moves (s : State) : Moves [.lock] s (zeroCounts s) :=
  .of_same fun a h => by cases a <;> simp_all [Aspect.Same]

theorem freeEntryNotice_moves (s : State) : Moves [.lock] s (freeEntryNotice s) := by
  unfold freeEntryNotice
  split
  · exact Moves.trans (.of_same fun a h => by cases a <;> simp_all [Aspect.Same]) ((broadcast_moves _ _).mono (by simp))
  · exact .of_same fun a h => by cases a <;> simp_all [Aspect.Same]

end Sys2Proof.Machine

/-! ## What each command moves -/

namespace Sys2Proof.Machine

/-- The aspects that an admitted request of a kind can move. -/
def RequestKind.touched : RequestKind → List Aspect
  | .attach => [.lines, .watch, .leases, .authority, .attached, .sessions, .caps]
  | .detach => [.lines, .watch, .leases, .authority, .attached, .sessions, .caps]
  | .setTime => [.clock, .epoch]
  | .setReference => [.lock]
  | .flushReference => [.lock]
  | .setDiscipline => [.params]
  | .claimAuthority => [.leases, .authority]
  | .releaseAuthority => [.leases, .authority]
  | .claimOutput => [.lines, .leases]
  | .subscribeCapture => [.lines, .watch, .leases]
  | .releaseLine => [.lines, .watch, .leases]
  | .schedule => [.entries, .tally]
  | .setQuota => [.quota]
  | .readTime => []
  | .readReference => []
  | .renew => []
  | .readLines => []
  | .cancel => []
  | .readEntry => []
  | .listEntries => []
  | .readQuotas => []

/-- The aspects that a command can move. -/
def touchedBy (c : Instr) : List Aspect :=
  match requestCommand c with
  | some (k, _) => k.touched
  | none =>
    match c with
    | .batchFix _ .notices _ => [.sessions]
    | .batchFix _ .captures _ => [.caps]
    | .collectNoticesEnd _ _ => [.sessions]
    | .collectCapturesEnd _ _ => [.caps]
    | .hubReset _ => [.tickCount, .uptime, .epoch, .clock, .params, .lock, .lines, .watch, .entries, .tally, .quota, .leases,
        .authority, .attached, .sessions, .caps]
    | .resetRelease => [.tickCount, .uptime, .epoch, .clock, .params, .lock, .lines, .watch, .entries, .tally, .quota, .leases,
        .authority, .attached, .sessions, .caps]
    | .tick _ => [.tickCount, .clock, .caps]
    | .secondsWrap => [.clock, .epoch]
    | .uptimeIncrement => [.uptime, .lock]
    | .outputLeaseExpiry _ => [.lines, .leases]
    | .subscriptionLeaseExpiry _ _ => [.lines, .watch, .leases]
    | .authorityLeaseExpiry => [.leases, .authority]
    | .beaconTimeoutExpiry => [.lock]
    | .holdoverLimitReached => [.lock]
    | .beaconEnd => [.clock, .epoch, .lock]
    | .edgeStamped _ => [.caps]
    | _ => []

/-! ### Requests -/

theorem attachRun_moves (p : Port) (body : List Byte) (s : State) :
    Moves RequestKind.attach.touched s (attachRun p body s).1 := by
  unfold attachRun
  dsimp only
  split
  · exact (teardown_moves p s).trans ((setSess_moves p _ _).mono (by simp))
  · exact (setSess_moves p _ _).mono (by simp [RequestKind.touched])

theorem detachRun_moves (p : Port) (body : List Byte) (s : State) :
    Moves RequestKind.detach.touched s (detachRun p body s).1 :=
  (teardown_moves p s).trans ((setSess_moves p _ _).mono (by simp))

theorem setTimeRun_moves (body : List Byte) (s : State) : Moves [.clock, .epoch] s (setTimeRun body s).1 := by
  unfold setTimeRun
  split
  · exact .refl s
  · exact stepTo_moves _ _ _ s

theorem setReferenceRun_moves (body : List Byte) (s : State) : Moves [.lock] s (setReferenceRun body s).1 := by
  have restart : ∀ u : State, Moves [.lock] u (restartIfRunning u) := by
    intro u
    unfold restartIfRunning
    split
    · exact restartTimer_moves u
    · exact .refl u
  have part : ∀ (b : Bool) (x : Selection) (u : State), Moves [.lock] u (disciplinePart b x u) := by
    intro b x u
    unfold disciplinePart
    split
    · exact ((changeLock_moves _ _ u).trans (zeroCounts_moves _)).trans (restart _)
    · exact restart u
  have change : ∀ (x : Selection) (u : State), Moves [.lock] u (changeSelection x u) := by
    intro x u
    exact Moves.trans (.of_same fun a h => by cases a <;> simp_all [Aspect.Same]) ((broadcast_moves _ _).mono (by simp))
  have delay : Moves [.lock] s { s with rx := { s.rx with linkDelay := field body 3 4 } } :=
    .of_same fun a _ => by cases a <;> simp [Aspect.Same]
  refine delay.trans (Moves.trans ?_ (part _ _ _))
  split
  · exact change _ _
  · exact .refl _

theorem flushReferenceRun_moves (body : List Byte) (s : State) : Moves [.lock] s (flushReferenceRun body s).1 := by
  have seed : Moves [.lock] s { s with rx := { s.rx with seedPending := true } } :=
    .of_same fun a h => by cases a <;> simp_all [Aspect.Same]
  refine (seed.trans (zeroCounts_moves _)).trans ?_
  unfold flushReferenceRun
  dsimp only
  split
  · exact changeLock_moves _ _ _
  · exact .refl _

theorem claimAuthorityRun_moves (p : Port) (body : List Byte) (s : State) :
    Moves [.leases, .authority] s (claimAuthorityRun p body s).1 := by
  unfold claimAuthorityRun
  split
  · refine Moves.trans (t := addLease .authority .authority p (field body 1 2) { s with authority := some p }) ?_
      ((broadcast_moves _ _).mono (by simp))
    exact .of_same fun a h => by cases a <;> simp_all [Aspect.Same]
  · exact .refl s

theorem freeAuthority_moves (p : Port) (s : State) : Moves [.leases, .authority] s (freeAuthority p s) :=
  .of_same fun a h => by cases a <;> simp_all [Aspect.Same, freeAuthority]

theorem releaseAuthorityRun_moves (p : Port) (body : List Byte) (s : State) :
    Moves [.leases, .authority] s (releaseAuthorityRun p body s).1 := by
  unfold releaseAuthorityRun
  split
  · exact (freeAuthority_moves p s).trans ((broadcast_moves _ _).mono (by simp))
  · exact .refl s

/-- A change of the leases that keeps their claims moves nothing. -/
theorem moves_of_claims {s t : State} (h : t.leases.map Lease.claim = s.leases.map Lease.claim)
    (frame : ∀ a : Aspect, a ≠ .leases → a.Same s t) : Moves [] s t := by
  intro a _
  by_cases ha : a = .leases
  · subst ha; exact h
  · exact (frame a ha).kept

theorem renewItem_moves (p : Port) (ms : Nat) (s : State) (b : Byte) : Moves [] s (renewItem p ms s b) := by
  unfold renewItem
  split
  · refine moves_of_claims ?_ fun a h => by cases a <;> simp_all [Aspect.Same]
    rw [renewLease_leases, List.map_map]
    refine List.map_congr_left fun x _ => ?_
    simp only [Function.comp]
    split <;> rfl
  · exact .refl s

theorem claimOutputRun_moves (p : Port) (body : List Byte) (s : State) :
    Moves [.lines, .leases] s (claimOutputRun p body s).1 := by
  unfold claimOutputRun
  dsimp only
  split
  · exact ((setLine_moves _ _ s).mono (by simp)).trans ((addLease_moves _ _ _ _ _).mono (by simp))
  · exact .refl s
  · exact .refl s

theorem sampleAtGrant_moves (l : LineNo) (s : State) : Moves [] s (sampleAtGrant l s) := by
  rw [(sampleAtGrant_frame l s).1]
  exact .of_same fun a _ => by cases a <;> simp [Aspect.Same]

theorem subscribeCaptureRun_moves (p : Port) (body : List Byte) (s : State) :
    Moves [.lines, .watch, .leases] s (subscribeCaptureRun p body s).1 := by
  unfold subscribeCaptureRun
  dsimp only
  split
  · exact ((((sampleAtGrant_moves _ s).mono (by simp)).trans ((setLine_moves _ _ _).mono (by simp))).trans
      ((setWatch_moves _ _ _).mono (by simp))).trans ((addLease_moves _ _ _ _ _).mono (by simp))
  · split
    · exact .refl s
    · exact ((setLine_moves _ _ s).mono (by simp)).trans ((addLease_moves _ _ _ _ _).mono (by simp))
  · exact .refl s

theorem releaseLineRun_moves (p : Port) (body : List Byte) (s : State) :
    Moves [.lines, .watch, .leases] s (releaseLineRun p body s).1 := by
  unfold releaseLineRun
  dsimp only
  split
  · exact (releaseOutput_moves _ s).mono (by simp)
  · split
    · exact depart_moves _ p s
    · exact .refl s

theorem scheduleRun_moves (p : Port) (body : List Byte) (s : State) :
    Moves [.entries, .tally] s (scheduleRun p body s).1 := by
  have insert : ∀ i e, Moves [.entries, .tally] s (insertEntry i e s) := fun i e =>
    .of_same fun a h => by cases a <;> simp_all [Aspect.Same, insertEntry]
  unfold scheduleRun
  dsimp only
  split
  · exact .refl s
  · split
    · exact .refl s
    · split
      · exact .refl s
      · exact insert _ _

theorem cancelRun_moves (p : Port) (body : List Byte) (s : State) : Moves [] s (cancelRun p body s).1 := by
  unfold cancelRun
  dsimp only
  split
  · exact removeEntry_moves _ s
  · exact .refl s

theorem setQuotaRun_moves (body : List Byte) (s : State) : Moves [.quota] s (setQuotaRun body s).1 := by
  unfold setQuotaRun
  dsimp only
  split
  · exact .refl s
  · split
    · exact .refl s
    · exact .of_same fun a h => by cases a <;> simp_all [Aspect.Same]

theorem requestRun_moves (k : RequestKind) (p : Port) (body : List Byte) (s : State) :
    Moves k.touched s (requestRun p k body s).1 := by
  cases k with
  | attach => exact attachRun_moves p body s
  | detach => exact detachRun_moves p body s
  | setTime => exact setTimeRun_moves body s
  | setReference => exact setReferenceRun_moves body s
  | flushReference => exact flushReferenceRun_moves body s
  | setDiscipline => exact .of_same fun a h => by cases a <;> simp_all [Aspect.Same, requestRun, setDisciplineRun, RequestKind.touched]
  | claimAuthority => exact claimAuthorityRun_moves p body s
  | releaseAuthority => exact releaseAuthorityRun_moves p body s
  | renew => exact Moves.foldl (fun u b => renewItem_moves p _ u b) _ s
  | claimOutput => exact claimOutputRun_moves p body s
  | subscribeCapture => exact subscribeCaptureRun_moves p body s
  | releaseLine => exact releaseLineRun_moves p body s
  | schedule => exact scheduleRun_moves p body s
  | cancel => exact cancelRun_moves p body s
  | setQuota => exact setQuotaRun_moves body s
  | readTime => exact .refl s
  | readReference => exact .refl s
  | readLines => exact .refl s
  | readEntry =>
    show Moves [] s (readEntryRun p body s).1
    unfold readEntryRun
    dsimp only
    split <;> exact .refl s
  | listEntries => exact .refl s
  | readQuotas => exact .refl s

end Sys2Proof.Machine

/-! ## What an event moves -/

namespace Sys2Proof.Machine

/-! ### Host port frames -/

theorem raiseCs_moves (p : Port) (s : State) : Moves [] s (raiseCs p s) :=
  .of_same fun a _ => by cases a <;> simp [Aspect.Same, raiseCs]

theorem endFrame_moves (p : Port) (o : FrameOutcome) (s : State) : Moves [] s (endFrame p o s) :=
  (raiseCs_moves p s).trans (setPort_moves _ _ _)

theorem endWithoutOutcome_moves (p : Port) (s : State) : Moves [] s (endWithoutOutcome p s) :=
  (raiseCs_moves p s).trans (setPort_moves _ _ _)

theorem execFrameBegin_moves {p : Port} {s t : State} (h : execFrameBegin p s = .next t) : Moves [] s t := by
  have low : Moves [] s { s with pins := { s.pins with csLow := s.pins.csLow.set p true } } :=
    .of_same fun a _ => by cases a <;> simp [Aspect.Same]
  unfold execFrameBegin at h
  split at h
  · cases h; exact .refl s
  · split at h <;> cases h
    · exact low
    · exact low.trans (setPort_moves _ _ _)

theorem execStatusRead_moves {p : Port} {s t : State} (h : execStatusRead p s = .next t) : Moves [] s t := by
  unfold execStatusRead at h
  split at h
  · cases h; exact raiseCs_moves p s
  · split at h <;> cases h
    · exact .refl s
    · exact endWithoutOutcome_moves p s

theorem handOn_moves (p : Port) (body : List Byte) (s : State) : Moves [] s (handOn p body s) := by
  unfold handOn
  split <;> exact setPort_moves _ _ s

theorem execRequestFrameEnd_moves {p : Port} {bytes : List Byte} {n : Nat} {s t : State}
    (h : execRequestFrameEnd p bytes n s = .next t) : Moves [] s t := by
  unfold execRequestFrameEnd at h
  split at h
  · cases h; exact raiseCs_moves p s
  · split at h
    · dsimp only at h
      split at h <;> cases h
      · exact (endFrame_moves p _ s).trans (handOn_moves p _ _)
      · exact endFrame_moves p _ s
    · cases h; exact .refl s

theorem execReplyFix_moves {p : Port} {s t : State} (h : execReplyFix p s = .next t) : Moves [] s t := by
  unfold execReplyFix at h
  split at h
  · cases h; exact .refl s
  · split at h
    · dsimp only at h
      split at h <;> cases h <;> exact setPort_moves _ _ s
    · cases h; exact .refl s

theorem execCollectReplyEnd_moves {p : Port} {n : Nat} {s t : State} (h : execCollectReplyEnd p n s = .next t) :
    Moves [] s t := by
  unfold execCollectReplyEnd at h
  split at h
  · cases h; exact raiseCs_moves p s
  · split at h
    · split at h
      · cases h; exact .refl s
      · split at h
        · cases h; exact endFrame_moves p _ s
        · dsimp only at h
          split at h <;> cases h
          · exact (endFrame_moves p _ s).trans (setPort_moves _ _ _)
          · exact endFrame_moves p _ s
    · cases h; exact .refl s

theorem execUnknownKind_moves {p : Port} {k : Byte} {s t : State} (h : execUnknownKind p k s = .next t) :
    Moves [] s t := by
  unfold execUnknownKind at h
  split at h
  · cases h; exact raiseCs_moves p s
  · split at h <;> cases h
    · exact endFrame_moves p _ s
    · exact .refl s

theorem noticeBatchFix_moves (p : Port) (m : Byte) (f : Frame) (s : State) :
    Moves [.sessions] s (noticeBatchFix p m f s) :=
  Moves.trans
    (t := s.setSess p { s.sess[p] with batch := some ⟨min m.toNat s.sess[p].queue.length, s.sess[p].loss, false⟩ })
    (setSess_moves_of_attached rfl) ((setPort_moves _ _ _).mono (by simp))

theorem captureBatchFix_moves (p : Port) (m : Byte) (f : Frame) (s : State) :
    Moves [.caps] s (captureBatchFix p m f s) :=
  (setCap_moves _ _ _).trans ((setPort_moves _ _ _).mono (by simp))

theorem execBatchFix_moves {p : Port} {q : QueueName} {m : Byte} {s t : State} (h : execBatchFix p q m s = .next t) :
    Moves (touchedBy (.batchFix p q m)) s t := by
  unfold execBatchFix at h
  split at h
  · cases h; exact .refl s
  · split at h
    · split at h
      · split at h <;> cases h
        · exact noticeBatchFix_moves p m _ s
        · exact captureBatchFix_moves p m _ s
      · cases h; exact (setPort_moves _ _ s).mono (by simp)
    · cases h; exact .refl s

theorem Session.settleBatch_attached (complete : Bool) (x : Session) : (x.settleBatch complete).attached = x.attached := by
  unfold Session.settleBatch
  split
  · rfl
  · split <;> rfl

theorem execCollectNoticesEnd_moves {p : Port} {n : Nat} {s t : State} (h : execCollectNoticesEnd p n s = .next t) :
    Moves [.sessions] s t := by
  have ended : ∀ o, Moves [.sessions] s (endFrame p o s) := fun o => (endFrame_moves p o s).mono (by simp)
  unfold execCollectNoticesEnd at h
  split at h
  · cases h; exact (raiseCs_moves p s).mono (by simp)
  · split at h
    · split at h
      · cases h; exact .refl s
      · dsimp only at h
        split at h <;> cases h
        · exact (ended _).trans (setSess_moves_of_attached (Session.settleBatch_attached _ _))
        · exact ended _
    · cases h; exact .refl s

theorem execCollectCapturesEnd_moves {p : Port} {n : Nat} {s t : State} (h : execCollectCapturesEnd p n s = .next t) :
    Moves [.caps] s t := by
  have ended : ∀ o, Moves [.caps] s (endFrame p o s) := fun o => (endFrame_moves p o s).mono (by simp)
  unfold execCollectCapturesEnd at h
  split at h
  · cases h; exact (raiseCs_moves p s).mono (by simp)
  · split at h
    · split at h
      · cases h; exact .refl s
      · dsimp only at h
        split at h <;> cases h
        · exact (ended _).trans (setCap_moves _ _ _)
        · exact ended _
    · cases h; exact .refl s

/-! ### Reset -/

theorem resetBlocks_moves (held : Bool) (s : State) : Moves (touchedBy .resetRelease) s (resetBlocks held s) := by
  intro a ha
  cases a
  case pending => rfl
  all_goals simp [touchedBy, requestCommand] at ha

theorem execStartUpHoldEnd_moves {s t : State} (h : execStartUpHoldEnd s = .next t) : Moves [] s t := by
  unfold execStartUpHoldEnd at h
  split at h <;> cases h
  · exact .of_same fun a _ => by cases a <;> simp [Aspect.Same]
  · exact .refl s

theorem execHubReset_moves {x : ResetCause} {s t : State} (h : execHubReset x s = .next t) :
    Moves (touchedBy (.hubReset x)) s t := by
  unfold execHubReset at h
  split at h
  · cases h; exact resetBlocks_moves true s
  · split at h <;> cases h
    · exact resetBlocks_moves true s
    · exact .refl s

theorem execResetRelease_moves {s t : State} (h : execResetRelease s = .next t) : Moves (touchedBy .resetRelease) s t := by
  unfold execResetRelease at h
  split at h <;> cases h
  · exact resetBlocks_moves false s
  · exact .refl s

/-! ### The clock -/

theorem LineRecord.countDown_holding (x : LineRecord) : x.countDown.holding = x.holding := by cases x <;> rfl

theorem sampleLine_isSome (v : BitVec 16) (s : State) (l : LineNo) : (sampleLine v s l).isSome = s.watch[l].isSome := by
  unfold sampleLine
  split
  · next h _ => rw [h]; rfl
  · rfl

theorem advanceTime_moves (s : State) : Moves [.tickCount, .clock] s (advanceTime s) :=
  .of_same fun a h => by cases a <;> simp_all [Aspect.Same, advanceTime]

theorem samplePins_moves (x : PinSample) (s : State) : Moves [] s (samplePins x s) :=
  .of_same fun a _ => by cases a <;> simp [Aspect.Same, samplePins]

theorem Receiver.sample_frame (level : Bool) (tick hub : Nat) (r : Receiver) :
    (r.sample level tick hub).selection = r.selection ∧ (r.sample level tick hub).seedPending = r.seedPending := by
  unfold Receiver.sample
  split
  · unfold Receiver.timeCharacter
    dsimp only
    split
    · split
      · split <;> exact ⟨rfl, rfl⟩
      · exact ⟨rfl, rfl⟩
    · split
      · exact ⟨rfl, rfl⟩
      · split <;> exact ⟨rfl, rfl⟩
  · split <;> exact ⟨rfl, rfl⟩

theorem tickBlocks_moves (x : PinSample) (s : State) : Moves [.caps] s (tickBlocks x s) := by
  intro a ha
  cases a
  case lines =>
    intro l
    show (mapVec LineRecord.countDown s.lines)[l].holding = _
    rw [getElem_mapVec_fin, LineRecord.countDown_holding]
  case watch =>
    intro l
    show (rowOf (sampleLine x.lines s))[l.val].isSome = _
    rw [getElem_rowOf]
    exact sampleLine_isSome x.lines s l
  case lock => exact ⟨⟨rfl, rfl, rfl, rfl⟩, Receiver.sample_frame _ _ _ _⟩
  case caps => simp at ha
  all_goals exact Aspect.Same.kept (by simp [Aspect.Same, tickBlocks])

theorem execTick_moves {x : PinSample} {s t : State} (h : execTick x s = .next t) :
    Moves [.tickCount, .clock, .caps] s t := by
  unfold execTick at h
  split at h <;> cases h
  · exact .of_same fun a _ => by cases a <;> simp [Aspect.Same]
  · exact (((advanceTime_moves s).mono (by simp)).trans ((samplePins_moves x _).mono (by simp))).trans
      ((tickBlocks_moves x _).mono (by simp))

theorem takeFirings_moves (l : List Reached) (s : State) :
    Moves [] s (l.foldl takeFiring { s with cal := { s.cal with reached := [] } }) :=
  Moves.trans (.of_same fun a _ => by cases a <;> simp [Aspect.Same]) (Moves.foldl takeFiring_moves l _)

theorem execSecondsWrap_moves {s t : State} (h : execSecondsWrap s = .next t) : Moves [.clock, .epoch] s t := by
  unfold execSecondsWrap at h
  split at h <;> cases h
  · exact ((takeFirings_moves _ s).mono (by simp)).trans (stepBy_moves _ _ _)
  · exact .refl s

theorem execUptimeIncrement_moves {s t : State} (h : execUptimeIncrement s = .next t) : Moves [.uptime, .lock] s t := by
  unfold execUptimeIncrement at h
  split at h <;> cases h
  · intro a ha
    cases a
    case leases =>
      show (s.leases.map Lease.countDown).map Lease.claim = _
      rw [List.map_map]
      rfl
    case uptime => simp at ha
    case lock => simp at ha
    all_goals exact Aspect.Same.kept (by simp [Aspect.Same, Discipline.countMs])
  · exact .refl s

/-! ### Expiries -/

theorem execOutputLeaseExpiry_moves {l : LineNo} {s t : State} (h : execOutputLeaseExpiry l s = .next t) :
    Moves [.lines, .leases] s t := by
  unfold execOutputLeaseExpiry at h
  split at h <;> cases h
  · exact (((removeLease_moves _ _ s).mono (by simp)).trans (releaseOutput_moves l _)).trans
      ((notify_moves _ _ _).mono (by simp))
  · exact .refl s

theorem execSubscriptionLeaseExpiry_moves {l : LineNo} {p : Port} {s t : State}
    (h : execSubscriptionLeaseExpiry l p s = .next t) : Moves [.lines, .watch, .leases] s t := by
  unfold execSubscriptionLeaseExpiry at h
  split at h
  · split at h <;> cases h
    · exact (((removeLease_moves _ _ s).mono (by simp)).trans (depart_moves l p _)).trans
        ((notify_moves _ _ _).mono (by simp))
    · exact .refl s
  · cases h; exact .refl s

theorem execAuthorityLeaseExpiry_moves {s t : State} (h : execAuthorityLeaseExpiry s = .next t) :
    Moves [.leases, .authority] s t := by
  unfold execAuthorityLeaseExpiry at h
  split at h <;> cases h
  · exact ((freeAuthority_moves _ s).trans ((notify_moves _ _ _).mono (by simp))).trans
      ((broadcast_moves _ _).mono (by simp))
  · exact .refl s

theorem execBeaconTimeoutExpiry_moves {s t : State} (h : execBeaconTimeoutExpiry s = .next t) : Moves [.lock] s t := by
  unfold execBeaconTimeoutExpiry at h
  split at h
  · split at h <;> cases h
    · exact (changeLock_moves _ _ s).trans (freeEntryNotice_moves _)
    · exact changeLock_moves _ _ s
    · exact .refl s
  · cases h; exact .refl s

theorem execHoldoverLimitReached_moves {s t : State} (h : execHoldoverLimitReached s = .next t) : Moves [.lock] s t := by
  unfold execHoldoverLimitReached at h
  split at h <;> cases h
  · exact (changeLock_moves _ _ s).trans (freeEntryNotice_moves _)
  · exact .refl s

/-! ### Steps handed on, firings and line events -/

theorem execStepHandoffSession_moves {s t : State} (h : execStepHandoffSession s = .next t) : Moves [] s t := by
  unfold execStepHandoffSession at h
  split at h <;> cases h
  · exact .refl s
  · exact Moves.trans (.of_same fun a _ => by cases a <;> simp [Aspect.Same]) (broadcast_moves _ _)

theorem execMarkAdjust_moves {s t : State} (h : execMarkAdjust s = .next t) : Moves [] s t := by
  unfold execMarkAdjust at h
  split at h
  · cases h; exact .refl s
  · split at h <;> cases h <;> exact .of_same fun a _ => by cases a <;> simp [Aspect.Same]

theorem execStepHandling_moves {s t : State} (h : execStepHandling s = .next t) : Moves [] s t := by
  unfold execStepHandling at h
  split at h
  · cases h; exact .refl s
  · split at h <;> cases h
    · exact Moves.trans (.of_same fun a _ => by cases a <;> simp [Aspect.Same]) (handleStep_moves _ _)
    · exact .refl s

theorem execFiring_moves {s t : State} (h : execFiring s = .next t) : Moves [] s t := by
  unfold execFiring at h
  split at h <;> cases h
  · exact .refl s
  · exact Moves.trans (.of_same fun a _ => by cases a <;> simp [Aspect.Same]) (takeFiring_moves _ _)

theorem execPulseEnd_moves {l : LineNo} {s t : State} (h : execPulseEnd l s = .next t) : Moves [] s t := by
  unfold execPulseEnd at h
  split at h
  · next o ho =>
    split at h
    · split at h <;> cases h
      · exact setLine_moves_of_holding (by rw [ho]; rfl)
      · exact .refl s
    · cases h; exact .refl s
  · cases h; exact .refl s

theorem execReleaseDriveEnd_moves {l : LineNo} {s t : State} (h : execReleaseDriveEnd l s = .next t) : Moves [] s t := by
  unfold execReleaseDriveEnd at h
  split at h
  · next d hd =>
    split at h <;> cases h
    · exact setLine_moves_of_holding (by rw [hd]; rfl)
    · exact .refl s
  · cases h; exact .refl s

theorem execEdgeStamped_moves {l : LineNo} {s t : State} (h : execEdgeStamped l s = .next t) : Moves [.caps] s t := by
  unfold execEdgeStamped at h
  split at h
  · next w c hw _ =>
    split at h <;> cases h
    · have watched : Moves [.caps] s (s.setWatch l (some ⟨w.last, c.holdoff, none⟩)) :=
        (setWatch_moves_of_isSome (by rw [hw]; rfl)).mono (by simp)
      refine (watched.trans (.of_same fun a _ => ?_)).trans (Moves.foldl (fun u p => setCap_moves _ _ u) _ _)
      cases a <;> simp [Aspect.Same]
    · exact .refl s
  · cases h; exact .refl s

/-! ### The Receiver -/

theorem abandon_moves (rest : List RxEvent) (s : State) : Moves [] s (abandon rest s) :=
  .of_same fun a _ => by cases a <;> simp [Aspect.Same, abandon]

theorem execBeaconMark_moves {s t : State} (h : execBeaconMark s = .next t) : Moves [] s t := by
  unfold execBeaconMark at h
  split at h <;> cases h
  · exact .of_same fun a _ => by cases a <;> simp [Aspect.Same]
  · exact .refl s

theorem execCharacterCompleted_moves {s t : State} (h : execCharacterCompleted s = .next t) : Moves [] s t := by
  unfold execCharacterCompleted at h
  split at h
  · split at h <;> cases h
    · exact .of_same fun a _ => by cases a <;> simp [Aspect.Same]
    · exact .refl s
  · cases h; exact .refl s

theorem execBeaconAbandoned_moves {s t : State} (h : execBeaconAbandoned s = .next t) : Moves [] s t := by
  unfold execBeaconAbandoned at h
  split at h
  · cases h; exact abandon_moves _ s
  · split at h <;> cases h
    · exact abandon_moves _ s
    · exact .refl s
  · cases h; exact .refl s

theorem execGapExpiry_moves {s t : State} (h : execGapExpiry s = .next t) : Moves [] s t := by
  unfold execGapExpiry at h
  split at h
  · split at h <;> cases h
    · exact abandon_moves _ s
    · exact .refl s
  · cases h; exact .refl s

/-! ### The Discipline Unit's handling of a beacon -/

theorem trimUpdate_moves (e : Int) (m : Nat) (s : State) : Moves [.clock] s (trimUpdate e m s) := by
  have take : ∀ v, Moves [.clock] s (takeTrim v s) := fun v =>
    .of_same fun a h => by cases a <;> simp_all [Aspect.Same, takeTrim]
  unfold trimUpdate
  split
  · exact .refl s
  · split
    · exact take _
    · exact .refl s

theorem applyBeacon_moves (b : Bool) (e : Int) (m : Nat) (s : State) : Moves [.clock] s (applyBeacon b e m s) := by
  have first : Moves [.clock] s (if b then s else trimUpdate e m s) := by
    split
    · exact .refl s
    · exact trimUpdate_moves e m s
  refine first.trans (.of_same fun a h => ?_)
  cases a <;> simp_all [Aspect.Same, applyBeacon, setSlew, noteApplied]

theorem stepOnBeacon_moves (e : Int) (m : Nat) (s : State) : Moves [.clock, .epoch, .lock] s (stepOnBeacon e m s) := by
  refine ((stepBy_moves .discipline e s).mono (by simp)).trans (u := stepOnBeacon e m s) (.of_same fun a h => ?_)
  cases a <;> simp_all [Aspect.Same, stepOnBeacon, noteApplied]

theorem lockTest_moves (s : State) : Moves [.lock] s (lockTest s) := by
  have counted : Moves [.lock] s { s with disc := { s.disc with inWindow := s.disc.inWindow + 1 } } :=
    .of_same fun a h => by cases a <;> simp_all [Aspect.Same]
  unfold lockTest
  dsimp only
  split
  · exact counted.trans (changeLock_moves _ _ _)
  · exact counted

theorem handleInAcquire_moves (b : Bool) (e : Int) (m : Nat) (s : State) :
    Moves [.clock, .epoch, .lock] s (handleInAcquire b e m s) := by
  have restarted : Moves [.clock, .epoch, .lock] s (restartTimer s) := (restartTimer_moves s).mono (by simp)
  have applied := restarted.trans ((applyBeacon_moves b e m (restartTimer s)).mono (by simp))
  unfold handleInAcquire
  dsimp only
  split
  · exact restarted.trans (stepOnBeacon_moves e m _)
  · split
    · exact applied.trans ((lockTest_moves _).mono (by simp))
    · exact applied.trans (.of_same fun a h => by cases a <;> simp_all [Aspect.Same])

theorem handleOutlier_moves (s : State) : Moves [.lock] s (handleOutlier s) := by
  have counted : Moves [.lock] s (restartTimer { s with
      disc := { s.disc with outliers := s.disc.outliers + 1 }
      rx := { s.rx with stats := { s.rx.stats with outlier := saturate16 s.rx.stats.outlier } } }) :=
    .of_same fun a h => by cases a <;> simp_all [Aspect.Same]
  unfold handleOutlier
  dsimp only
  split
  · exact counted.trans (changeLock_moves _ _ _)
  · exact counted

theorem handleBeacon_moves (c : BeaconClass) (e : Int) (m : Nat) (s : State) :
    Moves [.clock, .epoch, .lock] s (handleBeacon c e m s) := by
  have change : ∀ new, Moves [.clock, .epoch, .lock] s (changeLock new .beacon s) := fun new =>
    (changeLock_moves _ _ s).mono (by simp)
  unfold handleBeacon
  split
  · exact (change _).trans (handleInAcquire_moves _ e m _)
  · exact handleInAcquire_moves _ e m s
  · split
    · exact (change _).trans (handleInAcquire_moves _ e m _)
    · split
      · have applied := ((restartTimer_moves s).mono (by simp)).trans
          ((applyBeacon_moves false e m (restartTimer s)).mono (n := [.clock, .epoch, .lock]) (by simp))
        exact applied.trans (.of_same fun a h => by cases a <;> simp_all [Aspect.Same])
      · exact (handleOutlier_moves s).mono (by simp)
  · split
    · exact ((change _).trans ((restartTimer_moves _).mono (by simp))).trans ((applyBeacon_moves _ e m _).mono (by simp))
    · exact (change _).trans (handleInAcquire_moves _ e m _)

theorem takeBeacon_moves (m : Mark) (e : Int) (b : Beacon) (s : State) :
    Moves [.clock, .epoch, .lock] s (takeBeacon m e b s) := by
  have rx : ∀ r, Moves [.clock, .epoch, .lock] s { s with rx := r } := fun r =>
    .of_same fun a h => by cases a <;> simp_all [Aspect.Same]
  unfold takeBeacon
  split
  · exact rx _
  · exact rx _
  · exact rx _
  · have adopted : Moves [.clock, .epoch, .lock] s (adopt b s) := (rx _).trans ((broadcast_moves _ _).mono (by simp))
    exact (adopted.trans (.of_same fun a h => by cases a <;> simp_all [Aspect.Same])).trans (handleBeacon_moves _ e _ _)
  · exact (rx _).trans (handleBeacon_moves _ e _ _)
  · exact (rx _).trans (handleBeacon_moves _ e _ _)

theorem execBeaconEnd_moves {s t : State} (h : execBeaconEnd s = .next t) : Moves [.clock, .epoch, .lock] s t := by
  have ended : ∀ rest, Moves [.clock, .epoch, .lock] s (endAssembly rest s) := fun rest =>
    .of_same fun a h => by cases a <;> simp_all [Aspect.Same, endAssembly]
  unfold execBeaconEnd at h
  split at h
  · split at h
    · cases h; exact .refl s
    · dsimp only at h
      split at h <;> cases h
      · exact (ended _).trans (takeBeacon_moves _ _ _ _)
      · exact (abandon_moves _ s).mono (by simp)
  · cases h; exact .refl s

/-! ### Every command -/

theorem exec_request_moves {c : Instr} {k : RequestKind} {p : Port} {s t : State} (hc : requestCommand c = some (k, p))
    (ht : exec c s = .next t) : Moves (touchedBy c) s t := by
  have hm : touchedBy c = k.touched := by unfold touchedBy; rw [hc]
  rw [hm]
  exact exec_request_keeps (P := Moves k.touched s) hc ht (.refl s)
    (fun r u hu => hu.trans ((withReply_moves p r u).mono (by simp))) fun body _ => requestRun_moves k p body s

/-- What each command leaves as it was. -/
theorem exec_moves {c : Instr} {s t : State} (h : exec c s = .next t) : Moves (touchedBy c) s t := by
  cases hc : requestCommand c with
  | some kp => exact exec_request_moves hc h
  | none =>
    cases c <;> try (cases hc; done)
    case frameBegin => exact execFrameBegin_moves h
    case statusRead => exact execStatusRead_moves h
    case requestFrameEnd => exact execRequestFrameEnd_moves h
    case replyFix => exact execReplyFix_moves h
    case collectReplyEnd => exact execCollectReplyEnd_moves h
    case batchFix => exact execBatchFix_moves h
    case collectNoticesEnd => exact execCollectNoticesEnd_moves h
    case collectCapturesEnd => exact execCollectCapturesEnd_moves h
    case unknownKind => exact execUnknownKind_moves h
    case startUpHoldEnd => exact execStartUpHoldEnd_moves h
    case hubReset => exact execHubReset_moves h
    case resetRelease => exact execResetRelease_moves h
    case tick => exact execTick_moves h
    case secondsWrap => exact execSecondsWrap_moves h
    case uptimeIncrement => exact execUptimeIncrement_moves h
    case outputLeaseExpiry => exact execOutputLeaseExpiry_moves h
    case subscriptionLeaseExpiry => exact execSubscriptionLeaseExpiry_moves h
    case authorityLeaseExpiry => exact execAuthorityLeaseExpiry_moves h
    case beaconTimeoutExpiry => exact execBeaconTimeoutExpiry_moves h
    case holdoverLimitReached => exact execHoldoverLimitReached_moves h
    case stepHandoffSession => exact execStepHandoffSession_moves h
    case markAdjust => exact execMarkAdjust_moves h
    case stepHandling => exact execStepHandling_moves h
    case firing => exact execFiring_moves h
    case pulseEnd => exact execPulseEnd_moves h
    case releaseDriveEnd => exact execReleaseDriveEnd_moves h
    case beaconMark => exact execBeaconMark_moves h
    case beaconAbandoned => exact execBeaconAbandoned_moves h
    case gapExpiry => exact execGapExpiry_moves h
    case beaconEnd => exact execBeaconEnd_moves h
    case edgeStamped => exact execEdgeStamped_moves h
    case characterCompleted => exact execCharacterCompleted_moves h

/-- Settles O2: no command moves the queue of waiting commands. -/
theorem commandsLeaveTheQueueAlone : Obligations.CommandsLeaveTheQueueAlone := by
  unfold Obligations.CommandsLeaveTheQueueAlone
  intro c s t h
  have untouched : Aspect.pending ∉ touchedBy c := by
    cases c <;> simp [touchedBy, requestCommand, RequestKind.touched]
    case batchFix p q m => cases q <;> simp
  exact exec_moves h _ untouched

end Sys2Proof.Machine

/-! ## One beacon in the Discipline Unit (sections 3.2 and 3.3, R39 to R49) -/

namespace Sys2Proof.Machine

/-! ### The three ways to take a beacon -/

/-- R47: a USABLE beacon outside the lock window in LOCKED is counted and not applied. -/
def BeaconIgnored (c : BeaconClass) (e : Int) (s : State) : Prop :=
  s.disc.lock = .locked ∧ c = .usable ∧ s.disc.params.lockWindow < e.natAbs

/-- R46, R48: a USABLE beacon inside the lock window in LOCKED or HOLDOVER is applied in LOCKED. -/
def BeaconDirect (c : BeaconClass) (e : Int) (s : State) : Prop :=
  (s.disc.lock = .locked ∨ s.disc.lock = .holdover) ∧ c = .usable ∧ e.natAbs ≤ s.disc.params.lockWindow

/-- The beacon is handled as a seed, without a trim update. -/
def beaconAsSeed (c : BeaconClass) (s : State) : Bool :=
  decide (s.disc.lock = .free ∨ s.disc.lock = .holdover ∨ c = .seed)

theorem handleBeacon_ignored {c : BeaconClass} {e : Int} {s : State} (m : Nat) (h : BeaconIgnored c e s) :
    handleBeacon c e m s = handleOutlier s := by
  obtain ⟨hl, rfl, he⟩ := h
  unfold handleBeacon
  rw [hl]
  dsimp only
  rw [if_neg (by simp), if_neg (by omega)]

theorem handleBeacon_direct_locked {c : BeaconClass} {e : Int} {s : State} (m : Nat) (h : BeaconDirect c e s)
    (hl : s.disc.lock = .locked) : handleBeacon c e m s =
      { applyBeacon false e m (restartTimer s) with
        disc := { (applyBeacon false e m (restartTimer s)).disc with outliers := 0 } } := by
  obtain ⟨-, rfl, he⟩ := h
  unfold handleBeacon
  rw [hl]
  dsimp only
  rw [if_neg (by simp), if_pos he]

theorem handleBeacon_direct_holdover {c : BeaconClass} {e : Int} {s : State} (m : Nat) (h : BeaconDirect c e s)
    (hl : s.disc.lock = .holdover) : handleBeacon c e m s =
      applyBeacon false e m (restartTimer (changeLock .locked .beacon s)) := by
  obtain ⟨-, rfl, he⟩ := h
  unfold handleBeacon
  rw [hl]
  dsimp only
  rw [if_pos ⟨rfl, he⟩]

/-- Every other beacon is handled in ACQUIRE, which is entered first where it is not the lock state. -/
theorem handleBeacon_in_acquire {c : BeaconClass} {e : Int} {s : State} (m : Nat) (hi : ¬ BeaconIgnored c e s)
    (hd : ¬ BeaconDirect c e s) :
    handleBeacon c e m s = handleInAcquire (beaconAsSeed c s) e m (changeLock .acquire .beacon s) := by
  unfold handleBeacon beaconAsSeed
  cases hl : s.disc.lock with
  | free => simp
  | acquire => rw [changeLock_same hl]; simp
  | locked =>
    cases c with
    | seed => simp
    | usable =>
      rcases Nat.lt_or_ge s.disc.params.lockWindow e.natAbs with he | he
      · exact absurd ⟨hl, rfl, he⟩ hi
      · exact absurd ⟨.inl hl, rfl, he⟩ hd
  | holdover =>
    dsimp only
    rw [if_neg]
    · simp
    · rintro ⟨hc, he⟩
      exact hd ⟨.inr hl, hc, he⟩

theorem BeaconIgnored.not_direct {c : BeaconClass} {e : Int} {s : State} (h : BeaconIgnored c e s) :
    ¬ BeaconDirect c e s := fun g => absurd h.2.2 (by have := g.2.2; omega)

/-! ### Applying and stepping -/

/-- What a trim update leaves (R42): the trim and its limit flag. -/
def trimAfter (seed : Bool) (e : Int) (m : Nat) (s : State) : Int × Bool :=
  let t := if seed then s else trimUpdate e m s
  (t.time.trim, t.time.trimLimit)

theorem applyBeacon_eq (seed : Bool) (e : Int) (m : Nat) (s : State) :
    applyBeacon seed e m s =
      { s with
        time := { s.time with slew := e * 1000000000, trim := (trimAfter seed e m s).1, trimLimit := (trimAfter seed e m s).2 }
        disc := { s.disc with lastError := e, lastMark := some m } } := by
  unfold applyBeacon trimAfter
  cases seed with
  | true => rfl
  | false =>
    unfold trimUpdate
    cases s.disc.lastMark with
    | none => rfl
    | some last =>
      by_cases h : 1000 ≤ trimInterval m last
      · simp only [Bool.false_eq_true, if_false, if_pos h]; rfl
      · simp only [Bool.false_eq_true, if_false, if_neg h]; rfl

theorem trimAfter_unmoved {seed : Bool} {e : Int} {m : Nat} {s : State} (h : seed = true ∨ s.disc.lastMark = none) :
    trimAfter seed e m s = (s.time.trim, s.time.trimLimit) := by
  unfold trimAfter trimUpdate
  rcases h with rfl | h
  · rfl
  · rw [h]; cases seed <;> rfl

theorem trimAfter_early {e : Int} {m last : Nat} {s : State} (hm : s.disc.lastMark = some last)
    (h : (m - last) / 125 < 1000) : trimAfter false e m s = (s.time.trim, s.time.trimLimit) := by
  unfold trimAfter trimUpdate
  rw [hm]
  dsimp only
  rw [if_neg (by simp), if_neg (by unfold trimInterval; omega)]

theorem trimAfter_updated {e : Int} {m last : Nat} {s : State} (hm : s.disc.lastMark = some last)
    (h : 1000 ≤ (m - last) / 125) :
    let v := s.time.trim + Int.tdiv (e * 1000000) ((((m - last) / 125) * 2 ^ s.disc.params.gainShift : Nat) : Int)
    trimAfter false e m s = (max (-100000) (min 100000 v), decide (v < -100000 ∨ 100000 < v)) := by
  intro v
  have hv : s.time.trim + trimChange e (trimInterval m last) s.disc.params.gainShift = v := rfl
  unfold trimAfter trimUpdate
  rw [hm]
  dsimp only
  rw [if_neg (by simp), if_pos (by unfold trimInterval; omega), hv]
  unfold takeTrim
  refine Prod.ext ?_ ?_
  · dsimp only
    split
    · omega
    · split <;> omega
  · simp only [decide_eq_decide]
    exact Or.comm

/-- The trim stays in its range (R7). -/
theorem trimAfter_range {seed : Bool} {e : Int} {m : Nat} {s : State} (h : -100000 ≤ s.time.trim ∧ s.time.trim ≤ 100000) :
    -100000 ≤ (trimAfter seed e m s).1 ∧ (trimAfter seed e m s).1 ≤ 100000 := by
  by_cases hs : seed = true ∨ s.disc.lastMark = none
  · rw [trimAfter_unmoved hs]; exact h
  · rw [not_or, Bool.not_eq_true] at hs
    obtain ⟨rfl, hm⟩ := hs
    obtain ⟨last, hm⟩ := Option.ne_none_iff_exists'.1 hm
    rcases Nat.lt_or_ge ((m - last) / 125) 1000 with hl | hl
    · rw [trimAfter_early hm hl]; exact h
    · rw [trimAfter_updated hm hl]
      dsimp only
      omega

/-- A step changes the Timebase, the waiting amounts and the fire times reached, and nothing else. -/
theorem stepBy_frame (c : StepCause) (a : Int) (s : State) :
    stepBy c a s = { s with time := (stepBy c a s).time, rx := (stepBy c a s).rx, cal := (stepBy c a s).cal } := by
  rcases stepBy_cases c a s with ⟨-, h⟩ | ⟨-, h⟩ | ⟨-, -, h⟩ <;> rw [h] <;> rfl

/-- A step reads the Timebase, the Receiver and the Calendar alone. -/
theorem stepBy_congr (c : StepCause) (a : Int) {s t : State} (ht : t.time = s.time) (hr : t.rx = s.rx) (hc : t.cal = s.cal) :
    stepBy c a t = { t with time := (stepBy c a s).time, rx := (stepBy c a s).rx, cal := (stepBy c a s).cal } := by
  rw [stepBy_frame]
  have h : (stepBy c a t).time = (stepBy c a s).time ∧ (stepBy c a t).rx = (stepBy c a s).rx ∧
      (stepBy c a t).cal = (stepBy c a s).cal := by
    unfold stepBy stepTo
    simp only [ht, hr, hc]
    split
    · exact ⟨rfl, rfl, rfl⟩
    · split <;> exact ⟨rfl, rfl, rfl⟩
  obtain ⟨h1, h2, h3⟩ := h
  rw [h1, h2, h3]

/-! ### A beacon in ACQUIRE (R44, R45) -/

theorem handleInAcquire_stepped {seed : Bool} {e : Int} {m : Nat} {s : State}
    (h : s.disc.params.stepThreshold < e.natAbs) : handleInAcquire seed e m s =
      { s with
        time := (stepBy .discipline e s).time
        rx := (stepBy .discipline e s).rx
        cal := (stepBy .discipline e s).cal
        disc := { s.disc with timer := .running 0 false, lastError := e, lastMark := some m, inWindow := 0 } } := by
  unfold handleInAcquire stepOnBeacon
  dsimp only
  rw [if_pos (by exact h), stepBy_congr .discipline e (s := s) (t := restartTimer s) rfl rfl rfl]
  rfl

/-- The state after a beacon that is applied in ACQUIRE, the in-window count apart. -/
def appliedInAcquire (seed : Bool) (e : Int) (m : Nat) (n : Nat) (s : State) : State :=
  { s with
    time := { s.time with slew := e * 1000000000, trim := (trimAfter seed e m s).1, trimLimit := (trimAfter seed e m s).2 }
    disc := { s.disc with timer := .running 0 false, lastError := e, lastMark := some m, inWindow := n } }

theorem applyBeacon_restarted (seed : Bool) (e : Int) (m : Nat) (s : State) :
    applyBeacon seed e m (restartTimer s) = appliedInAcquire seed e m s.disc.inWindow s := by
  have h : trimAfter seed e m (restartTimer s) = trimAfter seed e m s := by
    unfold trimAfter trimUpdate
    cases seed with
    | true => rfl
    | false =>
      rw [restartTimer_disc]
      dsimp only
      cases s.disc.lastMark with
      | none => rfl
      | some last =>
        by_cases hl : 1000 ≤ trimInterval m last
        · simp only [Bool.false_eq_true, if_false, if_pos hl]; rfl
        · simp only [Bool.false_eq_true, if_false, if_neg hl]; rfl
  rw [applyBeacon_eq, h]
  rfl

theorem handleInAcquire_outside {seed : Bool} {e : Int} {m : Nat} {s : State}
    (h : e.natAbs ≤ s.disc.params.stepThreshold) (hw : s.disc.params.lockWindow < e.natAbs) :
    handleInAcquire seed e m s = appliedInAcquire seed e m 0 s := by
  unfold handleInAcquire
  dsimp only
  rw [if_neg (by simp only [restartTimer_disc]; omega), applyBeacon_restarted,
    if_neg (by simp only [appliedInAcquire]; omega)]
  rfl

theorem handleInAcquire_counted {seed : Bool} {e : Int} {m : Nat} {s : State}
    (h : e.natAbs ≤ s.disc.params.stepThreshold) (hw : e.natAbs ≤ s.disc.params.lockWindow)
    (hn : s.disc.inWindow + 1 < s.disc.params.lockCount) :
    handleInAcquire seed e m s = appliedInAcquire seed e m (s.disc.inWindow + 1) s := by
  unfold handleInAcquire lockTest
  dsimp only
  rw [if_neg (by simp only [restartTimer_disc]; omega), applyBeacon_restarted,
    if_pos (by simp only [appliedInAcquire]; omega), if_neg (by simp only [appliedInAcquire]; omega)]
  rfl

theorem handleInAcquire_locks {seed : Bool} {e : Int} {m : Nat} {s : State}
    (h : e.natAbs ≤ s.disc.params.stepThreshold) (hw : e.natAbs ≤ s.disc.params.lockWindow)
    (hn : s.disc.params.lockCount ≤ s.disc.inWindow + 1) :
    handleInAcquire seed e m s = changeLock .locked .beacon (appliedInAcquire seed e m (s.disc.inWindow + 1) s) := by
  unfold handleInAcquire lockTest
  dsimp only
  rw [if_neg (by simp only [restartTimer_disc]; omega), applyBeacon_restarted,
    if_pos (by simp only [appliedInAcquire]; omega), if_pos (by simp only [appliedInAcquire]; omega)]
  rfl

end Sys2Proof.Machine

/-! ## The outcomes of one beacon, as whole next states -/

namespace Sys2Proof.Machine

/-! ### Entering ACQUIRE -/

/-- ACQUIRE with LOCK_CHANGED BEACON, where it is not the lock state already. -/
def inAcquire (s : State) : State :=
  { s with
    disc := { s.disc with
      lock := .acquire
      inWindow := if s.disc.lock = .acquire then s.disc.inWindow else 0
      outliers := if s.disc.lock = .acquire then s.disc.outliers else 0
      timer := if s.disc.lock = .acquire then s.disc.timer else .running 0 false
      holdoverDue := if s.disc.lock = .acquire then s.disc.holdoverDue else false }
    sess := if s.disc.lock = .acquire then s.sess
      else toAll (.lockChanged s.disc.lock .acquire .beacon s.disc.lastError) s }

theorem changeLock_acquire (s : State) : changeLock .acquire .beacon s = inAcquire s := by
  unfold inAcquire
  by_cases h : s.disc.lock = .acquire
  · rw [changeLock_same h]
    simp only [if_pos h]
    rw [← h]
  · rw [changeLock_of_ne h]
    simp only [if_neg h]
    rfl

theorem trimAfter_congr {seed : Bool} {e : Int} {m : Nat} {s t : State} (ht : t.time = s.time)
    (hm : t.disc.lastMark = s.disc.lastMark) (hp : t.disc.params = s.disc.params) :
    trimAfter seed e m t = trimAfter seed e m s := by
  unfold trimAfter trimUpdate takeTrim
  rw [hm, hp]
  cases seed with
  | true => simp only [if_true, ht]
  | false =>
    simp only [Bool.false_eq_true, if_false]
    cases s.disc.lastMark with
    | none => dsimp only; rw [ht]
    | some last => by_cases h : 1000 ≤ trimInterval m last <;> simp only [h, if_true, if_false, ht]

/-! ### An outlier in LOCKED (R47) -/

/-- The state after an outlier that does not unlock. -/
def outlierCounted (s : State) : State :=
  { s with
    disc := { s.disc with outliers := s.disc.outliers + 1, timer := .running 0 false }
    rx := { s.rx with stats := { s.rx.stats with outlier := min 65535 (s.rx.stats.outlier + 1) } } }

theorem handleOutlier_counted {s : State} (h : s.disc.outliers + 1 < s.disc.params.unlockCount) :
    handleOutlier s = outlierCounted s := if_neg (not_le.2 h)

theorem handleOutlier_unlocks {s : State} (h : s.disc.params.unlockCount ≤ s.disc.outliers + 1) :
    handleOutlier s = changeLock .acquire .beacon (outlierCounted s) := if_pos h

/-! ### A beacon applied directly in LOCKED (R46, R48) -/

/-- The state after a beacon applied in LOCKED, which is entered first from HOLDOVER. -/
def appliedInLocked (e : Int) (m : Nat) (s : State) : State :=
  { s with
    time := { s.time with
      slew := e * 1000000000, trim := (trimAfter false e m s).1, trimLimit := (trimAfter false e m s).2 }
    disc := { s.disc with
      lock := .locked
      inWindow := if s.disc.lock = .locked then s.disc.inWindow else 0
      outliers := 0
      timer := .running 0 false
      holdoverDue := if s.disc.lock = .locked then s.disc.holdoverDue else false
      lastError := e
      lastMark := some m }
    sess := if s.disc.lock = .locked then s.sess
      else toAll (.lockChanged s.disc.lock .locked .beacon s.disc.lastError) s }

theorem handleBeacon_direct {c : BeaconClass} {e : Int} {s : State} (m : Nat) (h : BeaconDirect c e s) :
    handleBeacon c e m s = appliedInLocked e m s := by
  rcases h.1 with hl | hl
  · rw [handleBeacon_direct_locked m h hl, applyBeacon_restarted]
    unfold appliedInLocked
    simp only [if_pos hl]
    rw [← hl]
    rfl
  · have hne : s.disc.lock ≠ .locked := by rw [hl]; decide
    rw [handleBeacon_direct_holdover m h hl, applyBeacon_restarted]
    unfold appliedInLocked appliedInAcquire
    rw [trimAfter_congr (s := s) (changeLock_time _ _ s) (by rw [changeLock_of_ne hne]) (changeLock_params _ _ s),
      changeLock_of_ne hne]
    simp only [if_neg hne]
    rfl

/-! ### A beacon taken in ACQUIRE (R44, R45) -/

/-- The state after a beacon beyond the step threshold: hub time is stepped and ACQUIRE begins anew (R40, R44). -/
def steppedInAcquire (e : Int) (m : Nat) (s : State) : State :=
  { inAcquire s with
    time := (stepBy .discipline e s).time
    rx := (stepBy .discipline e s).rx
    cal := (stepBy .discipline e s).cal
    disc := { (inAcquire s).disc with timer := .running 0 false, lastError := e, lastMark := some m, inWindow := 0 } }

/-- The state after the last of the in-window beacons, which takes ACQUIRE to LOCKED (R45). -/
def lockedFromAcquire (seed : Bool) (e : Int) (m : Nat) (s : State) : State :=
  { appliedInAcquire seed e m 0 (inAcquire s) with
    disc := { (appliedInAcquire seed e m 0 (inAcquire s)).disc with
      lock := .locked
      outliers := 0
      holdoverDue := false }
    sess := toAll (.lockChanged .acquire .locked .beacon e) (inAcquire s) }

/-- The outcomes of a beacon of class `c` with phase error `e` and mark tick `m` in the state `s`. -/
inductive BeaconOutcome (c : BeaconClass) (e : Int) (m : Nat) (s : State) : State → Prop where
  | counted (ignored : BeaconIgnored c e s) (few : s.disc.outliers + 1 < s.disc.params.unlockCount) :
      BeaconOutcome c e m s (outlierCounted s)
  | unlocks (ignored : BeaconIgnored c e s) (many : s.disc.params.unlockCount ≤ s.disc.outliers + 1) :
      BeaconOutcome c e m s (inAcquire (outlierCounted s))
  | direct (direct : BeaconDirect c e s) : BeaconOutcome c e m s (appliedInLocked e m s)
  | stepped (heeded : ¬ BeaconIgnored c e s) (indirect : ¬ BeaconDirect c e s)
      (beyond : s.disc.params.stepThreshold < e.natAbs) : BeaconOutcome c e m s (steppedInAcquire e m s)
  | outside (heeded : ¬ BeaconIgnored c e s) (indirect : ¬ BeaconDirect c e s)
      (within : e.natAbs ≤ s.disc.params.stepThreshold) (out : s.disc.params.lockWindow < e.natAbs) :
      BeaconOutcome c e m s (appliedInAcquire (beaconAsSeed c s) e m 0 (inAcquire s))
  | inWindow (heeded : ¬ BeaconIgnored c e s) (indirect : ¬ BeaconDirect c e s)
      (within : e.natAbs ≤ s.disc.params.stepThreshold) (inside : e.natAbs ≤ s.disc.params.lockWindow)
      (few : (inAcquire s).disc.inWindow + 1 < s.disc.params.lockCount) :
      BeaconOutcome c e m s (appliedInAcquire (beaconAsSeed c s) e m ((inAcquire s).disc.inWindow + 1) (inAcquire s))
  | locks (heeded : ¬ BeaconIgnored c e s) (indirect : ¬ BeaconDirect c e s)
      (within : e.natAbs ≤ s.disc.params.stepThreshold) (inside : e.natAbs ≤ s.disc.params.lockWindow)
      (many : s.disc.params.lockCount ≤ (inAcquire s).disc.inWindow + 1) :
      BeaconOutcome c e m s (lockedFromAcquire (beaconAsSeed c s) e m s)

/-- What the Discipline Unit does with a beacon is one of its outcomes. -/
theorem handleBeacon_outcome (c : BeaconClass) (e : Int) (m : Nat) (s : State) :
    BeaconOutcome c e m s (handleBeacon c e m s) := by
  by_cases hi : BeaconIgnored c e s
  · rw [handleBeacon_ignored m hi]
    rcases Nat.lt_or_ge (s.disc.outliers + 1) s.disc.params.unlockCount with h | h
    · rw [handleOutlier_counted h]; exact .counted hi h
    · rw [handleOutlier_unlocks h, changeLock_acquire]; exact .unlocks hi h
  · by_cases hd : BeaconDirect c e s
    · rw [handleBeacon_direct m hd]; exact .direct hd
    · rw [handleBeacon_in_acquire m hi hd, changeLock_acquire]
      rcases Nat.lt_or_ge s.disc.params.stepThreshold e.natAbs with h | h
      · have step := stepBy_congr .discipline e (s := s) (t := inAcquire s) rfl rfl rfl
        rw [handleInAcquire_stepped (by exact h), step]
        exact .stepped hi hd h
      · rcases Nat.lt_or_ge s.disc.params.lockWindow e.natAbs with hw | hw
        · rw [handleInAcquire_outside (by exact h) (by exact hw)]
          exact .outside hi hd h hw
        · rcases Nat.lt_or_ge ((inAcquire s).disc.inWindow + 1) s.disc.params.lockCount with hn | hn
          · rw [handleInAcquire_counted (by exact h) (by exact hw) (by exact hn)]
            exact .inWindow hi hd h hw hn
          · have acquired : (appliedInAcquire (beaconAsSeed c s) e m ((inAcquire s).disc.inWindow + 1)
                (inAcquire s)).disc.lock ≠ .locked := by show LockState.acquire ≠ .locked; decide
            rw [handleInAcquire_locks (by exact h) (by exact hw) (by exact hn), changeLock_of_ne acquired]
            exact .locks hi hd h hw hn

/-- The trim after a beacon applied in ACQUIRE is reckoned from the state before it. -/
theorem trimAfter_inAcquire (seed : Bool) (e : Int) (m : Nat) (s : State) :
    trimAfter seed e m (inAcquire s) = trimAfter seed e m s :=
  trimAfter_congr rfl rfl rfl

/-- The lock states, counts and timers that the outcomes leave. -/
theorem lock_after_beacon {c : BeaconClass} {e : Int} {m : Nat} {s t : State} (h : BeaconOutcome c e m s t) :
    (t.disc.lock = .acquire ∨ t.disc.lock = .locked) ∧ t.disc.timer = .running 0 false := by
  cases h with
  | counted ignored => exact ⟨.inr ignored.1, rfl⟩
  | unlocks ignored =>
    have : s.disc.lock ≠ .acquire := by rw [ignored.1]; decide
    exact ⟨.inl rfl, if_neg this⟩
  | direct => exact ⟨.inr rfl, rfl⟩
  | locks => exact ⟨.inr rfl, rfl⟩
  | stepped | outside | inWindow => exact ⟨.inl rfl, rfl⟩

end Sys2Proof.Machine

/-! ## What a beacon leaves in each lock state (O49) -/

namespace Sys2Proof.Machine

section
variable {c : BeaconClass} {e : Int} {m : Nat} {s t : State} (out : BeaconOutcome c e m s t)
include out

/-! ### Which outcome it is -/

theorem BeaconOutcome.of_ignored (h : BeaconIgnored c e s) :
    (s.disc.outliers + 1 < s.disc.params.unlockCount ∧ t = outlierCounted s) ∨
    (s.disc.params.unlockCount ≤ s.disc.outliers + 1 ∧ t = inAcquire (outlierCounted s)) := by
  cases out with
  | counted _ few => exact .inl ⟨few, rfl⟩
  | unlocks _ many => exact .inr ⟨many, rfl⟩
  | direct d => exact absurd d h.not_direct
  | stepped heeded | outside heeded | inWindow heeded | locks heeded => exact absurd h heeded

theorem BeaconOutcome.of_direct (h : BeaconDirect c e s) : t = appliedInLocked e m s := by
  cases out with
  | counted ignored | unlocks ignored => exact absurd h ignored.not_direct
  | direct => rfl
  | stepped _ indirect | outside _ indirect | inWindow _ indirect | locks _ indirect => exact absurd h indirect

theorem BeaconOutcome.of_beyond (hi : ¬ BeaconIgnored c e s) (hd : ¬ BeaconDirect c e s)
    (h : s.disc.params.stepThreshold < e.natAbs) : t = steppedInAcquire e m s := by
  cases out with
  | counted ignored | unlocks ignored => exact absurd ignored hi
  | direct d => exact absurd d hd
  | stepped => rfl
  | outside _ _ within | inWindow _ _ within | locks _ _ within => omega

theorem BeaconOutcome.of_outside (hi : ¬ BeaconIgnored c e s) (hd : ¬ BeaconDirect c e s)
    (h : e.natAbs ≤ s.disc.params.stepThreshold) (hw : s.disc.params.lockWindow < e.natAbs) :
    t = appliedInAcquire (beaconAsSeed c s) e m 0 (inAcquire s) := by
  cases out with
  | counted ignored | unlocks ignored => exact absurd ignored hi
  | direct d => exact absurd d hd
  | stepped _ _ beyond => omega
  | outside => rfl
  | inWindow _ _ _ inside | locks _ _ _ inside => omega

theorem BeaconOutcome.of_inside (hi : ¬ BeaconIgnored c e s) (hd : ¬ BeaconDirect c e s)
    (h : e.natAbs ≤ s.disc.params.stepThreshold) (hw : e.natAbs ≤ s.disc.params.lockWindow) :
    ((inAcquire s).disc.inWindow + 1 < s.disc.params.lockCount ∧
      t = appliedInAcquire (beaconAsSeed c s) e m ((inAcquire s).disc.inWindow + 1) (inAcquire s)) ∨
    (s.disc.params.lockCount ≤ (inAcquire s).disc.inWindow + 1 ∧ t = lockedFromAcquire (beaconAsSeed c s) e m s) := by
  cases out with
  | counted ignored | unlocks ignored => exact absurd ignored hi
  | direct d => exact absurd d hd
  | stepped _ _ beyond => omega
  | outside _ _ _ out => omega
  | inWindow _ _ _ _ few => exact .inl ⟨few, rfl⟩
  | locks _ _ _ _ many => exact .inr ⟨many, rfl⟩

/-! ### What every outcome leaves -/

theorem BeaconOutcome.heeded_error (hi : ¬ BeaconIgnored c e s) : t.disc.lastError = e ∧ t.disc.lastMark = some m := by
  cases out with
  | counted ignored | unlocks ignored => exact absurd ignored hi
  | direct | stepped | outside | inWindow | locks => exact ⟨rfl, rfl⟩

/-- A beacon that steps hub time leaves the lock state ACQUIRE (R40). -/
theorem BeaconOutcome.rx_cal (h : ¬ (¬ BeaconIgnored c e s ∧ ¬ BeaconDirect c e s ∧ s.disc.params.stepThreshold < e.natAbs)) :
    (¬ BeaconIgnored c e s → t.rx = s.rx) ∧ t.cal = s.cal := by
  cases out with
  | counted ignored | unlocks ignored => exact ⟨fun hi => absurd ignored hi, rfl⟩
  | direct | outside | inWindow | locks => exact ⟨fun _ => rfl, rfl⟩
  | stepped heeded indirect beyond => exact absurd ⟨heeded, indirect, beyond⟩ h

/-- The slew remainder becomes the phase error, and the trim moves by a trim update unless the beacon is a seed (R41, R42). -/
theorem BeaconOutcome.applied_time (hi : ¬ BeaconIgnored c e s)
    (h : BeaconDirect c e s ∨ e.natAbs ≤ s.disc.params.stepThreshold) :
    ∃ seed : Bool, (seed = true ↔ ¬ BeaconDirect c e s ∧ beaconAsSeed c s = true) ∧
      t.time = { s.time with slew := e * 1000000000, trim := (trimAfter seed e m s).1, trimLimit := (trimAfter seed e m s).2 } := by
  cases out with
  | counted ignored | unlocks ignored => exact absurd ignored hi
  | direct d => exact ⟨false, by simp [d], rfl⟩
  | stepped _ indirect beyond =>
    rcases h with h | h
    · exact absurd h indirect
    · omega
  | outside _ indirect | inWindow _ indirect | locks _ indirect =>
    exact ⟨beaconAsSeed c s, by simp [indirect], by rw [← trimAfter_inAcquire]; rfl⟩

theorem BeaconOutcome.frame : t.disc.params = s.disc.params ∧ t.disc.holdoverElapsed = s.disc.holdoverElapsed ∧
    t.lines = s.lines ∧ t.watch = s.watch ∧ t.caps = s.caps ∧ t.leases = s.leases ∧ t.authority = s.authority ∧
    t.ports = s.ports ∧ t.pins = s.pins ∧ t.inReset = s.inReset ∧ t.freeCount = s.freeCount ∧ t.pending = s.pending := by
  cases out <;> exact ⟨rfl, rfl, rfl, rfl, rfl, rfl, rfl, rfl, rfl, rfl, rfl, rfl⟩

theorem BeaconOutcome.outliers (hi : ¬ BeaconIgnored c e s) (hd : ¬ BeaconDirect c e s) :
    t.disc.outliers = if s.disc.lock = .acquire ∧ ¬ (e.natAbs ≤ s.disc.params.stepThreshold ∧
      e.natAbs ≤ s.disc.params.lockWindow ∧ s.disc.params.lockCount ≤ (inAcquire s).disc.inWindow + 1)
      then s.disc.outliers else 0 := by
  have entered : (inAcquire s).disc.outliers = if s.disc.lock = .acquire then s.disc.outliers else 0 := rfl
  have unlocked (u : State) (hu : u.disc.outliers = (inAcquire s).disc.outliers)
      (h : ¬ (e.natAbs ≤ s.disc.params.stepThreshold ∧ e.natAbs ≤ s.disc.params.lockWindow ∧
        s.disc.params.lockCount ≤ (inAcquire s).disc.inWindow + 1)) :
      u.disc.outliers = if s.disc.lock = .acquire ∧ ¬ (e.natAbs ≤ s.disc.params.stepThreshold ∧
        e.natAbs ≤ s.disc.params.lockWindow ∧ s.disc.params.lockCount ≤ (inAcquire s).disc.inWindow + 1)
        then s.disc.outliers else 0 := by
    rw [hu, entered]
    simp only [h, not_false_iff, and_true]
  cases out with
  | counted ignored | unlocks ignored => exact absurd ignored hi
  | direct d => exact absurd d hd
  | stepped => exact unlocked _ rfl (by omega)
  | outside => exact unlocked _ rfl (by omega)
  | inWindow => exact unlocked _ rfl (by omega)
  | locks _ _ within inside many => rw [if_neg fun h => h.2 ⟨within, inside, many⟩]; rfl

end

/-- Settles O49, clause by clause from the outcomes of a beacon. -/
theorem beaconsAreHandledByLockState : Obligations.BeaconsAreHandledByLockState := by
  unfold Obligations.BeaconsAreHandledByLockState
  intro c e tick s t x ignored direct seed start stepped locks changed entered
  have out : BeaconOutcome c e tick s t := handleBeacon_outcome c e tick s
  clear_value t
  have hstart : (inAcquire s).disc.inWindow = start := rfl
  obtain ⟨params, elapsed, frame⟩ := out.frame
  refine ⟨fun hi => ?_, fun hd => ?_, fun hs => ?_, fun hi hd h hw => ?_, fun hi hd h hw => ?_, fun hi hd => ?_,
    out.heeded_error, fun hi h => ?_, fun hi hs => ?_, fun hs => ?_, params, elapsed, frame⟩
  · have lock : s.disc.lock ≠ .acquire := by rw [hi.1]; decide
    rcases out.of_ignored hi with ⟨few, rfl⟩ | ⟨many, rfl⟩
    · exact ⟨rfl, rfl, rfl, rfl, rfl, fun _ => ⟨hi.1, rfl, rfl, rfl⟩, fun many => absurd few (not_lt.2 many)⟩
    · refine ⟨rfl, rfl, rfl, rfl, if_neg lock, fun few => absurd few (not_lt.2 many), fun _ => ⟨rfl, if_neg lock, if_neg lock, ?_⟩⟩
      refine (if_neg lock).trans ?_
      show toAll (.lockChanged s.disc.lock .acquire .beacon s.disc.lastError) s = _
      rw [hi.1]
      rfl
  · rw [out.of_direct hd]
    refine ⟨rfl, rfl, rfl, rfl, ?_⟩
    rcases hd.1 with hl | hl
    · rw [if_pos hl]; exact if_pos hl
    · have lock : s.disc.lock ≠ .locked := by rw [hl]; decide
      rw [if_neg lock]
      refine (if_neg lock).trans ?_
      rw [hl]
      rfl
  · rw [out.of_beyond hs.1 hs.2.1 hs.2.2]
    exact ⟨rfl, rfl, rfl, rfl, rfl, rfl, rfl⟩
  · rw [out.of_outside hi hd h hw]
    exact ⟨rfl, rfl, rfl, rfl⟩
  · rcases out.of_inside hi hd h hw with ⟨few, rfl⟩ | ⟨many, rfl⟩ <;> rw [hstart] at *
    · exact ⟨rfl, fun _ => ⟨rfl, rfl, rfl⟩, fun many => absurd few (not_lt.2 many)⟩
    · exact ⟨rfl, fun few => absurd few (not_lt.2 many), fun _ => ⟨rfl, rfl, rfl⟩⟩
  · rw [out.outliers hi hd]
    have hl : (s.disc.lock = .acquire ∧ ¬ (e.natAbs ≤ x.stepThreshold ∧ e.natAbs ≤ x.lockWindow ∧ x.lockCount ≤ start + 1)) ↔
        (s.disc.lock = .acquire ∧ ¬ locks) := by
      refine and_congr_right fun _ => not_congr ⟨fun h => ⟨hd, h⟩, fun h => h.2⟩
    exact if_congr hl rfl rfl
  · obtain ⟨b, hb, ht⟩ := out.applied_time hi h
    have hseed : beaconAsSeed c s = true ↔ seed := decide_eq_true_iff
    rw [hseed] at hb
    refine ⟨by rw [ht], fun hs => ?_, fun hs last hm => ?_⟩
    · have := trimAfter_unmoved (e := e) (m := tick) (seed := b) (s := s) (hs.imp hb.2 id)
      rw [ht, this]
      exact ⟨rfl, rfl⟩
    · have : b = false := by
        rw [← Bool.not_eq_true, hb]
        rintro ⟨h1, h2⟩
        exact hs.elim h1 fun h => h h2
      subst this
      intro interval v
      refine ⟨fun hl => ?_, fun hl => ?_⟩
      · rw [ht, trimAfter_early hm hl]; exact ⟨rfl, rfl⟩
      · rw [ht, trimAfter_updated hm hl]; exact ⟨rfl, rfl⟩
  · exact (out.rx_cal hs).1 hi
  · exact (out.rx_cal hs).2

end Sys2Proof.Machine

/-! ## Steps of hub time and the tick (sections 1.3 to 1.6) -/

namespace Sys2Proof.Machine

/-! ### A requested step (R8, R10, R11) -/

/-- A step as a whole next state. -/
theorem stepTo_eq (c : StepCause) (u : Nat) (a : Int) (s : State) :
    stepTo c u a s =
      { s with
        time := { s.time with
          hub := HubTime.ofUnits u
          slew := 0
          epoch := s.time.epoch + 1
          toSession := s.time.toSession ++
            [⟨HubTime.ofUnits u, a, direction s.time.hub (HubTime.ofUnits u), s.time.epoch + 1, c⟩]
          toCalendar := s.time.toCalendar ++
            [⟨HubTime.ofUnits u, a, direction s.time.hub (HubTime.ofUnits u), s.time.epoch + 1, c⟩] }
        rx := { s.rx with adjusts := if s.rx.hasMark then s.rx.adjusts ++ [a] else s.rx.adjusts }
        cal := { s.cal with reached := s.cal.reached.filter fun r => decide (r.fireTime ≤ (HubTime.ofUnits u).ns) } } := by
  rw [← Receiver.noteStep_eq]
  rfl

/-- Settles O44: whichever way the step is settled, it is a step to the units of its target. -/
theorem stepsAreSettledInRange : Obligations.StepsAreSettledInRange := by
  unfold Obligations.StepsAreSettledInRange
  intro c a s range target bound applied
  have hr : ((rangeNs * billion : Nat) : Int) = range * 1000000000 := rfl
  have ht : (s.time.hub.units : Int) + a * billion = target := rfl
  suffices settled : ∃ u : Nat, (u : Int) = (if target < 0 then 0 else if target < range * 1000000000 then target
      else target - range * 1000000000) ∧ u < range * 1000000000 ∧ stepBy c a s = stepTo c u applied s by
    obtain ⟨u, hu, lt, h⟩ := settled
    exact ⟨HubTime.ofUnits u, HubTime.ofUnits_nanoseconds_lt u, HubTime.ofUnits_fraction_lt u,
      by rwa [HubTime.units_ofUnits], by rwa [HubTime.units_ofUnits], h.trans (stepTo_eq c u applied s)⟩
  rcases stepBy_cases c a s with ⟨h, hs⟩ | ⟨h, hs⟩ | ⟨h0, h, hs⟩
  · rw [ht] at h
    have ha : applied = -(s.time.hub.ns : Int) := if_pos h
    exact ⟨0, by rw [if_pos h]; rfl, by decide, by rw [hs, ha]⟩
  · rw [ht, hr] at h
    have h0 : ¬ target < 0 := by omega
    have h1 : ¬ target < range * 1000000000 := not_lt.2 h
    have ha : applied = a - range := (if_neg h0).trans (if_neg h1)
    rw [ht, hr] at hs
    exact ⟨(target - range * 1000000000).toNat, by rw [if_neg h0, if_neg h1]; omega, by omega, by rw [hs, ha]; rfl⟩
  · rw [ht] at h0
    rw [ht, hr] at h
    have h0 : ¬ target < 0 := not_lt.2 h0
    have ha : applied = a := (if_neg h0).trans (if_pos h)
    rw [ht] at hs
    exact ⟨target.toNat, by rw [if_neg h0, if_pos h]; omega, by omega, by rw [hs, ha]⟩

/-! ### The tick outside a hub reset (R1, R4 to R6) -/

theorem exec_tick_running {x : PinSample} {s : State} (h : s.inReset = false) :
    exec (.tick x) s = .next (tickBlocks x (samplePins x (advanceTime s))) := by
  show execTick x s = _
  unfold execTick
  rw [h]
  rfl

theorem exec_tick_reset {x : PinSample} {s : State} (h : s.inReset = true) : exec (.tick x) s =
    .next { s with pins := { s.pins with resetnLow := resetnCount x.resetn s.pins.resetnLow } } := by
  show execTick x s = _
  unfold execTick
  rw [h]
  rfl

theorem nextTickCount_of_lt {s : State} (h : s.time.tickCount + 1 < 2 ^ 64) :
    nextTickCount s = s.time.tickCount + 1 := if_pos h

/-- The slew part as R5 states it. -/
theorem slewPart_eq (slew : Int) (limit : Nat) :
    slewPart slew limit = if slew.natAbs < 8 * limit then slew
      else if 0 < slew then ((8 * limit : Nat) : Int) else -((8 * limit : Nat) : Int) := by
  rcases slewPart_cases slew limit with ⟨h1, h⟩ | ⟨h1, h2, h⟩ | ⟨h1, h2, h⟩ <;> rw [h]
  · rw [if_pos h1]
  · rw [if_neg (not_lt.2 h1), if_pos h2]
  · rw [if_neg (not_lt.2 h1), if_neg (not_lt.2 h2)]

/-- Within the ranges of trim and slew limit a tick never moves hub time back. -/
theorem advancedUnits_eq {s : State} (low : -100000 ≤ s.time.trim) (limit : s.disc.params.slewLimit ≤ 500000) :
    (advancedUnits s : Int) =
        s.time.hub.units + 8000000000 + 8 * s.time.trim + slewPart s.time.slew s.disc.params.slewLimit ∧
      (s.time.hub.units : Int) + 8000000000 - 4800000 ≤ advancedUnits s := by
  have part : -4000000 ≤ slewPart s.time.slew s.disc.params.slewLimit := by
    rcases slewPart_cases s.time.slew s.disc.params.slewLimit with ⟨h1, h⟩ | ⟨h1, h2, h⟩ | ⟨h1, h2, h⟩ <;> rw [h] <;> omega
  unfold advancedUnits billion
  omega

/-- Settles O39: the tick is the Timebase's advance, which the other blocks' parts leave as it is. -/
theorem tickAdvancesHubTime : Obligations.TickAdvancesHubTime := by
  unfold Obligations.TickAdvancesHubTime
  intro x s running below low high limit size part
  have hp : slewPart s.time.slew s.disc.params.slewLimit = part := slewPart_eq _ _
  obtain ⟨units, least⟩ := advancedUnits_eq low limit
  have hu := HubTime.units_ofUnits (advancedUnits s)
  rw [hp] at units
  refine ⟨_, exec_tick_running running, nextTickCount_of_lt below, ?_, ?_, HubTime.ofUnits_nanoseconds_lt _,
    HubTime.ofUnits_fraction_lt _, ?_, ?_, rfl, rfl, rfl, rfl, rfl, rfl, rfl, rfl, rfl, rfl, fun p => ?_, rfl, rfl, rfl, rfl,
    rfl, rfl⟩
  · exact (congrArg Nat.cast hu).trans units
  · exact least.trans_eq (congrArg Nat.cast hu.symm)
  · exact congrArg (s.time.slew - ·) hp
  · exact slew_toward_zero _ _
  · exact getElem_mapVec_fin CapturePort.settleOrder s.caps p

/-! ### The fire times that a tick reaches (R6, R106) -/

theorem mem_insertTime {t f : Nat} {l : List Nat} : f ∈ insertTime t l ↔ f = t ∨ f ∈ l := by
  unfold insertTime
  split
  · next h =>
    have : t ∈ l := by simpa using h
    exact ⟨.inr, fun h => h.elim (fun e => e ▸ this) id⟩
  · rw [(insertBy_perm _ t l).mem_iff, List.mem_cons]

theorem insertTime_sorted {t : Nat} {l : List Nat} (h : l.Pairwise (· < ·)) : (insertTime t l).Pairwise (· < ·) := by
  unfold insertTime
  split
  · exact h
  · next hn =>
    have le : (insertBy (fun a b => decide (a ≤ b)) t l).Pairwise (· ≤ ·) :=
      insertBy_pairwise (R := (· ≤ ·)) (fun _ _ _ => Nat.le_trans) (fun a b h => of_decide_eq_true h)
        (fun a b h => Nat.le_of_lt (not_le.1 (of_decide_eq_false h))) t
        (h.imp Nat.le_of_lt)
    have nodup : (insertBy (fun a b => decide (a ≤ b)) t l).Nodup := by
      rw [(insertBy_perm _ t l).nodup_iff, List.nodup_cons]
      exact ⟨by simpa using hn, h.imp Nat.ne_of_lt⟩
    exact (le.and nodup).imp fun hab => Nat.lt_of_le_of_ne hab.1 hab.2

theorem foldr_insertTime (l : List Nat) :
    (l.foldr insertTime []).Pairwise (· < ·) ∧ ∀ f, f ∈ l.foldr insertTime [] ↔ f ∈ l := by
  induction l with
  | nil => exact ⟨.nil, fun _ => .rfl⟩
  | cons t l ih =>
    refine ⟨insertTime_sorted ih.1, fun f => ?_⟩
    rw [List.foldr_cons, mem_insertTime, ih.2, List.mem_cons]

theorem mem_reachedTimes {s : State} {old new f : Nat} : f ∈ reachedTimes s old new ↔
    ∃ (i : SlotNo) (e : Entry), s.cal.slots[i].entry = some e ∧ e.fireTime = f ∧ old < f * 1000000000 ∧
      f * 1000000000 ≤ new := by
  unfold reachedTimes
  rw [(foldr_insertTime _).2, List.mem_map]
  constructor
  · rintro ⟨i, hi, rfl⟩
    obtain ⟨e, he, hd⟩ := mem_slotsWhere.1 hi
    have hf : s.fireTime i = e.fireTime := by unfold State.fireTime; rw [he]
    rw [hf]
    exact ⟨i, e, he, rfl, of_decide_eq_true hd⟩
  · rintro ⟨i, e, he, rfl, h⟩
    exact ⟨i, mem_slotsWhere.2 ⟨e, he, decide_eq_true h⟩, by unfold State.fireTime; rw [he]⟩

theorem HubTime.reported_eq (t : HubTime) :
    t.reported = if t.ns < 4294967296000000000 then t.ns else 4294967295999999999 := by
  unfold HubTime.reported rangeNs
  split <;> split <;> omega

/-- Settles O40: the fire times reached are the held ones between hub time before and after the tick, in order. -/
theorem tickReachesFireTimes : Obligations.TickReachesFireTimes := by
  unfold Obligations.TickReachesFireTimes
  intro x s t ht running
  rw [exec_tick_running running] at ht
  cases ht
  have units : (tickBlocks x (samplePins x (advanceTime s))).time.hub.units = advancedUnits s :=
    HubTime.units_ofUnits _
  rw [units]
  refine ⟨(reachedTimes s s.time.hub.units (advancedUnits s)).map fun f =>
    ⟨f, (HubTime.ofUnits (advancedUnits s)).reported, s.time.epoch⟩, rfl, ?_, fun f => ?_, fun r hr => ?_⟩
  · rw [List.pairwise_map]
    exact (foldr_insertTime _).1
  · rw [← mem_reachedTimes]
    simp
  · obtain ⟨f, hf, rfl⟩ := List.mem_map.1 hr
    obtain ⟨i, e, -, -, after, before⟩ := mem_reachedTimes.1 hf
    have ns : (HubTime.ofUnits (advancedUnits s)).ns = advancedUnits s / 1000000000 := HubTime.ns_ofUnits _
    have old : s.time.hub.units = s.time.hub.ns * 1000000000 + s.time.hub.fraction := rfl
    refine ⟨rfl, rfl, HubTime.reported_eq _, fun lt => ?_, ?_⟩
    · show f ≤ (HubTime.ofUnits (advancedUnits s)).reported
      change f < _ at lt
      rw [HubTime.reported_eq, ns]
      split <;> omega
    · show s.time.hub.ns < f
      omega

end Sys2Proof.Machine

/-! ## Clocks, ranges of the Timebase, and the lock state (O46, O55, O59) -/

namespace Sys2Proof.Machine

/-- An admitted request of a kind that leaves an aspect to the owning block: what the command's next state is. -/
theorem exec_request_cases {c : Instr} {k : RequestKind} {p : Port} {s t : State} (hc : requestCommand c = some (k, p))
    (ht : exec c s = .next t) :
    (∃ r, t = withReply p r s) ∨ t = s ∨ ∃ body r, Admitted k p body s ∧ t = withReply p r (requestRun p k body s).1 := by
  rw [exec_of_requestCommand hc] at ht
  rcases takeRequest_cases ht with rfl | ⟨body, status, -, rfl⟩ | ⟨body, admitted, rfl⟩
  · exact .inr (.inl rfl)
  · exact .inl ⟨_, rfl⟩
  · exact .inr (.inr ⟨body, _, admitted, rfl⟩)

/-! ### The end of a beacon -/

theorem foreignTo_source {x : Selection} {b : Byte} (h : foreignTo x b = false) (hx : x ≠ .acceptFirst none) :
    x.idInEffect.isSome = true := by
  cases x with
  | none => cases h
  | fixed i => rfl
  | acceptFirst a =>
    cases a with
    | none => exact absurd rfl hx
    | some i => rfl

/-- A beacon that is handled comes from an accepted source, or its source is adopted (R23, R24). -/
theorem classify_accepted {r : Receiver} {b : Beacon} (h : classify r b = .seed ∨ classify r b = .usable) :
    r.selection.idInEffect.isSome = true := by
  unfold classify at h
  split at h
  · rcases h with h | h <;> cases h
  · next hf =>
    split at h
    · rcases h with h | h <;> cases h
    · split at h
      · rcases h with h | h <;> cases h
      · next ha => exact foreignTo_source (by simpa using hf) ha

/-- A beacon that has passed its content check is counted alone, or handled by the Discipline Unit with a source id in
effect. -/
theorem takeBeacon_cases (m : Mark) (e : Int) (b : Beacon) (s : State) :
    (∃ n, takeBeacon m e b s = { s with rx := { s.rx with stats := n } }) ∨
    ∃ (c : BeaconClass) (u : State), BeaconOutcome c e m.tick u (takeBeacon m e b s) ∧ u.time = s.time ∧ u.disc = s.disc ∧
      u.rx.selection.idInEffect.isSome = true := by
  unfold takeBeacon
  split
  · exact .inl ⟨_, rfl⟩
  · exact .inl ⟨_, rfl⟩
  · exact .inl ⟨_, rfl⟩
  · exact .inr ⟨_, _, handleBeacon_outcome _ _ _ _, rfl, rfl, rfl⟩
  · next h => exact .inr ⟨_, _, handleBeacon_outcome _ _ _ _, rfl, rfl, classify_accepted (r := s.rx) (.inl h)⟩
  · next h => exact .inr ⟨_, _, handleBeacon_outcome _ _ _ _, rfl, rfl, classify_accepted (r := s.rx) (.inr h)⟩

/-- BEACON_END: the Discipline Unit, the Timebase, the selection and seed-pending stay, or a beacon is handled. -/
theorem exec_beaconEnd_cases {s t : State} (h : exec .beaconEnd s = .next t) :
    (t.time = s.time ∧ t.disc = s.disc ∧ t.rx.selection = s.rx.selection ∧ t.rx.seedPending = s.rx.seedPending) ∨
    ∃ (c : BeaconClass) (e : Int) (m : Nat) (u : State), BeaconOutcome c e m u t ∧ u.time = s.time ∧ u.disc = s.disc ∧
      u.rx.selection.idInEffect.isSome = true := by
  change execBeaconEnd s = .next t at h
  unfold execBeaconEnd at h
  split at h
  · next m bytes last c n rest _ _ =>
    split at h
    · cases h; exact .inl ⟨rfl, rfl, rfl, rfl⟩
    · dsimp only at h
      split at h <;> cases h
      · rcases takeBeacon_cases m (phaseError s.rx m (beaconOf (bytes ++ [c]))) (beaconOf (bytes ++ [c]))
          (endAssembly rest s) with ⟨n, h⟩ | ⟨k, u, h⟩
        · rw [h]; exact .inl ⟨rfl, rfl, rfl, rfl⟩
        · exact .inr ⟨k, _, _, u, h⟩
      · exact .inl ⟨rfl, rfl, rfl, rfl⟩
  · cases h; exact .inl ⟨rfl, rfl, rfl, rfl⟩

/-! ### Clocks (O46) -/

theorem stepBy_epoch (c : StepCause) (a : Int) (s : State) : (stepBy c a s).time.epoch = s.time.epoch + 1 := by
  rcases stepBy_cases c a s with ⟨-, h⟩ | ⟨-, h⟩ | ⟨-, -, h⟩ <;> rw [h] <;> rfl

theorem BeaconOutcome.epoch {c : BeaconClass} {e : Int} {m : Nat} {s t : State} (h : BeaconOutcome c e m s t) :
    t.time.epoch = s.time.epoch ∨ t.time.epoch = s.time.epoch + 1 := by
  cases h with
  | stepped => exact .inr (stepBy_epoch _ _ _)
  | counted | unlocks | direct | outside | inWindow | locks => exact .inl rfl

theorem exec_tick_tickCount {x : PinSample} {s t : State} (h : exec (.tick x) s = .next t)
    (below : s.time.tickCount + 1 < 2 ^ 64) :
    t.time.tickCount = s.time.tickCount ∨ t.time.tickCount = s.time.tickCount + 1 := by
  cases hr : s.inReset with
  | true => rw [exec_tick_reset hr] at h; cases h; exact .inl rfl
  | false => rw [exec_tick_running hr] at h; cases h; exact .inr (nextTickCount_of_lt below)

theorem exec_setTime_epoch {p : Port} {s t : State} (h : exec (.setTime p) s = .next t) :
    t.time.epoch = s.time.epoch ∨ t.time.epoch = s.time.epoch + 1 := by
  rcases exec_request_cases rfl h with ⟨r, rfl⟩ | rfl | ⟨body, r, -, rfl⟩
  · exact .inl rfl
  · exact .inl rfl
  · show (setTimeRun body s).1.time.epoch = s.time.epoch ∨ (setTimeRun body s).1.time.epoch = s.time.epoch + 1
    unfold setTimeRun
    split
    · exact .inl rfl
    · exact .inr rfl

theorem exec_secondsWrap_epoch {s t : State} (h : exec .secondsWrap s = .next t) :
    t.time.epoch = s.time.epoch ∨ t.time.epoch = s.time.epoch + 1 := by
  change execSecondsWrap s = .next t at h
  unfold execSecondsWrap at h
  split at h <;> cases h
  · right
    rw [stepBy_epoch]
    exact congrArg (· + 1) (takeFirings_moves s.cal.reached s .epoch (by simp))
  · exact .inl rfl

theorem exec_beaconEnd_epoch {s t : State} (h : exec .beaconEnd s = .next t) :
    t.time.epoch = s.time.epoch ∨ t.time.epoch = s.time.epoch + 1 := by
  rcases exec_beaconEnd_cases h with ⟨ht, -⟩ | ⟨c, e, m, u, out, ht, -⟩
  · exact .inl (by rw [ht])
  · rw [← ht]; exact out.epoch

theorem exec_uptimeIncrement_uptime {s t : State} (h : exec .uptimeIncrement s = .next t) :
    t.time.uptime = s.time.uptime ∨ t.time.uptime = s.time.uptime + 1 := by
  change execUptimeIncrement s = .next t at h
  unfold execUptimeIncrement at h
  split at h <;> cases h
  · exact .inr rfl
  · exact .inl rfl

/-- The commands that can move one of the clocks, hub reset and its release apart. -/
theorem touchedBy_clocks (c : Instr) (hreset : ∀ x, c ≠ .hubReset x) (hrelease : c ≠ .resetRelease) :
    (Aspect.tickCount ∈ touchedBy c → ∃ x, c = .tick x) ∧ (Aspect.uptime ∈ touchedBy c → c = .uptimeIncrement) ∧
    (Aspect.epoch ∈ touchedBy c → (∃ p, c = .setTime p) ∨ c = .secondsWrap ∨ c = .beaconEnd) := by
  cases c
  case batchFix p q m => cases q <;> simp [touchedBy, requestCommand]
  case hubReset x => exact absurd rfl (hreset x)
  case resetRelease => exact absurd rfl hrelease
  all_goals simp [touchedBy, requestCommand, RequestKind.touched]

/-- Settles O46: each clock is moved by its own commands alone, which move it by one if at all. -/
theorem clocksMoveOnlyWithTheirEvents : Obligations.ClocksMoveOnlyWithTheirEvents := by
  unfold Obligations.ClocksMoveOnlyWithTheirEvents
  intro c s t h hreset hrelease below
  obtain ⟨ticks, uptimes, epochs⟩ := touchedBy_clocks c hreset hrelease
  refine ⟨?_, ?_, ?_⟩
  · by_cases ha : Aspect.tickCount ∈ touchedBy c
    · obtain ⟨x, rfl⟩ := ticks ha
      exact (exec_tick_tickCount h below).imp_right fun ht => ⟨⟨x, rfl⟩, ht⟩
    · exact .inl (exec_moves h _ ha)
  · by_cases ha : Aspect.uptime ∈ touchedBy c
    · obtain rfl := uptimes ha
      exact (exec_uptimeIncrement_uptime h).imp_right fun ht => ⟨rfl, ht⟩
    · exact .inl (exec_moves h _ ha)
  · by_cases ha : Aspect.epoch ∈ touchedBy c
    · rcases epochs ha with ⟨p, rfl⟩ | rfl | rfl
      · exact (exec_setTime_epoch h).imp_right fun ht => ⟨epochs ha, ht⟩
      · exact (exec_secondsWrap_epoch h).imp_right fun ht => ⟨epochs ha, ht⟩
      · exact (exec_beaconEnd_epoch h).imp_right fun ht => ⟨epochs ha, ht⟩
    · exact .inl (exec_moves h _ ha)

/-! ### Every step is a command -/

/-- An invariant that the queue of commands has no part in is kept by every step if every command keeps it. -/
theorem step_keeps {P : State → Prop} (queue : ∀ s q, P s → P { s with pending := q })
    (commands : ∀ c s t, P s → exec c s = .next t → P t) {s t : State} (hs : P s) (h : step s = .next t) : P t := by
  unfold step at h
  split at h
  · cases h; exact hs
  · exact commands _ _ t (queue s _ hs) h

/-! ### The ranges of the Timebase (O55) -/

theorem TimeOk.congr {s t : State} (h : TimeOk s) (clock : Aspect.clock.Kept s t) (params : Aspect.params.Kept s t) :
    TimeOk t := by
  obtain ⟨hub, trim, slew⟩ := clock
  have hp : t.disc.params = s.disc.params := params
  exact ⟨by rw [hub]; exact h.nanoseconds, by rw [hub]; exact h.fraction, by rw [trim]; exact h.trimLow,
    by rw [trim]; exact h.trimHigh, by rw [slew]; exact h.slew, by rw [hp]; exact h.params⟩

/-- After a step hub time is a count of units and the slew remainder is 0. -/
theorem TimeOk.stepTo {s : State} (h : TimeOk s) (c : StepCause) (u : Nat) (a : Int) : TimeOk (stepTo c u a s) :=
  ⟨HubTime.ofUnits_nanoseconds_lt u, HubTime.ofUnits_fraction_lt u, h.trimLow, h.trimHigh, by simp, h.params⟩

theorem TimeOk.stepBy {s : State} (h : TimeOk s) (c : StepCause) (a : Int) : TimeOk (stepBy c a s) := by
  rcases stepBy_cases c a s with ⟨-, e⟩ | ⟨-, e⟩ | ⟨-, -, e⟩ <;> rw [e] <;> exact h.stepTo _ _ _

theorem Params.stepThreshold_le {x : Params} (h : x.inRange = true) : x.stepThreshold ≤ 1000000000 := by
  simp only [Params.inRange, Bool.and_eq_true, decide_eq_true_eq] at h
  omega

theorem Params.lockWindow_le {x : Params} (h : x.inRange = true) : x.lockWindow ≤ 1000000000 := by
  simp only [Params.inRange, Bool.and_eq_true, decide_eq_true_eq] at h
  omega

/-- An applied beacon sets the slew remainder to an error that the parameters bound, and the trim is clamped. -/
theorem TimeOk.applied {s t : State} (h : TimeOk s) {seed : Bool} {e : Int} {m : Nat} (he : e.natAbs ≤ 1000000000)
    (ht : t.time = { s.time with
      slew := e * 1000000000, trim := (trimAfter seed e m s).1, trimLimit := (trimAfter seed e m s).2 })
    (hp : t.disc.params = s.disc.params) : TimeOk t := by
  obtain ⟨low, high⟩ := trimAfter_range (seed := seed) (e := e) (m := m) ⟨h.trimLow, h.trimHigh⟩
  refine ⟨by rw [ht]; exact h.nanoseconds, by rw [ht]; exact h.fraction, by rw [ht]; exact low, by rw [ht]; exact high,
    ?_, by rw [hp]; exact h.params⟩
  rw [ht]
  show (e * 1000000000).natAbs ≤ _
  omega

theorem TimeOk.beacon {s t : State} {c : BeaconClass} {e : Int} {m : Nat} (h : TimeOk s) (out : BeaconOutcome c e m s t) :
    TimeOk t := by
  have hp : t.disc.params = s.disc.params := out.frame.1
  have threshold := Params.stepThreshold_le h.params
  have window := Params.lockWindow_le h.params
  by_cases hi : BeaconIgnored c e s
  · rcases out.of_ignored hi with ⟨-, rfl⟩ | ⟨-, rfl⟩ <;> exact h.congr ⟨rfl, rfl, rfl⟩ rfl
  · by_cases applied : BeaconDirect c e s ∨ e.natAbs ≤ s.disc.params.stepThreshold
    · obtain ⟨seed, -, ht⟩ := out.applied_time hi applied
      refine h.applied ?_ ht hp
      rcases applied with hd | hw
      · exact hd.2.2.trans window
      · exact hw.trans threshold
    · rw [not_or, not_le] at applied
      rw [out.of_beyond hi applied.1 applied.2]
      exact (h.stepBy .discipline e).congr ⟨rfl, rfl, rfl⟩ (by rw [stepBy_frame]; rfl)

theorem TimeOk.reset (held : Bool) (s : State) : TimeOk (resetBlocks held s) :=
  ⟨by show 0 < 1000000000; decide, by show 0 < 1000000000; decide, by show (-100000 : Int) ≤ 0; decide,
    by show (0 : Int) ≤ 100000; decide, by show (0 : Int).natAbs ≤ _; decide, by show Params.default.inRange = true; decide⟩

theorem TimeOk.tick {x : PinSample} {s t : State} (h : TimeOk s) (ht : exec (.tick x) s = .next t) : TimeOk t := by
  cases hr : s.inReset with
  | true => rw [exec_tick_reset hr] at ht; cases ht; exact h.congr ⟨rfl, rfl, rfl⟩ rfl
  | false =>
    rw [exec_tick_running hr] at ht
    cases ht
    exact ⟨HubTime.ofUnits_nanoseconds_lt _, HubTime.ofUnits_fraction_lt _, h.trimLow, h.trimHigh,
      (slew_toward_zero _ _).trans h.slew, h.params⟩

/-- The commands that can move hub time, trim, slew remainder or parameters. -/
theorem touchedBy_clock (c : Instr) (h : Aspect.clock ∈ touchedBy c ∨ Aspect.params ∈ touchedBy c) :
    (∃ p, c = .setTime p) ∨ (∃ p, c = .setDiscipline p) ∨ (∃ x, c = .hubReset x) ∨ c = .resetRelease ∨ (∃ x, c = .tick x) ∨
      c = .secondsWrap ∨ c = .beaconEnd := by
  cases c
  case batchFix p q m => cases q <;> simp [touchedBy, requestCommand] at h
  all_goals simp [touchedBy, requestCommand, RequestKind.touched] at h ⊢

/-- HUB_RESET puts every block at its reset values or is no event. -/
theorem exec_hubReset_cases {x : ResetCause} {s t : State} (h : exec (.hubReset x) s = .next t) :
    t = s ∨ t = resetBlocks true s := by
  change execHubReset x s = .next t at h
  unfold execHubReset at h
  split at h
  · cases h; exact .inr rfl
  · split at h <;> cases h
    · exact .inr rfl
    · exact .inl rfl

theorem exec_resetRelease_cases {s t : State} (h : exec .resetRelease s = .next t) :
    t = s ∨ t = resetBlocks false s := by
  change execResetRelease s = .next t at h
  unfold execResetRelease at h
  split at h <;> cases h
  · exact .inr rfl
  · exact .inl rfl

theorem exec_keeps_timeOk (c : Instr) (s t : State) (hs : TimeOk s) (h : exec c s = .next t) : TimeOk t := by
  have reply : ∀ p r u, TimeOk u → TimeOk (withReply p r u) := fun _ _ _ hu => hu.congr ⟨rfl, rfl, rfl⟩ rfl
  by_cases ht : Aspect.clock ∈ touchedBy c ∨ Aspect.params ∈ touchedBy c
  · rcases touchedBy_clock c ht with ⟨p, rfl⟩ | ⟨p, rfl⟩ | ⟨x, rfl⟩ | rfl | ⟨x, rfl⟩ | rfl | rfl
    · refine exec_request_keeps rfl h hs (reply p) fun body _ => ?_
      show TimeOk (setTimeRun body s).1
      unfold setTimeRun
      split
      · exact hs
      · exact hs.stepTo _ _ _
    · refine exec_request_keeps rfl h hs (reply p) fun body admitted => ?_
      exact ⟨hs.nanoseconds, hs.fraction, hs.trimLow, hs.trimHigh, hs.slew, admitted.2.2.2⟩
    · rcases exec_hubReset_cases h with rfl | rfl
      · exact hs
      · exact .reset _ _
    · rcases exec_resetRelease_cases h with rfl | rfl
      · exact hs
      · exact .reset _ _
    · exact hs.tick h
    · change execSecondsWrap s = .next t at h
      unfold execSecondsWrap at h
      split at h <;> cases h
      · have fired := takeFirings_moves s.cal.reached s
        exact (hs.congr (fired .clock (by simp)) (fired .params (by simp))).stepBy _ _
      · exact hs
    · rcases exec_beaconEnd_cases h with ⟨ht, hd, -⟩ | ⟨c, e, m, u, out, ht, hd, -⟩
      · exact hs.congr ⟨by rw [ht], by rw [ht], by rw [ht]⟩ (by show _ = _; rw [hd])
      · exact TimeOk.beacon (hs.congr ⟨by rw [ht], by rw [ht], by rw [ht]⟩ (by show _ = _; rw [hd])) out
  · rw [not_or] at ht
    exact hs.congr (exec_moves h _ ht.1) (exec_moves h _ ht.2)

/-- Settles O55: each event that moves the Timebase's values keeps their ranges; the others leave the Timebase alone. -/
theorem stepKeepsTheTimebaseInRange : Obligations.StepKeepsTheTimebaseInRange := by
  unfold Obligations.StepKeepsTheTimebaseInRange
  exact fun s t hs h => step_keeps (fun _ _ hu => hu.congr ⟨rfl, rfl, rfl⟩ rfl) exec_keeps_timeOk hs h

end Sys2Proof.Machine

/-! ## The lock state and what goes with it (O59) -/

namespace Sys2Proof.Machine

theorem LockOk.congr {s t : State} (h : LockOk s) (lock : Aspect.lock.Kept s t) : LockOk t := by
  obtain ⟨⟨hl, ht, hi, ho⟩, hs, hp⟩ := lock
  constructor
  · rw [hl, hs]; exact h.source
  · rw [hl, hp]; exact h.seed
  · rw [hl, ht]; exact h.timer
  · rw [hl, hi]; exact h.inWindow
  · rw [hl, ho]; exact h.outliers

/-- The parts of LockOk that a change of lock state settles by itself (R38, R50); the source and seed-pending are the
Receiver's. -/
structure LockTimed (d : Discipline) : Prop where
  timer    : d.timer.isRunning = true ↔ (d.lock = .acquire ∨ d.lock = .locked)
  inWindow : d.lock ≠ .acquire → d.inWindow = 0
  outliers : d.lock ≠ .locked → d.outliers = 0

theorem LockOk.timed {s : State} (h : LockOk s) : LockTimed s.disc := ⟨h.timer, h.inWindow, h.outliers⟩

theorem LockTimed.changeLock {s : State} (h : LockTimed s.disc) {new : LockState} (hn : new ≠ .locked) (c : LockCause) :
    LockTimed (changeLock new c s).disc := by
  by_cases hl : s.disc.lock = new
  · rw [changeLock_same hl]; exact h
  · rw [changeLock_of_ne hl]
    refine ⟨?_, fun _ => rfl, fun _ => rfl⟩
    cases new with
    | free | holdover => simp [timerAtEntry, Timer.isRunning]
    | acquire => simp [timerAtEntry, Timer.isRunning]
    | locked => exact absurd rfl hn

theorem LockTimed.zeroCounts {s : State} (h : LockTimed s.disc) : LockTimed (zeroCounts s).disc :=
  ⟨h.timer, fun _ => rfl, fun _ => rfl⟩

theorem LockTimed.restartIfRunning {s : State} (h : LockTimed s.disc) : LockTimed (restartIfRunning s).disc := by
  unfold Machine.restartIfRunning
  split
  · next hl => exact ⟨⟨fun _ => hl, fun _ => rfl⟩, h.inWindow, h.outliers⟩
  · exact h

@[simp] theorem restartIfRunning_lock (s : State) : (restartIfRunning s).disc.lock = s.disc.lock := by
  unfold restartIfRunning; split <;> rfl

@[simp] theorem restartIfRunning_rx (s : State) : (restartIfRunning s).rx = s.rx := by
  unfold restartIfRunning; split <;> rfl

/-! ### Requests -/

/-- A changed selection that leaves the lock state outside FREE names a source (R33). -/
theorem lockAfterSelection_source {x : Selection} {old : LockState} (h : lockAfterSelection x old ≠ .free) :
    x.idInEffect.isSome = true := by
  cases x with
  | none => exact absurd rfl h
  | fixed i => rfl
  | acceptFirst a => exact absurd rfl h

theorem lockAfterSelection_ne_locked (x : Selection) (old : LockState) : lockAfterSelection x old ≠ .locked := by
  unfold lockAfterSelection
  split
  · split <;> decide
  · decide
  · decide

theorem setReferenceRun_lockOk {s : State} (h : LockOk s) (body : List Byte) : LockOk (setReferenceRun body s).1 := by
  unfold setReferenceRun
  dsimp only
  by_cases hx : requestedSelection body s.rx.selection ≠ s.rx.selection
  · rw [decide_eq_true hx, if_pos rfl]
    unfold disciplinePart
    rw [if_pos rfl]
    generalize requestedSelection body s.rx.selection = x
    have timed : LockTimed (changeSelection x { s with rx := { s.rx with linkDelay := field body 3 4 } }).disc := h.timed
    have selected : (changeSelection x { s with rx := { s.rx with linkDelay := field body 3 4 } }).rx.selection = x ∧
        (changeSelection x { s with rx := { s.rx with linkDelay := field body 3 4 } }).rx.seedPending = true := ⟨rfl, rfl⟩
    generalize changeSelection x { s with rx := { s.rx with linkDelay := field body 3 4 } } = u at timed selected
    obtain ⟨selection, pending⟩ := selected
    have after := ((timed.changeLock (lockAfterSelection_ne_locked x u.disc.lock) .selection).zeroCounts).restartIfRunning
    refine ⟨fun hl => ?_, fun _ => ?_, after.timer, after.inWindow, after.outliers⟩
    · simp only [restartIfRunning_lock, restartIfRunning_rx, zeroCounts_disc, zeroCounts_rx, changeLock_lock, changeLock_rx,
        selection] at hl ⊢
      exact lockAfterSelection_source hl
    · simp only [restartIfRunning_rx, zeroCounts_rx, changeLock_rx, pending]
  · rw [decide_eq_false hx, if_neg (by decide)]
    unfold disciplinePart
    rw [if_neg (by decide)]
    have after := LockTimed.restartIfRunning (s := { s with rx := { s.rx with linkDelay := field body 3 4 } }) h.timed
    refine ⟨fun hl => ?_, fun hl => ?_, after.timer, after.inWindow, after.outliers⟩
    · rw [restartIfRunning_lock] at hl
      rw [restartIfRunning_rx]
      exact h.source hl
    · rw [restartIfRunning_lock] at hl
      rw [restartIfRunning_rx]
      exact h.seed hl

theorem flushReferenceRun_lockOk {s : State} (h : LockOk s) (body : List Byte) : LockOk (flushReferenceRun body s).1 := by
  have flushed : LockOk (zeroCounts { s with rx := { s.rx with seedPending := true } }) :=
    ⟨h.source, fun _ => rfl, h.timer, fun _ => rfl, fun _ => rfl⟩
  unfold flushReferenceRun
  dsimp only
  generalize zeroCounts { s with rx := { s.rx with seedPending := true } } = u at flushed
  split
  · next hl =>
    have after := flushed.timed.changeLock (new := .acquire) (by decide) .flush
    refine ⟨fun _ => ?_, fun hf => ?_, after.timer, after.inWindow, after.outliers⟩
    · rw [changeLock_rx]
      exact flushed.source (by rcases hl with hl | hl <;> rw [hl] <;> decide)
    · rw [changeLock_lock] at hf
      cases hf
  · exact flushed

/-! ### Expiries -/

@[simp] theorem freeEntryNotice_disc (s : State) : (freeEntryNotice s).disc = s.disc := by
  unfold freeEntryNotice; split <;> rfl

@[simp] theorem freeEntryNotice_seedPending (s : State) : (freeEntryNotice s).rx.seedPending = true := by
  unfold freeEntryNotice; split <;> rfl

/-- An entry to FREE, of which the Receiver is told. -/
theorem LockTimed.freed {s : State} (h : LockTimed s.disc) (c : LockCause) : LockOk (freeEntryNotice (Machine.changeLock .free c s)) := by
  have after := h.changeLock (new := .free) (by decide) c
  refine ⟨fun hl => ?_, fun _ => freeEntryNotice_seedPending _, ?_, ?_, ?_⟩
  · rw [freeEntryNotice_disc, changeLock_lock] at hl
    exact absurd rfl hl
  · rw [freeEntryNotice_disc]; exact after.timer
  · rw [freeEntryNotice_disc]; exact after.inWindow
  · rw [freeEntryNotice_disc]; exact after.outliers

theorem execBeaconTimeoutExpiry_lockOk {s t : State} (hs : LockOk s) (h : exec .beaconTimeoutExpiry s = .next t) :
    LockOk t := by
  change execBeaconTimeoutExpiry s = .next t at h
  unfold execBeaconTimeoutExpiry at h
  split at h
  · split at h <;> cases h
    · exact hs.timed.freed .timeout
    · next hl =>
      have after := hs.timed.changeLock (new := .holdover) (by decide) .timeout
      refine ⟨fun _ => ?_, fun hf => ?_, after.timer, after.inWindow, after.outliers⟩
      · rw [changeLock_rx]; exact hs.source (by rw [hl]; decide)
      · rw [changeLock_lock] at hf; cases hf
    · exact hs
  · cases h; exact hs

theorem execHoldoverLimitReached_lockOk {s t : State} (hs : LockOk s) (h : exec .holdoverLimitReached s = .next t) :
    LockOk t := by
  change execHoldoverLimitReached s = .next t at h
  unfold execHoldoverLimitReached at h
  split at h <;> cases h
  · exact hs.timed.freed .holdoverLimit
  · exact hs

theorem Timer.advance_isRunning (n : Nat) (x : Timer) : (x.advance n).isRunning = x.isRunning := by cases x <;> rfl

theorem execUptimeIncrement_lockOk {s t : State} (hs : LockOk s) (h : exec .uptimeIncrement s = .next t) : LockOk t := by
  change execUptimeIncrement s = .next t at h
  unfold execUptimeIncrement at h
  split at h <;> cases h
  · refine ⟨hs.source, hs.seed, ?_, hs.inWindow, hs.outliers⟩
    show (s.disc.timer.advance _).isRunning = true ↔ _
    rw [Timer.advance_isRunning]
    exact hs.timer
  · exact hs

/-! ### Beacons -/

theorem stepBy_selection (c : StepCause) (a : Int) (s : State) : (stepBy c a s).rx.selection = s.rx.selection := by
  rcases stepBy_cases c a s with ⟨-, h⟩ | ⟨-, h⟩ | ⟨-, -, h⟩ <;> rw [h, stepTo_rx, Receiver.noteStep_eq]

theorem BeaconOutcome.selection {c : BeaconClass} {e : Int} {m : Nat} {s t : State} (h : BeaconOutcome c e m s t) :
    t.rx.selection = s.rx.selection := by
  cases h with
  | stepped => exact stepBy_selection _ _ _
  | counted | unlocks | direct | outside | inWindow | locks => rfl

/-- After a beacon the lock state is ACQUIRE or LOCKED, with the timer restarted and the other state's count 0. -/
theorem BeaconOutcome.lockOk {c : BeaconClass} {e : Int} {m : Nat} {s t : State} (h : BeaconOutcome c e m s t)
    (timed : LockTimed s.disc) (source : s.rx.selection.idInEffect.isSome = true) : LockOk t := by
  obtain ⟨lock, timer⟩ := lock_after_beacon h
  refine ⟨fun _ => by rw [h.selection]; exact source, fun hf => ?_, ?_, fun hl => ?_, fun hl => ?_⟩
  · rw [hf] at lock; simp at lock
  · rw [timer]; exact ⟨fun _ => lock, fun _ => rfl⟩
  · cases h with
    | counted ignored => exact timed.inWindow (by rw [ignored.1]; decide)
    | direct =>
      show (if s.disc.lock = .locked then s.disc.inWindow else 0) = 0
      split
      · next hs => exact timed.inWindow (by rw [hs]; decide)
      · rfl
    | locks => rfl
    | unlocks | stepped | outside | inWindow => exact absurd rfl hl
  · have entered : (inAcquire s).disc.outliers = 0 := by
      show (if s.disc.lock = .acquire then s.disc.outliers else 0) = 0
      split
      · next hs => exact timed.outliers (by rw [hs]; decide)
      · rfl
    cases h with
    | counted ignored => exact absurd ignored.1 hl
    | unlocks ignored => exact if_neg (by rw [show (outlierCounted s).disc.lock = s.disc.lock from rfl, ignored.1]; decide)
    | direct | locks => exact absurd rfl hl
    | stepped | outside | inWindow => exact entered

theorem execBeaconEnd_lockOk {s t : State} (hs : LockOk s) (h : exec .beaconEnd s = .next t) : LockOk t := by
  rcases exec_beaconEnd_cases h with ⟨-, hd, hx, hp⟩ | ⟨c, e, m, u, out, -, hd, source⟩
  · exact hs.congr ⟨⟨by rw [hd], by rw [hd], by rw [hd], by rw [hd]⟩, hx, hp⟩
  · exact out.lockOk (by rw [hd]; exact hs.timed) source

/-! ### Every command -/

theorem LockOk.reset (held : Bool) (s : State) : LockOk (resetBlocks held s) :=
  ⟨fun h => absurd rfl h, fun _ => rfl, by show false = true ↔ LockState.free = .acquire ∨ LockState.free = .locked; simp,
    fun _ => rfl, fun _ => rfl⟩

/-- The commands that can move the lock state, its timer and counts, the selection or seed-pending. -/
theorem touchedBy_lock (c : Instr) (h : Aspect.lock ∈ touchedBy c) :
    (∃ p, c = .setReference p) ∨ (∃ p, c = .flushReference p) ∨ (∃ x, c = .hubReset x) ∨ c = .resetRelease ∨
      c = .uptimeIncrement ∨ c = .beaconTimeoutExpiry ∨ c = .holdoverLimitReached ∨ c = .beaconEnd := by
  cases c
  case batchFix p q m => cases q <;> simp [touchedBy, requestCommand] at h
  all_goals simp [touchedBy, requestCommand, RequestKind.touched] at h ⊢

theorem exec_keeps_lockOk (c : Instr) (s t : State) (hs : LockOk s) (h : exec c s = .next t) : LockOk t := by
  have reply : ∀ p r u, LockOk u → LockOk (withReply p r u) := fun _ _ _ hu => hu.congr ⟨⟨rfl, rfl, rfl, rfl⟩, rfl, rfl⟩
  by_cases ht : Aspect.lock ∈ touchedBy c
  · rcases touchedBy_lock c ht with ⟨p, rfl⟩ | ⟨p, rfl⟩ | ⟨x, rfl⟩ | rfl | rfl | rfl | rfl | rfl
    · exact exec_request_keeps (k := .setReference) rfl h hs (reply p) fun body _ => setReferenceRun_lockOk hs body
    · exact exec_request_keeps (k := .flushReference) rfl h hs (reply p) fun body _ => flushReferenceRun_lockOk hs body
    · rcases exec_hubReset_cases h with rfl | rfl
      · exact hs
      · exact .reset _ _
    · rcases exec_resetRelease_cases h with rfl | rfl
      · exact hs
      · exact .reset _ _
    · exact execUptimeIncrement_lockOk hs h
    · exact execBeaconTimeoutExpiry_lockOk hs h
    · exact execHoldoverLimitReached_lockOk hs h
    · exact execBeaconEnd_lockOk hs h
  · exact hs.congr (exec_moves h _ ht)

/-- Settles O59: each change of lock state sets source, timer and counts as the new state asks. -/
theorem stepKeepsTheLockState : Obligations.StepKeepsTheLockState := by
  unfold Obligations.StepKeepsTheLockState
  exact fun s t hs h =>
    step_keeps (fun _ _ hu => hu.congr ⟨⟨rfl, rfl, rfl, rfl⟩, rfl, rfl⟩) exec_keeps_lockOk hs h

end Sys2Proof.Machine

/-! ## Teardown (section 9.2, R160) -/

namespace Sys2Proof.Machine

/-! ### The parts of a teardown, in the order of R160 -/

/-- The state after the parts of the lines `ls` in a teardown. -/
def afterLines (p : Port) (ls : List LineNo) (s : State) : State := (ls.foldl (teardownLine p) (s, ⟨0, 0, 0, false⟩)).1

/-- The state after every line's part and the cancellation of the entries. -/
def afterEntries (p : Port) (s : State) : State := (cancelByPort p (afterLines p allLines s)).1

theorem teardown_eq (p : Port) (s : State) :
    (teardown p s).1 = ((teardownLeases p (afterEntries p s)).setCap p ⟨[], 0, none, 0⟩).setSess p
      (teardownLeases p (afterEntries p s)).sess[p].emptied := by
  unfold teardown afterEntries afterLines
  simp only [State.setCap_sess]

section
variable (p : Port) (ls : List LineNo) (s : State)

theorem afterLines_lines (hl : ls.Nodup) (l : LineNo) (h : l ∈ ls) : (afterLines p ls s).lines[l] = (s.lines[l]).without p := by
  unfold afterLines
  rw [foldl_teardownLine_lines p ls hl, if_pos h]

theorem afterLines_watch (hl : ls.Nodup) (l : LineNo) (h : l ∈ ls) :
    (afterLines p ls s).watch[l] = watchWithout p s.lines[l] s.watch[l] := by
  unfold afterLines
  rw [foldl_teardownLine_watch p ls hl, if_pos h]

theorem afterLines_slots (i : SlotNo) : FreedOnlyFor p s.cal.slots[i] (afterLines p ls s).cal.slots[i] :=
  foldl_teardownLine_slots p ls (s, ⟨0, 0, 0, false⟩) i

theorem afterLines_leases : (afterLines p ls s).leases.filter (fun x => !decide (x.holder = p)) =
    s.leases.filter fun x => !decide (x.holder = p) :=
  foldl_teardownLine_leases p ls (s, ⟨0, 0, 0, false⟩)

theorem afterLines_rest : (afterLines p ls s).sess = s.sess ∧ (afterLines p ls s).authority = s.authority ∧
    (afterLines p ls s).caps = s.caps ∧ (afterLines p ls s).time = s.time :=
  ⟨foldl_teardownLine_sess p ls _, foldl_teardownLine_authority p ls _, foldl_teardownLine_caps p ls _,
    foldl_teardownLine_time p ls _⟩

end

theorem mem_allLines (l : LineNo) : l ∈ allLines := List.mem_finRange l

theorem nodup_allLines : allLines.Nodup := List.nodup_finRange 16

section
variable (p : Port) (s : State)

theorem afterEntries_lines (l : LineNo) : (afterEntries p s).lines[l] = (s.lines[l]).without p := by
  unfold afterEntries cancelByPort
  rw [cancelWhere_lines, afterLines_lines p allLines s nodup_allLines l (mem_allLines l)]

theorem afterEntries_watch (l : LineNo) : (afterEntries p s).watch[l] = watchWithout p s.lines[l] s.watch[l] := by
  unfold afterEntries cancelByPort
  rw [cancelWhere_watch, afterLines_watch p allLines s nodup_allLines l (mem_allLines l)]

theorem afterEntries_slots (i : SlotNo) :
    (afterEntries p s).cal.slots[i] = match s.cal.slots[i].entry with
      | some e => if e.owner = p then freedSlot s.cal.slots[i] else s.cal.slots[i]
      | none => s.cal.slots[i] := by
  unfold afterEntries cancelByPort
  rw [cancelWhere_slots]
  rcases afterLines_slots p allLines s i with same | ⟨freed, e, he, ho⟩
  · rw [same]
    cases s.cal.slots[i].entry with
    | none => rfl
    | some e => simp only [decide_eq_true_eq]
  · rw [freed, he]
    simp only [if_pos ho]
    rfl

theorem afterEntries_leases :
    (afterEntries p s).leases.filter (fun x => decide (x.holder ≠ p)) = s.leases.filter fun x => decide (x.holder ≠ p) := by
  unfold afterEntries cancelByPort
  simp only [decide_not]
  rw [cancelWhere_leases, afterLines_leases]

theorem afterEntries_rest : (afterEntries p s).sess = s.sess ∧ (afterEntries p s).authority = s.authority ∧
    (afterEntries p s).caps = s.caps ∧ (afterEntries p s).time = s.time := by
  unfold afterEntries cancelByPort
  rw [cancelWhere_sess, cancelWhere_authority, cancelWhere_caps, cancelWhere_time]
  exact afterLines_rest p allLines s

end

/-- The Lease Unit's part: the port's leases go, and a token it holds is freed with a notice to the other ports (R153). -/
theorem teardownLeases_of_holder {p : Port} {s : State} (h : s.authority = some p) :
    teardownLeases p s = broadcastExcept p (.authorityChanged (some p) none .teardown 0)
      { s with leases := s.leases.filter fun x => !decide (x.holder = p), authority := none } := if_pos h

theorem teardownLeases_of_not_holder {p : Port} {s : State} (h : s.authority ≠ some p) :
    teardownLeases p s = { s with leases := s.leases.filter fun x => !decide (x.holder = p) } := if_neg h

theorem teardownLeases_leases (p : Port) (s : State) :
    (teardownLeases p s).leases = s.leases.filter fun x => decide (x.holder ≠ p) := by
  simp only [decide_not]
  by_cases h : s.authority = some p
  · rw [teardownLeases_of_holder h]; rfl
  · rw [teardownLeases_of_not_holder h]

theorem teardownLeases_authority (p : Port) (s : State) :
    (teardownLeases p s).authority = if s.authority = some p then none else s.authority := by
  by_cases h : s.authority = some p
  · rw [teardownLeases_of_holder h, if_pos h]; rfl
  · rw [teardownLeases_of_not_holder h, if_neg h]

theorem teardownLeases_sess (p q : Port) (s : State) :
    (teardownLeases p s).sess[q] = if s.authority = some p ∧ q ≠ p then
      s.sess[q].push ⟨.authorityChanged (some p) none .teardown 0, s.time.uptime⟩ else s.sess[q] := by
  by_cases h : s.authority = some p
  · rw [teardownLeases_of_holder h, getElem_broadcastExcept_sess]
    by_cases hq : q = p
    · rw [if_pos hq, if_neg fun c => c.2 hq]
    · rw [if_neg hq, if_pos ⟨h, hq⟩]
  · rw [teardownLeases_of_not_holder h, if_neg fun c => h c.1]

/-! ### The whole teardown, field by field -/

theorem teardown_lines (p : Port) (s : State) (l : LineNo) : (teardown p s).1.lines[l] = (s.lines[l]).without p := by
  rw [teardown_eq, State.setSess_lines, State.setCap_lines, teardownLeases_lines, afterEntries_lines]

theorem teardown_watch (p : Port) (s : State) (l : LineNo) :
    (teardown p s).1.watch[l] = watchWithout p s.lines[l] s.watch[l] := by
  rw [teardown_eq, State.setSess_watch, State.setCap_watch, teardownLeases_watch, afterEntries_watch]

theorem teardown_slots (p : Port) (s : State) (i : SlotNo) :
    (teardown p s).1.cal.slots[i] = match s.cal.slots[i].entry with
      | some e => if e.owner = p then freedSlot s.cal.slots[i] else s.cal.slots[i]
      | none => s.cal.slots[i] := by
  rw [teardown_eq, State.setSess_cal, State.setCap_cal, teardownLeases_cal, afterEntries_slots]

theorem teardown_leases (p : Port) (s : State) :
    (teardown p s).1.leases = s.leases.filter fun x => decide (x.holder ≠ p) := by
  rw [teardown_eq, State.setSess_leases, State.setCap_leases, teardownLeases_leases, afterEntries_leases]

theorem teardown_authority (p : Port) (s : State) :
    (teardown p s).1.authority = if s.authority = some p then none else s.authority := by
  rw [teardown_eq, State.setSess_authority, State.setCap_authority, teardownLeases_authority, (afterEntries_rest p s).2.1]

theorem teardown_caps (p : Port) (s : State) : (teardown p s).1.caps = s.caps.set p ⟨[], 0, none, 0⟩ := by
  rw [teardown_eq, State.setSess_caps, State.setCap_caps, teardownLeases_caps, (afterEntries_rest p s).2.2.1]

theorem teardown_sess_self (p : Port) (s : State) :
    (teardown p s).1.sess[p] = { s.sess[p] with queue := [], loss := false, batch := none } := by
  rw [teardown_eq, State.setSess_sess, getElem_set_fin, if_pos rfl, teardownLeases_sess, if_neg fun c => c.2 rfl,
    (afterEntries_rest p s).1]
  rfl

theorem teardown_sess_other {p q : Port} (s : State) (h : q ≠ p) :
    (teardown p s).1.sess[q] = if s.authority = some p then
      s.sess[q].push ⟨.authorityChanged (some p) none .teardown 0, s.time.uptime⟩ else s.sess[q] := by
  obtain ⟨hs, ha, -, ht⟩ := afterEntries_rest p s
  rw [teardown_eq, State.setSess_sess, getElem_set_fin, if_neg h, State.setCap_sess, teardownLeases_sess, hs, ha, ht]
  exact if_congr (and_iff_left h) rfl rfl

/-- Settles O6: the teardown is its own steps in order, each with its reasoning rule. -/
theorem teardownClearsThePort : Obligations.TeardownClearsThePort := by
  unfold Obligations.TeardownClearsThePort
  intro p s t n
  obtain ⟨counts, count⟩ := teardown_counts p s
  have hn : n = _ := counts
  refine ⟨by rw [hn]; exact ⟨rfl, rfl, rfl, rfl⟩, fun l => ?_, fun l => ?_, fun i => ?_, teardown_cal_quota p s,
    teardown_cal_reached p s, count, teardown_leases p s, teardown_authority p s, teardown_caps p s,
    teardown_sess_self p s, fun q hq => teardown_sess_other s hq, teardown_ports p s, teardown_time p s, teardown_rx p s,
    teardown_disc p s, teardown_pins p s, teardown_inReset p s, teardown_freeCount p s⟩
  · exact (teardown_lines p s l).trans (by cases s.lines[l] <;> rfl)
  · exact (teardown_watch p s l).trans (by cases s.lines[l] <;> rfl)
  · exact (teardown_slots p s i).trans (by cases s.cal.slots[i].entry <;> rfl)

end Sys2Proof.Machine

/-! ## Quotas and entries (O56, O57) -/

namespace Sys2Proof.Machine

/-! ### Bytes as numbers (R183) -/

theorem natOf_append (l m : List Byte) : natOf (l ++ m) = natOf l * 256 ^ m.length + natOf m := by
  have fold : ∀ (m : List Byte) (n : Nat),
      m.foldl (fun n b => n * 256 + b.toNat) n = n * 256 ^ m.length + m.foldl (fun n b => n * 256 + b.toNat) 0 := by
    intro m
    induction m with
    | nil => simp
    | cons b m ih =>
      intro n
      rw [List.foldl_cons, List.foldl_cons, ih, ih (0 * 256 + b.toNat), List.length_cons, pow_succ]
      ring
  unfold natOf
  rw [List.foldl_append, fold]

theorem natOf_cons (b : Byte) (l : List Byte) : natOf (b :: l) = b.toNat * 256 ^ l.length + natOf l := by
  rw [← List.singleton_append, natOf_append]
  simp [natOf]

theorem natOf_lt (l : List Byte) : natOf l < 256 ^ l.length := by
  induction l with
  | nil => decide
  | cons b l ih =>
    have hb := b.isLt
    rw [natOf_cons, List.length_cons, pow_succ]
    have : b.toNat * 256 ^ l.length ≤ 255 * 256 ^ l.length := Nat.mul_le_mul_right _ (by omega)
    omega

/-- A field of `k` bytes is below 256^k, also where the body ends before it does. -/
theorem field_lt (body : List Byte) (off k : Nat) : field body off k < 256 ^ k :=
  (natOf_lt _).trans_le (Nat.pow_le_pow_right (by decide) (List.length_take_le _ _))

/-! ### Collisions (R86, R92) -/

/-- The grid test of the model is the grid of R86. -/
theorem inGrid_iff (f n : Nat) (c : Option Nat) (t : Nat) : inGrid f n c t = true ↔ Occurs f n c t := by
  have range : rangeNs = 4294967296000000000 := rfl
  have spelt : inGrid f n c t = true ↔ f ≤ t ∧ (t - f) % n = 0 ∧ t < 4294967296000000000 ∧
      ∀ m, c = some m → (t - f) / n < m := by
    unfold inGrid
    cases c <;> simp [range, and_assoc]
  rw [spelt]
  constructor
  · rintro ⟨le, mod, lt, count⟩
    refine ⟨(t - f) / n, ?_, count, lt⟩
    have := Nat.div_add_mod (t - f) n
    rw [mod, Nat.mul_comm] at this
    omega
  · rintro ⟨k, rfl, count, lt⟩
    refine ⟨Nat.le_add_right _ _, ?_, lt, fun m hm => ?_⟩ <;> rw [Nat.add_sub_cancel_left]
    · exact Nat.mul_mod_left k n
    · exact (Nat.div_le_of_le_mul (by rw [Nat.mul_comm])).trans_lt (count m hm)

theorem collides_iff (e x : Entry) : collides e x = true ↔ Collide e x := by
  unfold collides Collide
  cases e.repetition <;> cases x.repetition <;> simp [inGrid_iff]

theorem Collide.symm {e x : Entry} (h : Collide e x) : Collide x e := by
  unfold Collide at *
  cases he : e.repetition <;> cases hx : x.repetition <;> simp only [he, hx] at h ⊢
  · exact h.symm
  · exact h
  · exact h

/-- Two entries that one line can hold together. -/
def Apart (x y : Entry) : Prop := x.fireTime ≠ y.fireTime ∧ ¬ Collide x y

theorem Apart.symm {x y : Entry} (h : Apart x y) : Apart y x := ⟨h.1.symm, fun c => h.2 c.symm⟩

/-- An entry that loses passed occurrences keeps to its grid, so it stays apart from the others (R92, R109). -/
theorem Apart.descends {x x' y : Entry} (h : Apart x y) (d : x.Descends x') : Apart x' y := by
  rcases d with rfl | ⟨n, c, k, hx, lt, hc, rfl⟩
  · exact h
  · obtain ⟨-, apart⟩ := h
    cases hy : y.repetition with
    | periodic m b => exact absurd (by unfold Collide; rw [hx, hy]; trivial) apart
    | oneShot =>
      have off : ¬ Occurs x.fireTime n c y.fireTime := by
        unfold Collide at apart
        rwa [hx, hy] at apart
      refine ⟨fun same => off ⟨k, same.symm, fun m hm => ?_, same ▸ lt⟩, fun collide => off ?_⟩
      · subst hm
        simp only [Option.map_some, ne_eq, Option.some.injEq] at hc
        omega
      · unfold Collide at collide
        rw [hy] at collide
        obtain ⟨j, hj, count, range⟩ := collide
        have at_grid : y.fireTime = x.fireTime + (k + j) * n := by
          rw [Nat.add_mul, ← Nat.add_assoc]
          exact hj
        refine ⟨k + j, at_grid, fun m hm => ?_, range⟩
        have := count (m - k) (by rw [hm]; rfl)
        omega

theorem EntryOk.descends {x y : Entry} (h : EntryOk x) (d : x.Descends y) : EntryOk y := by
  rcases d with rfl | ⟨n, c, k, hx, lt, hc, rfl⟩
  · exact h
  · refine ⟨lt, h.width, fun m b hm => ?_, fun m b hm => ?_⟩
    · cases hm
      exact h.period n c hx
    · simp only [Repetition.periodic.injEq] at hm
      obtain ⟨rfl, hm⟩ := hm
      cases c with
      | none => cases hm
      | some a =>
        have := h.count n a hx
        simp only [Option.map_some, Option.some.injEq, ne_eq] at hm hc
        omega

/-! ### The entry that a SCHEDULE asks for (R88) -/

theorem actionOf_width {code : Nat} {w : Option Nat} {a : Action} (h : actionOf code w = some a) {n : Nat}
    (hn : a = .pulse n) : ∃ ns, w = some ns ∧ n = (ns + 7) / 8 := by
  subst hn
  unfold actionOf at h
  split at h <;> cases h
  exact ⟨_, rfl, rfl⟩

theorem repetitionOf_periodic {a : Action} {period count : Option Nat} {n : Nat} {c : Option Nat}
    (h : repetitionOf a period count = some (.periodic n c)) :
    1000 ≤ n ∧ n ≤ 4000000000 ∧ c = count ∧ count ≠ some 0 := by
  unfold repetitionOf at h
  split at h
  · split at h <;> cases h
  · split at h
    · next hp => cases h; exact ⟨hp.1, hp.2.1, rfl, hp.2.2.1⟩
    · cases h

/-- What the field check accepts, it accepts as an entry of the requester with these parts. -/
theorem entryOf_some {p : Port} {x : ScheduleFields} {e : Entry} (h : entryOf p x = some e) :
    (x.presence < 8 ∧ x.policies < 64 ∧ x.nanos < 1000000000 ∧ 8 ≤ x.width.getD 8 ∧ x.width.getD 8 ≤ 1000000000) ∧
    e.owner = p ∧ lineOf x.line = some e.line ∧ actionOf x.action x.width = some e.action ∧ e.fireTime = x.time ∧
    repetitionOf e.action x.period x.count = some e.repetition ∧ latePolicyOf (x.policies % 4) = some e.latePolicy ∧
    stepPolicyOf (x.policies / 4 % 4) = some e.stepPolicy ∧ notifyOf (x.policies / 16 % 4) = some e.notify := by
  unfold entryOf at h
  split at h
  · next ranges =>
    split at h
    · next l a lp sp nt hl ha hlp hsp hnt =>
      split at h
      · next r hr =>
        cases h
        exact ⟨ranges, rfl, hl, ha, rfl, hr, hlp, hsp, hnt⟩
      · cases h
    · cases h
  · cases h

theorem entryOf_ok {p : Port} {body : List Byte} {e : Entry} (h : entryOf p (scheduleFields body) = some e) : EntryOk e := by
  obtain ⟨⟨-, -, nanos, low, high⟩, -, -, ha, ht, hr, -⟩ := entryOf_some h
  refine ⟨?_, fun w hw => ?_, fun n c hn => ?_, fun n m hn => ?_⟩
  · have hs := field_lt body 7 4
    have ht' : e.fireTime = field body 7 4 * 1000000000 + field body 11 4 := ht
    have hn : field body 11 4 < 1000000000 := nanos
    omega
  · obtain ⟨ns, hns, rfl⟩ := actionOf_width ha hw
    rw [hns] at low high
    simp only [Option.getD_some] at low high
    omega
  · rw [hn] at hr
    obtain ⟨h1, h2, -⟩ := repetitionOf_periodic hr
    exact ⟨h1, h2⟩
  · rw [hn] at hr
    obtain ⟨-, -, hc, h0⟩ := repetitionOf_periodic hr
    rw [← hc] at h0
    have : m < 65536 := by
      simp only [scheduleFields] at hc
      split at hc
      · cases hc; exact field_lt _ _ 2
      · cases hc
    have : m ≠ 0 := fun h => h0 (by rw [h])
    omega

/-! ### The Calendar's own checks (R89 to R93) -/

theorem conflicts_iff (s : State) (e : Entry) : s.conflicts e = true ↔
    ∃ (i : SlotNo) (x : Entry), s.cal.slots[i].entry = some x ∧ x.line = e.line ∧ Collide e x := by
  have spelt : s.conflicts e = true ↔ ∃ i, i ∈ s.slotsWhere fun x => decide (x.line = e.line) && collides e x := by
    unfold State.conflicts
    rw [Bool.not_eq_true', List.isEmpty_eq_false_iff, List.ne_nil_iff_exists_cons]
    constructor
    · rintro ⟨i, l, h⟩; exact ⟨i, by rw [h]; simp⟩
    · rintro ⟨i, h⟩
      cases hl : s.slotsWhere fun x => decide (x.line = e.line) && collides e x with
      | nil => rw [hl] at h; cases h
      | cons j l => exact ⟨j, l, rfl⟩
  rw [spelt]
  refine exists_congr fun i => mem_slotsWhere.trans (exists_congr fun x => and_congr_right fun _ => ?_)
  rw [Bool.and_eq_true, decide_eq_true_eq, collides_iff]

/-- A SCHEDULE passes the Calendar's checks exactly if all five hold. -/
theorem scheduleCheck_ok {p : Port} {epoch : Nat} {e : Entry} {s : State} : scheduleCheck p epoch e s = .ok ↔
    s.holds p e.line = true ∧ epoch = s.time.epoch.toNat ∧ s.tooSoon e.fireTime = false ∧ s.conflicts e = false ∧
      s.cal.count[p] < s.cal.quota[p] := by
  unfold scheduleCheck
  cases s.holds p e.line <;> cases s.tooSoon e.fireTime <;> cases s.conflicts e <;> simp
  · split <;> simp_all
  all_goals split <;> simp

theorem freeSlot_some {s : State} {i : SlotNo} (h : s.freeSlot = some i) : s.cal.slots[i].entry = none := by
  have := List.find?_some h
  simpa using this

/-- What the owning block does with a SCHEDULE: nothing, or it inserts the entry in a free slot. -/
theorem scheduleRun_cases (p : Port) (body : List Byte) (s : State) :
    (scheduleRun p body s).1 = s ∨ ∃ (e : Entry) (i : SlotNo), entryOf p (scheduleFields body) = some e ∧
      scheduleCheck p (scheduleFields body).epoch e s = .ok ∧ s.freeSlot = some i ∧
      (scheduleRun p body s).1 = insertEntry i e s := by
  unfold scheduleRun
  dsimp only
  cases he : entryOf p (scheduleFields body) with
  | none => exact .inl rfl
  | some e =>
    dsimp only
    by_cases hv : scheduleCheck p (scheduleFields body).epoch e s = .ok
    · rw [if_neg (not_not.2 hv)]
      cases hi : s.freeSlot with
      | none => exact .inl rfl
      | some i => exact .inr ⟨e, i, rfl, hv, rfl, rfl⟩
    · rw [if_pos hv]
      exact .inl rfl

theorem insertEntry_slots (i j : SlotNo) (e : Entry) (s : State) : (insertEntry i e s).cal.slots[j] =
    if j = i then ⟨s.cal.slots[i].generation, some e⟩ else s.cal.slots[j] := by
  show (s.cal.slots.set i _)[j] = _
  rw [getElem_set_fin]

/-! ### Every command keeps the entries apart (O57) -/

theorem CalendarOk.congr {s t : State} (h : CalendarOk s) (entries : Aspect.entries.Kept s t) : CalendarOk t := by
  constructor
  · intro i y hy
    obtain ⟨x, hx, d⟩ := entries i y hy
    exact (h.fields i x hx).descends d
  · intro i j x y hx hy hij hl
    obtain ⟨x₀, hx₀, dx⟩ := entries i x hx
    obtain ⟨y₀, hy₀, dy⟩ := entries j y hy
    have apart : Apart x₀ y₀ := h.apart i j x₀ y₀ hx₀ hy₀ hij (by rw [← dx.line, ← dy.line, hl])
    exact ((apart.descends dx).symm.descends dy).symm

/-- The inserted entry is apart from every entry of its line. -/
theorem CalendarOk.inserted_apart {s : State} (h : CalendarOk s) {e x : Entry} (ok : EntryOk e) (free : s.conflicts e = false)
    {i : SlotNo} (hx : s.cal.slots[i].entry = some x) (hl : x.line = e.line) : Apart e x := by
  have apart : ¬ Collide e x := fun c => by
    have := (conflicts_iff s e).2 ⟨i, x, hx, hl, c⟩
    rw [free] at this
    cases this
  have first (y : Entry) (hy : EntryOk y) (n : Nat) (c : Option Nat) (hr : y.repetition = .periodic n c) :
      Occurs y.fireTime n c y.fireTime :=
    ⟨0, by omega, fun m hm => (hy.count n m (hm ▸ hr)).1, hy.fireTime⟩
  refine ⟨fun same => apart ?_, apart⟩
  unfold Collide
  cases he : e.repetition <;> cases hr : x.repetition <;> simp only
  · exact same.symm
  · rw [same]; exact first x (h.fields i x hx) _ _ hr
  · rw [← same]; exact first e ok _ _ he

theorem CalendarOk.insertEntry {s : State} (h : CalendarOk s) {i : SlotNo} {e : Entry} (ok : EntryOk e)
    (free : s.conflicts e = false) : CalendarOk (insertEntry i e s) := by
  have split : ∀ j x, (Machine.insertEntry i e s).cal.slots[j].entry = some x →
      (j = i ∧ x = e) ∨ (j ≠ i ∧ s.cal.slots[j].entry = some x) := by
    intro j x hx
    rw [insertEntry_slots] at hx
    by_cases hj : j = i
    · rw [if_pos hj] at hx; cases hx; exact .inl ⟨hj, rfl⟩
    · rw [if_neg hj] at hx; exact .inr ⟨hj, hx⟩
  constructor
  · intro j x hx
    rcases split j x hx with ⟨-, rfl⟩ | ⟨-, hx⟩
    · exact ok
    · exact h.fields j x hx
  · intro j k x y hx hy hjk hl
    rcases split j x hx with ⟨hj, rfl⟩ | ⟨-, oldX⟩ <;> rcases split k y hy with ⟨hk, hye⟩ | ⟨-, oldY⟩
    · exact absurd (hj.trans hk.symm) hjk
    · exact h.inserted_apart ok free oldY hl.symm
    · subst hye
      exact (h.inserted_apart ok free oldX hl).symm
    · exact h.apart j k x y oldX oldY hjk hl

/-- After a reset no slot holds an entry. -/
theorem resetBlocks_entry (held : Bool) (s : State) (i : SlotNo) : (resetBlocks held s).cal.slots[i].entry = none := by
  show (Vector.replicate 64 (⟨0, none⟩ : Slot))[i].entry = none
  rw [Fin.getElem_fin, Vector.getElem_replicate]

theorem CalendarOk.of_empty {s : State} (h : ∀ i : SlotNo, s.cal.slots[i].entry = none) : CalendarOk s :=
  ⟨fun i _ he => (by rw [h i] at he; cases he), fun i _ _ _ hx => (by rw [h i] at hx; cases hx)⟩

/-- The commands that can give a slot an entry, or change the tally otherwise than by removals. -/
theorem touchedBy_entries (c : Instr) (h : Aspect.entries ∈ touchedBy c ∨ Aspect.tally ∈ touchedBy c) :
    (∃ p, c = .schedule p) ∨ (∃ x, c = .hubReset x) ∨ c = .resetRelease := by
  cases c
  case batchFix p q m => cases q <;> simp [touchedBy, requestCommand] at h
  all_goals simp [touchedBy, requestCommand, RequestKind.touched] at h ⊢

theorem exec_keeps_calendarOk (c : Instr) (s t : State) (hs : CalendarOk s) (h : exec c s = .next t) : CalendarOk t := by
  by_cases ht : Aspect.entries ∈ touchedBy c
  · rcases touchedBy_entries c (.inl ht) with ⟨p, rfl⟩ | ⟨x, rfl⟩ | rfl
    · refine exec_request_keeps (k := .schedule) rfl h hs (fun _ _ hu => ⟨hu.fields, hu.apart⟩) fun body _ => ?_
      rcases scheduleRun_cases p body s with same | ⟨e, i, he, checks, -, inserted⟩
      · show CalendarOk (scheduleRun p body s).1
        rw [same]; exact hs
      · show CalendarOk (scheduleRun p body s).1
        obtain ⟨-, -, -, free, -⟩ := scheduleCheck_ok.1 checks
        rw [inserted]
        exact hs.insertEntry (entryOf_ok he) free
    · rcases exec_hubReset_cases h with rfl | rfl
      · exact hs
      · exact .of_empty (resetBlocks_entry _ _)
    · rcases exec_resetRelease_cases h with rfl | rfl
      · exact hs
      · exact .of_empty (resetBlocks_entry _ _)
  · exact hs.congr (exec_moves h _ ht)

/-- Settles O57: an insertion is checked against the line's entries, and what is left of an entry after a pass descends from it. -/
theorem stepKeepsTheEntriesApart : Obligations.StepKeepsTheEntriesApart := by
  unfold Obligations.StepKeepsTheEntriesApart
  exact fun s t hs h => step_keeps (fun _ _ hu => ⟨hu.fields, hu.apart⟩) exec_keeps_calendarOk hs h

/-! ### Every command keeps the quotas (O56) -/

theorem QuotaOk.congr {s t : State} (h : QuotaOk s) (tally : Aspect.tally.Kept s t) (quota : Aspect.quota.Kept s t) :
    QuotaOk t := by
  have hq : t.cal.quota = s.cal.quota := quota
  obtain ⟨count, le⟩ := tally h.count
  exact ⟨by rw [hq]; exact h.sum, count, fun p => by rw [hq]; exact (le p).trans (h.quota p)⟩

theorem insertEntry_ownedCount {i : SlotNo} {e : Entry} {s : State} (free : s.cal.slots[i].entry = none) (p : Port) :
    ownedCount (insertEntry i e s) p = ownedCount s p + if e.owner = p then 1 else 0 := by
  have h := length_filter_set s.cal.slots i ⟨s.cal.slots[i].generation, some e⟩ p
  have h0 : s.cal.slots[i].ownedBy p = false := by simp only [Slot.ownedBy, free]
  have h1 : (⟨s.cal.slots[i].generation, some e⟩ : Slot).ownedBy p = decide (e.owner = p) := rfl
  rw [h0, h1] at h
  by_cases ho : e.owner = p <;> simp only [ho, decide_true, decide_false, if_true, if_false] at h ⊢ <;> exact h

theorem QuotaOk.insertEntry {s : State} (h : QuotaOk s) {i : SlotNo} {e : Entry} (free : s.cal.slots[i].entry = none)
    (room : s.cal.count[e.owner] < s.cal.quota[e.owner]) : QuotaOk (insertEntry i e s) := by
  have count : ∀ p : Port, (Machine.insertEntry i e s).cal.count[p] =
      s.cal.count[p] + if e.owner = p then 1 else 0 := by
    intro p
    show (s.cal.count.set e.owner _)[p] = _
    rw [getElem_set_fin]
    by_cases hp : p = e.owner
    · subst hp; simp only [if_true]
    · rw [if_neg hp, if_neg fun c => hp c.symm, Nat.add_zero]
  refine ⟨h.sum, fun p => by rw [count, insertEntry_ownedCount free, h.count], fun p => ?_⟩
  have := h.quota p
  rw [count]
  show _ ≤ s.cal.quota[p]
  by_cases hp : e.owner = p
  · subst hp; rw [if_pos rfl]; exact room
  · rw [if_neg hp]; exact this

theorem setQuotaRun_quotaOk {s : State} (h : QuotaOk s) (body : List Byte) : QuotaOk (setQuotaRun body s).1 := by
  unfold setQuotaRun
  dsimp only
  split
  · exact h
  · next sum =>
    split
    · exact h
    · next le =>
      refine ⟨not_lt.1 sum, h.count, fun p => ?_⟩
      show s.cal.count[p] ≤ (s.cal.quota.set _ _)[p]
      rw [getElem_set_fin]
      split
      · next hp => subst hp; exact not_lt.1 le
      · exact h.quota p

theorem QuotaOk.reset (held : Bool) (s : State) : QuotaOk (resetBlocks held s) := by
  have count : ∀ p : Port, (resetBlocks held s).cal.count[p] = 0 := fun p => by
    show (Vector.replicate 4 0)[p] = 0
    rw [Fin.getElem_fin, Vector.getElem_replicate]
  refine ⟨by show sumPorts (Vector.replicate 4 16) ≤ 64; decide, fun p => ?_, fun p => by rw [count]; exact Nat.zero_le _⟩
  have none_owned : (resetBlocks held s).slotsWhere (fun e => decide (e.owner = p)) = [] := by
    rw [List.eq_nil_iff_forall_not_mem]
    intro i hi
    obtain ⟨e, he, -⟩ := mem_slotsWhere.1 hi
    rw [resetBlocks_entry] at he
    cases he
  rw [count, ownedCount, none_owned]
  rfl

theorem touchedBy_quota (c : Instr) (h : Aspect.quota ∈ touchedBy c) :
    (∃ p, c = .setQuota p) ∨ (∃ x, c = .hubReset x) ∨ c = .resetRelease := by
  cases c
  case batchFix p q m => cases q <;> simp [touchedBy, requestCommand] at h
  all_goals simp [touchedBy, requestCommand, RequestKind.touched] at h ⊢

theorem exec_keeps_quotaOk (c : Instr) (s t : State) (hs : QuotaOk s) (h : exec c s = .next t) : QuotaOk t := by
  have reply : ∀ p r u, QuotaOk u → QuotaOk (withReply p r u) := fun _ _ _ hu => ⟨hu.sum, hu.count, hu.quota⟩
  by_cases ht : Aspect.tally ∈ touchedBy c
  · rcases touchedBy_entries c (.inr ht) with ⟨p, rfl⟩ | ⟨x, rfl⟩ | rfl
    · refine exec_request_keeps (k := .schedule) rfl h hs (reply p) fun body _ => ?_
      show QuotaOk (scheduleRun p body s).1
      rcases scheduleRun_cases p body s with same | ⟨e, i, he, checks, slot, inserted⟩
      · rw [same]; exact hs
      · obtain ⟨-, -, -, -, room⟩ := scheduleCheck_ok.1 checks
        obtain ⟨-, owner, -⟩ := entryOf_some he
        rw [inserted]
        exact hs.insertEntry (freeSlot_some slot) (owner ▸ room)
    · rcases exec_hubReset_cases h with rfl | rfl
      · exact hs
      · exact .reset _ _
    · rcases exec_resetRelease_cases h with rfl | rfl
      · exact hs
      · exact .reset _ _
  · by_cases hq : Aspect.quota ∈ touchedBy c
    · rcases touchedBy_quota c hq with ⟨p, rfl⟩ | ⟨x, rfl⟩ | rfl
      · exact exec_request_keeps (k := .setQuota) rfl h hs (reply p) fun body _ => setQuotaRun_quotaOk hs body
      · exact absurd (by simp [touchedBy, requestCommand]) ht
      · exact absurd (by simp [touchedBy, requestCommand]) ht
    · exact hs.congr (exec_moves h _ ht) (exec_moves h _ hq)

/-- Settles O56: every insertion and removal moves its owner's count by one. -/
theorem stepKeepsTheQuotas : Obligations.StepKeepsTheQuotas := by
  unfold Obligations.StepKeepsTheQuotas
  exact fun s t hs h => step_keeps (fun _ _ hu => ⟨hu.sum, hu.count, hu.quota⟩) exec_keeps_quotaOk hs h

end Sys2Proof.Machine

/-! ## Every command keeps the notice and capture queues in bounds (O54) -/

namespace Sys2Proof.Machine

/-! ### Notice queues (R163, R164) -/

theorem NoticeQueueOk.push {x : Session} (h : NoticeQueueOk x) (n : Notice) : NoticeQueueOk (x.push n) := by
  rcases Session.push_cases n x with ⟨-, e⟩ | ⟨att, room, e⟩ | ⟨att, full, e⟩ <;> rw [e]
  · exact h
  · refine ⟨?_, fun b hb => ?_, fun hl => ?_, fun hd => ?_⟩
    · show (x.queue ++ [n]).length ≤ 16
      rw [List.length_append, List.length_singleton]
      omega
    · obtain ⟨h8, hq, late⟩ := h.batch b hb
      show _ ∧ _ ≤ (x.queue ++ [n]).length ∧ (_ → (x.queue ++ [n]).length = 16)
      rw [List.length_append, List.length_singleton]
      exact ⟨h8, by omega, fun hl => absurd (late hl) (by omega)⟩
    · have := h.loss hl
      show 8 ≤ (x.queue ++ [n]).length
      rw [List.length_append, List.length_singleton]
      omega
    · exact absurd (att.symm.trans hd) (by decide)
  · have bound := h.bound
    refine ⟨bound, fun b hb => ?_, fun _ => ?_, fun hd => absurd (att.symm.trans hd) (by decide)⟩
    · obtain ⟨a, ha, rfl⟩ := Option.map_eq_some_iff.1 hb
      obtain ⟨h8, hq, -⟩ := h.batch a ha
      exact ⟨h8, hq, fun _ => Nat.le_antisymm bound full⟩
    · exact le_trans (by decide) full

theorem NoticeQueueOk.pushes {x : Session} (h : NoticeQueueOk x) (ns : List Notice) :
    NoticeQueueOk (ns.foldl (fun x n => x.push n) x) := by
  induction ns generalizing x with
  | nil => exact h
  | cons n ns ih => exact ih (h.push n)

/-- A session with an empty queue, no loss flag and no batch. -/
theorem NoticeQueueOk.of_empty {x : Session} (queue : x.queue = []) (loss : x.loss = false) (batch : x.batch = none) :
    NoticeQueueOk x :=
  ⟨by rw [queue]; decide, by simp [batch], by simp [loss], fun _ => ⟨queue, loss⟩⟩

/-- A batch of at most 8 of the queued notices is fixed. -/
theorem NoticeQueueOk.fix {x : Session} (h : NoticeQueueOk x) {m : Nat} (hm : m ≤ 8) :
    NoticeQueueOk { x with batch := some ⟨min m x.queue.length, x.loss, false⟩ } := by
  refine ⟨h.bound, fun b hb => ?_, h.loss, h.detached⟩
  cases hb
  exact ⟨(Nat.min_le_left _ _).trans hm, Nat.min_le_right _ _, fun c => Bool.noConfusion c⟩

/-- A batch is settled: the loss flag can stand only where 8 notices stay queued (R164). -/
theorem NoticeQueueOk.settle {x : Session} (h : NoticeQueueOk x) (complete : Bool) : NoticeQueueOk (x.settleBatch complete) := by
  unfold Session.settleBatch
  split
  · exact h
  · next b hb =>
    obtain ⟨h8, hq, late⟩ := h.batch b hb
    have bound := h.bound
    cases complete with
    | false => exact ⟨bound, fun c hc => (nomatch hc), h.loss, h.detached⟩
    | true =>
      refine ⟨?_, fun c hc => (nomatch hc), fun hl => ?_, fun hd => ?_⟩
      · show (x.queue.drop b.fixed).length ≤ 16
        rw [List.length_drop]
        omega
      · have := late hl
        show 8 ≤ (x.queue.drop b.fixed).length
        rw [List.length_drop]
        omega
      · obtain ⟨empty, -⟩ := h.detached hd
        refine ⟨by simp [empty], ?_⟩
        show b.late = false
        by_contra hl
        have := late (by simpa using hl)
        rw [empty] at this
        cases this

/-! ### Capture queues (R130, R132) -/

theorem CapturePort.push_length (k : Nat) (r : CaptureRecord) (x : CapturePort) :
    (x.push k r).queue.length = if x.queue.length < 32 then x.queue.length + 1 else x.queue.length := by
  obtain ⟨before, group, after, hq, -, -, -, -, lost, e⟩ := CapturePort.push_cases k r x
  have ha : after.length = group.length + 1 := by simpa using congrArg List.length lost
  have hl : x.queue.length = before.length + group.length := by rw [hq, List.length_append]
  rw [e]
  split
  · show (before ++ after).length = _
    rw [List.length_append]
    omega
  · show (before ++ after.dropLast).length = _
    rw [List.length_append, List.length_dropLast]
    omega

theorem CapturePort.push_lost (k : Nat) (r : CaptureRecord) (x : CapturePort) :
    (x.push k r).lost = if x.queue.length < 32 then 0 else min 255 (x.lost + 1) := by
  unfold CapturePort.push
  dsimp only
  split <;> rfl

theorem CapturePort.push_fresh (k : Nat) (r : CaptureRecord) (x : CapturePort) :
    (x.push k r).fresh = if x.queue.length < 32 then x.fresh + 1 else x.fresh := by
  unfold CapturePort.push
  dsimp only
  split <;> rfl

theorem CaptureQueueOk.push {x : CapturePort} (h : CaptureQueueOk x) (k : Nat) (r : CaptureRecord) :
    CaptureQueueOk (x.push k r) := by
  have bound := h.bound
  have fresh := h.fresh
  have grows : x.queue.length ≤ (x.push k r).queue.length := by
    rw [CapturePort.push_length]
    split <;> omega
  refine ⟨?_, ?_, fun n hn => ?_, ?_⟩
  · rw [CapturePort.push_length]
    split <;> omega
  · rw [CapturePort.push_lost]
    split <;> omega
  · rw [CapturePort.push_batch] at hn
    obtain ⟨h1, h8, hq⟩ := h.batch n hn
    exact ⟨h1, h8, hq.trans grows⟩
  · rw [CapturePort.push_batch, CapturePort.push_length, CapturePort.push_fresh]
    split <;> omega

theorem CaptureQueueOk.empty : CaptureQueueOk ⟨[], 0, none, 0⟩ :=
  ⟨Nat.zero_le _, Nat.zero_le _, fun _ hn => (nomatch hn), Nat.le_refl _⟩

theorem CaptureQueueOk.settleOrder {x : CapturePort} (h : CaptureQueueOk x) : CaptureQueueOk x.settleOrder :=
  ⟨h.bound, h.lost, h.batch, le_trans (Nat.le_add_right _ _) h.fresh⟩

theorem CaptureQueueOk.fix {x : CapturePort} (h : CaptureQueueOk x) {m : Nat} (hm : m ≤ 8) :
    CaptureQueueOk { x with
      batch := if min m x.queue.length = 0 then none else some (min m x.queue.length)
      fresh := min x.fresh (x.queue.length - min m x.queue.length) } := by
  refine ⟨h.bound, h.lost, fun n hn => ?_, ?_⟩
  · change (if min m x.queue.length = 0 then none else some (min m x.queue.length)) = some n at hn
    show _ ∧ _ ∧ n ≤ x.queue.length
    split at hn <;> cases hn
    omega
  · show (if min m x.queue.length = 0 then none else some (min m x.queue.length)).getD 0 +
      min x.fresh (x.queue.length - min m x.queue.length) ≤ x.queue.length
    split
    · rw [Option.getD_none]; omega
    · rw [Option.getD_some]; omega

theorem CaptureQueueOk.settle {x : CapturePort} (h : CaptureQueueOk x) (complete : Bool) :
    CaptureQueueOk (x.settleBatch complete) := by
  have fresh := h.fresh
  have bound := h.bound
  unfold CapturePort.settleBatch
  split
  · exact h
  · next n hn =>
    rw [hn, Option.getD_some] at fresh
    cases complete with
    | false => exact ⟨bound, h.lost, fun c hc => (nomatch hc), by show 0 + x.fresh ≤ x.queue.length; omega⟩
    | true =>
      refine ⟨?_, h.lost, fun c hc => (nomatch hc), ?_⟩
      · show (x.queue.drop n).length ≤ 32
        rw [List.length_drop]
        omega
      · show 0 + x.fresh ≤ (x.queue.drop n).length
        rw [List.length_drop]
        omega

/-! ### The queues of every port -/

theorem sess_forall_set {P : Session → Prop} {v : Vector Session 4} {p : Port} {x : Session} (hx : P x)
    (h : ∀ q : Port, q ≠ p → P v[q]) (q : Port) : P (v.set p x)[q] := by
  rw [getElem_set_fin]
  split
  · exact hx
  · next hq => exact h q hq

theorem caps_forall_set {P : CapturePort → Prop} {v : Vector CapturePort 4} {p : Port} {x : CapturePort} (hx : P x)
    (h : ∀ q : Port, P v[q]) (q : Port) : P (v.set p x)[q] := by
  rw [getElem_set_fin]
  split
  · exact hx
  · exact h q

section
variable {s t : State}

theorem QueuesOk.congr (h : QueuesOk s) (sessions : Aspect.sessions.Kept s t) (caps : Aspect.caps.Kept s t) : QueuesOk t := by
  have hc : t.caps = s.caps := caps
  refine ⟨fun p => ?_, fun p => by rw [hc]; exact h.2 p⟩
  obtain ⟨ns, hn⟩ := sessions p
  rw [hn]
  exact (h.1 p).pushes ns

theorem QueuesOk.setSess (h : QueuesOk s) {p : Port} {x : Session} (hx : NoticeQueueOk x) : QueuesOk (s.setSess p x) :=
  ⟨sess_forall_set hx fun q _ => h.1 q, h.2⟩

theorem QueuesOk.setCap (h : QueuesOk s) {p : Port} {x : CapturePort} (hx : CaptureQueueOk x) : QueuesOk (s.setCap p x) :=
  ⟨h.1, caps_forall_set hx h.2⟩

theorem QueuesOk.teardown (h : QueuesOk s) (p : Port) : QueuesOk (teardown p s).1 := by
  refine ⟨fun q => ?_, fun q => ?_⟩
  · by_cases hq : q = p
    · subst hq
      rw [teardown_sess_self]
      exact .of_empty rfl rfl rfl
    · rw [teardown_sess_other s hq]
      split
      · exact (h.1 q).push _
      · exact h.1 q
  · rw [teardown_caps]
    exact caps_forall_set .empty h.2 q

theorem QueuesOk.attach (h : QueuesOk s) (p : Port) (body : List Byte) : QueuesOk (attachRun p body s).1 := by
  unfold attachRun
  dsimp only
  split
  · refine (h.teardown p).setSess ?_
    rw [teardown_sess_self]
    exact .of_empty rfl rfl rfl
  · next att =>
    obtain ⟨queue, loss⟩ := (h.1 p).detached (Bool.eq_false_iff.2 att)
    exact h.setSess ⟨(h.1 p).bound, (h.1 p).batch, (h.1 p).loss, fun _ => ⟨queue, loss⟩⟩

theorem QueuesOk.detach (h : QueuesOk s) (p : Port) (body : List Byte) : QueuesOk (detachRun p body s).1 := by
  refine (h.teardown p).setSess ?_
  rw [teardown_sess_self]
  exact .of_empty rfl rfl rfl

theorem QueuesOk.reset (held : Bool) (s : State) : QueuesOk (resetBlocks held s) := by
  refine ⟨fun p => ?_, fun p => ?_⟩
  · show NoticeQueueOk (Vector.replicate 4 Session.reset)[p]
    rw [Fin.getElem_fin, Vector.getElem_replicate]
    exact .of_empty rfl rfl rfl
  · show CaptureQueueOk (Vector.replicate 4 CapturePort.reset)[p]
    rw [Fin.getElem_fin, Vector.getElem_replicate]
    exact .empty

theorem QueuesOk.pushCaptures (h : QueuesOk s) (n : Nat) (r : CaptureRecord) (ps : List Port) :
    QueuesOk (ps.foldl (pushCapture n r) s) := by
  induction ps generalizing s with
  | nil => exact h
  | cons p ps ih => exact ih (h.setCap ((h.2 p).push _ r))

/-- EDGE_STAMPED copies a record to every subscriber and restarts the holdoff, or is no event. -/
theorem exec_edgeStamped_cases {l : LineNo} (h : exec (.edgeStamped l) s = .next t) :
    t = s ∨ ∃ w c e, s.watch[l] = some w ∧ s.lines[l] = .capture c ∧ w.due = some e ∧
      t = c.subscribers.foldl (pushCapture s.freeCount (stampRecord l e s))
        { s.setWatch l (some ⟨w.last, c.holdoff, none⟩) with freeCount := s.freeCount + 1 } := by
  change execEdgeStamped l s = .next t at h
  unfold execEdgeStamped at h
  split at h
  · next w c hw hc =>
    split at h
    · next e he => cases h; exact .inr ⟨w, c, e, hw, hc, he, rfl⟩
    · cases h; exact .inl rfl
  · cases h; exact .inl rfl

/-- BATCH_FIX fixes a batch of at most 8, or touches a host port alone. -/
theorem exec_batchFix_cases {p : Port} {q : QueueName} {m : Byte} (h : exec (.batchFix p q m) s = .next t) :
    t = s ∨ (∃ x, t = s.setPort p x) ∨ (1 ≤ m.toNat ∧ m.toNat ≤ 8 ∧ ∃ f, s.ports[p].frame = some f ∧
      ((q = .notices ∧ t = noticeBatchFix p m f s) ∨ (q = .captures ∧ t = captureBatchFix p m f s))) := by
  change execBatchFix p q m s = .next t at h
  unfold execBatchFix at h
  split at h
  · cases h; exact .inl rfl
  · next f hf =>
    split at h
    · split at h
      · next limit =>
        obtain ⟨low, high⟩ := of_decide_eq_true limit
        refine .inr (.inr ⟨low, high, f, hf, ?_⟩)
        split at h <;> cases h
        · exact .inl ⟨rfl, rfl⟩
        · exact .inr ⟨rfl, rfl⟩
      · cases h; exact .inr (.inl ⟨_, rfl⟩)
    · cases h; exact .inl rfl

/-- The end of a COLLECT_NOTICES frame settles the batch, or leaves every session. -/
theorem exec_collectNoticesEnd_cases {p : Port} {n : Nat} (h : exec (.collectNoticesEnd p n) s = .next t) :
    (t.sess = s.sess ∧ t.caps = s.caps) ∨ ∃ complete o,
      t = (endFrame p o s).setSess p (s.sess[p].settleBatch complete) := by
  change execCollectNoticesEnd p n s = .next t at h
  unfold execCollectNoticesEnd at h
  split at h
  · cases h; exact .inl ⟨rfl, rfl⟩
  · split at h
    · split at h
      · cases h; exact .inl ⟨rfl, rfl⟩
      · dsimp only at h
        split at h <;> cases h
        · exact .inr ⟨_, _, rfl⟩
        · exact .inl ⟨rfl, rfl⟩
    · cases h; exact .inl ⟨rfl, rfl⟩

/-- The end of a COLLECT_CAPTURES frame settles the batch, or leaves every capture queue. -/
theorem exec_collectCapturesEnd_cases {p : Port} {n : Nat} (h : exec (.collectCapturesEnd p n) s = .next t) :
    (t.sess = s.sess ∧ t.caps = s.caps) ∨ ∃ complete o,
      t = (endFrame p o s).setCap p (s.caps[p].settleBatch complete) := by
  change execCollectCapturesEnd p n s = .next t at h
  unfold execCollectCapturesEnd at h
  split at h
  · cases h; exact .inl ⟨rfl, rfl⟩
  · split at h
    · split at h
      · cases h; exact .inl ⟨rfl, rfl⟩
      · dsimp only at h
        split at h <;> cases h
        · exact .inr ⟨_, _, rfl⟩
        · exact .inl ⟨rfl, rfl⟩
    · cases h; exact .inl ⟨rfl, rfl⟩

theorem QueuesOk.of_eq (h : QueuesOk s) (sess : t.sess = s.sess) (caps : t.caps = s.caps) : QueuesOk t :=
  ⟨fun p => by rw [sess]; exact h.1 p, fun p => by rw [caps]; exact h.2 p⟩

theorem QueuesOk.tick (h : QueuesOk s) {x : PinSample} (ht : exec (.tick x) s = .next t) : QueuesOk t := by
  cases hr : s.inReset with
  | true => rw [exec_tick_reset hr] at ht; cases ht; exact h
  | false =>
    rw [exec_tick_running hr] at ht
    cases ht
    refine ⟨h.1, fun p => ?_⟩
    show CaptureQueueOk (mapVec CapturePort.settleOrder s.caps)[p]
    rw [getElem_mapVec_fin]
    exact (h.2 p).settleOrder

end

/-- The commands that can move a queue otherwise than by queuing notices. -/
theorem touchedBy_queues (c : Instr) (h : Aspect.sessions ∈ touchedBy c ∨ Aspect.caps ∈ touchedBy c) :
    (∃ p, c = .attach p) ∨ (∃ p, c = .detach p) ∨ (∃ p q m, c = .batchFix p q m) ∨ (∃ p n, c = .collectNoticesEnd p n) ∨
      (∃ p n, c = .collectCapturesEnd p n) ∨ (∃ x, c = .hubReset x) ∨ c = .resetRelease ∨ (∃ x, c = .tick x) ∨
      (∃ l, c = .edgeStamped l) := by
  cases c
  all_goals simp [touchedBy, requestCommand, RequestKind.touched] at h ⊢

theorem exec_keeps_queuesOk (c : Instr) (s t : State) (hs : QueuesOk s) (h : exec c s = .next t) : QueuesOk t := by
  have reply : ∀ p r u, QueuesOk u → QueuesOk (withReply p r u) := fun _ _ _ hu => hu
  by_cases ht : Aspect.sessions ∈ touchedBy c ∨ Aspect.caps ∈ touchedBy c
  · rcases touchedBy_queues c ht with ⟨p, rfl⟩ | ⟨p, rfl⟩ | ⟨p, q, m, rfl⟩ | ⟨p, n, rfl⟩ | ⟨p, n, rfl⟩ | ⟨x, rfl⟩ | rfl |
      ⟨x, rfl⟩ | ⟨l, rfl⟩
    · exact exec_request_keeps (k := .attach) rfl h hs (reply p) fun body _ => hs.attach p body
    · exact exec_request_keeps (k := .detach) rfl h hs (reply p) fun body _ => hs.detach p body
    · rcases exec_batchFix_cases h with rfl | ⟨x, rfl⟩ | ⟨-, high, f, -, ⟨-, rfl⟩ | ⟨-, rfl⟩⟩
      · exact hs
      · exact hs
      · exact hs.setSess ((hs.1 p).fix high)
      · exact hs.setCap ((hs.2 p).fix high)
    · rcases exec_collectNoticesEnd_cases h with ⟨sess, caps⟩ | ⟨complete, o, rfl⟩
      · exact hs.of_eq sess caps
      · exact QueuesOk.setSess (s := endFrame p o s) hs ((hs.1 p).settle complete)
    · rcases exec_collectCapturesEnd_cases h with ⟨sess, caps⟩ | ⟨complete, o, rfl⟩
      · exact hs.of_eq sess caps
      · exact QueuesOk.setCap (s := endFrame p o s) hs ((hs.2 p).settle complete)
    · rcases exec_hubReset_cases h with rfl | rfl
      · exact hs
      · exact .reset _ _
    · rcases exec_resetRelease_cases h with rfl | rfl
      · exact hs
      · exact .reset _ _
    · exact hs.tick h
    · rcases exec_edgeStamped_cases h with rfl | ⟨w, c, e, -, -, -, rfl⟩
      · exact hs
      · exact QueuesOk.pushCaptures (s := { s.setWatch l (some ⟨w.last, c.holdoff, none⟩) with freeCount := s.freeCount + 1 })
          hs _ _ _
  · rw [not_or] at ht
    exact hs.congr (exec_moves h _ ht.1) (exec_moves h _ ht.2)

/-- Settles O54: every notice and every record enters by its push, which keeps the bounds. -/
theorem stepKeepsTheQueuesBounded : Obligations.StepKeepsTheQueuesBounded := by
  unfold Obligations.StepKeepsTheQueuesBounded
  exact fun s t hs h => step_keeps (fun _ _ hu => hu) exec_keeps_queuesOk hs h

end Sys2Proof.Machine

/-! ## Holdings, leases and the token (O58) -/

namespace Sys2Proof.Machine

/-! ### Claims

A claim is a resource, a kind and a port, as a lease has them. The invariant `HoldingsOk` says that the leases are, each once,
the claims that lines and token make. -/

/-- What a line's holding claims for a port. -/
def LineHolding.has : LineHolding → LeaseKind → Port → Prop
  | .nobody, _, _ => False
  | .holder q, k, p => k = .output ∧ q = p
  | .subscribers ps, k, p => k = .subscription ∧ p ∈ ps

/-- A line or the token is held by the port, in this way. -/
def Claimed (s : State) : Resource × LeaseKind × Port → Prop
  | (.line l, k, p) => (s.lines[l]).holding.has k p
  | (.authority, k, p) => k = .authority ∧ s.authority = some p

section
variable (s : State) (l : LineNo) (k : LeaseKind) (p : Port)

theorem claimed_line : Claimed s (.line l, k, p) ↔ (s.lines[l]).holding.has k p := Iff.rfl

theorem claimed_authority : Claimed s (.authority, k, p) ↔ k = .authority ∧ s.authority = some p := Iff.rfl

theorem holds_iff : s.holds p l = true ↔ Claimed s (.line l, .output, p) := by
  rw [claimed_line]
  unfold State.holds
  cases s.lines[l] <;> simp [LineRecord.holding, LineHolding.has]

theorem subscribes_iff : s.subscribes p l = true ↔ Claimed s (.line l, .subscription, p) := by
  rw [claimed_line]
  unfold State.subscribes
  cases s.lines[l] <;> simp [LineRecord.holding, LineHolding.has]

end

/-- A port claims a line in one way at most, and never in the way of the token. -/
theorem LineHolding.has_kind {h : LineHolding} {j k : LeaseKind} {p : Port} (hj : h.has j p) (hk : h.has k p) : j = k := by
  cases h with
  | nobody => exact hj.elim
  | holder q => exact hj.1.trans hk.1.symm
  | subscribers ps => exact hj.1.trans hk.1.symm

theorem LineHolding.not_has_authority (h : LineHolding) (p : Port) : ¬ h.has .authority p := by
  cases h <;> simp [LineHolding.has]

theorem leaseOk_iff (s : State) (x : Lease) : leaseOk s x = true ↔ Claimed s x.claim := by
  obtain ⟨r, k, p, ms⟩ := x
  cases r with
  | authority =>
    refine Iff.trans ?_ (claimed_authority s k p).symm
    cases k <;> simp [leaseOk]
  | line l =>
    cases k with
    | output => exact holds_iff s l p
    | subscription => exact subscribes_iff s l p
    | authority => exact ⟨fun c => Bool.noConfusion c, fun c => absurd c (LineHolding.not_has_authority _ _)⟩

theorem Claimed.kind {s : State} {r : Resource} {j k : LeaseKind} {p : Port} (hj : Claimed s (r, j, p))
    (hk : Claimed s (r, k, p)) : j = k := by
  cases r with
  | line l => exact LineHolding.has_kind hj hk
  | authority => exact hj.1.trans hk.1.symm

/-- The invariant, in terms of claims. -/
structure ClaimsOk (s : State) : Prop where
  leased   : ∀ c, c ∈ s.leases.map Lease.claim ↔ Claimed s c
  once     : (s.leases.map Lease.claim).Nodup
  attached : ∀ c, Claimed s c → s.sess[c.2.2].attached = true
  lists    : ∀ (l : LineNo) ps, (s.lines[l]).holding = .subscribers ps → ps ≠ [] ∧ ps.Nodup
  entries  : ∀ (i : SlotNo) (e : Entry), s.cal.slots[i].entry = some e → Claimed s (.line e.line, .output, e.owner)
  watch    : ∀ l : LineNo, s.watch[l].isSome = (s.lines[l]).isCapture

theorem HoldingsOk.claims {s : State} (h : HoldingsOk s) : ClaimsOk s := by
  refine ⟨fun c => ⟨fun hc => ?_, fun hc => ?_⟩, ?_, fun c hc => ?_, fun l ps hl => ?_, fun i e he => ?_, h.watch⟩
  · obtain ⟨x, hx, rfl⟩ := List.mem_map.1 hc
    exact (leaseOk_iff s x).1 (h.leased x hx)
  · obtain ⟨r, k, p⟩ := c
    obtain ⟨x, hx, hr, hp⟩ : ∃ x ∈ s.leases, x.resource = r ∧ x.holder = p := by
      cases r with
      | line l =>
        refine h.lineLease l p ?_
        cases k with
        | output => exact .inl ((holds_iff s l p).2 hc)
        | subscription => exact .inr ((subscribes_iff s l p).2 hc)
        | authority => exact absurd hc (LineHolding.not_has_authority _ _)
      | authority => exact h.token p hc.2
    subst hr hp
    have hk : x.kind = k := ((leaseOk_iff s x).1 (h.leased x hx)).kind hc
    exact List.mem_map.2 ⟨x, hx, by rw [← hk]; rfl⟩
  · rw [List.Nodup, List.pairwise_map]
    exact h.single.imp fun hn e => hn ⟨congrArg Prod.fst e, congrArg (fun c => c.2.2) e⟩
  · obtain ⟨r, k, p⟩ := c
    cases r with
    | line l =>
      have hl := h.lines l
      rw [claimed_line] at hc
      cases hr : s.lines[l] with
      | unassigned d => rw [hr] at hc; exact hc.elim
      | output o => rw [hr] at hl hc; exact hc.2 ▸ hl
      | capture c => rw [hr] at hl hc; exact hl.2.2 p hc.2
    | authority => exact h.authority p hc.2
  · have ok := h.lines l
    cases hr : s.lines[l] <;> rw [hr] at ok hl <;> cases hl
    exact ⟨ok.1, ok.2.1⟩
  · exact (holds_iff s e.line e.owner).1 (h.entries i e he)

theorem ClaimsOk.holdings {s : State} (h : ClaimsOk s) : HoldingsOk s := by
  have claimed : ∀ x ∈ s.leases, Claimed s x.claim := fun x hx => (h.leased _).1 (List.mem_map_of_mem hx)
  have leaseOf : ∀ r k p, Claimed s (r, k, p) → ∃ x ∈ s.leases, x.resource = r ∧ x.holder = p := by
    intro r k p hc
    obtain ⟨x, hx, e⟩ := List.mem_map.1 ((h.leased _).2 hc)
    exact ⟨x, hx, congrArg Prod.fst e, congrArg (fun c => c.2.2) e⟩
  refine ⟨fun l => ?_, fun i e he => (holds_iff s _ _).2 (h.entries i e he), fun x hx => h.attached _ (claimed x hx),
    fun x hx => (leaseOk_iff s x).2 (claimed x hx), ?_, fun l p hp => ?_, fun p hp => leaseOf .authority .authority p ⟨rfl, hp⟩,
    fun p hp => h.attached (.authority, .authority, p) ⟨rfl, hp⟩, h.watch⟩
  · cases hr : s.lines[l] with
    | unassigned d => trivial
    | output o => exact h.attached (.line l, .output, o.holder) (by rw [claimed_line, hr]; exact ⟨rfl, rfl⟩)
    | capture c =>
      obtain ⟨ne, nodup⟩ := h.lists l c.subscribers (by rw [hr]; rfl)
      exact ⟨ne, nodup, fun p hp => h.attached (.line l, .subscription, p) (by rw [claimed_line, hr]; exact ⟨rfl, hp⟩)⟩
  · have once := h.once
    rw [List.Nodup, List.pairwise_map] at once
    refine once.imp_of_mem fun hx hy hne same => hne ?_
    obtain ⟨hr, hp⟩ := same
    have hy' := claimed _ hy
    unfold Lease.claim at hy'
    rw [← hr, ← hp] at hy'
    unfold Lease.claim
    rw [hr, hp, (claimed _ hx).kind hy']
  · rcases hp with hp | hp
    · exact leaseOf _ _ _ ((holds_iff s l p).1 hp)
    · exact leaseOf _ _ _ ((subscribes_iff s l p).1 hp)

/-! ### What keeps the claims right -/

theorem LineRecord.isCapture_of_holding {a b : LineRecord} (h : a.holding = b.holding) : a.isCapture = b.isCapture := by
  cases a <;> cases b <;> simp_all [LineRecord.holding, LineRecord.isCapture]

section
variable {s t : State}

theorem Claimed.congr (lines : Aspect.lines.Kept s t) (authority : Aspect.authority.Kept s t)
    (c : Resource × LeaseKind × Port) : Claimed t c ↔ Claimed s c := by
  obtain ⟨r, k, p⟩ := c
  cases r with
  | line l => rw [claimed_line, claimed_line, lines l]
  | authority => rw [claimed_authority, claimed_authority, show t.authority = s.authority from authority]

/-- What neither grants nor takes anything keeps the claims right; ports may become attached. -/
theorem ClaimsOk.congr (h : ClaimsOk s) (lines : Aspect.lines.Kept s t) (watch : Aspect.watch.Kept s t)
    (entries : Aspect.entries.Kept s t) (leases : Aspect.leases.Kept s t) (authority : Aspect.authority.Kept s t)
    (attached : ∀ p : Port, s.sess[p].attached = true → t.sess[p].attached = true) : ClaimsOk t := by
  have same := Claimed.congr lines authority
  have hleases : t.leases.map Lease.claim = s.leases.map Lease.claim := leases
  refine ⟨fun c => ?_, ?_, fun c hc => ?_, fun l ps hl => ?_, fun i e he => ?_, fun l => ?_⟩
  · rw [hleases, same, h.leased]
  · rw [hleases]; exact h.once
  · exact attached _ (h.attached c ((same c).1 hc))
  · exact h.lists l ps (by rw [← lines l]; exact hl)
  · obtain ⟨x, hx, d⟩ := entries i e he
    rw [same, d.line, d.owner]
    exact h.entries i x hx
  · rw [watch l, h.watch l, LineRecord.isCapture_of_holding (lines l)]

/-- A claim is granted: it has none so far, its port is attached, and a lease comes with it. -/
theorem ClaimsOk.grant (h : ClaimsOk s) {c : Resource × LeaseKind × Port} (new : ¬ Claimed s c)
    (claims : ∀ d, Claimed t d ↔ Claimed s d ∨ d = c)
    (leases : t.leases.map Lease.claim = s.leases.map Lease.claim ++ [c])
    (attached : Aspect.attached.Kept s t) (port : s.sess[c.2.2].attached = true)
    (lists : ∀ (l : LineNo) ps, (t.lines[l]).holding = .subscribers ps → ps ≠ [] ∧ ps.Nodup)
    (slots : t.cal.slots = s.cal.slots) (watch : ∀ l : LineNo, t.watch[l].isSome = (t.lines[l]).isCapture) : ClaimsOk t := by
  refine ⟨fun d => ?_, ?_, fun d hd => ?_, lists, fun i e he => ?_, watch⟩
  · rw [leases, List.mem_append, h.leased, claims, List.mem_singleton]
  · rw [leases]
    refine List.nodup_append.2 ⟨h.once, List.nodup_singleton _, fun a ha b hb => ?_⟩
    rw [List.mem_singleton] at hb
    rintro rfl
    exact new (hb ▸ (h.leased a).1 ha)
  · rw [attached]
    rcases (claims d).1 hd with hd | rfl
    · exact h.attached d hd
    · exact port
  · rw [slots] at he
    exact (claims _).2 (.inl (h.entries i e he))

theorem LineRecord.without_has (r : LineRecord) (p q : Port) (k : LeaseKind) :
    (r.without p).holding.has k q ↔ r.holding.has k q ∧ q ≠ p := by
  cases r with
  | unassigned d => exact ⟨False.elim, fun h => h.1.elim⟩
  | output o =>
    unfold LineRecord.without
    dsimp only
    by_cases ho : o.holder = p
    · rw [if_pos ho]
      exact ⟨False.elim, fun ⟨h, hq⟩ => hq (h.2.symm.trans ho)⟩
    · rw [if_neg ho]
      exact (and_iff_left_of_imp fun h hq => ho (h.2.trans hq)).symm
  | capture c =>
    have mem : q ∈ c.subscribers.filter (· ≠ p) ↔ q ∈ c.subscribers ∧ q ≠ p := by simp
    have has : (LineHolding.subscribers (c.subscribers.filter (· ≠ p))).has k q ↔
        (LineRecord.capture c).holding.has k q ∧ q ≠ p := (and_congr_right fun _ => mem).trans and_assoc.symm
    unfold LineRecord.without
    dsimp only
    by_cases hp : p ∈ c.subscribers
    · rw [if_pos hp]
      by_cases hn : c.subscribers.filter (· ≠ p) = []
      · rw [if_pos hn]
        rw [hn] at has
        exact ⟨False.elim, fun h => absurd (has.2 h).2 List.not_mem_nil⟩
      · rw [if_neg hn]; exact has
    · rw [if_neg hp]
      exact (and_iff_left_of_imp fun h (hq : q = p) => hp (hq ▸ h.2)).symm

theorem LineRecord.without_lists {r : LineRecord} (p : Port)
    (h : ∀ ps, r.holding = .subscribers ps → ps ≠ [] ∧ ps.Nodup) (ps : List Port)
    (hp : (r.without p).holding = .subscribers ps) : ps ≠ [] ∧ ps.Nodup := by
  cases r with
  | unassigned d => cases hp
  | output o =>
    unfold LineRecord.without at hp
    dsimp only at hp
    split at hp <;> cases hp
  | capture c =>
    obtain ⟨-, nodup⟩ := h c.subscribers rfl
    unfold LineRecord.without at hp
    dsimp only at hp
    split at hp
    · split at hp
      · cases hp
      · next hn => cases hp; exact ⟨hn, nodup.filter _⟩
    · exact h ps hp

theorem watchWithout_isSome {r : LineRecord} {w : Option Watch} (p : Port) (h : w.isSome = r.isCapture) :
    (watchWithout p r w).isSome = (r.without p).isCapture := by
  cases r with
  | unassigned d => exact h
  | output o =>
    unfold LineRecord.without watchWithout
    dsimp only
    split <;> exact h
  | capture c =>
    unfold LineRecord.without watchWithout
    dsimp only
    by_cases hp : p ∈ c.subscribers
    · by_cases hn : c.subscribers.filter (· ≠ p) = []
      · rw [if_pos ⟨hp, hn⟩, if_pos hp, if_pos hn]; rfl
      · rw [if_neg fun x => hn x.2, if_pos hp, if_neg hn]; exact h
    · rw [if_neg fun x => hp x.1, if_neg hp]; exact h

/-- A port loses all that it holds of some resources: lines are left without it, the token is freed, and the leases and the
entries go with them. -/
theorem ClaimsOk.revoke (h : ClaimsOk s) (p : Port) (on : Resource → Prop) [DecidablePred on]
    (lines : ∀ m : LineNo, t.lines[m] = if on (.line m) then (s.lines[m]).without p else s.lines[m])
    (watch : ∀ m : LineNo, t.watch[m] = if on (.line m) then watchWithout p s.lines[m] s.watch[m] else s.watch[m])
    (authority : t.authority = if on .authority ∧ s.authority = some p then none else s.authority)
    (leases : t.leases = s.leases.filter fun x => !decide (on x.resource ∧ x.holder = p))
    (entries : ∀ (i : SlotNo) (e : Entry), t.cal.slots[i].entry = some e →
      s.cal.slots[i].entry = some e ∧ ¬ (on (.line e.line) ∧ e.owner = p))
    (attached : ∀ q : Port, t.sess[q].attached = s.sess[q].attached ∨ (q = p ∧ ∀ r, on r)) : ClaimsOk t := by
  have claims : ∀ c : Resource × LeaseKind × Port, Claimed t c ↔ Claimed s c ∧ ¬ (on c.1 ∧ c.2.2 = p) := by
    rintro ⟨r, k, q⟩
    cases r with
    | line l =>
      rw [claimed_line, claimed_line, lines l]
      by_cases ho : on (.line l)
      · rw [if_pos ho, LineRecord.without_has]
        exact and_congr_right fun _ => not_congr (and_iff_right ho).symm
      · rw [if_neg ho]
        exact (and_iff_left fun c => ho c.1).symm
    | authority =>
      rw [claimed_authority, claimed_authority, authority]
      by_cases ha : on .authority ∧ s.authority = some p
      · rw [if_pos ha]
        refine ⟨fun c => Option.noConfusion rfl (heq_of_eq c.2), fun ⟨c, hn⟩ => absurd ⟨ha.1, ?_⟩ hn⟩
        exact Option.some.inj (c.2.symm.trans ha.2)
      · rw [if_neg ha]
        exact (and_iff_left_of_imp fun c hn => ha ⟨hn.1, c.2.trans (congrArg some hn.2)⟩).symm
  have hclaims : t.leases.map Lease.claim =
      (s.leases.map Lease.claim).filter fun c => !decide (on c.1 ∧ c.2.2 = p) := by
    rw [leases, List.filter_map]
    rfl
  refine ⟨fun c => ?_, ?_, fun c hc => ?_, fun l ps hl => ?_, fun i e he => ?_, fun l => ?_⟩
  · rw [hclaims, List.mem_filter, h.leased, claims, Bool.not_eq_true', decide_eq_false_iff_not]
  · rw [hclaims]
    exact h.once.filter _
  · obtain ⟨old, hn⟩ := (claims c).1 hc
    rcases attached c.2.2 with same | ⟨hq, all⟩
    · rw [same]; exact h.attached c old
    · exact absurd ⟨all _, hq⟩ hn
  · rw [lines l] at hl
    split at hl
    · exact LineRecord.without_lists p (h.lists l) ps hl
    · exact h.lists l ps hl
  · obtain ⟨old, hn⟩ := entries i e he
    exact (claims _).2 ⟨h.entries i e old, hn⟩
  · rw [watch l, lines l]
    split
    · exact watchWithout_isSome p (h.watch l)
    · exact h.watch l

/-! ### The operations -/

/-- The entries that a release leaves are those of other owners or other lines. -/
theorem Released.entries {l : LineNo} {o : OutputLine} {n : Nat} (r : Released l o s t n) (i : SlotNo) (e : Entry)
    (he : t.cal.slots[i].entry = some e) : s.cal.slots[i].entry = some e ∧ ¬ (e.owner = o.holder ∧ e.line = l) := by
  obtain ⟨-, slots, -⟩ := r
  rw [slots, getElem_mapVec_fin] at he
  by_cases hx : ownedOn o.holder l s.cal.slots[i] = true
  · rw [if_pos hx] at he; cases he
  · rw [if_neg hx] at he
    refine ⟨he, fun c => hx ?_⟩
    unfold ownedOn
    rw [he]
    exact decide_eq_true c

/-- The release of an output takes from its holder the line, its lease and its entries. -/
theorem ClaimsOk.released (h : ClaimsOk s) {l : LineNo} {o : OutputLine} {n : Nat} (hl : s.lines[l] = .output o)
    (r : Released l o s t n) (attached : Aspect.attached.Kept s t) : ClaimsOk t := by
  have entries := r.entries
  obtain ⟨lines, -, -, -, -, -, leases, -, -, -, watch, -, authority, -⟩ := r
  refine h.revoke o.holder (· = .line l) (fun m => ?_) (fun m => ?_) ?_ leases (fun i e he => ?_) fun q => .inl (attached q)
  · rw [lines, getElem_set_fin]
    by_cases hm : m = l
    · subst hm
      rw [if_pos rfl, if_pos rfl, hl, LineRecord.without, if_pos rfl]
    · rw [if_neg hm, if_neg fun c => hm (Resource.line.inj c)]
  · rw [watch]
    by_cases hm : m = l
    · subst hm
      rw [if_pos rfl, hl]
      rfl
    · rw [if_neg fun c => hm (Resource.line.inj c)]
  · rw [authority, if_neg fun c => nomatch c.1]
  · obtain ⟨old, hn⟩ := entries i e he
    exact ⟨old, fun c => hn ⟨c.2, Resource.line.inj c.1⟩⟩

/-- The departure of a subscriber takes from it the line and its lease. -/
theorem ClaimsOk.depart (h : ClaimsOk s) {l : LineNo} {p : Port} {c : CaptureLine} (hl : s.lines[l] = .capture c)
    (hp : p ∈ c.subscribers) : ClaimsOk (depart l p s) := by
  have e := depart_capture (p := p) hl
  refine h.revoke p (· = .line l) (fun m => ?_) (fun m => ?_) ?_ (by rw [e]) (fun i x hx => ?_) fun q => .inl (by rw [e])
  · rw [e]
    show (s.lines.set l _)[m] = _
    rw [getElem_set_fin]
    by_cases hm : m = l
    · subst hm
      rw [if_pos rfl, if_pos rfl, hl, LineRecord.without, if_pos hp]
    · rw [if_neg hm, if_neg fun c => hm (Resource.line.inj c)]
  · rw [e]
    show (if c.subscribers.filter (· ≠ p) = [] then s.watch.set l none else s.watch)[m] = _
    by_cases hm : m = l
    · subst hm
      rw [if_pos rfl, hl]
      by_cases hn : c.subscribers.filter (· ≠ p) = []
      · rw [if_pos hn, getElem_set_fin, if_pos rfl, watchWithout, if_pos ⟨hp, hn⟩]
      · rw [if_neg hn, watchWithout, if_neg fun x => hn x.2]
    · rw [if_neg fun c => hm (Resource.line.inj c)]
      split
      · rw [getElem_set_fin, if_neg hm]
      · rfl
  · rw [if_neg (fun c => nomatch c.1), depart_authority]
  · rw [e] at hx
    refine ⟨hx, fun on => ?_⟩
    have claimed := h.entries i x hx
    rw [Resource.line.inj on.1, claimed_line, hl] at claimed
    exact absurd claimed.1 (by decide)

/-- The teardown takes from the port all that it holds, whatever becomes of the port's session. -/
theorem ClaimsOk.teardown (h : ClaimsOk s) (p : Port) (x : Session) : ClaimsOk ((teardown p s).1.setSess p x) := by
  refine h.revoke p (fun _ => True) (fun m => ?_) (fun m => ?_) ?_ ?_ (fun i e he => ?_) fun q => ?_
  · rw [State.setSess_lines, if_pos trivial, teardown_lines]
  · rw [State.setSess_watch, if_pos trivial, teardown_watch]
  · rw [State.setSess_authority, teardown_authority]
    exact if_congr (iff_of_eq (true_and _)).symm rfl rfl
  · rw [State.setSess_leases, teardown_leases]
    exact List.filter_congr fun x _ => by simp
  · rw [State.setSess_cal, teardown_slots] at he
    split at he
    · next y hy =>
      split at he
      · cases he
      · next ho =>
        cases hy.symm.trans he
        exact ⟨he, fun c => ho c.2⟩
    · next hy => exact absurd (hy.symm.trans he) (by simp)
  · by_cases hq : q = p
    · exact .inr ⟨hq, fun _ => trivial⟩
    · refine .inl ?_
      rw [State.setSess_sess, getElem_set_fin, if_neg hq, teardown_sess_other s hq]
      split
      · exact Session.push_attached _ _
      · rfl

theorem ClaimsOk.attach (h : ClaimsOk s) (p : Port) (body : List Byte) : ClaimsOk (attachRun p body s).1 := by
  unfold attachRun
  dsimp only
  split
  · exact h.teardown p _
  · have same := setSess_moves p { s.sess[p] with attached := true, number := s.sess[p].number + 1, mask := maskOf body } s
    refine h.congr (same _ (by simp)) (same _ (by simp)) (same _ (by simp)) (same _ (by simp)) (same _ (by simp))
      fun q hq => ?_
    rw [State.setSess_sess, getElem_set_fin]
    split
    · rfl
    · exact hq

theorem ClaimsOk.detach (h : ClaimsOk s) (p : Port) (body : List Byte) : ClaimsOk (detachRun p body s).1 :=
  h.teardown p _

end

end Sys2Proof.Machine

/-! ## Every command keeps the holdings (O58) -/

namespace Sys2Proof.Machine

section
variable {s t : State}

/-- A claim on one line is granted: the line's record makes the claims it made and this one, and the lease is added. -/
theorem ClaimsOk.grantLine (h : ClaimsOk s) {l : LineNo} {k : LeaseKind} {p : Port} {ms : Nat} (x : LineRecord)
    (has : ∀ j q, x.holding.has j q ↔ (s.lines[l]).holding.has j q ∨ (j = k ∧ q = p))
    (new : ¬ (s.lines[l]).holding.has k p) (port : s.sess[p].attached = true)
    (lists : ∀ ps, x.holding = .subscribers ps → ps ≠ [] ∧ ps.Nodup) (lines : t.lines = s.lines.set l x)
    (leases : t.leases = s.leases ++ [⟨.line l, k, p, ms⟩]) (sess : t.sess = s.sess) (slots : t.cal.slots = s.cal.slots)
    (authority : t.authority = s.authority)
    (watch : ∀ m : LineNo, t.watch[m].isSome = if m = l then x.isCapture else s.watch[m].isSome) : ClaimsOk t := by
  have record : ∀ m : LineNo, t.lines[m] = if m = l then x else s.lines[m] := fun m => by rw [lines, getElem_set_fin]
  refine h.grant (c := (.line l, k, p)) new (fun d => ?_) ?_ (fun q => by rw [sess]) port (fun m ps hp => ?_) slots
    fun m => ?_
  · obtain ⟨r, j, q⟩ := d
    cases r with
    | line m =>
      rw [claimed_line, claimed_line, record m]
      by_cases hm : m = l
      · subst hm
        rw [if_pos rfl, has]
        exact or_congr_right ⟨fun c => by rw [c.1, c.2], fun c => by cases c; exact ⟨rfl, rfl⟩⟩
      · rw [if_neg hm]
        exact (or_iff_left fun c => hm (Resource.line.inj (congrArg Prod.fst c))).symm
    | authority =>
      rw [claimed_authority, claimed_authority, authority]
      exact (or_iff_left fun c => Resource.noConfusion (congrArg Prod.fst c)).symm
  · rw [leases, List.map_append]
    rfl
  · rw [record m] at hp
    split at hp
    · exact lists ps hp
    · exact h.lists m ps hp
  · rw [watch m, record m]
    split
    · rfl
    · exact h.watch m

theorem ClaimsOk.grantOutput (h : ClaimsOk s) {p : Port} (port : s.sess[p].attached = true) {l : LineNo}
    {d : Option ReleaseDrive} (hd : s.lines[l] = .unassigned d) (ms : Nat) (initial release : Level) :
    ClaimsOk (grantOutput p l ms initial release s) := by
  have nobody : (s.lines[l]).holding = .nobody := by rw [hd]; rfl
  refine h.grantLine (.output ⟨p, initial, release, none⟩) (fun j q => ?_) (by rw [nobody]; exact id) port
    (fun ps hp => nomatch hp) rfl rfl rfl rfl rfl fun m => ?_
  · rw [nobody]
    exact (and_congr_right fun _ => eq_comm).trans (iff_of_eq (false_or _)).symm
  · split
    · next hm =>
      subst hm
      show s.watch[m].isSome = _
      rw [h.watch, hd]
      rfl
    · rfl

/-- The level sampled at a grant is all that the sample changes, with the counter of free values. -/
theorem sampleAtGrant_rest (l : LineNo) (s : State) : (sampleAtGrant l s).lines = s.lines ∧
    (sampleAtGrant l s).watch = s.watch ∧ (sampleAtGrant l s).leases = s.leases ∧ (sampleAtGrant l s).sess = s.sess ∧
    (sampleAtGrant l s).cal = s.cal ∧ (sampleAtGrant l s).authority = s.authority := by
  rw [(sampleAtGrant_frame l s).1]
  exact ⟨rfl, rfl, rfl, rfl, rfl, rfl⟩

theorem ClaimsOk.grantCapture (h : ClaimsOk s) {p : Port} (port : s.sess[p].attached = true) {l : LineNo}
    {d : Option ReleaseDrive} (hd : s.lines[l] = .unassigned d) (ms : Nat) (e : EdgeSelection) (holdoff : Nat) :
    ClaimsOk (grantCapture p l ms e holdoff s) := by
  have nobody : (s.lines[l]).holding = .nobody := by rw [hd]; rfl
  obtain ⟨lines, watch, leases, sess, cal, authority⟩ := sampleAtGrant_rest l s
  refine h.grantLine (k := .subscription) (ms := ms) (.capture ⟨[p], e, holdoff⟩) (fun j q => ?_) (by rw [nobody]; exact id)
    port (fun ps hp => ?_) ?_ ?_ sess (congrArg Calendar.slots cal) authority fun m => ?_
  · rw [nobody]
    exact (and_congr_right fun _ => List.mem_singleton).trans (iff_of_eq (false_or _)).symm
  · cases hp
    exact ⟨List.cons_ne_nil _ _, List.nodup_singleton _⟩
  · show (sampleAtGrant l s).lines.set l _ = _
    rw [lines]
  · show (sampleAtGrant l s).leases ++ _ = _
    rw [leases]
  · show ((sampleAtGrant l s).watch.set l _)[m].isSome = _
    rw [getElem_set_fin, watch]
    split <;> rfl

theorem ClaimsOk.joinCapture (h : ClaimsOk s) {p : Port} (port : s.sess[p].attached = true) {l : LineNo} {c : CaptureLine}
    (hc : s.lines[l] = .capture c) (new : p ∉ c.subscribers) (ms : Nat) : ClaimsOk (joinCapture p l ms c s) := by
  have subscribers : (s.lines[l]).holding = .subscribers c.subscribers := by rw [hc]; rfl
  refine h.grantLine (k := .subscription) (.capture { c with subscribers := c.subscribers ++ [p] }) (fun j q => ?_)
    (by rw [subscribers]; exact fun x => new x.2) port (fun ps hp => ?_) rfl rfl rfl rfl rfl fun m => ?_
  · rw [subscribers]
    refine (and_congr_right fun _ => List.mem_append.trans ?_).trans and_or_left
    exact or_congr_right List.mem_singleton
  · cases hp
    refine ⟨List.append_ne_nil_of_right_ne_nil _ (List.cons_ne_nil _ _),
      List.nodup_append.2 ⟨(h.lists l _ subscribers).2, List.nodup_singleton _, fun a ha b hb => ?_⟩⟩
    rw [List.mem_singleton] at hb
    rintro rfl
    exact new (hb ▸ ha)
  · split
    · next hm =>
      subst hm
      show s.watch[m].isSome = _
      rw [h.watch, hc]
      rfl
    · rfl

theorem ClaimsOk.claimOutput (h : ClaimsOk s) {p : Port} (port : s.sess[p].attached = true) (body : List Byte) :
    ClaimsOk (claimOutputRun p body s).1 := by
  unfold claimOutputRun
  dsimp only
  split
  · next d hd => exact h.grantOutput port hd _ _ _
  · exact h
  · exact h

theorem ClaimsOk.subscribeCapture (h : ClaimsOk s) {p : Port} (port : s.sess[p].attached = true) (body : List Byte) :
    ClaimsOk (subscribeCaptureRun p body s).1 := by
  unfold subscribeCaptureRun
  dsimp only
  split
  · next d hd => exact h.grantCapture port hd _ _ _
  · next c hc =>
    split
    · exact h
    · next new => exact h.joinCapture port hc (fun hp => new (List.contains_iff_mem.2 hp)) _
  · exact h

theorem holds_output {p : Port} {l : LineNo} (h : s.holds p l = true) : ∃ o, s.lines[l] = .output o ∧ o.holder = p := by
  unfold State.holds at h
  split at h
  · next o ho => exact ⟨o, ho, of_decide_eq_true h⟩
  · cases h

theorem subscribes_capture {p : Port} {l : LineNo} (h : s.subscribes p l = true) :
    ∃ c, s.lines[l] = .capture c ∧ p ∈ c.subscribers := by
  unfold State.subscribes at h
  split at h
  · next c hc => exact ⟨c, hc, List.contains_iff_mem.1 h⟩
  · cases h

theorem ClaimsOk.releaseOutput (h : ClaimsOk s) {l : LineNo} {o : OutputLine} (hl : s.lines[l] = .output o) :
    ClaimsOk (releaseOutput l s).1 := by
  obtain ⟨r, sess, -⟩ := releaseOutput_released hl
  exact h.released hl r fun q => by rw [sess]

theorem ClaimsOk.releaseLine (h : ClaimsOk s) (p : Port) (body : List Byte) : ClaimsOk (releaseLineRun p body s).1 := by
  unfold releaseLineRun
  dsimp only
  split
  · next holds =>
    obtain ⟨o, ho, -⟩ := holds_output holds
    exact h.releaseOutput ho
  · split
    · next subscribes =>
      obtain ⟨c, hc, hp⟩ := subscribes_capture subscribes
      exact h.depart hc hp
    · exact h

/-- Notices leave the claims as they are. -/
theorem ClaimsOk.noted (h : ClaimsOk s) {l : List Aspect} (m : Moves l s t) (hl : ∀ a ∈ l, a = .attached ∨ a = .sessions)
    (attached : Aspect.attached.Kept s t) : ClaimsOk t := by
  have kept : ∀ a : Aspect, a ≠ .attached → a ≠ .sessions → a.Kept s t := fun a h1 h2 =>
    m a fun ha => (hl a ha).elim h1 h2
  exact h.congr (kept _ nofun nofun) (kept _ nofun nofun) (kept _ nofun nofun) (kept _ nofun nofun) (kept _ nofun nofun)
    fun q hq => (attached q).trans hq

theorem ClaimsOk.notify (h : ClaimsOk s) (p : Port) (b : NoticeBody) : ClaimsOk (notify p b s) :=
  h.noted (notify_moves p b s) (fun _ ha => nomatch ha) (notify_moves p b s _ (by simp))

theorem ClaimsOk.broadcast (h : ClaimsOk s) (b : NoticeBody) : ClaimsOk (broadcast b s) :=
  h.noted (broadcast_moves b s) (fun _ ha => nomatch ha) (broadcast_moves b s _ (by simp))

theorem ClaimsOk.claimAuthority (h : ClaimsOk s) {p : Port} (port : s.sess[p].attached = true) (body : List Byte) :
    ClaimsOk (claimAuthorityRun p body s).1 := by
  unfold claimAuthorityRun
  split
  · next free =>
    refine ClaimsOk.broadcast (s := addLease .authority .authority p (field body 1 2) { s with authority := some p })
      (h.grant (c := (.authority, .authority, p)) (fun c => ?_) (fun d => ?_) ?_ (fun _ => rfl) port h.lists rfl h.watch) _
    · exact Option.noConfusion rfl (heq_of_eq (free.symm.trans c.2))
    · obtain ⟨r, j, q⟩ := d
      cases r with
      | line m => exact (or_iff_left fun c => Resource.noConfusion (congrArg Prod.fst c)).symm
      | authority =>
        rw [claimed_authority, claimed_authority, free]
        constructor
        · rintro ⟨rfl, hq⟩
          cases hq
          exact .inr rfl
        · rintro (⟨-, hq⟩ | hq) <;> cases hq
          exact ⟨rfl, rfl⟩
    · rw [addLease_leases, List.map_append]
      rfl
  · exact h

/-- The token is freed with its lease. -/
theorem ClaimsOk.freeAuthority (h : ClaimsOk s) {p : Port} (hp : s.authority = some p) : ClaimsOk (freeAuthority p s) := by
  refine h.revoke p (· = .authority) (fun m => ?_) (fun m => ?_) ?_ rfl (fun i e he => ⟨he, fun c => nomatch c.1⟩)
    fun q => .inl rfl
  · rw [if_neg nofun]; rfl
  · rw [if_neg nofun]; rfl
  · rw [if_pos ⟨rfl, hp⟩]; rfl

theorem ClaimsOk.releaseAuthority (h : ClaimsOk s) (p : Port) (body : List Byte) :
    ClaimsOk (releaseAuthorityRun p body s).1 := by
  unfold releaseAuthorityRun
  split
  · next hp => exact (h.freeAuthority hp).broadcast _
  · exact h

theorem ClaimsOk.schedule (h : ClaimsOk s) (p : Port) (body : List Byte) : ClaimsOk (scheduleRun p body s).1 := by
  rcases scheduleRun_cases p body s with same | ⟨e, i, he, checks, -, inserted⟩
  · rw [same]; exact h
  · obtain ⟨holds, -⟩ := scheduleCheck_ok.1 checks
    obtain ⟨-, owner, -⟩ := entryOf_some he
    rw [inserted]
    refine ⟨h.leased, h.once, h.attached, h.lists, fun j x hx => ?_, h.watch⟩
    rw [insertEntry_slots] at hx
    split at hx
    · cases hx
      exact owner ▸ (holds_iff s _ _).1 (owner ▸ holds)
    · exact h.entries j x hx

theorem ClaimsOk.reset (held : Bool) (s : State) : ClaimsOk (resetBlocks held s) := by
  have lines : ∀ l : LineNo, (resetBlocks held s).lines[l] = .unassigned none := fun l => by
    show (Vector.replicate 16 (.unassigned none : LineRecord))[l] = _
    rw [Fin.getElem_fin, Vector.getElem_replicate]
  have watch : ∀ l : LineNo, (resetBlocks held s).watch[l] = none := fun l => by
    show (Vector.replicate 16 (none : Option Watch))[l] = _
    rw [Fin.getElem_fin, Vector.getElem_replicate]
  have unclaimed : ∀ c, ¬ Claimed (resetBlocks held s) c := by
    rintro ⟨r, k, p⟩ c
    cases r with
    | line l => rw [claimed_line, lines] at c; exact c
    | authority => exact Option.noConfusion rfl (heq_of_eq c.2)
  refine ⟨fun c => iff_of_false List.not_mem_nil (unclaimed c), List.nodup_nil, fun c hc => absurd hc (unclaimed c),
    fun l ps hl => ?_, fun i e he => ?_, fun l => by rw [lines, watch]; rfl⟩
  · rw [lines] at hl; cases hl
  · rw [resetBlocks_entry] at he; cases he

/-! ### Lease expiries (R141 to R143) -/

theorem expiredLease_some {r : Resource} {k : LeaseKind} {x : Lease} (h : s.expiredLease r k = some x) :
    x ∈ s.leases ∧ x.claim = (r, k, x.holder) := by
  unfold State.expiredLease at h
  obtain ⟨hr, hk, -⟩ : x.resource = r ∧ x.kind = k ∧ x.remaining = 0 := by simpa only [decide_eq_true_eq] using List.find?_some h
  exact ⟨List.mem_of_find?_eq_some h, by unfold Lease.claim; rw [hr, hk]⟩

theorem lease?_some {r : Resource} {p : Port} {x : Lease} (h : s.lease? r p = some x) :
    x ∈ s.leases ∧ x.resource = r ∧ x.holder = p := by
  unfold State.lease? at h
  exact ⟨List.mem_of_find?_eq_some h, by simpa only [decide_eq_true_eq] using List.find?_some h⟩

/-- The lease that an expiry has removed is the one that the release or departure after it would remove. -/
theorem filter_lease_twice (l : List Lease) (r : Resource) (p : Port) :
    (l.filter fun x => !decide (x.resource = r ∧ x.holder = p)).filter (fun x => !decide (x.resource = r ∧ x.holder = p)) =
      l.filter fun x => !decide (x.resource = r ∧ x.holder = p) := by
  rw [List.filter_filter]
  simp only [Bool.and_self]

theorem releaseOutput_removeLease {l : LineNo} {o : OutputLine} (hl : s.lines[l] = .output o) :
    Released l o s (Machine.releaseOutput l (removeLease (.line l) o.holder s)).1
        (Machine.releaseOutput l (removeLease (.line l) o.holder s)).2 ∧
      (Machine.releaseOutput l (removeLease (.line l) o.holder s)).1.sess = s.sess ∧
      (Machine.releaseOutput l (removeLease (.line l) o.holder s)).1.ports = s.ports := by
  obtain ⟨r, sess, ports⟩ := releaseOutput_released (s := removeLease (.line l) o.holder s) hl
  obtain ⟨lines, slots, n, count, quota, reached, leases, rest⟩ := r
  exact ⟨⟨lines, slots, n, count, quota, reached, leases.trans (filter_lease_twice _ _ _), rest⟩, sess, ports⟩

theorem depart_removeLease {l : LineNo} {p : Port} {c : CaptureLine} (hl : s.lines[l] = .capture c) :
    Machine.depart l p (removeLease (.line l) p s) = Machine.depart l p s := by
  rw [depart_capture (s := removeLease (.line l) p s) hl, depart_capture hl]
  simp only [removeLease_leases, filter_lease_twice]
  rfl

theorem ClaimsOk.outputLeaseExpiry (h : ClaimsOk s) {l : LineNo} (ht : exec (.outputLeaseExpiry l) s = .next t) :
    ClaimsOk t := by
  change execOutputLeaseExpiry l s = .next t at ht
  unfold execOutputLeaseExpiry at ht
  split at ht
  · next x hx =>
    cases ht
    obtain ⟨mem, claim⟩ := expiredLease_some hx
    obtain ⟨o, ho, holder⟩ := holds_output ((holds_iff s l x.holder).2 (claim ▸ (h.leased _).1 (List.mem_map_of_mem mem)))
    rw [← holder]
    obtain ⟨r, sess, -⟩ := releaseOutput_removeLease ho
    exact (h.released ho r fun q => by rw [sess]).notify _ _
  · cases ht; exact h

theorem ClaimsOk.subscriptionLeaseExpiry (h : ClaimsOk s) {l : LineNo} {p : Port}
    (ht : exec (.subscriptionLeaseExpiry l p) s = .next t) : ClaimsOk t := by
  change execSubscriptionLeaseExpiry l p s = .next t at ht
  unfold execSubscriptionLeaseExpiry at ht
  split at ht
  · next x hx =>
    split at ht <;> cases ht
    · next expired =>
      obtain ⟨mem, hr, hp⟩ := lease?_some hx
      have claim : x.claim = (.line l, .subscription, p) := by unfold Lease.claim; rw [hr, hp, expired.1]
      obtain ⟨c, hc, sub⟩ := subscribes_capture ((subscribes_iff s l p).2 (claim ▸ (h.leased _).1 (List.mem_map_of_mem mem)))
      rw [depart_removeLease hc]
      exact (h.depart hc sub).notify _ _
    · exact h
  · cases ht; exact h

theorem ClaimsOk.authorityLeaseExpiry (h : ClaimsOk s) (ht : exec .authorityLeaseExpiry s = .next t) : ClaimsOk t := by
  change execAuthorityLeaseExpiry s = .next t at ht
  unfold execAuthorityLeaseExpiry at ht
  split at ht
  · next x hx =>
    cases ht
    obtain ⟨mem, claim⟩ := expiredLease_some hx
    have claimed : Claimed s (.authority, .authority, x.holder) := claim ▸ (h.leased _).1 (List.mem_map_of_mem mem)
    exact ((h.freeAuthority claimed.2).notify _ _).broadcast _
  · cases ht; exact h

end

/-- The commands that can grant or take a holding, give a slot an entry, or change who is attached. -/
theorem touchedBy_holdings (c : Instr) (h : Aspect.lines ∈ touchedBy c ∨ Aspect.watch ∈ touchedBy c ∨
    Aspect.entries ∈ touchedBy c ∨ Aspect.leases ∈ touchedBy c ∨ Aspect.authority ∈ touchedBy c ∨
    Aspect.attached ∈ touchedBy c) :
    (∃ k p, requestCommand c = some (k, p) ∧ (k = .attach ∨ k = .detach ∨ k = .claimAuthority ∨ k = .releaseAuthority ∨
      k = .claimOutput ∨ k = .subscribeCapture ∨ k = .releaseLine ∨ k = .schedule)) ∨ (∃ x, c = .hubReset x) ∨
      c = .resetRelease ∨ (∃ l, c = .outputLeaseExpiry l) ∨ (∃ l p, c = .subscriptionLeaseExpiry l p) ∨
      c = .authorityLeaseExpiry := by
  cases c
  case batchFix p q m => cases q <;> simp [touchedBy, requestCommand] at h
  all_goals simp [touchedBy, requestCommand, RequestKind.touched] at h ⊢

theorem exec_keeps_claimsOk (c : Instr) (s t : State) (hs : ClaimsOk s) (h : exec c s = .next t) : ClaimsOk t := by
  by_cases ht : Aspect.lines ∈ touchedBy c ∨ Aspect.watch ∈ touchedBy c ∨ Aspect.entries ∈ touchedBy c ∨
      Aspect.leases ∈ touchedBy c ∨ Aspect.authority ∈ touchedBy c ∨ Aspect.attached ∈ touchedBy c
  · rcases touchedBy_holdings c ht with ⟨k, p, hc, hk⟩ | ⟨x, rfl⟩ | rfl | ⟨l, rfl⟩ | ⟨l, p, rfl⟩ | rfl
    · refine exec_request_keeps hc h hs (fun r u hu => ⟨hu.leased, hu.once, hu.attached, hu.lists, hu.entries, hu.watch⟩)
        fun body admitted => ?_
      obtain ⟨-, attached, -⟩ := admitted
      rcases hk with rfl | rfl | rfl | rfl | rfl | rfl | rfl | rfl
      · exact hs.attach p body
      · exact hs.detach p body
      · exact hs.claimAuthority (attached nofun) body
      · exact hs.releaseAuthority p body
      · exact hs.claimOutput (attached nofun) body
      · exact hs.subscribeCapture (attached nofun) body
      · exact hs.releaseLine p body
      · exact hs.schedule p body
    · rcases exec_hubReset_cases h with rfl | rfl
      · exact hs
      · exact .reset _ _
    · rcases exec_resetRelease_cases h with rfl | rfl
      · exact hs
      · exact .reset _ _
    · exact hs.outputLeaseExpiry h
    · exact hs.subscriptionLeaseExpiry h
    · exact hs.authorityLeaseExpiry h
  · have kept := exec_moves h
    simp only [not_or] at ht
    obtain ⟨lines, watch, entries, leases, authority, attached⟩ := ht
    exact hs.congr (kept _ lines) (kept _ watch) (kept _ entries) (kept _ leases) (kept _ authority)
      fun q hq => (kept _ attached q).trans hq

/-- Settles O58: by the stronger form that counts a claim for each holding and each lease. -/
theorem stepKeepsTheHoldings : Obligations.StepKeepsTheHoldings := by
  unfold Obligations.StepKeepsTheHoldings
  exact fun s t hs h => (step_keeps (fun _ _ hu => ⟨hu.leased, hu.once, hu.attached, hu.lists, hu.entries, hu.watch⟩)
    exec_keeps_claimsOk hs.claims h).holdings

end Sys2Proof.Machine

/-! ## The reset state, and bytes (O60, O52) -/

namespace Sys2Proof.Machine

/-- Settles O60: the state after reset has every block at its reset values. -/
theorem resetMeetsTheInvariants : Obligations.ResetMeetsTheInvariants := by
  unfold Obligations.ResetMeetsTheInvariants
  have blocks : State.reset = resetBlocks false State.reset := rfl
  rw [blocks]
  exact ⟨.reset _ _, .reset _ _, .reset _ _, .of_empty (resetBlocks_entry _ _), (ClaimsOk.reset _ _).holdings, .reset _ _⟩

/-! ### Quantities sent most significant byte first (R183) -/

@[simp] theorem length_bytesOf (k n : Nat) : (bytesOf k n).length = k := by
  induction k with
  | zero => rfl
  | succ k ih => rw [bytesOf, List.length_cons, ih]

theorem natOf_bytesOf (k n : Nat) : natOf (bytesOf k n) = n % 256 ^ k := by
  induction k with
  | zero => rw [pow_zero, Nat.mod_one]; rfl
  | succ k ih =>
    rw [bytesOf, natOf_cons, ih, length_bytesOf, BitVec.toNat_ofNat, Nat.add_comm, Nat.mul_comm]
    exact Nat.mod_pow_succ.symm

/-- What lies above the `k` bytes is not sent. -/
theorem bytesOf_add_mul (k n c : Nat) : bytesOf k (n + c * 256 ^ k) = bytesOf k n := by
  induction k generalizing c with
  | zero => rfl
  | succ k ih =>
    have split : n + c * 256 ^ (k + 1) = n + c * 256 * 256 ^ k := by ring
    have head : BitVec.ofNat 8 ((n + c * 256 * 256 ^ k) / 256 ^ k) = BitVec.ofNat 8 (n / 256 ^ k) := by
      rw [Nat.add_mul_div_right _ _ (by positivity)]
      apply BitVec.eq_of_toNat_eq
      rw [BitVec.toNat_ofNat, BitVec.toNat_ofNat]
      omega
    rw [split, bytesOf, bytesOf, ih, head]

theorem bytesOf_natOf (l : List Byte) : bytesOf l.length (natOf l) = l := by
  induction l with
  | nil => rfl
  | cons b l ih =>
    have head : (natOf l + b.toNat * 256 ^ l.length) / 256 ^ l.length = b.toNat := by
      rw [Nat.add_mul_div_right _ _ (by positivity), Nat.div_eq_of_lt (natOf_lt l), Nat.zero_add]
    rw [List.length_cons, natOf_cons, Nat.add_comm (_ * _), bytesOf, bytesOf_add_mul, ih, head, BitVec.ofNat_toNat, BitVec.setWidth_eq]

theorem natOf_bytesOfInt (k : Nat) (i : Int) : (natOf (bytesOfInt k i) : Int) = i % (256 ^ k : Int) := by
  have pos : (0 : Int) < ((256 ^ k : Nat) : Int) := by positivity
  have low := Int.emod_nonneg i pos.ne'
  have high := Int.emod_lt_of_pos i pos
  rw [bytesOfInt, natOf_bytesOf, Nat.mod_eq_of_lt (by omega), Int.toNat_of_nonneg low]
  push_cast
  rfl

/-- Settles O52: by induction on the number of bytes. -/
theorem bigEndianReadsBack : Obligations.BigEndianReadsBack := by
  unfold Obligations.BigEndianReadsBack
  exact ⟨fun k n => ⟨length_bytesOf k n, natOf_bytesOf k n⟩, fun k i _ => ⟨length_bytesOf k _, natOf_bytesOfInt k i⟩,
    bytesOf_natOf⟩

/-! ### The command of an admitted request -/

/-- An admitted request command answers the state after the owning block's part, with the reply in the slot (R176, R177). -/
theorem exec_admitted {k : RequestKind} {p : Port} {body : List Byte} {s : State} {c : Instr} (h : Admitted k p body s)
    (hc : requestCommand c = some (k, p)) : exec c s = .next (withReply p
      ([k.code, (requestRun p k body s).2.status.code, (requestRun p k body s).1.sess[p].number] ++
        (requestRun p k body s).2.body) (requestRun p k body s).1) := by
  rw [exec_of_requestCommand hc, takeRequest_admitted _ h]

/-- The same, where the owning block's part is known. -/
theorem exec_admitted_of_run {k : RequestKind} {p : Port} {body : List Byte} {s t : State} {a : Answer} {c : Instr}
    (h : Admitted k p body s) (hc : requestCommand c = some (k, p)) (run : requestRun p k body s = (t, a))
    (number : t.sess[p].number = s.sess[p].number) :
    exec c s = .next (withReply p ([k.code, a.status.code, s.sess[p].number] ++ a.body) t) := by
  rw [exec_admitted h hc, run, number]

end Sys2Proof.Machine

/-! ## Requests, their checks, and the requests that only report (O1, O3, O7 to O10) -/

namespace Sys2Proof.Machine

/-- Settles O1: a step is `exec` of the front command on the rest of the queue. -/
theorem stepRunsTheFrontCommand : Obligations.StepRunsTheFrontCommand := by
  unfold Obligations.StepRunsTheFrontCommand
  refine ⟨fun c rest s h => ?_, fun s h => ?_⟩ <;> unfold step <;> rw [h]

/-! ### Fields of one byte and their bits -/

theorem field_one (body : List Byte) (off : Nat) : field body off 1 = (body.getD off 0#8).toNat := by
  have head : (body.drop off).head? = body[off]? := List.head?_drop
  unfold field
  rw [List.getD_eq_getElem?_getD, ← head]
  cases body.drop off with
  | nil => rfl
  | cons b l => simp [natOf]

theorem bitAt_eq (body : List Byte) (off bit : Nat) : bitAt body off bit = ((body.getD off 0#8).getLsbD bit).toNat := by
  unfold bitAt
  rw [field_one, BitVec.getLsbD, Nat.testBit_eq_decide_div_mod_eq]
  rcases Nat.mod_two_eq_zero_or_one ((body.getD off 0#8).toNat / 2 ^ bit) with h | h <;> rw [h] <;> rfl

theorem bitAt_eq_one (body : List Byte) (off bit : Nat) : bitAt body off bit = 1 ↔ (body.getD off 0#8).getLsbD bit = true := by
  rw [bitAt_eq]
  cases (body.getD off 0#8).getLsbD bit <;> decide

/-- The upper five bits of a byte are 0 exactly below 8. -/
theorem and_upper_five (b : Byte) : b &&& 0xF8#8 = 0#8 ↔ b.toNat < 8 := by
  revert b
  decide

/-! ### The field checks (R186) -/

theorem leaseInRange_iff (n : Nat) : leaseInRange n = true ↔ 10 ≤ n ∧ n ≤ 65535 := decide_eq_true_iff

theorem levelOf_isSome (n : Nat) : (levelOf n).isSome = true ↔ n ≤ 1 := by
  match n with
  | 0 => decide
  | 1 => decide
  | n + 2 => exact ⟨fun c => Bool.noConfusion c, fun c => absurd c (by omega)⟩

theorem edgeSelectionOf_isSome (n : Nat) : (edgeSelectionOf n).isSome = true ↔ 1 ≤ n ∧ n ≤ 3 := by
  match n with
  | 0 => decide
  | 1 => decide
  | 2 => decide
  | 3 => decide
  | n + 4 => exact ⟨fun c => Bool.noConfusion c, fun c => absurd c.2 (by omega)⟩

theorem itemResource_isSome (b : Byte) : (itemResource b).isSome = true ↔ b.toNat ≤ 16 := by
  unfold itemResource lineOf
  by_cases h : b = 0x10#8
  · rw [if_pos h, h]
    decide
  · rw [if_neg h]
    have : b.toNat ≠ 16 := fun c => h (BitVec.eq_of_toNat_eq c)
    by_cases lt : b.toNat < 16
    · rw [dif_pos lt]
      exact ⟨fun _ => lt.le, fun _ => rfl⟩
    · rw [dif_neg lt]
      exact ⟨fun c => Bool.noConfusion c, fun c => absurd (by omega) lt⟩

theorem fieldsOk_renew (body : List Byte) : fieldsOk .renew body = true ↔ (10 ≤ field body 1 2 ∧ field body 1 2 ≤ 65535) ∧
    1 ≤ field body 3 1 ∧ field body 3 1 ≤ 17 ∧ ∀ b ∈ body.drop 4, b.toNat ≤ 16 := by
  simp only [fieldsOk, Bool.and_eq_true, leaseInRange_iff, decide_eq_true_eq, List.all_eq_true, itemResource_isSome,
    renewItems, and_assoc]

/-- Settles O3: the three general checks in their order, then the field check of each kind. -/
theorem requestsPassTheGeneralChecks : Obligations.RequestsPassTheGeneralChecks := by
  unfold Obligations.RequestsPassTheGeneralChecks
  refine ⟨fun c k p s hc => ⟨fun idle => ?_, fun body flight => ?_⟩, fun k => ?_, fun k body h1 h2 => ?_⟩
  · rw [exec_of_requestCommand hc, takeRequest_idle _ idle]
  · rw [exec_of_requestCommand hc, takeRequest_inFlight _ flight]
    unfold judge
    refine ⟨fun notAttach detached => ?_, fun attached gated holder => ?_, fun attached holder bad => ?_⟩
    · rw [if_pos ⟨notAttach, detached⟩]
      rfl
    · rw [if_neg fun c => Bool.noConfusion (c.2.symm.trans (attached c.1)), if_pos ⟨gated, holder⟩]
      rfl
    · rw [if_neg fun c => Bool.noConfusion (c.2.symm.trans (attached c.1)), if_neg fun c => c.2 (holder c.1), if_pos bad]
      rfl
  · cases k <;> simp [RequestKind.gated]
  · cases k with
    | attach =>
      rw [and_upper_five, ← field_one]
      exact decide_eq_true_iff
    | setTime => exact decide_eq_true_iff.trans Nat.lt_succ_iff
    | setReference => simp [fieldsOk]
    | setDiscipline => exact absurd rfl h1
    | claimAuthority => exact leaseInRange_iff _
    | renew => exact fieldsOk_renew body
    | claimOutput =>
      simp only [fieldsOk, Bool.and_eq_true, leaseInRange_iff, levelOf_isSome, decide_eq_true_eq, and_assoc, Nat.lt_succ_iff]
    | subscribeCapture =>
      simp only [fieldsOk, Bool.and_eq_true, leaseInRange_iff, edgeSelectionOf_isSome, decide_eq_true_eq, and_assoc,
        Nat.lt_succ_iff]
    | releaseLine => exact decide_eq_true_iff.trans Nat.lt_succ_iff
    | schedule => exact absurd rfl h2
    | cancel => exact decide_eq_true_iff.trans Nat.lt_succ_iff
    | readEntry => exact decide_eq_true_iff.trans Nat.lt_succ_iff
    | setQuota => simp only [fieldsOk, Bool.and_eq_true, decide_eq_true_eq, Nat.lt_succ_iff]
    | _ => exact iff_of_true rfl trivial

/-! ### READ_TIME and READ_REFERENCE -/

/-- Settles O7: both bodies are the model's, field by field. -/
theorem timeAndReferenceAreReported : Obligations.TimeAndReferenceAreReported := by
  unfold Obligations.TimeAndReferenceAreReported
  refine fun p body s => ⟨fun admitted => ?_, fun admitted => ?_⟩
  · have now : s.reportedTime = if s.time.hub.ns < 4294967296000000000 then s.time.hub.ns else 4294967295999999999 := by
      unfold State.reportedTime HubTime.reported
      by_cases h : s.time.hub.ns < 4294967296000000000
      · rw [if_pos h]
        exact if_neg (not_le.2 h)
      · rw [if_neg h]
        exact if_pos (not_lt.1 h)
    rw [exec_admitted_of_run admitted rfl rfl rfl]
    simp only [accept, readTimeBody, timeBytes, now, flagsByte_one, List.append_assoc]
    rfl
  · rw [exec_admitted_of_run admitted rfl rfl rfl]
    simp only [accept, readReferenceBody, paramBlock, statsBytes, flagsByte_two, List.append_assoc]
    rfl

/-! ### READ_LINES -/

theorem flagsByte_four (a b c d : Bool) :
    flagsByte [a, b, c, d] = BitVec.ofNat 8 (a.toNat + 2 * b.toNat + 4 * c.toNat + 8 * d.toNat) := by
  cases a <;> cases b <;> cases c <;> cases d <;> rfl

/-- One piece out of pieces of equal length. -/
theorem take_drop_flatten_map {α β : Type} {n : Nat} {f : α → List β} (hf : ∀ x, (f x).length = n) (l : List α) {i : Nat} {x : α}
    (h : l[i]? = some x) : ((l.map f).flatten.drop (n * i)).take n = f x := by
  induction l generalizing i with
  | nil => cases h
  | cons y l ih =>
    rw [List.map_cons, List.flatten_cons]
    cases i with
    | zero =>
      cases h
      rw [Nat.mul_zero, List.drop_zero, ← hf x, List.take_left]
    | succ i =>
      rw [Nat.mul_succ, Nat.add_comm, ← List.drop_drop, ← hf y, List.drop_left, hf y]
      exact ih h

theorem length_flatten_map {α β : Type} {n : Nat} {f : α → List β} (hf : ∀ x, (f x).length = n) (l : List α) :
    (l.map f).flatten.length = l.length * n := by
  induction l with
  | nil => simp
  | cons y l ih => rw [List.map_cons, List.flatten_cons, List.length_append, ih, hf, List.length_cons, Nat.succ_mul, Nat.add_comm]

theorem lineBytes_length (p : Port) (s : State) (l : LineNo) : (lineBytes p s l).length = 6 := by
  unfold lineBytes
  rw [List.length_append, length_bytesOf]
  rfl

theorem Level.isHigh_ofBool (b : Bool) : (Level.ofBool b).isHigh = b := by cases b <;> rfl

theorem LineRecord.portBits_capture (c : CaptureLine) : (LineRecord.capture c).portBits =
    BitVec.ofNat 8 ((c.subscribers.contains 0).toNat + 2 * (c.subscribers.contains 1).toNat +
      4 * (c.subscribers.contains 2).toNat + 8 * (c.subscribers.contains 3).toNat) := flagsByte_four _ _ _ _

/-- The six bytes of a line, by its record. -/
theorem lineBytes_eq (p : Port) (s : State) (l : LineNo) :
    let own := s.leases.find? fun x => decide (x.resource = .line l ∧ x.holder = p)
    let leased := 8 * own.isSome.toNat
    let board := (s.pins.lines.getLsbD l).toNat
    lineBytes p s l = (match s.lines[l] with
      | .unassigned none => [0#8, 0#8, BitVec.ofNat 8 (board + leased), 0#8]
      | .unassigned (some d) => [0#8, 0#8, BitVec.ofNat 8 (d.level.isHigh.toNat + leased), 0#8]
      | .output o => [1#8, BitVec.ofNat 8 (2 ^ o.holder.val),
          BitVec.ofNat 8 (o.level.isHigh.toNat + 2 * o.releaseLevel.isHigh.toNat + 4 * o.pulse.isSome.toNat + leased), 0#8]
      | .capture c => [2#8,
          BitVec.ofNat 8 ((c.subscribers.contains 0).toNat + 2 * (c.subscribers.contains 1).toNat +
            4 * (c.subscribers.contains 2).toNat + 8 * (c.subscribers.contains 3).toNat),
          BitVec.ofNat 8 (board + leased), c.selection.code]) ++ bytesOf 2 ((own.map fun x => x.remaining).getD 0) := by
  intro own leased board
  have head : lineBytes p s l = [(s.lines[l]).modeCode, (s.lines[l]).portBits,
      flagsByte [(s.pinLevel l).isHigh,
        (match s.lines[l] with | .output o => o.releaseLevel.isHigh | _ => false),
        (match s.lines[l] with | .output o => o.pulse.isSome | _ => false), own.isSome],
      (match s.lines[l] with | .capture c => c.selection.code | _ => 0#8)] ++
      bytesOf 2 (match own with | some x => x.remaining | none => 0) := rfl
  have remaining : ∀ x : Option Lease, (match x with | some x => x.remaining | none => 0) = (x.map fun x => x.remaining).getD 0 :=
    fun x => by cases x <;> rfl
  have level : s.pinLevel l = match (s.lines[l]).driven with
    | some v => v
    | none => Level.ofBool (s.pins.lines.getLsbD l) := rfl
  rw [head, remaining, level, flagsByte_four]
  congr 1
  cases s.lines[l] with
  | unassigned d => cases d <;> simp [LineRecord.modeCode, LineRecord.portBits, LineRecord.driven, Level.isHigh_ofBool, board, leased]
  | output o => simp [LineRecord.modeCode, LineRecord.portBits, LineRecord.driven, leased]
  | capture c =>
    rw [LineRecord.portBits_capture]
    simp [LineRecord.modeCode, LineRecord.driven, Level.isHigh_ofBool, board, leased]

/-- Settles O8: the body is a concatenation of blocks of six bytes, one for each line. -/
theorem linesAreReported : Obligations.LinesAreReported := by
  unfold Obligations.LinesAreReported
  intro p body s admitted
  refine ⟨_, exec_admitted_of_run admitted rfl rfl rfl, rfl, ?_, fun l => ?_⟩
  · show 3 + (readLinesBody p s).length = 99
    unfold readLinesBody
    rw [length_flatten_map (lineBytes_length p s), allLines, List.length_finRange]
  · have at_l : allLines[l.val]? = some l := by
      rw [allLines, List.getElem?_eq_getElem (by rw [List.length_finRange]; exact l.isLt), List.getElem_finRange]
      rfl
    have piece := take_drop_flatten_map (lineBytes_length p s) allLines at_l
    dsimp only
    rw [← List.drop_drop]
    show ((readLinesBody p s).drop (6 * l.val)).take 6 = _
    rw [readLinesBody, piece]
    exact lineBytes_eq p s l

/-! ### LIST_ENTRIES -/

/-- An insertion into an ordered list puts the element ahead of those with an equal key, so it keeps an order by key and then
by `lt`. -/
theorem insertBy_keeps_order {α : Type} {key : α → Nat} {lt : α → α → Prop} {x : α} {l : List α} (hx : ∀ y ∈ l, lt x y)
    (h : l.Pairwise fun a b => key a < key b ∨ (key a = key b ∧ lt a b)) :
    (insertBy (fun a b => decide (key a ≤ key b)) x l).Pairwise fun a b => key a < key b ∨ (key a = key b ∧ lt a b) := by
  induction l with
  | nil => exact List.pairwise_singleton _ _
  | cons y l ih =>
    obtain ⟨hy, hl⟩ := List.pairwise_cons.1 h
    unfold insertBy
    by_cases le : key x ≤ key y
    · rw [if_pos (decide_eq_true le)]
      refine List.pairwise_cons.2 ⟨fun z hz => ?_, h⟩
      have lower : key y ≤ key z := by
        rcases List.mem_cons.1 hz with rfl | hz
        · exact le_refl _
        · rcases hy z hz with c | c <;> omega
      rcases (le.trans lower).lt_or_eq with c | c
      · exact .inl c
      · exact .inr ⟨c, hx z hz⟩
    · rw [if_neg (by simpa using le)]
      refine List.pairwise_cons.2 ⟨fun z hz => ?_, ih (fun z hz => hx z (List.mem_cons_of_mem _ hz)) hl⟩
      rcases List.mem_cons.1 ((insertBy_perm _ x l).mem_iff.1 hz) with rfl | hz
      · exact .inl (not_le.1 le)
      · exact hy z hz

theorem sortBy_keeps_order {α : Type} {key : α → Nat} {lt : α → α → Prop} {l : List α} (h : l.Pairwise lt) :
    (sortBy (fun a b => decide (key a ≤ key b)) l).Pairwise fun a b => key a < key b ∨ (key a = key b ∧ lt a b) := by
  induction l with
  | nil => exact List.Pairwise.nil
  | cons x l ih =>
    obtain ⟨hx, hl⟩ := List.pairwise_cons.1 h
    exact insertBy_keeps_order (fun y hy => hx y (mem_sortBy.1 hy)) (ih hl)

/-- Settles O9: the slots are filtered in ascending order, and the sort keeps that order between equal fire times. -/
theorem ownEntriesAreListed : Obligations.OwnEntriesAreListed := by
  unfold Obligations.OwnEntriesAreListed
  intro p body s admitted
  have ascending : (s.slotsWhere fun e => decide (e.owner = p)).Pairwise (· < ·) :=
    (List.pairwise_lt_finRange 64).filter _
  refine ⟨s.ownSlots p, ?_, fun i => ?_, sortBy_keeps_order ascending⟩
  · rw [exec_admitted_of_run admitted rfl rfl rfl, List.flatMap_def]
    rfl
  · unfold State.ownSlots
    rw [mem_sortBy, mem_slotsWhere]
    simp only [decide_eq_true_eq]

/-! ### SET_QUOTA and READ_QUOTAS -/

theorem setQuotaRun_eq (body : List Byte) (s : State) (q : Port) (hq : field body 1 1 = q.val) :
    setQuotaRun body s =
      (if 64 < sumPorts (s.cal.quota.set q (field body 2 1)) then (s, refuse .badField)
       else if field body 2 1 < s.cal.count[q] then (s, refuse .inUse)
       else ({ s with cal := { s.cal with quota := s.cal.quota.set q (field body 2 1) } },
         accept (portBytes (s.cal.quota.set q (field body 2 1))))) := by
  obtain rfl : q = Fin.ofNat 4 (field body 1 1) := by
    rw [hq]
    exact (Fin.ofNat_val_eq_self q).symm
  rfl

/-- Settles O10: the checks of SET_QUOTA in their order. -/
theorem quotasAreSetAndReported : Obligations.QuotasAreSetAndReported := by
  unfold Obligations.QuotasAreSetAndReported
  refine fun p body s => ⟨fun admitted q hq => ⟨fun above => ?_, fun sum use => ?_, fun sum room => ?_⟩, fun admitted => ?_⟩
  · exact exec_admitted_of_run admitted rfl ((setQuotaRun_eq body s q hq).trans (if_pos above)) rfl
  · exact exec_admitted_of_run admitted rfl
      ((setQuotaRun_eq body s q hq).trans ((if_neg (not_lt.2 sum)).trans (if_pos use))) rfl
  · rw [exec_admitted_of_run admitted rfl
      ((setQuotaRun_eq body s q hq).trans ((if_neg (not_lt.2 sum)).trans (if_neg (not_lt.2 room)))) rfl]
    simp only [accept, portBytes, List.append_assoc]
    rfl
  · rw [exec_admitted_of_run admitted rfl rfl rfl]
    simp only [accept, portBytes, List.append_assoc]
    rfl

end Sys2Proof.Machine

/-! ## Lines, leases and the token: requests and expiries (O15, O17 to O21, O23) -/

namespace Sys2Proof.Machine

theorem bodyLine_of_field {body : List Byte} {l : LineNo} (h : field body 1 1 = l.val) : bodyLine body = l := by
  unfold bodyLine
  rw [h]
  exact Fin.ofNat_val_eq_self l

/-! ### RENEW (R145) -/

theorem itemResource_eq_some (b : Byte) (r : Resource) : itemResource b = some r ↔
    (b = 0x10#8 ∧ r = .authority) ∨ ∃ l : LineNo, b = BitVec.ofNat 8 l.val ∧ r = .line l := by
  have off : ∀ l : LineNo, BitVec.ofNat 8 l.val ≠ 0x10#8 := by decide
  unfold itemResource lineOf
  by_cases h : b = 0x10#8
  · rw [if_pos h]
    constructor
    · intro c
      cases c
      exact .inl ⟨h, rfl⟩
    · rintro (⟨-, rfl⟩ | ⟨l, hb, -⟩)
      · rfl
      · exact absurd (hb.symm.trans h) (off l)
  · rw [if_neg h]
    by_cases lt : b.toNat < 16
    · rw [dif_pos lt]
      constructor
      · intro c
        cases c
        exact .inr ⟨⟨b.toNat, lt⟩, by rw [BitVec.ofNat_toNat, BitVec.setWidth_eq], rfl⟩
      · rintro (⟨hb, -⟩ | ⟨l, hb, rfl⟩)
        · exact absurd hb h
        · have hl : b.toNat = l.val := by
            rw [hb, BitVec.toNat_ofNat]
            omega
          simp [hl]
    · rw [dif_neg lt]
      refine ⟨fun c => Option.noConfusion rfl (heq_of_eq c), ?_⟩
      rintro (⟨hb, -⟩ | ⟨l, hb, -⟩)
      · exact absurd hb h
      · rw [hb, BitVec.toNat_ofNat] at lt
        omega

/-- One item replaces the ms remaining of the lease of the port that it names. -/
theorem renewItem_eq (p : Port) (ms : Nat) (s : State) (b : Byte) : renewItem p ms s b =
    { s with leases := s.leases.map fun x =>
        if x.holder = p ∧ itemResource b = some x.resource then { x with remaining := ms } else x } := by
  unfold renewItem
  cases h : itemResource b with
  | none => simp
  | some r =>
    have same : ∀ x : Lease, (x.resource = r ∧ x.holder = p) ↔ (x.holder = p ∧ some r = some x.resource) := fun x =>
      and_comm.trans (and_congr_right fun _ => ⟨fun c => by rw [c], fun c => (Option.some.inj c).symm⟩)
    simp only [renewLease, same]

/-- The items together replace the ms remaining of every lease of the port that one of them names. -/
theorem foldl_renewItem (p : Port) (ms : Nat) (items : List Byte) (s : State) : items.foldl (renewItem p ms) s =
    { s with leases := s.leases.map fun x =>
        if x.holder = p ∧ ∃ b ∈ items, itemResource b = some x.resource then { x with remaining := ms } else x } := by
  induction items generalizing s with
  | nil => simp
  | cons b items ih =>
    rw [List.foldl_cons, ih, renewItem_eq]
    simp only [List.map_map]
    congr 1
    refine List.map_congr_left fun x _ => ?_
    simp only [Function.comp, List.mem_cons]
    by_cases hp : x.holder = p
    · by_cases hb : itemResource b = some x.resource <;> simp [hp, hb]
    · simp [hp]

/-- Settles O17: by induction on the items, each of which replaces one lease. -/
theorem renewReplacesMsRemaining : Obligations.RenewReplacesMsRemaining := by
  unfold Obligations.RenewReplacesMsRemaining
  intro p body s admitted items names held
  have named : ∀ x b, names x b = true ↔ itemResource b = some x.resource := fun x b => by
    rw [itemResource_eq_some]
    exact decide_eq_true_iff
  have itemHeld_eq : ∀ b, itemHeld p s b = held b := by
    intro b
    rw [Bool.eq_iff_iff]
    unfold itemHeld State.lease?
    simp only [held, List.any_eq_true, Bool.and_eq_true, decide_eq_true_eq, named]
    cases itemResource b with
    | none => simp
    | some r =>
      simp only [List.find?_isSome, decide_eq_true_eq, Option.some.injEq]
      exact exists_congr fun x => and_congr_right fun _ => and_comm.trans (and_congr_right fun _ => eq_comm)
  rw [exec_admitted_of_run (t := items.foldl (renewItem p (field body 1 2)) s) admitted rfl rfl
    (by rw [foldl_renewItem]), foldl_renewItem]
  simp only [accept, itemHeld_eq, renewItems, List.append_assoc, List.any_eq_true, named]
  rfl

/-! ### CLAIM_AUTHORITY (R148) -/

/-- Settles O15: by the holder of the token. -/
theorem claimAuthorityGrantsAFreeToken : Obligations.ClaimAuthorityGrantsAFreeToken := by
  unfold Obligations.ClaimAuthorityGrantsAFreeToken
  intro p body s admitted
  refine ⟨fun free none_held => ?_, fun x holder lease => ?_, fun q other holder => ?_⟩
  · have run : claimAuthorityRun p body s = (grantAuthority p (field body 1 2) s,
        accept (authorityBody p (grantAuthority p (field body 1 2) s))) := by
      unfold claimAuthorityRun
      rw [free]
    have lease : (grantAuthority p (field body 1 2) s).lease? .authority p =
        some ⟨.authority, .authority, p, field body 1 2⟩ := by
      show (s.leases ++ [(⟨.authority, .authority, p, field body 1 2⟩ : Lease)]).find? _ = _
      rw [List.find?_append, List.find?_eq_none.2 fun x hx => by simpa using none_held x hx]
      simp
    have remaining : authorityBody p (grantAuthority p (field body 1 2) s) =
        BitVec.ofNat 8 p.val :: bytesOf 2 (field body 1 2) := by
      unfold authorityBody
      rw [lease]
      exact congrArg _ (congrArg _ (if_pos rfl))
    rw [exec_admitted_of_run admitted rfl run (broadcast_number _ _ p), remaining]
    rfl
  · have run : claimAuthorityRun p body s = (s, ⟨.inUse, authorityBody p s⟩) := by
      unfold claimAuthorityRun
      rw [holder]
      exact congrArg _ (congrArg (fun x => Answer.mk x _) (if_pos rfl))
    have remaining : authorityBody p s = BitVec.ofNat 8 p.val :: bytesOf 2 x.remaining := by
      unfold authorityBody State.lease?
      rw [if_pos holder, holder, lease]
      rfl
    rw [exec_admitted_of_run admitted rfl run rfl, remaining]
    rfl
  · have run : claimAuthorityRun p body s = (s, ⟨.held, authorityBody p s⟩) := by
      unfold claimAuthorityRun
      rw [holder]
      exact congrArg _ (congrArg (fun x => Answer.mk x _) (if_neg other))
    have zero : authorityBody p s = [BitVec.ofNat 8 q.val, 0#8, 0#8] := by
      unfold authorityBody
      rw [holder, if_neg fun c => other (Option.some.inj c)]
      rfl
    rw [exec_admitted_of_run admitted rfl run rfl, zero]
    rfl

/-! ### CLAIM_OUTPUT (R62, R63) -/

theorem levelOf_toNat (v : Level) : levelOf v.isHigh.toNat = some v := by cases v <;> rfl

/-- Settles O19: by the mode of the line. -/
theorem claimOutputGrantsAnUnassignedLine : Obligations.ClaimOutputGrantsAnUnassignedLine := by
  unfold Obligations.ClaimOutputGrantsAnUnassignedLine
  intro p body s l initial release admitted hl hi hr
  have run : claimOutputRun p body s = match s.lines[l] with
      | .unassigned _ => (grantOutput p l (field body 2 2) initial release s,
          accept ([BitVec.ofNat 8 l.val, initial.code, release.code] ++ bytesOf 2 (field body 2 2)))
      | .output o => (s, refuse (if o.holder = p then .inUse else .held))
      | .capture _ => (s, refuse .held) := by
    obtain rfl := bodyLine_of_field hl
    unfold claimOutputRun
    rw [hi, hr, levelOf_toNat, levelOf_toNat]
    dsimp only
    cases s.lines[bodyLine body] <;> rfl
  refine ⟨fun d hd => ?_, fun o ho holder => ?_, fun o ho holder => ?_, fun c hc => ?_⟩
  · rw [hd] at run
    exact exec_admitted_of_run admitted rfl run rfl
  · rw [ho] at run
    rw [exec_admitted_of_run admitted rfl run rfl, if_pos holder]
    rfl
  · rw [ho] at run
    rw [exec_admitted_of_run admitted rfl run rfl, if_neg holder]
    rfl
  · rw [hc] at run
    exact exec_admitted_of_run admitted rfl run rfl

/-! ### SUBSCRIBE_CAPTURE (R65 to R67) -/

theorem edgeSelectionOf_code (e : EdgeSelection) : edgeSelectionOf e.code.toNat = some e := by cases e <;> rfl

/-- A capture grant as a whole next state. -/
theorem grantCapture_eq (p : Port) (l : LineNo) (ms : Nat) (e : EdgeSelection) (holdoff : Nat) (s : State) :
    grantCapture p l ms e holdoff s = { s with
      lines := s.lines.set l (.capture ⟨[p], e, holdoff⟩)
      watch := s.watch.set l (some ⟨Level.ofBool ((sampleAtGrant l s).pins.lines.getLsbD l), 0, none⟩)
      leases := s.leases ++ [⟨.line l, .subscription, p, ms⟩]
      pins := { s.pins with lines := (sampleAtGrant l s).pins.lines }
      freeCount := (sampleAtGrant l s).freeCount } := by
  have frame := (sampleAtGrant_frame l s).1
  unfold grantCapture
  generalize sampleAtGrant l s = t at frame ⊢
  rw [frame]
  rfl

/-- Where no release drive ends, nothing is sampled at a grant. -/
theorem sampleAtGrant_undriven {l : LineNo} {s : State} (h : s.lines[l] = .unassigned none) : sampleAtGrant l s = s := by
  unfold sampleAtGrant
  rw [h]

/-- Settles O20: by the mode of the line; a grant samples the pin where a release drive ends. -/
theorem subscribeCaptureGrantsOrJoins : Obligations.SubscribeCaptureGrantsOrJoins := by
  unfold Obligations.SubscribeCaptureGrantsOrJoins
  intro p body s l e admitted hl he ms ticks
  have run : subscribeCaptureRun p body s = match s.lines[l] with
      | .unassigned _ => (grantCapture p l ms e ticks s, accept (subscribeBody l ⟨[p], e, ticks⟩ ms))
      | .capture c =>
        if c.subscribers.contains p then (s, refuse .inUse)
        else (joinCapture p l ms c s, accept (subscribeBody l { c with subscribers := c.subscribers ++ [p] } ms))
      | .output _ => (s, refuse .held) := by
    obtain rfl := bodyLine_of_field hl
    unfold subscribeCaptureRun
    rw [he, edgeSelectionOf_code]
    dsimp only
    cases s.lines[bodyLine body] <;> rfl
  refine ⟨fun d hd => ⟨(sampleAtGrant l s).pins.lines, (sampleAtGrant l s).freeCount, fun undriven => ?_,
    (sampleAtGrant_frame l s).2, ?_⟩, fun c hc new => ?_, fun c hc joined => ?_, fun o ho => ?_⟩
  · rw [sampleAtGrant_undriven (undriven ▸ hd)]
    exact ⟨rfl, rfl⟩
  · rw [hd] at run
    dsimp only at run
    rw [grantCapture_eq] at run
    have one : bytesOf 1 1 = [1#8] := by decide
    rw [exec_admitted_of_run admitted rfl run rfl]
    simp only [accept, subscribeBody, List.append_assoc, List.length_singleton, one]
    rfl
  · rw [hc] at run
    dsimp only at run
    rw [if_neg fun h => new (List.contains_iff_mem.1 h)] at run
    rw [exec_admitted_of_run admitted rfl run rfl]
    simp only [accept, subscribeBody, List.append_assoc, List.length_append, List.length_singleton]
    rfl
  · rw [hc] at run
    dsimp only at run
    rw [if_pos (List.contains_iff_mem.2 joined)] at run
    exact exec_admitted_of_run admitted rfl run rfl
  · rw [ho] at run
    exact exec_admitted_of_run admitted rfl run rfl

/-! ### RELEASE_LINE (R74, R75, R77) -/

/-- Settles O21: by who asks: the holder, a subscriber, or another port. -/
theorem releaseLineEndsTheHolding : Obligations.ReleaseLineEndsTheHolding := by
  unfold Obligations.ReleaseLineEndsTheHolding
  intro p body s l admitted hl
  have run : releaseLineRun p body s =
      if s.holds p l then ((releaseOutput l s).1, accept (releaseBody l (releaseOutput l s).2 (releaseOutput l s).1))
      else if s.subscribes p l then (depart l p s, accept (releaseBody l 0 (depart l p s)))
      else (s, refuse .notOwner) := by
    obtain rfl := bodyLine_of_field hl
    rfl
  refine ⟨fun o ho holder => ?_, fun c hc joined => ?_, fun free unjoined => ?_⟩
  · have holds : s.holds p l = true := by
      unfold State.holds
      rw [ho]
      exact decide_eq_true holder
    obtain ⟨released, sess, ports⟩ := releaseOutput_released ho
    have mode : ((releaseOutput l s).1.lines[l]).modeCode = 0#8 := by
      rw [released.1, getElem_set_fin, if_pos rfl]
      rfl
    rw [if_pos holds] at run
    refine ⟨_, _, released, sess, ports, ?_⟩
    rw [exec_admitted_of_run admitted rfl run (by rw [sess])]
    simp only [accept, releaseBody, mode, List.append_assoc]
    rfl
  · have holds : ¬ s.holds p l = true := by
      unfold State.holds
      rw [hc]
      exact Bool.false_ne_true
    have subscribes : s.subscribes p l = true := by
      unfold State.subscribes
      rw [hc]
      exact List.contains_iff_mem.2 joined
    rw [if_neg holds, if_pos subscribes, depart_capture hc] at run
    have mode : (((s.lines.set l (if c.subscribers.filter (· ≠ p) = [] then .unassigned none
        else .capture { c with subscribers := c.subscribers.filter (· ≠ p) }))[l]) : LineRecord).modeCode =
        if c.subscribers.filter (· ≠ p) = [] then 0#8 else 2#8 := by
      rw [getElem_set_fin, if_pos rfl]
      split <;> rfl
    rw [exec_admitted_of_run admitted rfl run rfl]
    simp only [accept, releaseBody, mode, List.append_assoc]
    rfl
  · rw [if_neg (by rw [free]; exact Bool.false_ne_true), if_neg (by rw [unjoined]; exact Bool.false_ne_true)] at run
    exact exec_admitted_of_run admitted rfl run rfl

/-! ### Lease expiries (R141 to R143) -/

/-- Settles O18: each expiry is the matching release, with its notices. -/
theorem leaseExpiriesEndTheHolding : Obligations.LeaseExpiriesEndTheHolding := by
  unfold Obligations.LeaseExpiriesEndTheHolding
  refine ⟨fun l o x s ho found holder => ?_, fun l p c x s hc joined found kind expired => ?_, fun x s found => ?_⟩
  · obtain ⟨released, sess, ports⟩ := releaseOutput_removeLease ho
    have time := released.2.2.2.2.2.2.2.1
    refine ⟨notify o.holder (.leaseLost (.line l) .output (releaseOutput l (removeLease (.line l) o.holder s)).2)
      (releaseOutput l (removeLease (.line l) o.holder s)).1, _, ?_, released, ports, ?_⟩
    · have run : exec (.outputLeaseExpiry l) s = execOutputLeaseExpiry l s := rfl
      rw [run]
      unfold execOutputLeaseExpiry State.expiredLease
      rw [found]
      dsimp only
      rw [holder]
    · rw [notify_sess, sess, time]
      rfl
  · have run : exec (.subscriptionLeaseExpiry l p) s = execSubscriptionLeaseExpiry l p s := rfl
    rw [run]
    unfold execSubscriptionLeaseExpiry State.lease?
    rw [found]
    dsimp only
    rw [if_pos ⟨kind, expired⟩, depart_removeLease hc, depart_capture hc]
    rfl
  · have run : exec .authorityLeaseExpiry s = execAuthorityLeaseExpiry s := rfl
    rw [run]
    unfold execAuthorityLeaseExpiry State.expiredLease
    rw [found]
    rfl

/-! ### Pulses and release drives (R72, R76) -/

/-- Settles O23: by the ticks remaining. -/
theorem pulsesAndReleaseDrivesEnd : Obligations.PulsesAndReleaseDrivesEnd := by
  unfold Obligations.PulsesAndReleaseDrivesEnd
  refine ⟨fun l o q s ho hq => ?_, fun l d s hd => ?_⟩
  · have run : exec (.pulseEnd l) s = execPulseEnd l s := rfl
    rw [run]
    unfold execPulseEnd
    rw [ho]
    dsimp only
    rw [hq]
    dsimp only
    split <;> rfl
  · have run : exec (.releaseDriveEnd l) s = execReleaseDriveEnd l s := rfl
    rw [run]
    unfold execReleaseDriveEnd
    rw [hd]
    dsimp only
    split <;> rfl

end Sys2Proof.Machine

/-! ## Sessions, time and reference: the requests that set them (O4, O5, O11 to O14) -/

namespace Sys2Proof.Machine

/-! ### ATTACH and DETACH (R156 to R158) -/

theorem maskOf_eq (body : List Byte) :
    maskOf body = ⟨(body.getD 1 0#8).getLsbD 0, (body.getD 1 0#8).getLsbD 1, (body.getD 1 0#8).getLsbD 2⟩ := by
  simp only [maskOf, bitAt_eq_one, Bool.decide_eq_true]

/-- A byte below 8 is its three low bits. -/
theorem low_three_bits {b : Byte} (h : b.toNat < 8) :
    flagsByte [b.getLsbD 0, b.getLsbD 1, b.getLsbD 2] = b := by
  revert b
  decide

theorem fieldsOk_attach {body : List Byte} (h : fieldsOk .attach body = true) : (body.getD 1 0#8).toNat < 8 := by
  rw [← field_one]
  exact of_decide_eq_true h

theorem sessionFlags (performed : Bool) (holder : Prop) [Decidable holder] : flagsByte [performed, decide holder] =
    if performed then (if holder then 3#8 else 1#8) else (if holder then 2#8 else 0#8) := by
  by_cases h : holder <;> cases performed <;> simp only [h, decide_true, decide_false, if_true, if_false] <;> rfl

theorem sessionBody_eq (mask : AlertMask) (performed : Bool) (c : TeardownCounts) : sessionBody mask performed c =
    [flagsByte [mask.notices, mask.captures, mask.reply], flagsByte [performed, c.authority]] ++ bytesOf 1 c.lines ++
      bytesOf 1 c.subscriptions ++ bytesOf 1 c.entries := rfl

/-- Settles O4: on an attached port through the teardown. -/
theorem attachBeginsASession : Obligations.AttachBeginsASession := by
  unfold Obligations.AttachBeginsASession
  intro p body s admitted m mask
  have hmask : maskOf body = mask := maskOf_eq body
  have hm : flagsByte [mask.notices, mask.captures, mask.reply] = m := low_three_bits (fieldsOk_attach admitted.2.2.2)
  have number : ∀ (t : State) (x : Session), (t.setSess p x).sess[p].number = x.number := fun t x => by
    rw [State.setSess_sess, getElem_set_fin, if_pos rfl]
  refine ⟨fun detached => ?_, fun attached => ?_⟩
  · have run : attachRun p body s =
        (s.setSess p { s.sess[p] with attached := true, number := s.sess[p].number + 1, mask := mask },
          accept (sessionBody mask false ⟨0, 0, 0, false⟩)) := by
      unfold attachRun
      rw [detached, hmask]
      rfl
    rw [exec_admitted admitted rfl]
    show Host.Outcome.next (withReply p ([0x01#8, (attachRun p body s).2.status.code, (attachRun p body s).1.sess[p].number] ++
      (attachRun p body s).2.body) (attachRun p body s).1) = _
    rw [run, number]
    simp only [accept, sessionBody_eq, hm]
    rfl
  · have run : attachRun p body s = ((teardown p s).1.setSess p ⟨true, s.sess[p].number + 1, mask, [], false, none⟩,
        accept (sessionBody mask true (teardown p s).2)) := by
      unfold attachRun
      rw [if_pos attached, hmask]
      dsimp only
      rw [teardown_sess_self, attached]
    rw [exec_admitted admitted rfl]
    show Host.Outcome.next (withReply p ([0x01#8, (attachRun p body s).2.status.code, (attachRun p body s).1.sess[p].number] ++
      (attachRun p body s).2.body) (attachRun p body s).1) = _
    rw [run, number]
    have flags : flagsByte [true, (teardown p s).2.authority] = if s.authority = some p then 3#8 else 1#8 :=
      sessionFlags true (s.authority = some p)
    simp only [accept, sessionBody_eq, hm, flags]
    rfl

/-- Settles O5: the teardown, then the session becomes DETACHED. -/
theorem detachTearsThePortDown : Obligations.DetachTearsThePortDown := by
  unfold Obligations.DetachTearsThePortDown
  intro p body s admitted t n x
  have run : detachRun p body s = (t.setSess p ⟨false, x.number, x.mask, [], false, none⟩,
      accept (sessionBody x.mask true n)) := by
    unfold detachRun
    dsimp only
    rw [teardown_sess_self]
  have flags : flagsByte [true, n.authority] = if s.authority = some p then 3#8 else 1#8 :=
    sessionFlags true (s.authority = some p)
  rw [exec_admitted_of_run admitted rfl run (by rw [State.setSess_sess, getElem_set_fin, if_pos rfl])]
  simp only [accept, sessionBody_eq, flags, flagsByte_three]
  rfl

/-! ### SET_TIME (R13) -/

theorem HubTime.ofUnits_whole {s n : Nat} (h : n < 1000000000) :
    HubTime.ofUnits ((s * 1000000000 + n) * 1000000000) = ⟨s, n, 0⟩ := by
  unfold HubTime.ofUnits
  simp only [billion, HubTime.mk.injEq]
  omega

/-- Settles O11: by lock state; the step is one to the given time. -/
theorem setTimeStepsHubTime : Obligations.SetTimeStepsHubTime := by
  unfold Obligations.SetTimeStepsHubTime
  intro p body s admitted new applied handoff
  refine ⟨fun locked => ?_, fun free => ?_⟩
  · have run : setTimeRun body s = (s, refuse .wrongState) := if_pos locked
    exact exec_admitted_of_run admitted rfl run rfl
  · have nanos : field body 5 4 < 1000000000 := of_decide_eq_true admitted.2.2.2
    have units : new.units = timeField body 1 * billion := Nat.add_zero _
    have amount : setTimeAmount (timeField body 1) s = applied := by
      unfold setTimeAmount
      rw [← units]
      rfl
    have target : HubTime.ofUnits (timeField body 1 * billion) = new := HubTime.ofUnits_whole nanos
    have step : stepSet (timeField body 1) s = stepTo .setTime (timeField body 1 * billion) applied s := by
      rw [← amount]
      rfl
    rw [stepTo_eq, target] at step
    have run : setTimeRun body s = (stepSet (timeField body 1) s,
        accept (bytesOf 2 (stepSet (timeField body 1) s).time.epoch.toNat ++ bytesOfInt 8 applied)) := by
      rw [← amount]
      exact if_neg (not_not.2 free)
    rw [step] at run
    rw [exec_admitted_of_run admitted rfl run rfl]
    simp only [accept, List.append_assoc]
    rfl

/-! ### SET_REFERENCE and FLUSH_REFERENCE (R32 to R34) -/

/-- The timer restarts exactly where it runs in the resulting lock state. -/
theorem restartIfRunning_eq (s : State) : restartIfRunning s = { s with disc :=
    if s.disc.lock = .acquire ∨ s.disc.lock = .locked then { s.disc with timer := .running 0 false } else s.disc } := by
  unfold restartIfRunning
  split <;> rfl

theorem lockAfterSelection_cases (x : Selection) (old : LockState) :
    lockAfterSelection x old = .acquire ∨ (lockAfterSelection x old = .free) := by
  unfold lockAfterSelection
  split
  · split
    · exact .inr rfl
    · exact .inl rfl
  · exact .inr rfl
  · exact .inr rfl

/-- The Discipline Unit's part of a changed selection, as a whole next state. -/
theorem disciplinePart_changed {x : Selection} {s : State} {new : LockState} (h : lockAfterSelection x s.disc.lock = new) :
    disciplinePart true x s =
    { s with
      disc := { s.disc with
        lock := new
        inWindow := 0
        outliers := 0
        timer := if new = .acquire then .running 0 false else if s.disc.lock = .free then s.disc.timer else .stopped
        holdoverDue := if s.disc.lock = new then s.disc.holdoverDue else false }
      sess := if s.disc.lock = new then s.sess
        else toAll (.lockChanged s.disc.lock new .selection s.disc.lastError) s } := by
  unfold disciplinePart
  rw [if_pos rfl, h, restartIfRunning_eq]
  rcases lockAfterSelection_cases x s.disc.lock with e | e <;> rw [h] at e <;> subst e
  · by_cases same : s.disc.lock = .acquire
    · rw [changeLock_same same]
      simp [zeroCounts, same]
    · rw [changeLock_of_ne same]
      simp [zeroCounts, same]
  · by_cases same : s.disc.lock = .free
    · rw [changeLock_same same]
      simp [zeroCounts, same]
    · rw [changeLock_of_ne same]
      simp [zeroCounts, same, timerAtEntry]

theorem requestedSelection_of_some {body : List Byte} {x : Selection} (current : Selection)
    (h : selectionOf (field body 1 1) (BitVec.ofNat 8 (field body 2 1)) = some x) : requestedSelection body current = x := by
  unfold requestedSelection
  rw [h]
  rfl

/-- The state after an equal selection: the link delay is set, and a running timer restarts (R32, R33). -/
def selectionKept (body : List Byte) (s : State) : State :=
  { s with
    rx := { s.rx with linkDelay := field body 3 4 }
    disc := if s.disc.lock = .acquire ∨ s.disc.lock = .locked then { s.disc with timer := .running 0 false } else s.disc }

/-- The state after a changed selection, which leaves the lock state `new` (R32, R33). -/
def selectionChanged (body : List Byte) (x : Selection) (new : LockState) (s : State) : State :=
  let selected := toAll (.referenceChanged .selected x) s
  { s with
    rx := { s.rx with linkDelay := field body 3 4, selection := x, seedPending := true, stats := ⟨0, 0, 0, 0, 0, 0, 0⟩ }
    disc := { s.disc with
      lock := new
      inWindow := 0
      outliers := 0
      timer := if new = .acquire then .running 0 false else if s.disc.lock = .free then s.disc.timer else .stopped
      holdoverDue := if s.disc.lock = new then s.disc.holdoverDue else false }
    sess := if s.disc.lock = new then selected
      else mapVec (Session.push ⟨.lockChanged s.disc.lock new .selection s.disc.lastError, s.time.uptime⟩) selected }

/-- The reply body of a SET_REFERENCE. -/
def selectionBody (changed : Bool) (x : Selection) (delay : Nat) (lock : LockState) : List Byte :=
  [x.modeCode, flagsByte [x.idInEffect.isSome, changed], idByte x] ++ bytesOf 4 delay ++ [lock.code]

theorem setReferenceRun_kept {body : List Byte} {s : State}
    (h : selectionOf (field body 1 1) (BitVec.ofNat 8 (field body 2 1)) = some s.rx.selection) :
    setReferenceRun body s =
      (selectionKept body s, accept (selectionBody false s.rx.selection (field body 3 4) s.disc.lock)) := by
  have same : decide (s.rx.selection ≠ s.rx.selection) = false := decide_eq_false (not_not.2 rfl)
  unfold setReferenceRun
  rw [requestedSelection_of_some _ h]
  dsimp only
  rw [same]
  simp only [disciplinePart, Bool.false_eq_true, if_false, restartIfRunning_eq]
  by_cases running : s.disc.lock = .acquire ∨ s.disc.lock = .locked
  · simp only [selectionKept, if_pos running]
    rfl
  · simp only [selectionKept, if_neg running]
    rfl

theorem setReferenceRun_changed {body : List Byte} {s : State} {x : Selection} {new : LockState}
    (h : selectionOf (field body 1 1) (BitVec.ofNat 8 (field body 2 1)) = some x) (changed : x ≠ s.rx.selection)
    (lock : lockAfterSelection x s.disc.lock = new) : setReferenceRun body s =
      (selectionChanged body x new s, accept (selectionBody true x (field body 3 4) new)) := by
  unfold setReferenceRun
  rw [requestedSelection_of_some _ h]
  dsimp only
  rw [decide_eq_true changed]
  simp only [if_true]
  have part := disciplinePart_changed (s := changeSelection x { s with rx := { s.rx with linkDelay := field body 3 4 } }) lock
  rw [part]
  rfl

theorem lockAfterSelection_eq (x : Selection) (old : LockState) : lockAfterSelection x old = match x, old with
    | .none, _ => .free
    | .acceptFirst _, _ => .free
    | .fixed _, .free => .free
    | .fixed _, _ => .acquire := by
  cases x <;> cases old <;> rfl

theorem toAll_number (b : NoticeBody) (s : State) (p : Port) : (toAll b s)[p].number = s.sess[p].number := by
  unfold toAll
  rw [getElem_mapVec_fin, Session.push_number]

theorem selectionChanged_number (body : List Byte) (x : Selection) (new : LockState) (s : State) (p : Port) :
    (selectionChanged body x new s).sess[p].number = s.sess[p].number := by
  unfold selectionChanged
  dsimp only
  split
  · exact toAll_number _ s p
  · rw [getElem_mapVec_fin, Session.push_number]
    exact toAll_number _ s p

/-- Settles O12: by whether the selection is equal to the one in effect, then by mode and lock state. -/
theorem setReferenceTakesTheSelection : Obligations.SetReferenceTakesTheSelection := by
  unfold Obligations.SetReferenceTakesTheSelection
  refine ⟨fun p body s admitted equal => ?_, fun p body s x admitted selected changed => ?_⟩
  · have flags : flagsByte [s.rx.selection.idInEffect.isSome, false] = if s.rx.selection.idInEffect.isSome then 1#8 else 0#8 := by
      cases s.rx.selection.idInEffect.isSome <;> rfl
    rw [exec_admitted_of_run admitted rfl (setReferenceRun_kept equal) rfl]
    simp only [accept, selectionBody, flags, List.append_assoc]
    rfl
  · have flags : flagsByte [x.idInEffect.isSome, true] = if x.idInEffect.isSome then 3#8 else 2#8 := by
      cases x.idInEffect.isSome <;> rfl
    rw [exec_admitted_of_run admitted rfl (setReferenceRun_changed selected changed (lockAfterSelection_eq _ _))
      (selectionChanged_number _ _ _ _ _)]
    simp only [accept, selectionBody, flags, List.append_assoc]
    rfl

/-- The state after a FLUSH_REFERENCE (R34). -/
theorem flushReferenceRun_eq (body : List Byte) (s : State) :
    let leaves := s.disc.lock = .locked ∨ s.disc.lock = .holdover
    flushReferenceRun body s = ({ s with
      rx := { s.rx with seedPending := true }
      disc := { s.disc with
        lock := if leaves then .acquire else s.disc.lock
        inWindow := 0
        outliers := 0
        timer := if leaves then .running 0 false else s.disc.timer
        holdoverDue := if leaves then false else s.disc.holdoverDue }
      sess := if leaves then toAll (.lockChanged s.disc.lock .acquire .flush s.disc.lastError) s else s.sess },
      accept [if leaves then 1#8 else s.disc.lock.code]) := by
  intro leaves
  have cond : ((zeroCounts { s with rx := { s.rx with seedPending := true } }).disc.lock = .locked ∨
      (zeroCounts { s with rx := { s.rx with seedPending := true } }).disc.lock = .holdover) = leaves := rfl
  unfold flushReferenceRun
  dsimp only
  by_cases h : leaves
  · have ne : (zeroCounts { s with rx := { s.rx with seedPending := true } }).disc.lock ≠ .acquire := by
      show s.disc.lock ≠ .acquire
      rcases h with h | h <;> rw [h] <;> decide
    simp only [cond, if_pos h]
    rw [changeLock_of_ne ne]
    rfl
  · simp only [cond, if_neg h]
    rfl

/-- Settles O13: by lock state. -/
theorem flushReferenceAsksForASeed : Obligations.FlushReferenceAsksForASeed := by
  unfold Obligations.FlushReferenceAsksForASeed
  intro p body s admitted leaves
  have code : ∀ x : LockState,
      (if x = .locked ∨ x = .holdover then 1#8 else x.code) = if x = .free then 0#8 else 1#8 := by
    intro x
    cases x <;> rfl
  rw [exec_admitted_of_run admitted rfl (flushReferenceRun_eq body s), code]
  · rfl
  · dsimp only
    split
    · exact toAll_number _ _ _
    · rfl

/-! ### SET_DISCIPLINE (R55 to R57) -/

/-- The bytes of a body from a field on are the field and the bytes after it. -/
theorem drop_eq_field {body : List Byte} {off k : Nat} (h : off + k ≤ body.length) :
    body.drop off = bytesOf k (field body off k) ++ body.drop (off + k) := by
  have length : ((body.drop off).take k).length = k := by
    rw [List.length_take, List.length_drop]
    omega
  have bytes := bytesOf_natOf ((body.drop off).take k)
  rw [length] at bytes
  rw [field, bytes, ← List.drop_drop, List.take_append_drop]

/-- The eight parameters fill the body of a SET_DISCIPLINE (R186). -/
theorem paramBlock_paramsOf {body : List Byte} (h : body.length = 22) : paramBlock (paramsOf body) = body.drop 1 := by
  have field_at : ∀ off k, off + k ≤ 22 → body.drop off = bytesOf k (field body off k) ++ body.drop (off + k) :=
    fun off k le => drop_eq_field (h ▸ le)
  rw [field_at 1 4 (by decide), field_at 5 4 (by decide), field_at 9 1 (by decide), field_at 10 1 (by decide),
    field_at 11 2 (by decide), field_at 13 4 (by decide), field_at 17 4 (by decide), field_at 21 1 (by decide),
    List.drop_of_length_le h.le, List.append_nil]
  simp only [paramBlock, paramsOf, List.append_assoc]

/-- Settles O14: the parameters are the fields of the body. -/
theorem setDisciplineReplacesAllEight : Obligations.SetDisciplineReplacesAllEight := by
  unfold Obligations.SetDisciplineReplacesAllEight
  intro p body s flight x
  refine ⟨?_, fun admitted => ?_⟩
  · show x.inRange = true ↔ _
    simp only [Params.inRange, Bool.and_eq_true, decide_eq_true_eq, and_assoc]
  · have run : setDisciplineRun body s = ({ s with disc := { s.disc with params := x } },
        accept (body.drop 1 ++ [s.disc.lock.code])) := by
      rw [← paramBlock_paramsOf (requestOf_length flight.2)]
      rfl
    rw [exec_admitted_of_run admitted rfl run rfl]
    simp only [accept, List.append_assoc]
    rfl

end Sys2Proof.Machine

/-! ## Seconds wrap, uptime, hand-offs, beacons and time-outs (O42, O43, O45, O47, O48, O50) -/

namespace Sys2Proof.Machine

/-! ### The seconds wrap (R9) -/

theorem takeFiring_rest (s : State) (r : Reached) :
    (takeFiring s r).cal.reached = s.cal.reached ∧ (takeFiring s r).time = s.time := by
  unfold takeFiring
  split
  · unfold fireAt
    dsimp only
    rw [foldl_fireEntry, Handling.foldl_take_frame]
    exact ⟨rfl, rfl⟩
  · exact ⟨rfl, rfl⟩

theorem foldl_takeFiring_rest (l : List Reached) (s : State) :
    (l.foldl takeFiring s).cal.reached = s.cal.reached ∧ (l.foldl takeFiring s).time = s.time := by
  induction l generalizing s with
  | nil => exact ⟨rfl, rfl⟩
  | cons r l ih =>
    obtain ⟨reached, time⟩ := takeFiring_rest s r
    rw [List.foldl_cons, (ih _).1, (ih _).2, reached, time]
    exact ⟨rfl, rfl⟩

theorem exec_secondsWrap_of_le {s : State} (h : rangeNs ≤ s.time.hub.ns) : exec .secondsWrap s =
    .next (stepBy .wrap (-(rangeNs : Int)) (s.cal.reached.foldl takeFiring { s with cal := { s.cal with reached := [] } })) :=
  if_pos h

theorem emptied_reached {s : State} (h : s.cal.reached = []) : { s with cal := { s.cal with reached := [] } } = s := by
  rw [← h]

theorem HubTime.range_le_units {t : HubTime} (h : rangeNs ≤ t.ns) : rangeNs * 1000000000 ≤ t.units :=
  (Nat.mul_le_mul_right _ h).trans (Nat.le_add_right _ _)

/-- Settles O42: the firings come first, then the step of minus the range. -/
theorem secondsWrapIsAStep : Obligations.SecondsWrapIsAStep := by
  unfold Obligations.SecondsWrapIsAStep
  refine fun s => ⟨fun below => if_neg (not_le.2 below), fun carried none_reached bound => ?_, fun carried => ?_⟩
  · have le : 4294967296000000000 * 1000000000 ≤ s.time.hub.units := HubTime.range_le_units carried
    have units := HubTime.units_ofUnits (s.time.hub.units - 4294967296000000000 * 1000000000)
    have wrap : stepBy .wrap (-(rangeNs : Int)) s =
        stepTo .wrap (s.time.hub.units - 4294967296000000000 * 1000000000) (-4294967296000000000) s := by
      have hr : ((rangeNs * billion : Nat) : Int) = 4294967296000000000 * 1000000000 := rfl
      have hn : (s.time.hub.units : Int) + -(rangeNs : Int) * billion =
          s.time.hub.units - 4294967296000000000 * 1000000000 := by
        rw [neg_mul]
        rfl
      rcases stepBy_cases .wrap (-(rangeNs : Int)) s with ⟨low, -⟩ | ⟨high, -⟩ | ⟨-, -, h⟩
      · rw [hn] at low; omega
      · rw [hn, hr] at high; omega
      · rw [hn] at h
        have hu : ((s.time.hub.units : Int) - 4294967296000000000 * 1000000000).toNat =
            s.time.hub.units - 4294967296000000000 * 1000000000 := by omega
        rw [hu] at h
        exact h
    have backward : direction s.time.hub (HubTime.ofUnits (s.time.hub.units - 4294967296000000000 * 1000000000)) = .backward := by
      unfold direction
      rw [units, if_neg (by omega), if_pos (by omega)]
    refine ⟨HubTime.ofUnits (s.time.hub.units - 4294967296000000000 * 1000000000), HubTime.ofUnits_nanoseconds_lt _,
      HubTime.ofUnits_fraction_lt _, units, ?_⟩
    dsimp only
    rw [exec_secondsWrap_of_le carried, none_reached, List.foldl_nil, emptied_reached none_reached, wrap, stepTo_eq, backward,
      none_reached, List.filter_nil]
    rw [show ({ s.cal with reached := [] } : Calendar) = s.cal by rw [← none_reached]]
  · obtain ⟨reached, time⟩ := foldl_takeFiring_rest s.cal.reached { s with cal := { s.cal with reached := [] } }
    rw [exec_secondsWrap_of_le carried, exec_secondsWrap_of_le (by rw [time]; exact carried), reached, List.foldl_nil,
      emptied_reached reached]

/-! ### The increment of uptime (R2, R50, R52, R138) -/

/-- Settles O43: an increment is due where uptime differs from the tick count in whole ms. -/
theorem uptimeIncrementCountsOneMs : Obligations.UptimeIncrementCountsOneMs := by
  unfold Obligations.UptimeIncrementCountsOneMs
  intro s
  have run : exec .uptimeIncrement s = execUptimeIncrement s := rfl
  refine ⟨fun counted => ?_, fun due => ?_⟩
  · have not_due : ¬ s.uptimeDue = true := fun c => of_decide_eq_true c counted
    exact if_neg not_due
  · have is_due : s.uptimeDue = true := decide_eq_true due
    have elapsed : (if s.disc.lock = .holdover then s.disc.holdoverElapsed + 1 else s.disc.holdoverElapsed) =
        s.disc.holdoverElapsed + (if s.disc.lock = .holdover then 1 else 0) := by
      split <;> rfl
    rw [run, execUptimeIncrement, if_pos is_due, Discipline.countMs, elapsed]
    cases s.disc.timer <;> rfl

/-! ### The hand-offs of a step (R11, R21) -/

/-- Settles O45: by the oldest hand-off, or the oldest amount, that waits. -/
theorem stepsAreHandedOn : Obligations.StepsAreHandedOn := by
  unfold Obligations.StepsAreHandedOn
  refine ⟨fun s h rest waiting => ?_, fun s a rest m bytes last waiting receiving => ?_,
    fun s a rest m waiting idle provisional => ?_⟩
  · have run : exec .stepHandoffSession s = execStepHandoffSession s := rfl
    rw [run, execStepHandoffSession, waiting]
    rfl
  · have run : exec .markAdjust s = execMarkAdjust s := rfl
    rw [run, execMarkAdjust, waiting]
    dsimp only
    rw [receiving]
    rfl
  · have run : exec .markAdjust s = execMarkAdjust s := rfl
    rw [run, execMarkAdjust, waiting]
    dsimp only
    rw [idle, provisional]
    rfl

/-! ### The assembly of a beacon (R18, R19) -/

/-- In IDLE what precedes a start bit is passed over; a start bit itself is due. -/
theorem due_of_idle {r : Receiver} {rest : List RxEvent} (h : r.assembly = .idle) (hf : r.found = .startBit :: rest) :
    r.due = .startBit :: rest := by
  unfold Receiver.due
  rw [h, hf]
  rfl

/-- While a beacon is assembled anything but a start bit is due as it was found. -/
theorem due_of_receiving {r : Receiver} {m : Mark} {bytes : List Byte} {last : Option Nat} {e : RxEvent} {rest : List RxEvent}
    (h : r.assembly = .receiving m bytes last) (hf : r.found = e :: rest) (he : e ≠ .startBit) : r.due = e :: rest := by
  unfold Receiver.due
  rw [h, hf]
  exact List.dropWhile_cons_of_neg (p := fun e => decide (e = RxEvent.startBit)) (by simpa using he)

theorem due_of_none_found {r : Receiver} {m : Mark} {bytes : List Byte} {last : Option Nat}
    (h : r.assembly = .receiving m bytes last) (hf : r.found = []) : r.due = [] := by
  unfold Receiver.due
  rw [h, hf]
  rfl

/-- Settles O47: by what has been found on REFIN. -/
theorem beaconsAreAssembledOrAbandoned : Obligations.BeaconsAreAssembledOrAbandoned := by
  unfold Obligations.BeaconsAreAssembledOrAbandoned
  intro s abandoned
  refine ⟨fun m rest idle found provisional => ?_, fun m bytes last b tick rest receiving found short first => ?_,
    fun m last b tick rest receiving found wrong => ?_, fun m bytes last rest receiving found => ?_,
    fun m bytes last receiving found => ?_⟩
  · have run : exec .beaconMark s = execBeaconMark s := rfl
    rw [run, execBeaconMark, due_of_idle idle found, idle, provisional]
  · have run : exec .characterCompleted s = execCharacterCompleted s := rfl
    rw [run, execCharacterCompleted, due_of_receiving receiving found nofun, receiving]
    exact if_pos ⟨short, fun h => first (List.eq_nil_of_length_eq_zero h)⟩
  · have run : exec .beaconAbandoned s = execBeaconAbandoned s := rfl
    rw [run, execBeaconAbandoned, due_of_receiving receiving found nofun, receiving]
    exact if_pos ⟨rfl, wrong⟩
  · have run : exec .beaconAbandoned s = execBeaconAbandoned s := rfl
    rw [run, execBeaconAbandoned, due_of_receiving receiving found nofun, receiving]
    rfl
  · have run : exec .gapExpiry s = execGapExpiry s := rfl
    rw [run, execGapExpiry, due_of_none_found receiving found, receiving]
    dsimp only
    split <;> rfl

/-! ### The classification of a beacon (R20 to R29) -/

theorem beaconContentOk_iff {b : List Byte} (h : b.length = 15) : beaconContentOk b = true ↔
    b.drop 13 = bytesOf 2 (crc16 (b.take 13)).toNat ∧ field b 9 4 < 1000000000 := by
  have whole : (b.drop 13).take 2 = b.drop 13 := List.take_of_length_le (by rw [List.length_drop]; omega)
  unfold beaconContentOk
  rw [whole, Bool.and_eq_true, decide_eq_true_eq, decide_eq_true_eq]
  exact and_congr_left fun _ => eq_comm

theorem sequenceOld_iff (seq last : BitVec 16) :
    sequenceOld seq last = true ↔ (seq - last).toNat = 0 ∨ 32768 ≤ (seq - last).toNat := by
  have equal : seq = last ↔ (seq - last).toNat = 0 := by
    constructor
    · rintro rfl
      rw [BitVec.sub_self]
      rfl
    · intro h
      bv_omega
  unfold sequenceOld
  rw [Bool.or_eq_true, decide_eq_true_eq, decide_eq_true_eq, equal]

theorem foreignTo_iff (x : Selection) (source : Byte) : foreignTo x source = true ↔ (match x with
    | .none => True
    | .fixed i => i ≠ source
    | .acceptFirst (some i) => i ≠ source
    | .acceptFirst none => False) := by
  unfold foreignTo
  split <;> simp

theorem sum_eq_foldl (l : List Int) : l.foldl (· + ·) 0 = l.sum := by
  rw [List.sum_eq_foldl]

section
variable {r : Receiver} {b : Beacon}

theorem classify_foreign (h : foreignTo r.selection b.source = true) : classify r b = .foreign := if_pos h

theorem classify_untraceable (h : ¬ foreignTo r.selection b.source = true) (ht : b.traceable = false) :
    classify r b = .untraceable := by
  unfold classify
  rw [if_neg h, if_pos ht]

theorem classify_adoption (h : ¬ foreignTo r.selection b.source = true) (ht : b.traceable = true)
    (ha : r.selection = .acceptFirst none) : classify r b = .adoption := by
  unfold classify
  rw [if_neg h, if_neg (by rw [ht]; decide), if_pos ha]

/-- A traceable beacon from the source in effect is a duplicate, a seed or usable. -/
theorem classify_known (h : ¬ foreignTo r.selection b.source = true) (ht : b.traceable = true)
    (ha : r.selection ≠ .acceptFirst none) : classify r b =
      if r.seedPending = false ∧ b.discontinuity = false ∧ sequenceOld b.sequence r.lastSeq = true then .duplicate
      else if r.seedPending = true ∨ b.discontinuity = true then .seed else .usable := by
  unfold classify
  rw [if_neg h, if_neg (by rw [ht]; decide), if_neg ha]

end

/-- The last character of a beacon ends it. -/
theorem exec_beaconEnd_last {s : State} {m : Mark} {bytes : List Byte} {last : Option Nat} {c : Byte} {tick : Nat}
    {rest : List RxEvent} (receiving : s.rx.assembly = .receiving m bytes last) (length : bytes.length = 14)
    (found : s.rx.found = .character c tick :: rest) : exec .beaconEnd s =
      if beaconContentOk (bytes ++ [c]) then .next (takeBeacon m (phaseError s.rx m (beaconOf (bytes ++ [c])))
        (beaconOf (bytes ++ [c])) (endAssembly rest s)) else .next (abandon rest s) := by
  have run : exec .beaconEnd s = execBeaconEnd s := rfl
  rw [run, execBeaconEnd, due_of_receiving receiving found nofun, receiving]
  exact if_neg (by omega)

/-- Settles O48: by the class of the beacon. -/
theorem beaconsAreClassifiedAtTheirEnd : Obligations.BeaconsAreClassifiedAtTheirEnd := by
  unfold Obligations.BeaconsAreClassifiedAtTheirEnd
  intro s m bytes last c tick rest receiving length found b source seq traceable discontinuity time e contentOk foreign adopts
    old counted n result
  have ended : result = _ := exec_beaconEnd_last receiving length found
  have content : beaconContentOk b = true ↔ contentOk :=
    beaconContentOk_iff (by show (bytes ++ [c]).length = 15; rw [List.length_append, length]; rfl)
  have isForeign : foreignTo s.rx.selection (beaconOf b).source = true ↔ foreign := foreignTo_iff _ _
  have isOld : sequenceOld (beaconOf b).sequence s.rx.lastSeq = true ↔ old := sequenceOld_iff _ _
  have bits : ∀ bit, decide (bitAt b 4 bit = 1) = (b.getD 4 0#8).getLsbD bit := fun bit => by
    rw [Bool.eq_iff_iff, decide_eq_true_eq, bitAt_eq_one]
  have isTraceable : (beaconOf b).traceable = traceable := bits 0
  have isDiscontinuous : (beaconOf b).discontinuity = discontinuity := bits 1
  have error : phaseError s.rx m (beaconOf b) = e := by
    unfold phaseError
    rw [sum_eq_foldl, Nat.cast_add]
    rfl
  have taken : contentOk → ∀ v, classify s.rx (beaconOf b) = v → result = .next (match v with
      | .foreign => counted { n with foreign := min 65535 (n.foreign + 1) }
      | .untraceable => counted { n with untraceable := min 65535 (n.untraceable + 1) }
      | .duplicate => counted { n with duplicate := min 65535 (n.duplicate + 1) }
      | .adoption =>
        let t := counted { n with seed := min 65535 (n.seed + 1) }
        handleBeacon .seed e m.tick
          { t with
            rx := { t.rx with selection := .acceptFirst (some source), seedPending := false, lastSeq := seq }
            sess := toAll (.referenceChanged .adopted (.acceptFirst (some source))) s }
      | .seed =>
        let t := counted { n with seed := min 65535 (n.seed + 1) }
        handleBeacon .seed e m.tick { t with rx := { t.rx with seedPending := false, lastSeq := seq } }
      | .usable =>
        let t := counted { n with usable := min 65535 (n.usable + 1) }
        handleBeacon .usable e m.tick { t with rx := { t.rx with lastSeq := seq } }) := by
    intro ok v hv
    rw [ended, if_pos (content.2 ok), error]
    unfold takeBeacon
    have same : classify (endAssembly rest s).rx (beaconOf b) = v := hv
    rw [same]
    cases v <;> rfl
  refine ⟨fun bad => ?_, fun ok hf => taken ok _ (classify_foreign (isForeign.2 hf)), fun ok hf ht => ?_,
    fun ok hf ht ha hp hd ho => ?_, fun ok hf ht ha => ?_, fun ok hf ht ha hs => ?_, fun ok hf ht ha hp hd ho => ?_⟩
  · rw [ended, if_neg (mt content.1 bad)]
    rfl
  · exact taken ok _ (classify_untraceable (mt isForeign.1 hf) (isTraceable.trans ht))
  · refine taken ok .duplicate ?_
    rw [classify_known (mt isForeign.1 hf) (isTraceable.trans ht) ha, if_pos ⟨hp, isDiscontinuous.trans hd, isOld.2 ho⟩]
  · exact taken ok _ (classify_adoption (mt isForeign.1 hf) (isTraceable.trans ht) ha)
  · refine taken ok .seed ?_
    rw [classify_known (mt isForeign.1 hf) (isTraceable.trans ht) ha, isDiscontinuous, if_neg, if_pos hs]
    rintro ⟨hp, hd, -⟩
    rcases hs with h | h
    · rw [hp] at h; cases h
    · exact Bool.noConfusion (hd.symm.trans h)
  · refine taken ok .usable ?_
    rw [classify_known (mt isForeign.1 hf) (isTraceable.trans ht) ha, isDiscontinuous, if_neg fun c => ho (isOld.1 c.2.2),
      if_neg]
    rintro (h | h)
    · rw [hp] at h; cases h
    · exact Bool.noConfusion (hd.symm.trans h)

/-! ### The beacon timeout and the holdover limit (R25, R50 to R52) -/

/-- Settles O50: by lock state. -/
theorem timeoutsChangeTheLockState : Obligations.TimeoutsChangeTheLockState := by
  unfold Obligations.TimeoutsChangeTheLockState
  intro s lockTo told
  have change : ∀ new cause, (new = .free ∨ new = .holdover) → s.disc.lock ≠ new → changeLock new cause s = lockTo new cause := by
    intro new cause hn ne
    rw [changeLock_of_ne ne]
    rcases hn with rfl | rfl <;> rfl
  have tell : ∀ t : State, t.rx = s.rx → t.time = s.time → freeEntryNotice t = told t := by
    intro t hr ht
    rcases selection : s.rx.selection with _ | i | (_ | i) <;>
      simp only [freeEntryNotice, told, broadcast, hr, ht, selection]
  refine ⟨fun n running due => ?_, fun lock marked reached => ?_⟩
  · have expired : s.disc.timer.expired s.disc.params.beaconTimeout = true := by
      rw [running]
      exact decide_eq_true due
    have run : exec .beaconTimeoutExpiry s = execBeaconTimeoutExpiry s := rfl
    rw [run, execBeaconTimeoutExpiry, if_pos expired]
    refine ⟨fun lock => ?_, fun lock => ?_⟩
    · rw [change .free .timeout (.inl rfl) (by rw [lock]; decide), tell (lockTo .free .timeout) rfl rfl, lock]
    · rw [lock]
      exact congrArg _ (change _ _ (.inr rfl) (by rw [lock]; decide))
  · have run : exec .holdoverLimitReached s = execHoldoverLimitReached s := rfl
    rw [run, execHoldoverLimitReached, if_pos ⟨lock, marked, reached⟩, change _ _ (.inl rfl) (by rw [lock]; decide)]
    exact congrArg _ (tell _ rfl rfl)

end Sys2Proof.Machine

/-! ## SCHEDULE, CANCEL and READ_ENTRY (O24 to O27) -/

namespace Sys2Proof.Machine

/-! ### The fields of a SCHEDULE body (R88, R186) -/

theorem getLsbD_iff (b : Byte) (k : Nat) : b.getLsbD k = true ↔ b.toNat / 2 ^ k % 2 = 1 := by
  rw [BitVec.getLsbD, Nat.testBit_eq_decide_div_mod_eq, decide_eq_true_eq]

/-- Each optional field stands behind the one before it, present by its bit. -/
theorem scheduleFields_optional (body : List Byte) :
    let presence := body.getD 5 0#8
    let afterWidth := 15 + 4 * (presence.getLsbD 0).toNat
    (scheduleFields body).width = (if presence.getLsbD 0 then some (field body 15 4) else none) ∧
    (scheduleFields body).period = (if presence.getLsbD 1 then some (field body afterWidth 4) else none) ∧
    (scheduleFields body).count =
      (if presence.getLsbD 2 then some (field body (afterWidth + 4 * (presence.getLsbD 1).toNat) 2) else none) := by
  refine ⟨?_, ?_, ?_⟩ <;> simp only [scheduleFields, bitAt_eq_one] <;> simp only [bitAt_eq]

theorem lineOf_isSome (n : Nat) : (lineOf n).isSome = true ↔ n ≤ 15 := by
  unfold lineOf
  by_cases h : n < 16
  · rw [dif_pos h]
    exact ⟨fun _ => Nat.lt_succ_iff.1 h, fun _ => rfl⟩
  · rw [dif_neg h]
    exact ⟨fun c => Bool.noConfusion c, fun c => absurd (Nat.lt_succ_iff.2 c) h⟩

theorem lineOf_some {n : Nat} {l : LineNo} (h : lineOf n = some l) : l.val = n := by
  unfold lineOf at h
  split at h <;> cases h
  rfl

/-- Of four codes with two meanings, 1 and 2 have one. -/
theorem latePolicyOf_isSome (n : Nat) : (latePolicyOf n).isSome = true ↔ n = 1 ∨ n = 2 := by
  unfold latePolicyOf
  split <;> simp_all

theorem stepPolicyOf_isSome (n : Nat) : (stepPolicyOf n).isSome = true ↔ n = 1 ∨ n = 2 := by
  unfold stepPolicyOf
  split <;> simp_all

theorem notifyOf_isSome (n : Nat) : (notifyOf n).isSome = true ↔ n = 1 ∨ n = 2 := by
  unfold notifyOf
  split <;> simp_all

/-- The held width in ns of an action by its code. -/
theorem actionOf_iff (code : Nat) (width : Option Nat) (P : Nat → Prop) :
    (∃ a, actionOf code width = some a ∧ P a.widthNs) ↔
      1 ≤ code ∧ code ≤ 4 ∧ (width.isSome = true ↔ code = 4) ∧ P (if code = 4 then (width.getD 0 + 7) / 8 * 8 else 0) := by
  unfold actionOf
  split
  · simp [Action.widthNs]
  · simp [Action.widthNs]
  · simp [Action.widthNs]
  · simp [Action.widthNs, ticksOfNs]
  · next h1 h2 h3 h4 =>
    refine ⟨fun ⟨_, h, _⟩ => (nomatch h), fun ⟨low, high, present, _⟩ => ?_⟩
    cases width with
    | none =>
      have : code ≠ 4 := fun c => Bool.noConfusion (present.2 c)
      have : code = 1 ∨ code = 2 ∨ code = 3 := by omega
      rcases this with rfl | rfl | rfl
      · exact absurd rfl (h1 rfl)
      · exact absurd rfl (h2 rfl)
      · exact absurd rfl (h3 rfl)
    | some w => exact absurd rfl (h4 w (present.1 rfl))

theorem repetitionOf_isSome (a : Action) (period count : Option Nat) : (repetitionOf a period count).isSome = true ↔
    (∀ n, period = some n → 1000 ≤ n ∧ n ≤ 4000000000 ∧ a.widthNs < n) ∧
      (count.isSome = true → period.isSome = true ∧ count ≠ some 0) := by
  unfold repetitionOf
  cases period with
  | none => cases count <;> simp
  | some n =>
    by_cases h : 1000 ≤ n ∧ n ≤ 4000000000 ∧ count ≠ some 0 ∧ a.widthNs < n
    · simp only [if_pos h]
      obtain ⟨h1, h2, h3, h4⟩ := h
      exact iff_of_true rfl ⟨fun m hm => by cases hm; exact ⟨h1, h2, h4⟩, fun _ => ⟨rfl, h3⟩⟩
    · simp only [if_neg h]
      refine iff_of_false Bool.false_ne_true fun ⟨range, zero⟩ => h ?_
      obtain ⟨h1, h2, h4⟩ := range n rfl
      refine ⟨h1, h2, fun c => ?_, h4⟩
      subst c
      exact (zero rfl).2 rfl

/-- The field check accepts exactly the fields that describe an entry. -/
theorem entryOf_isSome (p : Port) (x : ScheduleFields) : (entryOf p x).isSome = true ↔
    (x.presence < 8 ∧ x.policies < 64 ∧ x.nanos < billion ∧ 8 ≤ x.width.getD 8 ∧ x.width.getD 8 ≤ 1000000000) ∧
    (lineOf x.line).isSome = true ∧ (latePolicyOf (x.policies % 4)).isSome = true ∧
    (stepPolicyOf (x.policies / 4 % 4)).isSome = true ∧ (notifyOf (x.policies / 16 % 4)).isSome = true ∧
    ∃ a, actionOf x.action x.width = some a ∧ (repetitionOf a x.period x.count).isSome = true := by
  unfold entryOf
  split
  · next ranges =>
    rw [and_iff_right ranges]
    cases lineOf x.line <;> cases actionOf x.action x.width <;> cases latePolicyOf (x.policies % 4) <;>
      cases stepPolicyOf (x.policies / 4 % 4) <;> cases notifyOf (x.policies / 16 % 4) <;> simp
    cases repetitionOf _ _ _ <;> rfl
  · next ranges => exact iff_of_false Bool.false_ne_true fun c => ranges c.1

/-- The check of an action and its repetition, on the presence bits of the body. -/
theorem action_repetition_iff (code width period count : Nat) (w p c : Bool) :
    (∃ a, actionOf code (if w then some width else none) = some a ∧
      (repetitionOf a (if p then some period else none) (if c then some count else none)).isSome = true) ↔
    1 ≤ code ∧ code ≤ 4 ∧ (w = true ↔ code = 4) ∧
      (p = true → 1000 ≤ period ∧ period ≤ 4000000000 ∧ (code = 4 → (width + 7) / 8 * 8 < period)) ∧
      (c = true → p = true ∧ count ≠ 0) := by
  simp only [repetitionOf_isSome]
  rw [actionOf_iff code (if w then some width else none) fun held =>
    (∀ n, (if p then some period else none) = some n → 1000 ≤ n ∧ n ≤ 4000000000 ∧ held < n) ∧
      ((if c then some count else none).isSome = true →
        (if p then some period else none).isSome = true ∧ (if c then some count else none) ≠ some 0)]
  by_cases pulse : code = 4 <;> cases w <;> cases p <;> cases c <;> simp [pulse] <;> omega

/-- Settles O24: the fields describe an entry exactly where each lies in its range. -/
theorem scheduleFieldsAreChecked : Obligations.ScheduleFieldsAreChecked := by
  unfold Obligations.ScheduleFieldsAreChecked
  intro body action presence policies hasWidth hasPeriod width period count
  obtain ⟨hw, hp, hc⟩ := scheduleFields_optional body
  have present : (scheduleFields body).presence = presence.toNat := field_one body 5
  have widthRange : (8 ≤ (if hasWidth then some width else none).getD 8 ∧
      (if hasWidth then some width else none).getD 8 ≤ 1000000000) ↔ (hasWidth = true → 8 ≤ width ∧ width ≤ 1000000000) := by
    cases hasWidth <;> simp
  show (entryOf 0 (scheduleFields body)).isSome = true ↔ _
  rw [entryOf_isSome, hw, hp, hc, lineOf_isSome, latePolicyOf_isSome, stepPolicyOf_isSome, notifyOf_isSome, present,
    widthRange, action_repetition_iff]
  exact ⟨fun ⟨⟨hpres, hpol, nanos, wide⟩, line, late, step, notify, low, high, pulse, per, cnt⟩ =>
      ⟨line, low, high, hpres, hpol, late, step, notify, nanos, pulse, wide, per, cnt⟩,
    fun ⟨line, low, high, hpres, hpol, late, step, notify, nanos, pulse, wide, per, cnt⟩ =>
      ⟨⟨hpres, hpol, nanos, wide⟩, line, late, step, notify, low, high, pulse, per, cnt⟩⟩

/-! ### The entry a body asks for (R92, R94) -/

/-- The action of a code that is not that of DRIVE_HIGH, DRIVE_LOW or TOGGLE is a PULSE. -/
theorem actionOf_some {code width : Nat} {w : Bool} {a : Action} (h : actionOf code (if w then some width else none) = some a) :
    a = (match (generalizing := false) code with
      | 1 => .driveHigh
      | 2 => .driveLow
      | 3 => .toggle
      | _ => .pulse ((width + 7) / 8)) := by
  cases w <;> unfold actionOf at h <;> split at h <;> simp_all [ticksOfNs]

theorem repetitionOf_some {a : Action} {period : Nat} {count : Option Nat} {p : Bool} {r : Repetition}
    (h : repetitionOf a (if p then some period else none) count = some r) :
    r = if p then .periodic period count else .oneShot := by
  unfold repetitionOf at h
  cases p
  · simp only [Bool.false_eq_true, if_false] at h ⊢
    split at h
    · exact (Option.some.inj h).symm
    · exact (nomatch h)
  · simp only [if_true] at h ⊢
    split at h
    · exact (Option.some.inj h).symm
    · exact (nomatch h)

theorem latePolicyOf_some {n : Nat} {x : LatePolicy} (h : latePolicyOf n = some x) :
    x = if n % 2 = 1 then .fireLate else .discard := by
  unfold latePolicyOf at h
  split at h <;> cases h <;> rfl

theorem stepPolicyOf_some {n : Nat} {x : StepPolicy} (h : stepPolicyOf n = some x) :
    x = if n % 2 = 1 then .keep else .void := by
  unfold stepPolicyOf at h
  split at h <;> cases h <;> rfl

theorem notifyOf_some {n : Nat} {x : Bool} (h : notifyOf n = some x) : x = decide (n / 2 % 2 = 1) := by
  unfold notifyOf at h
  split at h <;> cases h <;> rfl

/-- The field check gives the entry that the body's bytes describe. -/
theorem requested_of_entryOf {p : Port} {body : List Byte} {e : Entry} (h : entryOf p (scheduleFields body) = some e) :
    Requested p body e := by
  obtain ⟨hw, hp, hc⟩ := scheduleFields_optional body
  obtain ⟨-, owner, line, action, time, repetition, late, step, notify⟩ := entryOf_some h
  rw [hw] at action
  rw [hp, hc] at repetition
  have policies : (scheduleFields body).policies = (body.getD 6 0#8).toNat := field_one body 6
  refine ⟨owner, lineOf_some line, actionOf_some action, time, (repetitionOf_some repetition).trans ?_,
    (latePolicyOf_some late).trans ?_, (stepPolicyOf_some step).trans ?_, (notifyOf_some notify).trans ?_⟩
  · cases hb : (body.getD 5 0#8).getLsbD 1 <;> rfl
  · refine if_congr ?_ rfl rfl
    rw [getLsbD_iff, policies]
    omega
  · refine if_congr ?_ rfl rfl
    rw [getLsbD_iff, policies]
    omega
  · rw [Bool.eq_iff_iff, decide_eq_true_eq, getLsbD_iff, policies]
    omega

theorem Requested.unique {p : Port} {body : List Byte} {e x : Entry} (he : Requested p body e) (hx : Requested p body x) :
    e = x := by
  obtain ⟨h1, h2, h3, h4, h5, h6, h7, h8⟩ := he
  obtain ⟨g1, g2, g3, g4, g5, g6, g7, g8⟩ := hx
  cases e
  cases x
  rw [Entry.mk.injEq]
  exact ⟨h1.trans g1.symm, Fin.ext (h2.trans g2.symm), h3.trans g3.symm, h4.trans g4.symm, h5.trans g5.symm,
    h6.trans g6.symm, h7.trans g7.symm, h8.trans g8.symm⟩

theorem entryOf_owner_isSome (p q : Port) (x : ScheduleFields) : (entryOf p x).isSome = (entryOf q x).isSome := by
  rw [Bool.eq_iff_iff, entryOf_isSome, entryOf_isSome]

/-- An admitted SCHEDULE runs with the requested entry. -/
theorem entryOf_requested {p : Port} {body : List Byte} {s : State} {e : Entry} (admitted : Admitted .schedule p body s)
    (requested : Requested p body e) : entryOf p (scheduleFields body) = some e := by
  have ok : (entryOf p (scheduleFields body)).isSome = true := (entryOf_owner_isSome p 0 _).trans admitted.2.2.2
  obtain ⟨x, hx⟩ := Option.isSome_iff_exists.1 ok
  rw [hx, requested.unique (requested_of_entryOf hx)]

/-! ### The Calendar's own checks (R89 to R93) and the insertion (R94) -/

/-- What the Calendar does with an admitted SCHEDULE whose entry is `e`. -/
theorem exec_schedule_refused {p : Port} {body : List Byte} {s : State} {e : Entry} {v : Status}
    (admitted : Admitted .schedule p body s) (requested : Requested p body e)
    (check : scheduleCheck p (field body 1 2) e s = v) (bad : v ≠ .ok) :
    exec (.schedule p) s = .next (withReply p [0x50#8, v.code, s.sess[p].number] s) := by
  have run : requestRun p .schedule body s = (s, refuse v) := by
    show scheduleRun p body s = _
    unfold scheduleRun
    have check' : scheduleCheck p (scheduleFields body).epoch e s = v := check
    simp only [entryOf_requested admitted requested, check', if_pos bad]
  exact exec_admitted_of_run admitted rfl run rfl

theorem tooSoon_iff (s : State) (t : Nat) :
    s.tooSoon t = true ↔ ¬ (s.time.hub.units : Int) + 2000 * 1000000000 ≤ (t * 1000000000 : Nat) := by
  unfold State.tooSoon billion
  rw [decide_eq_true_eq]
  omega

/-- Settles O25: the body's entry is the requested one, and the checks of the Calendar come in their order. -/
theorem scheduleChecksComeInOrder : Obligations.ScheduleChecksComeInOrder := by
  unfold Obligations.ScheduleChecksComeInOrder
  intro p body s e admitted requested refused current lead collides clear
  have collision : ∀ x, collides x ↔ Collide e x := fun x => by
    unfold Collide
    cases he : e.repetition <;> cases hx : x.repetition <;> simp only [collides, he, hx]
  have conflict : s.conflicts e = true ↔ ¬ clear := by
    rw [conflicts_iff]
    simp only [clear, collision]
    push Not
    rfl
  refine ⟨fun h => ?_, fun h hc => ?_, fun h hc hl => ?_, fun h hc hl hk => ?_, fun h hc hl hk hq => ?_⟩
  · refine exec_schedule_refused (v := .notOwner) admitted requested ?_ (nomatch ·)
    rw [scheduleCheck, if_pos h]
  · refine exec_schedule_refused (v := .staleEpoch) admitted requested ?_ (nomatch ·)
    rw [scheduleCheck, h, if_neg Bool.noConfusion, if_pos hc]
  · refine exec_schedule_refused (v := .tooSoon) admitted requested ?_ (nomatch ·)
    rw [scheduleCheck, h, if_neg Bool.noConfusion, if_neg (not_not.2 hc), if_pos ((tooSoon_iff s _).2 hl)]
  · refine exec_schedule_refused (v := .conflict) admitted requested ?_ (nomatch ·)
    rw [scheduleCheck, h, if_neg Bool.noConfusion, if_neg (not_not.2 hc), if_neg fun c => (tooSoon_iff s _).1 c hl,
      if_pos (conflict.2 hk)]
  · refine exec_schedule_refused (v := .quota) admitted requested ?_ (nomatch ·)
    rw [scheduleCheck, h, if_neg Bool.noConfusion, if_neg (not_not.2 hc), if_neg fun c => (tooSoon_iff s _).1 c hl,
      if_neg fun c => conflict.1 c hk, if_pos hq]

theorem freeSlot_eq_some {s : State} {i : SlotNo} (free : s.cal.slots[i].entry = none)
    (lowest : ∀ j : SlotNo, j < i → s.cal.slots[j].entry ≠ none) : s.freeSlot = some i := by
  refine List.find?_eq_some_iff_getElem.2 ⟨?_, i.val, ?_, List.getElem_finRange _, fun j hj => ?_⟩
  · rw [free]
    rfl
  · rw [allSlots, List.length_finRange]
    exact i.isLt
  · have occupied := lowest ⟨j, hj.trans i.isLt⟩ hj
    have place : allSlots[j]'(by rw [allSlots, List.length_finRange]; omega) = ⟨j, hj.trans i.isLt⟩ := List.getElem_finRange _
    rw [place, Bool.not_eq_true', Option.isNone_eq_false_iff]
    exact Option.ne_none_iff_isSome.1 occupied

/-- Settles O26: a passed check inserts the requested entry in the first free slot. -/
theorem scheduleInsertsInTheLowestFreeSlot : Obligations.ScheduleInsertsInTheLowestFreeSlot := by
  unfold Obligations.ScheduleInsertsInTheLowestFreeSlot
  intro p body s e i admitted requested holds epoch lead clear quota free lowest held
  obtain rfl : e.owner = p := requested.1
  have notSoon : s.tooSoon e.fireTime = false := Bool.eq_false_iff.2 fun c => (tooSoon_iff s _).1 c lead
  have noConflict : s.conflicts e = false := Bool.eq_false_iff.2 fun c => by
    obtain ⟨j, x, hx, line, collide⟩ := (conflicts_iff s e).1 c
    exact clear j x hx line collide
  have check : scheduleCheck e.owner (scheduleFields body).epoch e s = .ok :=
    scheduleCheck_ok.2 ⟨holds, epoch, notSoon, noConflict, quota⟩
  have run : requestRun e.owner .schedule body s = (insertEntry i e s, accept (handleBytes i (s.cal.slots[i]).generation ++
      bytesOf 4 e.action.widthNs ++ bytesOf 1 (insertEntry i e s).cal.count[e.owner] ++
      bytesOf 1 (insertEntry i e s).cal.quota[e.owner])) := by
    show scheduleRun e.owner body s = _
    unfold scheduleRun
    simp only [entryOf_requested admitted requested, check, freeSlot_eq_some free lowest, ne_eq, not_true_eq_false, if_false]
  have inserted : insertEntry i e s = { s with cal := { s.cal with
      slots := s.cal.slots.set i ⟨s.cal.slots[i].generation, some e⟩
      count := s.cal.count.set e.owner (s.cal.count[e.owner] + 1) } } := rfl
  have width : held = e.action.widthNs := by
    show (match e.action with | .pulse w => w * 8 | _ => 0) = _
    cases e.action <;> rfl
  rw [exec_admitted_of_run admitted rfl run rfl, inserted, width]
  have counted : (s.cal.count.set e.owner (s.cal.count[e.owner] + 1))[e.owner] = s.cal.count[e.owner] + 1 := by
    rw [getElem_set_fin, if_pos rfl]
  simp only [accept, List.append_assoc, counted]
  rfl

/-! ### Handles (R96, R97) -/

theorem named_eq_some {s : State} {p : Port} {i : SlotNo} {g : BitVec 8} {e : Entry}
    (h : s.cal.slots[i].entry = some e ∧ s.cal.slots[i].generation = g ∧ e.owner = p) : s.named p i g = some e := by
  obtain ⟨he, hg, ho⟩ := h
  unfold State.named
  rw [he]
  exact if_pos ⟨hg, ho⟩

theorem named_eq_none {s : State} {p : Port} {i : SlotNo} {g : BitVec 8}
    (h : ∀ e, ¬ (s.cal.slots[i].entry = some e ∧ s.cal.slots[i].generation = g ∧ e.owner = p)) : s.named p i g = none := by
  unfold State.named
  cases he : s.cal.slots[i].entry with
  | none => rfl
  | some e => exact if_neg fun c => h e ⟨he, c⟩

theorem cancelRun_named {p : Port} {body : List Byte} {s : State} {e : Entry}
    (h : s.named p (bodySlot body) (bodyGeneration body) = some e) : cancelRun p body s = (removeEntry (bodySlot body) s,
      accept (handleBytes (bodySlot body) (bodyGeneration body) ++ timeBytes e.fireTime ++
        bytesOf 2 (e.repetition.count.getD 0))) := by
  simp only [cancelRun, h]

theorem cancelRun_unnamed {p : Port} {body : List Byte} {s : State}
    (h : s.named p (bodySlot body) (bodyGeneration body) = none) : cancelRun p body s = (s, refuse .noEntry) := by
  simp only [cancelRun, h]

theorem readEntryRun_named {p : Port} {body : List Byte} {s : State} {e : Entry}
    (h : s.named p (bodySlot body) (bodyGeneration body) = some e) :
    readEntryRun p body s = (s, accept (readEntryBody (bodySlot body) (bodyGeneration body) e s.time.epoch)) := by
  simp only [readEntryRun, h]

theorem readEntryRun_unnamed {p : Port} {body : List Byte} {s : State}
    (h : s.named p (bodySlot body) (bodyGeneration body) = none) : readEntryRun p body s = (s, refuse .noEntry) := by
  simp only [readEntryRun, h]

/-- Settles O27: a handle names an entry exactly where slot, generation and owner agree. -/
theorem handlesNameOwnEntries : Obligations.HandlesNameOwnEntries := by
  unfold Obligations.HandlesNameOwnEntries
  intro p body s i slot g mine
  obtain rfl : i = bodySlot body := by
    rw [bodySlot, slot]
    exact (Fin.ofNat_val_eq_self i).symm
  refine ⟨fun admitted => ⟨fun e own => ?_, fun absent => ?_⟩, fun admitted => ⟨fun e own => ?_, fun absent => ?_⟩⟩
  · have run := cancelRun_named (named_eq_some own)
    obtain ⟨held, generation, rfl⟩ := own
    have removed := removeEntry_some held
    rw [freedSlot, generation] at removed
    rw [exec_admitted_of_run admitted rfl run (by rw [removeEntry_sess]), removed]
    simp only [accept, List.append_assoc, timeBytes]
    rfl
  · exact exec_admitted_of_run admitted rfl (cancelRun_unnamed (named_eq_none absent)) rfl
  · intro action repeats presence policies
    have run := readEntryRun_named (named_eq_some own)
    have actionFields : e.action.code = action.1 ∧ e.action.isPulse = action.2.isSome ∧
        e.action.widthNs = action.2.getD 0 := by
      simp only [action]
      cases e.action <;> exact ⟨rfl, rfl, rfl⟩
    have repetitionFields : e.repetition.period = repeats.1 ∧ e.repetition.count = repeats.2 := by
      simp only [repeats]
      cases e.repetition <;> exact ⟨rfl, rfl⟩
    have policy : policiesByte e = BitVec.ofNat 8 policies := by
      simp only [policies, policiesByte]
      cases e.latePolicy <;> cases e.stepPolicy <;> rfl
    obtain ⟨code, isPulse, width⟩ := actionFields
    obtain ⟨period, count⟩ := repetitionFields
    rw [exec_admitted_of_run admitted rfl run rfl]
    simp only [accept, readEntryBody, code, isPulse, width, period, count, policy, flagsByte_three, timeBytes,
      List.append_assoc]
    rfl
  · exact exec_admitted_of_run admitted rfl (readEntryRun_unnamed (named_eq_none absent)) rfl

end Sys2Proof.Machine

/-! ## Firing and step handling (O28, O29) -/

namespace Sys2Proof.Machine

/-! ### The slots that a pass ends -/

theorem settledSlot_entry (x : Slot) (next : Option Entry) : (settledSlot x next).entry = next := by
  cases next <;> rfl

theorem Handling.slot_entry (h : Handling) (x : Slot) : (h.slot x).entry = x.entry.bind h.next := by
  unfold Handling.slot
  cases hx : x.entry with
  | none => exact hx
  | some e => exact settledSlot_entry x (h.next e)

theorem Handling.slot_of_entry (h : Handling) {x : Slot} {e : Entry} (hx : x.entry = some e) :
    h.slot x = settledSlot x (h.next e) := by
  rw [Handling.slot, hx]

theorem mem_endedSlots {p : Port} {s t : State} {i : SlotNo} : i ∈ endedSlots p s t ↔
    (∃ e, s.cal.slots[i].entry = some e ∧ e.owner = p) ∧ t.cal.slots[i].entry = none := by
  unfold endedSlots
  rw [List.mem_filter, mem_slotsWhere, Option.isNone_iff_eq_none]
  simp only [decide_eq_true_eq]

theorem nodup_endedSlots (p : Port) (s t : State) : (endedSlots p s t).Nodup := (nodup_slotsWhere _ _).filter _

theorem Handling.mem_ended {h : Handling} {s : State} {l : List SlotNo} {p : Port} {i : SlotNo} :
    i ∈ h.ended s l p ↔ i ∈ l ∧ ∃ e, s.cal.slots[i].entry = some e ∧ e.owner = p ∧ h.next e = none := by
  unfold Handling.ended
  rw [List.mem_filter]
  refine and_congr_right fun _ => ?_
  cases s.cal.slots[i].entry with
  | none => exact iff_of_false Bool.false_ne_true fun ⟨_, c, _⟩ => (nomatch c)
  | some e => simp

/-- The entries that a pass ends are those whose slots it frees. -/
theorem Handling.length_ended {h : Handling} {s t : State} {l : List SlotNo} (hl : l.Nodup)
    (slots : ∀ i : SlotNo, t.cal.slots[i] = if i ∈ l then h.slot s.cal.slots[i] else s.cal.slots[i]) (p : Port) :
    (h.ended s l p).length = (endedSlots p s t).length := by
  refine (List.perm_ext_iff_of_nodup (hl.filter _) (nodup_endedSlots p s t)).2 (fun i => ?_) |>.length_eq
  show i ∈ h.ended s l p ↔ _
  rw [Handling.mem_ended, mem_endedSlots, slots i]
  by_cases mem : i ∈ l
  · rw [if_pos mem, Handling.slot_entry]
    constructor
    · rintro ⟨-, e, he, ho, hn⟩
      exact ⟨⟨e, he, ho⟩, by rw [he]; exact hn⟩
    · rintro ⟨⟨e, he, ho⟩, hn⟩
      rw [he] at hn
      exact ⟨mem, e, he, ho, hn⟩
  · rw [if_neg mem]
    refine iff_of_false (fun c => mem c.1) fun ⟨⟨e, he, _⟩, hn⟩ => ?_
    rw [he] at hn
    cases hn

/-- A pass lowers the owner's count by its entries that end. -/
theorem Handling.foldl_take_count_ended (h : Handling) {l : List SlotNo} (hl : l.Nodup) (s : State) (p : Port) :
    (l.foldl h.take s).cal.count[p] = s.cal.count[p] - (endedSlots p s (l.foldl h.take s)).length := by
  rw [foldl_take_count h l hl s p, Handling.length_ended hl (foldl_take_slots h l hl s)]

/-- The entries that end over two passes, each of which leaves a slot's owner or frees the slot. -/
theorem length_endedSlots_trans {p : Port} {s v t : State}
    (first : ∀ i : SlotNo, v.cal.slots[i] = s.cal.slots[i] ∨ v.cal.slots[i].entry = none)
    (second : ∀ i : SlotNo, v.cal.slots[i].entry = none → t.cal.slots[i].entry = none) :
    (endedSlots p s t).length = (endedSlots p s v).length + (endedSlots p v t).length := by
  have disjoint : (endedSlots p s v).Disjoint (endedSlots p v t) := fun i h1 h2 => by
    obtain ⟨⟨e, he, -⟩, -⟩ := mem_endedSlots.1 h2
    rw [(mem_endedSlots.1 h1).2] at he
    cases he
  have nodup := List.nodup_append'.2 ⟨nodup_endedSlots p s v, nodup_endedSlots p v t, disjoint⟩
  rw [← List.length_append]
  refine (List.perm_ext_iff_of_nodup (nodup_endedSlots p s t) nodup).2 (fun i => ?_) |>.length_eq
  rw [List.mem_append, mem_endedSlots, mem_endedSlots, mem_endedSlots]
  rcases first i with same | gone
  · rw [same]
    constructor
    · exact fun h => .inr h
    · rintro (⟨⟨e, he, _⟩, hn⟩ | h)
      · rw [he] at hn
        cases hn
      · exact h
  · constructor
    · exact fun h => .inl ⟨h.1, gone⟩
    · rintro (h | ⟨⟨e, he, _⟩, _⟩)
      · exact ⟨h.1, second i gone⟩
      · rw [gone] at he
        cases he

/-! ### The periodic advance (R109, R116) -/

/-- A slot whose entry loses `n` occurrences. -/
theorem settledSlot_advance (x : Slot) (e : Entry) (n : Nat) : settledSlot x (e.advance n) =
    match e.repetition with
    | .oneShot => freedSlot x
    | .periodic p c =>
      if c.map (· - n) = some 0 ∨ 4294967296000000000 ≤ e.fireTime + n * p then freedSlot x
      else ⟨x.generation, some { e with fireTime := e.fireTime + n * p, repetition := .periodic p (c.map (· - n)) }⟩ := by
  unfold Entry.advance
  cases e.repetition with
  | oneShot => rfl
  | periodic p c =>
    show settledSlot x (if c.map (· - n) = some 0 ∨ 4294967296000000000 ≤ e.fireTime + n * p then _ else _) = _
    dsimp only
    split <;> rfl

/-! ### A firing (O28) -/

/-- The state in which a firing takes its entries. -/
def firingStart (s : State) (rest : List Reached) : State :=
  { s with cal := { s.cal with reached := rest }, freeCount := s.freeCount + 1 }

/-- The slots that a firing takes, in its order. -/
def dueSlots (s : State) (f : Nat) : List SlotNo :=
  sortBy (freeLe s.freeCount fun _ => 0) (s.slotsWhere fun e => decide (e.fireTime = f))

theorem nodup_dueSlots (s : State) (f : Nat) : (dueSlots s f).Nodup := nodup_sortBy (nodup_slotsWhere _ _)

theorem mem_dueSlots {s : State} {f : Nat} {i : SlotNo} :
    i ∈ dueSlots s f ↔ ∃ e, s.cal.slots[i].entry = some e ∧ e.fireTime = f := by
  rw [dueSlots, mem_sortBy, mem_slotsWhere]
  simp only [decide_eq_true_eq]

theorem exec_firing {s : State} {f stamp : Nat} {epoch : BitVec 16} {rest : List Reached}
    (reached : s.cal.reached = ⟨f, stamp, epoch⟩ :: rest) (le : f ≤ s.time.hub.ns) :
    exec .firing s = .next ((dueSlots s f).foldl (fireHandling stamp epoch).take (firingStart s rest)) := by
  have run : exec .firing s = execFiring s := rfl
  rw [run, execFiring, reached]
  show Host.Outcome.next (takeFiring _ _) = _
  rw [takeFiring, if_pos le, fireAt, foldl_fireEntry]
  rfl

/-- A line that no entry of a pass is on takes no action. -/
theorem Handling.actions_eq_nil {h : Handling} {s : State} {l : List SlotNo} {m : LineNo}
    (other : ∀ i ∈ l, ∀ e, s.cal.slots[i].entry = some e → e.line ≠ m) : h.actions s l m = [] := by
  refine List.filterMap_eq_nil_iff.2 fun i hi => ?_
  cases he : s.cal.slots[i].entry with
  | none => rfl
  | some e => exact if_neg fun c => other i hi e he c.2

/-- A line that just one entry of a pass is on takes that entry's action. -/
theorem Handling.actions_eq_singleton {h : Handling} {s : State} {l : List SlotNo} (hl : l.Nodup) {i : SlotNo} (hi : i ∈ l)
    {e : Entry} (he : s.cal.slots[i].entry = some e) (acts : h.acts e = true)
    (alone : ∀ j ∈ l, j ≠ i → ∀ x, s.cal.slots[j].entry = some x → x.line ≠ e.line) : h.actions s l e.line = [e.action] := by
  induction l with
  | nil => cases hi
  | cons j l ih =>
    obtain ⟨fresh, hl'⟩ := List.nodup_cons.1 hl
    rw [actions_cons]
    by_cases hj : j = i
    · subst hj
      have rest : h.actions s l e.line = [] := actions_eq_nil fun k hk => alone k (.tail _ hk) fun c => fresh (c ▸ hk)
      rw [rest, List.append_nil, Handling.actions, List.filterMap_cons, he]
      simp only [acts, and_self, if_true, List.filterMap_nil]
    · have skipped : h.actions s [j] e.line = [] := actions_eq_nil fun k hk => by
        obtain rfl := List.mem_singleton.1 hk
        exact alone k (.head _) hj
      rw [skipped, List.nil_append]
      exact ih hl' ((List.mem_cons.1 hi).resolve_left fun c => hj c.symm) fun k hk => alone k (.tail _ hk)

theorem isNone_eq_decide {α : Type} (x : Option α) [Decidable (x = none)] : x.isNone = decide (x = none) := by
  rw [Bool.eq_iff_iff, Option.isNone_iff_eq_none, decide_eq_true_eq]

/-- The slot's entry in `s` is `p`'s, and asks for a notice of its firing. -/
def asksNotice (s : State) (p : Port) (i : SlotNo) : Bool :=
  match s.cal.slots[i].entry with
  | some e => decide (e.owner = p) && e.notify
  | none => false

theorem asksNotice_iff {s : State} {p : Port} {i : SlotNo} :
    asksNotice s p i = true ↔ ∃ e, s.cal.slots[i].entry = some e ∧ e.owner = p ∧ e.notify = true := by
  unfold asksNotice
  cases s.cal.slots[i].entry with
  | none => exact iff_of_false Bool.false_ne_true fun ⟨_, c, _⟩ => (nomatch c)
  | some e => simp

/-- The notices of a firing to a port, where `ended` says which entries end with it. -/
theorem fireHandling_noted (s : State) (l : List SlotNo) (p : Port) (stamp : Nat) (epoch : BitVec 16) (x : Session)
    {ended : SlotNo → Bool} (agree : ∀ i ∈ l, ∀ e, s.cal.slots[i].entry = some e → (e.advance 1).isNone = ended i) :
    x.noted s.time.uptime ((fireHandling stamp epoch).notices s l p) = (l.filter (asksNotice s p)).foldl
      (fun y i => y.push ⟨.fired i s.cal.slots[i].generation stamp epoch 0 false (ended i), s.time.uptime⟩) x := by
  rw [List.foldl_filter]
  refine Handling.noted_eq_foldl _ _ _ _ _ _ fun y i hi => ?_
  cases he : s.cal.slots[i].entry with
  | none => rw [asksNotice, he]; rfl
  | some e =>
    rw [asksNotice, he, ← agree i hi e he]
    by_cases own : e.owner = p <;> by_cases asks : e.notify = true <;> simp [fireHandling, own, asks]

/-- Settles O28: a firing is one pass over the slots due, each handled once. -/
theorem firingTakesEveryDueEntry : Obligations.FiringTakesEveryDueEntry := by
  unfold Obligations.FiringTakesEveryDueEntry
  intro s f stamp epoch rest reached le due apart
  have hl := nodup_dueSlots s f
  have mem (i : SlotNo) : i ∈ dueSlots s f ↔ ∃ e, due i e := mem_dueSlots
  refine ⟨_, exec_firing reached le, ?_⟩
  generalize ht : (dueSlots s f).foldl (fireHandling stamp epoch).take (firingStart s rest) = t
  have slots (i : SlotNo) : t.cal.slots[i] =
      if i ∈ dueSlots s f then (fireHandling stamp epoch).slot s.cal.slots[i] else s.cal.slots[i] := by
    rw [← ht]
    exact Handling.foldl_take_slots _ _ hl _ i
  have taken {i : SlotNo} {e : Entry} (h : due i e) : t.cal.slots[i] = settledSlot s.cal.slots[i] (e.advance 1) := by
    rw [slots i, if_pos ((mem i).2 ⟨e, h⟩)]
    exact Handling.slot_of_entry _ h.1
  have fires {i : SlotNo} (hi : i ∈ dueSlots s f) {e : Entry} (he : s.cal.slots[i].entry = some e) : due i e := by
    obtain ⟨x, hx, ft⟩ := (mem i).1 hi
    rw [he] at hx
    cases hx
    exact ⟨he, ft⟩
  have lines (m : LineNo) : t.lines[m] = s.lines[m].acted ((fireHandling stamp epoch).actions s (dueSlots s f) m) := by
    rw [← ht]
    exact Handling.foldl_take_lines _ _ hl (firingStart s rest) m
  have frame := Handling.foldl_take_frame (fireHandling stamp epoch) (dueSlots s f) (firingStart s rest)
  rw [ht] at frame
  refine ⟨by rw [frame]; rfl, fun i absent => ?_, fun i e h => ?_, fun i e o h output => ?_, fun l other => ?_, fun p => ?_,
    fun p => ?_, ?_⟩
  · rw [slots i, if_neg fun c => ((mem i).1 c).elim absent]
  · obtain ⟨he, ft⟩ := h
    rw [taken ⟨he, ft⟩, settledSlot_advance, ft]
    cases e.repetition with
    | oneShot => rfl
    | periodic n c =>
      dsimp only
      rw [Nat.one_mul]
  · have single := Handling.actions_eq_singleton (h := fireHandling stamp epoch) hl ((mem i).2 ⟨e, h⟩) h.1 rfl
      fun j hj hne x hx => (apart i j e x h (fires hj hx) hne.symm).symm
    rw [lines, single, output]
    rfl
  · rw [lines, Handling.actions_eq_nil fun i hi e he => ?_, LineRecord.acted_nil]
    exact other i e (fires hi he)
  · refine ⟨(dueSlots s f).filter (asksNotice s p), hl.filter _, fun i => ?_, ?_⟩
    · rw [List.mem_filter, asksNotice_iff]
      constructor
      · rintro ⟨hi, e, he, own, asks⟩
        exact ⟨e, fires hi he, own, asks⟩
      · rintro ⟨e, h, own, asks⟩
        exact ⟨(mem i).2 ⟨e, h⟩, e, h.1, own, asks⟩
    · have noted := Handling.foldl_take_sess (fireHandling stamp epoch) _ hl (firingStart s rest) p
      rw [ht] at noted
      rw [noted]
      refine fireHandling_noted (firingStart s rest) _ p stamp epoch _ fun i hi e he => ?_
      rw [taken (fires hi he), settledSlot_entry, isNone_eq_decide]
  · rw [← ht]
    exact Handling.foldl_take_count_ended _ hl _ p
  · rw [frame]
    exact ⟨rfl, rfl, rfl, rfl, rfl, rfl, rfl, rfl, rfl, rfl, rfl⟩

/-! ### The handling of a step (O29) -/

/-- The state in which the handling of a step takes the VOID entries. -/
def handlingStart (s : State) (h : StepHandoff) (rest : List StepHandoff) : State :=
  { s with
    time := { s.time with toCalendar := rest }
    cal := { s.cal with reached := s.cal.reached.map (Reached.restamp h) }
    freeCount := s.freeCount + 1 }

/-- The slots of the VOID entries, in the order of their removal. -/
def voidSlots (s : State) : List SlotNo :=
  sortBy (freeLe s.freeCount fun _ => 0) (s.slotsWhere fun e => decide (e.stepPolicy = .void))

/-- The state after the VOID removals. -/
def voidedState (s : State) (h : StepHandoff) (rest : List StepHandoff) : State :=
  (voidSlots s).foldl (voidHandling h.epoch).take (handlingStart s h rest)

/-- The slots of the passed entries after a forward step, in the order of their handling. -/
def lateSlots (h : StepHandoff) (v : State) : List SlotNo :=
  if h.direction = .forward then
    sortBy (freeLe v.freeCount v.fireTime) (v.slotsWhere fun e => decide (e.fireTime ≤ v.time.hub.ns))
  else []

/-- The state in which late handling takes its entries. -/
def lateStart (h : StepHandoff) (v : State) : State :=
  { v with freeCount := if h.direction = .forward then v.freeCount + 1 else v.freeCount }

/-- The late handling of the step `h` in `s`. -/
def lateOf (h : StepHandoff) (s : State) : Handling :=
  lateHandlingOf h.epoch s.time.epoch s.time.hub.ns s.reportedTime

theorem nodup_voidSlots (s : State) : (voidSlots s).Nodup := nodup_sortBy (nodup_slotsWhere _ _)

theorem mem_voidSlots {s : State} {i : SlotNo} :
    i ∈ voidSlots s ↔ ∃ e, s.cal.slots[i].entry = some e ∧ e.stepPolicy = .void := by
  rw [voidSlots, mem_sortBy, mem_slotsWhere]
  simp only [decide_eq_true_eq]

theorem nodup_lateSlots (h : StepHandoff) (v : State) : (lateSlots h v).Nodup := by
  unfold lateSlots
  split
  · exact nodup_sortBy (nodup_slotsWhere _ _)
  · exact List.nodup_nil

theorem mem_lateSlots {h : StepHandoff} {v : State} {i : SlotNo} : i ∈ lateSlots h v ↔ h.direction = .forward ∧
    ∃ e, v.cal.slots[i].entry = some e ∧ e.fireTime ≤ v.time.hub.ns := by
  unfold lateSlots
  split
  · next forward =>
    rw [mem_sortBy, mem_slotsWhere, and_iff_right forward]
    simp only [decide_eq_true_eq]
  · next other => exact iff_of_false List.not_mem_nil fun c => other c.1

theorem lateSlots_pairwise (h : StepHandoff) (v : State) :
    (lateSlots h v).Pairwise fun a b => v.fireTime a ≤ v.fireTime b := by
  unfold lateSlots
  split
  · exact sortBy_freeLe _ _ _
  · exact List.Pairwise.nil

theorem voidedState_frame (s : State) (h : StepHandoff) (rest : List StepHandoff) :
    voidedState s h rest = { handlingStart s h rest with
      lines := s.lines
      sess := (voidedState s h rest).sess
      cal := { (handlingStart s h rest).cal with
        slots := (voidedState s h rest).cal.slots, count := (voidedState s h rest).cal.count } } := by
  have lines : (voidedState s h rest).lines = s.lines := ext_fin fun m => by
    rw [voidedState, Handling.foldl_take_lines _ _ (nodup_voidSlots s)]
    have none : (voidHandling h.epoch).actions (handlingStart s h rest) (voidSlots s) m = [] :=
      List.filterMap_eq_nil_iff.2 fun i _ => by
        cases (handlingStart s h rest).cal.slots[i].entry with
        | none => rfl
        | some e => rfl
    rw [none]
    exact LineRecord.acted_nil _
  have frame := Handling.foldl_take_frame (voidHandling h.epoch) (voidSlots s) (handlingStart s h rest)
  rw [← lines]
  exact frame

theorem exec_stepHandling {s : State} {h : StepHandoff} {rest : List StepHandoff} (waiting : s.time.toCalendar = h :: rest)
    (told : s.time.toSession.length ≤ rest.length) : exec .stepHandling s = .next
      ((lateSlots h (voidedState s h rest)).foldl (lateOf h s).take (lateStart h (voidedState s h rest))) := by
  have run : exec .stepHandling s = execStepHandling s := rfl
  have removals : voidRemovals h.epoch { s with
      time := { s.time with toCalendar := rest }
      cal := { s.cal with reached := s.cal.reached.map (Reached.restamp h) } } = voidedState s h rest := by
    rw [voidRemovals, foldl_voidEntry]
    rfl
  rw [run, execStepHandling, waiting]
  dsimp only
  rw [if_pos told, handleStep, removals]
  unfold lateSlots lateStart
  by_cases forward : h.direction = .forward
  · simp only [if_pos forward]
    rw [lateHandling, foldl_lateEntry]
    have time : (voidedState s h rest).time = { s.time with toCalendar := rest } := by rw [voidedState_frame]; rfl
    dsimp only
    unfold State.reportedTime
    dsimp only
    rw [time]
    rfl
  · simp only [if_neg forward]
    rfl

theorem voidedState_slots (s : State) (h : StepHandoff) (rest : List StepHandoff) (i : SlotNo) :
    (voidedState s h rest).cal.slots[i] = if i ∈ voidSlots s then freedSlot s.cal.slots[i] else s.cal.slots[i] := by
  rw [voidedState, Handling.foldl_take_slots _ _ (nodup_voidSlots s)]
  by_cases mem : i ∈ voidSlots s
  · obtain ⟨e, he, -⟩ := mem_voidSlots.1 mem
    rw [if_pos mem, if_pos mem]
    exact Handling.slot_of_entry _ he
  · rw [if_neg mem, if_neg mem]
    rfl

/-- The passed entries are the KEEP entries at or before hub time. -/
theorem mem_lateSlots_voided {s : State} {h : StepHandoff} {rest : List StepHandoff} {i : SlotNo} :
    i ∈ lateSlots h (voidedState s h rest) ↔ h.direction = .forward ∧
      ∃ e, s.cal.slots[i].entry = some e ∧ e.stepPolicy = .keep ∧ e.fireTime ≤ s.time.hub.ns := by
  have time : (voidedState s h rest).time.hub = s.time.hub := by rw [voidedState_frame]; rfl
  rw [mem_lateSlots, time, voidedState_slots]
  refine and_congr_right fun _ => ?_
  by_cases mem : i ∈ voidSlots s
  · rw [if_pos mem]
    obtain ⟨x, hx, void⟩ := mem_voidSlots.1 mem
    refine iff_of_false (fun ⟨e, he, _⟩ => (nomatch he)) fun ⟨e, he, keep, _⟩ => ?_
    rw [hx] at he
    cases he
    rw [void] at keep
    cases keep
  · rw [if_neg mem]
    refine exists_congr fun e => and_congr_right fun he => (and_iff_right ?_).symm
    cases policy : e.stepPolicy with
    | keep => rfl
    | void => exact absurd (mem_voidSlots.2 ⟨e, he, policy⟩) mem

theorem not_mem_voidSlots_of_late {s : State} {h : StepHandoff} {rest : List StepHandoff} {i : SlotNo}
    (late : i ∈ lateSlots h (voidedState s h rest)) : i ∉ voidSlots s := fun void => by
  obtain ⟨-, e, he, keep, -⟩ := mem_lateSlots_voided.1 late
  obtain ⟨x, hx, void⟩ := mem_voidSlots.1 void
  rw [hx] at he
  cases he
  rw [void] at keep
  cases keep

/-- The state after the handling of the step `h`. -/
def handledState (s : State) (h : StepHandoff) (rest : List StepHandoff) : State :=
  (lateSlots h (voidedState s h rest)).foldl (lateOf h s).take (lateStart h (voidedState s h rest))

theorem voidedState_slots_of_late {s : State} {h : StepHandoff} {rest : List StepHandoff} {i : SlotNo}
    (late : i ∈ lateSlots h (voidedState s h rest)) : (voidedState s h rest).cal.slots[i] = s.cal.slots[i] := by
  rw [voidedState_slots, if_neg (not_mem_voidSlots_of_late late)]

theorem lateSlots_voided_pairwise (s : State) (h : StepHandoff) (rest : List StepHandoff) :
    (lateSlots h (voidedState s h rest)).Pairwise fun a b => s.fireTime a ≤ s.fireTime b := by
  refine (lateSlots_pairwise h (voidedState s h rest)).imp_of_mem fun ha hb le => ?_
  unfold State.fireTime at le ⊢
  rwa [voidedState_slots_of_late ha, voidedState_slots_of_late hb] at le

theorem handledState_slots (s : State) (h : StepHandoff) (rest : List StepHandoff) (i : SlotNo) :
    (handledState s h rest).cal.slots[i] = if i ∈ lateSlots h (voidedState s h rest) then
      (lateOf h s).slot (voidedState s h rest).cal.slots[i] else (voidedState s h rest).cal.slots[i] :=
  Handling.foldl_take_slots (lateOf h s) _ (nodup_lateSlots h (voidedState s h rest)) (lateStart h (voidedState s h rest)) i

/-- A passed entry loses its passed occurrences. -/
theorem handledState_slots_of_late {s : State} {h : StepHandoff} {rest : List StepHandoff} {i : SlotNo} {e : Entry}
    (late : i ∈ lateSlots h (voidedState s h rest)) (he : s.cal.slots[i].entry = some e) :
    (handledState s h rest).cal.slots[i] = settledSlot s.cal.slots[i] (e.advance (e.passed s.time.hub.ns)) := by
  rw [handledState_slots, if_pos late, voidedState_slots_of_late late]
  exact Handling.slot_of_entry _ he

theorem handledState_lines (s : State) (h : StepHandoff) (rest : List StepHandoff) (l : LineNo) :
    (handledState s h rest).lines[l] =
      s.lines[l].acted ((lateOf h s).actions s (lateSlots h (voidedState s h rest)) l) := by
  have pass := Handling.foldl_take_lines (lateOf h s) _ (nodup_lateSlots h (voidedState s h rest)) (lateStart h (voidedState s h rest)) l
  have start : (lateStart h (voidedState s h rest)).lines[l] = s.lines[l] := by
    show (voidedState s h rest).lines[l] = _
    rw [voidedState_frame]
  rw [start, Handling.actions_congr (s := s) (t := lateStart h (voidedState s h rest)) l fun i hi => voidedState_slots_of_late hi] at pass
  exact pass

/-- The notices of the VOID removals come before those of the passed entries. -/
theorem handledState_sess (s : State) (h : StepHandoff) (rest : List StepHandoff) (p : Port) :
    (handledState s h rest).sess[p] =
      (s.sess[p].noted s.time.uptime ((voidHandling h.epoch).notices s (voidSlots s) p)).noted s.time.uptime
        ((lateOf h s).notices s (lateSlots h (voidedState s h rest)) p) := by
  have removals : (voidedState s h rest).sess[p] =
      s.sess[p].noted s.time.uptime ((voidHandling h.epoch).notices s (voidSlots s) p) :=
    Handling.foldl_take_sess _ _ (nodup_voidSlots s) (handlingStart s h rest) p
  have up : (lateStart h (voidedState s h rest)).time.uptime = s.time.uptime := by
    show (voidedState s h rest).time.uptime = _
    rw [voidedState_frame]
    rfl
  have pass := Handling.foldl_take_sess (lateOf h s) _ (nodup_lateSlots h (voidedState s h rest)) (lateStart h (voidedState s h rest)) p
  have start : (lateStart h (voidedState s h rest)).sess[p] = (voidedState s h rest).sess[p] := rfl
  rw [start, removals, up, Handling.notices_congr (s := s) (t := lateStart h (voidedState s h rest)) p
    fun i hi => voidedState_slots_of_late hi] at pass
  exact pass

theorem handledState_count (s : State) (h : StepHandoff) (rest : List StepHandoff) (p : Port) :
    (handledState s h rest).cal.count[p] = s.cal.count[p] - (endedSlots p s (handledState s h rest)).length := by
  have removals : (voidedState s h rest).cal.count[p] = s.cal.count[p] - (endedSlots p s (voidedState s h rest)).length :=
    Handling.foldl_take_count_ended _ (nodup_voidSlots s) (handlingStart s h rest) p
  have passed : (handledState s h rest).cal.count[p] = (voidedState s h rest).cal.count[p] -
      (endedSlots p (voidedState s h rest) (handledState s h rest)).length :=
    Handling.foldl_take_count_ended (lateOf h s) (nodup_lateSlots h (voidedState s h rest)) (lateStart h (voidedState s h rest)) p
  have freed (i : SlotNo) : (voidedState s h rest).cal.slots[i] = s.cal.slots[i] ∨
      (voidedState s h rest).cal.slots[i].entry = none := by
    rw [voidedState_slots]
    split
    · exact .inr rfl
    · exact .inl rfl
  have stays (i : SlotNo) (free : (voidedState s h rest).cal.slots[i].entry = none) :
      (handledState s h rest).cal.slots[i].entry = none := by
    rw [handledState_slots]
    split
    · rw [Handling.slot_entry, free]
      rfl
    · exact free
  rw [passed, removals, Nat.sub_sub, ← length_endedSlots_trans freed stays]

/-- What the handling of a step leaves as it was. -/
theorem handledState_frame (s : State) (h : StepHandoff) (rest : List StepHandoff) :
    handledState s h rest = { s with
      time := { s.time with toCalendar := rest }
      lines := (handledState s h rest).lines
      sess := (handledState s h rest).sess
      cal := { s.cal with
        slots := (handledState s h rest).cal.slots
        count := (handledState s h rest).cal.count
        reached := s.cal.reached.map (Reached.restamp h) }
      freeCount := (lateStart h (handlingStart s h rest)).freeCount } := by
  have pass : handledState s h rest = { lateStart h (voidedState s h rest) with
      lines := (handledState s h rest).lines
      sess := (handledState s h rest).sess
      cal := { (lateStart h (voidedState s h rest)).cal with
        slots := (handledState s h rest).cal.slots, count := (handledState s h rest).cal.count } } :=
    Handling.foldl_take_frame (lateOf h s) _ _
  rw [congrArg (lateStart h) (voidedState_frame s h rest)] at pass
  exact pass

/-- Settles O29: the VOID removals are one pass, and the late handling a second one over slots that the first leaves alone. -/
theorem stepHandlingSettlesEveryEntry : Obligations.StepHandlingSettlesEveryEntry := by
  unfold Obligations.StepHandlingSettlesEveryEntry
  intro s h rest waiting told now gone
  have passed (e : Entry) : e.passed now = gone e := by
    simp only [gone]
    unfold Entry.passed
    cases e.repetition with
    | oneShot => rfl
    | periodic n c => cases c <;> rfl
  have taken {i : SlotNo} (hi : i ∈ lateSlots h (voidedState s h rest)) {e : Entry} (he : s.cal.slots[i].entry = some e) :
      (handledState s h rest).cal.slots[i] = settledSlot s.cal.slots[i] (e.advance (gone e)) := by
    rw [handledState_slots_of_late hi he, passed]
  refine ⟨handledState s h rest, voidSlots s, lateSlots h (voidedState s h rest), exec_stepHandling waiting told,
    ⟨nodup_voidSlots s, fun i => mem_voidSlots⟩,
    ⟨nodup_lateSlots h _, fun i => mem_lateSlots_voided, lateSlots_voided_pairwise s h rest⟩,
    fun i hv hl => ?_, fun i hv => ?_, fun i hi e he => ?_, fun l => ?_, fun p => ?_, handledState_count s h rest, ?_⟩
  · rw [handledState_slots, if_neg hl, voidedState_slots, if_neg hv]
  · rw [handledState_slots, if_neg fun c => not_mem_voidSlots_of_late c hv, voidedState_slots, if_pos hv]
  · exact (taken hi he).trans ((settledSlot_advance _ e _).trans (by cases e.repetition <;> rfl))
  · rw [handledState_lines]
    refine Handling.acted_eq_foldl _ _ _ _ _ _ fun r i hi => ?_
    cases he : s.cal.slots[i].entry with
    | none => rfl
    | some e =>
      cases r with
      | output o => exact if_congr (by rw [and_comm]; simp [lateOf, lateHandlingOf]) rfl rfl
      | unassigned d => rfl
      | capture c => rfl
  · rw [handledState_sess]
    refine (Handling.noted_eq_foldl _ _ _ _ _ _ ?late).trans (congrArg (fun x => List.foldl _ x _)
      (Handling.noted_eq_foldl (voidHandling h.epoch) s (voidSlots s) p s.sess[p] _ ?void))
    case late =>
      intro x i hi
      cases he : s.cal.slots[i].entry with
      | none => rfl
      | some e =>
        have ended : (e.advance (e.passed now)).isNone = decide ((handledState s h rest).cal.slots[i].entry = none) := by
          rw [taken hi he, settledSlot_entry, passed, isNone_eq_decide]
        have note : (lateOf h s).note i s.cal.slots[i].generation e = some (match e.latePolicy with
            | .fireLate => .fired i s.cal.slots[i].generation s.reportedTime s.time.epoch (min (e.passed now - 1) 65535) true
                (e.advance (e.passed now)).isNone
            | .discard => .missed i s.cal.slots[i].generation e.fireTime h.epoch (min (e.passed now) 65535)
                (e.advance (e.passed now)).isNone) := rfl
        rw [ended, passed] at note
        exact congrArg (fun o : Option NoticeBody => if e.owner = p then
          (match o with | some b => x.push ⟨b, s.time.uptime⟩ | none => x) else x) note.symm
    case void =>
      intro x i hi
      cases s.cal.slots[i].entry with
      | none => rfl
      | some e => rfl
  · rw [handledState_frame]
    refine ⟨rfl, ?_, rfl, rfl, rfl, rfl, rfl, rfl, rfl, rfl, rfl, rfl⟩
    refine List.map_congr_left fun r _ => ?_
    rw [← HubTime.reported_eq]
    rfl

end Sys2Proof.Machine

/-! ## Edges, frames, notices and outputs (O51, O30, O32 to O37, O53) -/

namespace Sys2Proof.Machine

/-! ### The copies of a captured record (O51) -/

theorem foldl_pushCapture_frame (n : Nat) (r : CaptureRecord) (ps : List Port) (s : State) :
    ps.foldl (pushCapture n r) s = { s with caps := (ps.foldl (pushCapture n r) s).caps } := by
  induction ps generalizing s with
  | nil => rfl
  | cons p ps ih =>
    rw [List.foldl_cons, ih]
    rfl

theorem getElem_pushCapture (n : Nat) (r : CaptureRecord) (s : State) (p q : Port) :
    (pushCapture n r s p).caps[q] = if q = p then s.caps[p].push (Config.copyOrder n p.val) r else s.caps[q] :=
  getElem_set_fin _ _ _ _

/-- Each subscriber, and no other port, receives one copy. -/
theorem foldl_pushCapture_caps (n : Nat) (r : CaptureRecord) (ps : List Port) (nodup : ps.Nodup) (s : State) (q : Port) :
    (ps.foldl (pushCapture n r) s).caps[q] =
      if q ∈ ps then s.caps[q].push (Config.copyOrder n q.val) r else s.caps[q] := by
  induction ps generalizing s with
  | nil => rfl
  | cons p ps ih =>
    obtain ⟨fresh, nodup'⟩ := List.nodup_cons.1 nodup
    rw [List.foldl_cons, ih nodup', getElem_pushCapture]
    by_cases hq : q = p
    · subst hq
      rw [if_neg fresh, if_pos rfl, if_pos (.head _)]
    · rw [if_neg hq]
      simp only [List.mem_cons, hq, false_or]

theorem exec_edgeStamped {l : LineNo} {c : CaptureLine} {w : Watch} {e : Edge} {s : State} (capture : s.lines[l] = .capture c)
    (watch : s.watch[l] = some w) (due : w.due = some e) : exec (.edgeStamped l) s = .next
      (c.subscribers.foldl (pushCapture s.freeCount (stampRecord l e s))
        { s.setWatch l (some ⟨w.last, c.holdoff, none⟩) with freeCount := s.freeCount + 1 }) := by
  have run : exec (.edgeStamped l) s = execEdgeStamped l s := rfl
  rw [run, execEdgeStamped, watch, capture]
  dsimp only
  rw [due]

/-- Settles O51: each subscriber receives one copy, since the subscribers are distinct. -/
theorem edgesAreStampedForEverySubscriber : Obligations.EdgesAreStampedForEverySubscriber := by
  unfold Obligations.EdgesAreStampedForEverySubscriber
  intro l c w e s capture watch due nodup new bare
  refine ⟨_, exec_edgeStamped capture watch due, ?_, fun p other => ?_, fun p sub => ?_, ?_⟩
  · rw [foldl_pushCapture_frame]
    rfl
  · rw [foldl_pushCapture_caps _ _ _ nodup, if_neg other]
    rfl
  · rw [foldl_pushCapture_caps _ _ _ nodup, if_pos sub]
    exact CapturePort.push_cases _ (stampRecord l e s) s.caps[p]
  · rw [foldl_pushCapture_frame]
    rfl

/-! ### Frames from their beginning to their end (O30, O32 to O35) -/

theorem PortState.code_eq (x : PortState) :
    x.code = (match x with | .idle => 0 | .working _ => 1 | .answered _ => 2) := by
  cases x <;> rfl

theorem FrameOutcome.code_eq (x : FrameOutcome) : x.code = (match x with
    | .accepted => 0
    | .refusedBusy => 1
    | .badCrc => 2
    | .badLength => 3
    | .aborted => 4
    | .unknownKind => 5) := by
  cases x <;> rfl

theorem not_isEmpty_eq_decide {α : Type} [DecidableEq α] (l : List α) : (!l.isEmpty) = decide (l ≠ []) := by
  cases l <;> rfl

theorem ite_eq_mul_toNat (b : Bool) (n : Nat) : (if b then n else 0) = n * b.toNat := by
  cases b
  · rfl
  · exact (Nat.mul_one n).symm

/-- Settles O30: by the start-up hold and what the frame has fixed. -/
theorem framesBeginWithTheStatusByte : Obligations.FramesBeginWithTheStatusByte := by
  unfold Obligations.FramesBeginWithTheStatusByte
  refine fun p s => ⟨fun high => ?_, fun f hf undecided => ?_⟩
  · have byte : s.statusByte p = BitVec.ofNat 8 (64 * s.ports[p].state.code + 32 * s.sess[p].attached.toNat +
        16 * (decide (s.sess[p].queue ≠ [])).toNat + 8 * (decide (s.caps[p].queue ≠ [])).toNat +
        s.ports[p].lastOutcome.code) := by
      unfold State.statusByte State.noticesPending State.capturesPending
      rw [not_isEmpty_eq_decide, not_isEmpty_eq_decide, ite_eq_mul_toNat, ite_eq_mul_toNat, ite_eq_mul_toNat]
    rw [PortState.code_eq, FrameOutcome.code_eq] at byte
    have run : exec (.frameBegin p) s = execFrameBegin p s := rfl
    rw [run, execFrameBegin, high, byte]
    cases s.ports[p].hold <;> rfl
  · have run : exec (.statusRead p) s = execStatusRead p s := rfl
    rw [run, execStatusRead, hf]
    dsimp only
    rw [undecided]
    rfl

/-- The port's record after the end of a frame and a change of its own. -/
theorem endFrame_setPort (p : Port) (o : FrameOutcome) (s : State) (f : HostPort → HostPort) :
    (endFrame p o s).setPort p (f (endFrame p o s).ports[p]) =
      { s with
        pins := { s.pins with csLow := s.pins.csLow.set p false }
        ports := s.ports.set p (f { s.ports[p] with frame := none, lastOutcome := o }) } := by
  have record : (endFrame p o s).ports[p] = { s.ports[p] with frame := none, lastOutcome := o } :=
    (getElem_set_fin _ _ _ _).trans (if_pos rfl)
  have twice : (endFrame p o s).ports.set p (f { s.ports[p] with frame := none, lastOutcome := o }) =
      s.ports.set p (f { s.ports[p] with frame := none, lastOutcome := o }) :=
    Vector.set_set ..
  rw [record, State.setPort, twice]
  rfl

theorem requestOf_eq_some {body : List Byte} {k : RequestKind} :
    requestOf body = some k ↔ body.head? = some k.code ∧ body.length = k.bodyLength body := by
  have head : body.head? = some k.code ↔ kindByte body = k.code := by
    cases body with
    | nil => exact iff_of_false (fun c => (nomatch c)) (by cases k <;> decide)
    | cons b l => exact Option.some_inj
  have code : RequestKind.ofCode k.code = some k := by cases k <;> rfl
  rw [head]
  constructor
  · exact fun h => ⟨requestOf_code h, requestOf_length h⟩
  · rintro ⟨h, len⟩
    rw [requestOf, h, code]
    exact if_pos len

theorem judgeRequest_eq (bytes : List Byte) (part : Nat) (x : PortState) :
    let len := field bytes 1 1
    let lengthOk := 1 ≤ len ∧ len ≤ 40 ∧ bytes.length = len + 4 ∧ part = 0
    let crcOk := bytes.drop (len + 2) = bytesOf 2 (crc16 ((bytes.drop 1).take (len + 1))).toNat
    (¬ lengthOk → judgeRequest bytes part x = .badLength) ∧
    (lengthOk → ¬ crcOk → judgeRequest bytes part x = .badCrc) ∧
    (lengthOk → crcOk → x ≠ .idle → judgeRequest bytes part x = .refusedBusy) ∧
    (lengthOk → crcOk → x = .idle → judgeRequest bytes part x = .accepted) := by
  intro len lengthOk crcOk
  have length : (len = 0 ∨ 40 < len ∨ bytes.length ≠ len + 4 ∨ part ≠ 0) ↔ ¬ lengthOk := by
    simp only [lengthOk]
    omega
  have crc : (crcBytes ((bytes.drop 1).take (len + 1)) ≠ bytes.drop (len + 2)) ↔ ¬ crcOk := not_congr eq_comm
  refine ⟨fun h => if_pos (length.2 h), fun h hc => ?_, fun h hc hx => ?_, fun h hc hx => ?_⟩
  · exact (if_neg fun c => length.1 c h).trans (if_pos (crc.2 hc))
  · exact (if_neg fun c => length.1 c h).trans ((if_neg fun c => crc.1 c hc).trans (if_pos hx))
  · exact (if_neg fun c => length.1 c h).trans ((if_neg fun c => crc.1 c hc).trans (if_neg fun c => c hx))

theorem exec_requestFrameEnd {p : Port} {bytes : List Byte} {part : Nat} {s : State} {f : Frame}
    (hf : s.ports[p].frame = some f) (undecided : f.fix = .undecided) (kind : bytes.head? = some 0xA1#8)
    (two : 2 ≤ bytes.length) : exec (.requestFrameEnd p bytes part) s =
      if judgeRequest bytes part s.ports[p].state = .accepted then
        .next (handOn p (requestBody bytes) (endFrame p .accepted s))
      else .next (endFrame p (judgeRequest bytes part s.ports[p].state) s) := by
  have run : exec (.requestFrameEnd p bytes part) s = execRequestFrameEnd p bytes part s := rfl
  rw [run, execRequestFrameEnd, hf]
  dsimp only
  rw [if_pos ⟨undecided, kind, two⟩]
  split
  · next ok => rw [ok]
  · rfl

/-- Settles O32: the tests of the frame in their order, then the table of kinds. -/
theorem requestFramesAreJudgedInOrder : Obligations.RequestFramesAreJudgedInOrder := by
  unfold Obligations.RequestFramesAreJudgedInOrder
  refine ⟨fun p f bytes part s hf undecided kind two => ?_, fun body k => ?_⟩
  · intro len lengthOk crcOk body ended result
    obtain ⟨badLength, badCrc, busy, accepted⟩ := judgeRequest_eq bytes part s.ports[p].state
    have refused {o : FrameOutcome} (bad : o ≠ .accepted) (h : judgeRequest bytes part s.ports[p].state = o) :
        result = ended o s.ports[p].state := by
      have run := exec_requestFrameEnd (part := part) hf undecided kind two
      rw [h, if_neg bad] at run
      exact run
    have ok (h : judgeRequest bytes part s.ports[p].state = .accepted) :
        result = .next (handOn p body (endFrame p .accepted s)) := by
      have run := exec_requestFrameEnd (part := part) hf undecided kind two
      rw [h, if_pos rfl] at run
      exact run
    refine ⟨fun h => refused (nomatch ·) (badLength h), fun h hc => refused (nomatch ·) (badCrc h hc),
      fun h hc hx => refused (nomatch ·) (busy h hc hx), fun k h hc hx request => ?_, fun h hc hx other => ?_⟩
    · rw [ok (accepted h hc hx), handOn, request]
      exact congrArg Host.Outcome.next (endFrame_setPort p .accepted s fun x => { x with state := .working body })
    · rw [ok (accepted h hc hx), handOn, other]
      exact congrArg Host.Outcome.next (endFrame_setPort p .accepted s fun x =>
        { x with state := .answered [body.headD 0#8, 0x01#8, s.sess[p].number] })
  · intro items presence row
    have table : row = (k.code, k.bodyLength body) := by
      simp only [row]
      cases k with
      | renew =>
        have count : field body 3 1 = items := field_one body 3
        have limit : (if 17 < items then 17 else items) = min items 17 := by split <;> omega
        simp only [RequestKind.bodyLength, count, limit]
        rfl
      | schedule =>
        simp only [RequestKind.bodyLength, bitAt_eq]
        rfl
      | _ => rfl
    rw [table, requestOf_eq_some]
    exact ⟨rfl, Iff.rfl⟩

theorem exec_replyFix_answered {p : Port} {s : State} {f : Frame} {reply : List Byte} (hf : s.ports[p].frame = some f)
    (undecided : f.fix = .undecided) (answered : s.ports[p].state = .answered reply) : exec (.replyFix p) s =
      .next (s.setPort p { s.ports[p] with frame := some ⟨[0xA2#8], .reply true, f.sent ++ replyFrame reply⟩ }) := by
  have run : exec (.replyFix p) s = execReplyFix p s := rfl
  simp only [run, execReplyFix, hf, if_pos undecided, answered]

theorem exec_replyFix_none {p : Port} {s : State} {f : Frame} (hf : s.ports[p].frame = some f)
    (undecided : f.fix = .undecided) (other : ∀ reply, s.ports[p].state ≠ .answered reply) : exec (.replyFix p) s =
      .next (s.setPort p { s.ports[p] with frame := some ⟨[0xA2#8], .reply false, f.sent ++ replyFrame []⟩ }) := by
  have run : exec (.replyFix p) s = execReplyFix p s := rfl
  rw [run]
  unfold execReplyFix
  simp only [hf, if_pos undecided]

/-- Settles O33: by the port state at byte 1, then by how much of the frame was sent. -/
theorem repliesAreCollected : Obligations.RepliesAreCollected := by
  unfold Obligations.RepliesAreCollected
  refine fun p f s hf => ⟨fun undecided => ⟨fun reply answered => ?_, fun other => ?_⟩, fun present whole fixed two => ?_⟩
  · exact exec_replyFix_answered hf undecided answered
  · have none : replyFrame [] = [0x00#8, 0xE1#8, 0xF0#8] := by decide
    rw [exec_replyFix_none hf undecided other, none]
    rfl
  · intro complete
    have run : exec (.collectReplyEnd p whole) s = execCollectReplyEnd p whole s := rfl
    rw [run, execCollectReplyEnd, hf]
    dsimp only
    rw [fixed]
    dsimp only
    rw [if_neg (Nat.not_lt.2 two)]
    by_cases sent : f.sent.length ≤ whole
    · have all : complete = true := decide_eq_true sent
      rw [if_neg (Nat.not_lt.2 sent), all]
      cases present
      · rfl
      · exact congrArg Host.Outcome.next (endFrame_setPort p .accepted s fun x => { x with state := .idle })
    · have cut : complete = false := decide_eq_false sent
      rw [if_pos (Nat.lt_of_not_le sent), cut]
      rfl

/-! ### Batches (O34, O35) -/

/-- The frame's reply behind byte 2: filler, header, records and CRC. -/
theorem batchFrame_eq (n : Nat) (loss : Bool) (records : List Byte) : batchFrame n loss records =
    0x00#8 :: ((BitVec.ofNat 8 (n + 128 * loss.toNat) :: records) ++
      bytesOf 2 (crc16 (BitVec.ofNat 8 (n + 128 * loss.toNat) :: records)).toNat) := by
  unfold batchFrame
  rw [ite_eq_mul_toNat]
  rfl

/-- BATCH_FIX on a frame that has decided nothing, by the range of M. -/
theorem exec_batchFix {p : Port} {q : QueueName} {m : Byte} {f : Frame} {s : State} (hf : s.ports[p].frame = some f)
    (undecided : f.fix = .undecided) :
    (1 ≤ m.toNat ∧ m.toNat ≤ 8 → exec (.batchFix p .notices m) s = .next (noticeBatchFix p m f s) ∧
      exec (.batchFix p .captures m) s = .next (captureBatchFix p m f s)) ∧
    (¬ (1 ≤ m.toNat ∧ m.toNat ≤ 8) → exec (.batchFix p q m) s = .next (s.setPort p { s.ports[p] with
      frame := some ⟨[frameCodeOf q, m], .batch q false, f.sent ++ batchFrame 0 false []⟩ })) := by
  have run (q : QueueName) : exec (.batchFix p q m) s = execBatchFix p q m s := rfl
  refine ⟨fun range => ?_, fun range => ?_⟩
  · have ok : batchLimitOk m = true := decide_eq_true range
    rw [run, run]
    simp only [execBatchFix, hf, if_pos undecided, if_pos ok, and_self]
  · have bad : batchLimitOk m = false := decide_eq_false range
    rw [run]
    simp only [execBatchFix, hf, if_pos undecided, bad, Bool.false_eq_true, if_false]

/-- Settles O34: by the range of M and the queue. -/
theorem batchesAreFixedAtByteTwo : Obligations.BatchesAreFixedAtByteTwo := by
  unfold Obligations.BatchesAreFixedAtByteTwo
  intro p f m s hf undecided withFrame
  refine ⟨fun low high => ?_, fun low high => ?_, fun out => ?_⟩
  · intro x n
    rw [((exec_batchFix (q := .notices) hf undecided).1 ⟨low, high⟩).1, noticeBatchFix]
    dsimp only
    rw [batchFrame_eq, ← List.flatMap_def]
    rfl
  · intro x n
    rw [((exec_batchFix (q := .captures) hf undecided).1 ⟨low, high⟩).2, captureBatchFix]
    dsimp only
    rw [batchFrame_eq, ← List.flatMap_def]
    rfl
  · have bad : ¬ (1 ≤ m.toNat ∧ m.toNat ≤ 8) := by omega
    rw [(exec_batchFix (q := .notices) hf undecided).2 bad, (exec_batchFix (q := .captures) hf undecided).2 bad,
      batchFrame_eq]
    exact ⟨rfl, rfl⟩

theorem batchOutcome_eq (complete valid : Bool) :
    batchOutcome complete valid = if !complete then .aborted else if valid then .accepted else .badLength := by
  cases complete <;> rfl

theorem exec_collectNoticesEnd {p : Port} {whole : Nat} {s : State} {f : Frame} {valid : Bool}
    (hf : s.ports[p].frame = some f) (fixed : f.fix = .batch .notices valid) (two : 2 ≤ whole) :
    exec (.collectNoticesEnd p whole) s = .next
      (if valid then (endFrame p (batchOutcome (decide (f.sent.length ≤ whole)) valid) s).setSess p
        (s.sess[p].settleBatch (decide (f.sent.length ≤ whole)))
      else endFrame p (batchOutcome (decide (f.sent.length ≤ whole)) valid) s) := by
  have run : exec (.collectNoticesEnd p whole) s = execCollectNoticesEnd p whole s := rfl
  rw [run]
  simp only [execCollectNoticesEnd, hf, fixed, if_neg (Nat.not_lt.2 two)]
  cases valid <;> rfl

theorem exec_collectCapturesEnd {p : Port} {whole : Nat} {s : State} {f : Frame} {valid : Bool}
    (hf : s.ports[p].frame = some f) (fixed : f.fix = .batch .captures valid) (two : 2 ≤ whole) :
    exec (.collectCapturesEnd p whole) s = .next
      (if valid then (endFrame p (batchOutcome (decide (f.sent.length ≤ whole)) valid) s).setCap p
        (s.caps[p].settleBatch (decide (f.sent.length ≤ whole)))
      else endFrame p (batchOutcome (decide (f.sent.length ≤ whole)) valid) s) := by
  have run : exec (.collectCapturesEnd p whole) s = execCollectCapturesEnd p whole s := rfl
  rw [run]
  simp only [execCollectCapturesEnd, hf, fixed, if_neg (Nat.not_lt.2 two)]
  cases valid <;> rfl

theorem setSess_self (p : Port) (s : State) : s.setSess p s.sess[p] = s := by
  have same : s.sess.set p s.sess[p] = s.sess := Vector.set_getElem_self ..
  rw [State.setSess, same]

theorem setCap_self (p : Port) (s : State) : s.setCap p s.caps[p] = s := by
  have same : s.caps.set p s.caps[p] = s.caps := Vector.set_getElem_self ..
  rw [State.setCap, same]

/-- Settles O35: by what the frame has fixed and how much of it was sent. -/
theorem batchesAreSettledAtTheEnd : Obligations.BatchesAreSettledAtTheEnd := by
  unfold Obligations.BatchesAreSettledAtTheEnd
  intro p f valid whole s hf two complete ended
  refine ⟨fun fixed => ?_, fun fixed => ?_⟩
  · intro x
    rw [exec_collectNoticesEnd hf fixed two, batchOutcome_eq]
    refine congrArg Host.Outcome.next ?_
    cases valid
    · cases x.batch <;> rfl
    · show (ended s).setSess p (x.settleBatch complete) = _
      unfold Session.settleBatch
      cases x.batch with
      | none => exact setSess_self p (ended s)
      | some b => cases complete <;> rfl
  · intro x
    rw [exec_collectCapturesEnd hf fixed two, batchOutcome_eq]
    refine congrArg Host.Outcome.next ?_
    cases valid
    · cases x.batch <;> rfl
    · show (ended s).setCap p (x.settleBatch complete) = _
      unfold CapturePort.settleBatch
      cases x.batch with
      | none => exact setCap_self p (ended s)
      | some b => cases complete <;> rfl

/-! ### Notices and outputs (O36, O37) -/

/-- Settles O36: by the three cases of a push. -/
theorem noticesAreQueuedOrCountedLost : Obligations.NoticesAreQueuedOrCountedLost := by
  unfold Obligations.NoticesAreQueuedOrCountedLost
  intro n x
  rcases Session.push_cases n x with ⟨off, e⟩ | ⟨on, room, e⟩ | ⟨on, full, e⟩
  · refine ⟨fun _ => e, fun h => ?_, fun h => ?_⟩ <;> exact absurd (off.symm.trans h) Bool.false_ne_true
  · exact ⟨fun h => absurd (h.symm.trans on) Bool.false_ne_true, fun _ _ => e, fun _ h => absurd room (Nat.not_lt.2 h)⟩
  · refine ⟨fun h => absurd (h.symm.trans on) Bool.false_ne_true, fun _ h => absurd full (Nat.not_le.2 h), fun _ _ => ?_⟩
    rw [e]
    exact ⟨rfl, rfl, fun b hb => congrArg (Option.map _) hb, fun hb => congrArg (Option.map _) hb, rfl, rfl, rfl⟩

theorem alertAsserted_iff (s : State) (p : Port) : s.alertAsserted p = true ↔ s.sess[p].attached = true ∧
    ((s.sess[p].mask.notices = true ∧ s.sess[p].queue ≠ []) ∨ (s.sess[p].mask.captures = true ∧ s.caps[p].queue ≠ []) ∨
      (s.sess[p].mask.reply = true ∧ ∃ reply, s.ports[p].state = .answered reply)) := by
  have answered : s.ports[p].state.isAnswered = true ↔ ∃ reply, s.ports[p].state = .answered reply := by
    cases s.ports[p].state <;> simp [PortState.isAnswered]
  unfold State.alertAsserted State.noticesPending State.capturesPending
  rw [not_isEmpty_eq_decide, not_isEmpty_eq_decide]
  simp only [Bool.and_eq_true, Bool.or_eq_true, decide_eq_true_eq, answered, or_assoc]

/-- ATTACH leaves the port attached, with the requested mask. -/
theorem attachRun_sess (p : Port) (body : List Byte) (s : State) :
    (attachRun p body s).1.sess[p].attached = true ∧ (attachRun p body s).1.sess[p].mask = maskOf body := by
  by_cases attached : s.sess[p].attached = true
  · have run : (attachRun p body s).1 = (teardown p s).1.setSess p
        { (teardown p s).1.sess[p] with number := (teardown p s).1.sess[p].number + 1, mask := maskOf body } := by
      unfold attachRun
      rw [if_pos attached]
    have session : (attachRun p body s).1.sess[p] =
        { (teardown p s).1.sess[p] with number := (teardown p s).1.sess[p].number + 1, mask := maskOf body } := by
      rw [run, State.setSess_sess, getElem_set_fin, if_pos rfl]
    have same : (teardown p s).1.sess[p].attached = s.sess[p].attached := by rw [teardown_sess_self]
    rw [session]
    dsimp only
    exact ⟨same.trans attached, rfl⟩
  · have run : (attachRun p body s).1 =
        s.setSess p { s.sess[p] with attached := true, number := s.sess[p].number + 1, mask := maskOf body } := by
      unfold attachRun
      rw [if_neg attached]
    have session : (attachRun p body s).1.sess[p] =
        { s.sess[p] with attached := true, number := s.sess[p].number + 1, mask := maskOf body } := by
      rw [run, State.setSess_sess, getElem_set_fin, if_pos rfl]
    rw [session]
    exact ⟨rfl, rfl⟩

theorem detachRun_sess (p : Port) (body : List Byte) (s : State) : (detachRun p body s).1.sess[p].attached = false := by
  show (State.setSess (teardown p s).1 p { (teardown p s).1.sess[p] with attached := false }).sess[p].attached = false
  rw [State.setSess_sess, getElem_set_fin, if_pos rfl]

theorem withReply_answered (p : Port) (r : List Byte) (s : State) : (withReply p r s).ports[p].state = .answered r :=
  congrArg HostPort.state ((getElem_set_fin _ _ _ _).trans (if_pos rfl))

/-- Settles O37: ALERTn is spelt out once; an answered request leaves a reply in the slot. -/
theorem alertsFollowTheirConditions : Obligations.AlertsFollowTheirConditions := by
  unfold Obligations.AlertsFollowTheirConditions
  intro p s
  refine ⟨alertAsserted_iff s p, fun body admitted reply => ⟨_, exec_admitted admitted rfl, ?_⟩,
    fun body admitted => ⟨_, exec_admitted admitted rfl, ?_⟩, fun l => ?_, _, rfl, fun l => ?_, fun q => ⟨?_, ?_⟩⟩
  · obtain ⟨attached, mask⟩ := attachRun_sess p body s
    have asked : (maskOf body).reply = true := by rw [maskOf_eq]; exact reply
    refine (alertAsserted_iff _ _).2 ⟨attached, .inr (.inr ⟨?_, _, withReply_answered _ _ _⟩)⟩
    rw [withReply_sess]
    exact (congrArg AlertMask.reply mask).trans asked
  · refine Bool.eq_false_iff.2 fun asserted => ?_
    obtain ⟨attached, -⟩ := (alertAsserted_iff _ _).1 asserted
    rw [withReply_sess] at attached
    exact absurd (attached.symm.trans (detachRun_sess p body s)) Bool.noConfusion
  · unfold State.lineDriven LineRecord.driven
    cases s.lines[l] with
    | output o => rfl
    | unassigned d => cases d <;> rfl
    | capture c => rfl
  · have line : (resetBlocks true s).lines[l] = .unassigned none := Vector.getElem_replicate _
    exact congrArg LineRecord.driven line
  · have session : (resetBlocks true s).sess[q] = Session.reset := Vector.getElem_replicate _
    refine Bool.eq_false_iff.2 fun asserted => ?_
    obtain ⟨attached, -⟩ := (alertAsserted_iff _ _).1 asserted
    rw [session] at attached
    cases attached
  · have port : (resetBlocks true s).ports[q] = HostPort.reset := Vector.getElem_replicate _
    show (_ && !(resetBlocks true s).ports[q].hold) = false
    rw [port]
    exact Bool.and_false _

end Sys2Proof.Machine

/-! ## Records (O53) -/

namespace Sys2Proof.Machine

@[simp] theorem length_bytesOfInt (k : Nat) (i : Int) : (bytesOfInt k i).length = k := length_bytesOf k _

@[simp] theorem length_timeBytes (t : Nat) : (timeBytes t).length = 8 := by
  rw [timeBytes, List.length_append, length_bytesOf, length_bytesOf]

@[simp] theorem length_handleBytes (i : SlotNo) (g : BitVec 8) : (handleBytes i g).length = 2 := rfl

@[simp] theorem length_padding (n : Nat) : (padding n).length = n := List.length_replicate

theorem length_captureBytes (r : CaptureRecord) : (captureBytes r).length = 20 := by
  simp [captureBytes, length_bytesOf]

/-- The body of every notice fills 14 bytes. -/
theorem NoticeBody.length_parts (b : NoticeBody) : b.parts.2.2.length = 14 := by
  cases b <;> simp [NoticeBody.parts, length_bytesOf]

theorem length_noticeBytes (n : Notice) : (noticeBytes n).length = 20 := by
  simp [noticeBytes, length_bytesOf, NoticeBody.length_parts]

/-- Settles O53: by the kind of the notice. -/
theorem recordsAreLaidOut : Obligations.RecordsAreLaidOut := by
  unfold Obligations.RecordsAreLaidOut
  intro time port lock mode
  have lockCode (x : LockState) : x.code = lock x := by cases x <;> rfl
  have modeCode (x : Selection) : x.modeCode = mode x := by cases x <;> rfl
  have portCode (x : Option Port) : portByte x = port x := by cases x <;> rfl
  have stamp (t : Nat) : timeBytes t = time t := rfl
  refine ⟨⟨lockCode, modeCode, ⟨rfl, rfl⟩, rfl, rfl, rfl⟩, fun r => ⟨length_captureBytes r, ?_⟩,
    fun b up => ⟨length_noticeBytes _, ?_⟩⟩
  · have edge : r.edge.code = (match r.edge with | .rising => 1#8 | .falling => 2#8) := by cases r.edge <;> rfl
    rw [captureBytes, edge, lockCode]
    rfl
  · cases b with
    | fired i g t e n late last =>
      simp only [noticeBytes, NoticeBody.parts, flagsByte_two, stamp, handleBytes, List.append_assoc]
    | missed i g t e n last =>
      simp only [noticeBytes, NoticeBody.parts, flagsByte_two, Bool.toNat_false, Nat.zero_add, stamp, handleBytes,
        List.append_assoc]
    | voided i g t e n => simp only [noticeBytes, NoticeBody.parts, stamp, handleBytes, List.append_assoc]
    | leaseLost r k n => cases r <;> cases k <;> rfl
    | stepped e a k => cases k <;> rfl
    | lockChanged o n k e =>
      simp only [noticeBytes, NoticeBody.parts, lockCode]
      cases k <;> rfl
    | authorityChanged o n k ms =>
      simp only [noticeBytes, NoticeBody.parts, portCode]
      cases k <;> rfl
    | referenceChanged k x =>
      simp only [noticeBytes, NoticeBody.parts, modeCode, flagsByte_one]
      cases k <;> rfl

end Sys2Proof.Machine

/-! ## Reset and the other parts of a tick (O38, O41) -/

namespace Sys2Proof.Machine

/-! ### Reset (O38) -/

/-- Settles O38: every block at the values of its reset table. -/
theorem resetStartsFromTheResetValues : Obligations.ResetStartsFromTheResetValues := by
  unfold Obligations.ResetStartsFromTheResetValues
  intro s blocks
  refine ⟨rfl, fun long => ?_, fun short => ?_, fun held released => ?_, fun running up => ?_⟩
  · have run : exec (.hubReset .resetPin) s = execHubReset .resetPin s := rfl
    rw [run, execHubReset, if_pos long]
    rfl
  · have run : exec (.hubReset .resetPin) s = execHubReset .resetPin s := rfl
    rw [run, execHubReset, if_neg (Nat.not_le.2 short)]
  · have run : exec .resetRelease s = execResetRelease s := rfl
    rw [run, execResetRelease, if_pos ⟨held, released⟩]
    rfl
  · have run : exec .startUpHoldEnd s = execStartUpHoldEnd s := rfl
    rw [run, execStartUpHoldEnd, if_pos ⟨running, up⟩]
    exact ⟨_, rfl, fun p => getElem_mapVec_fin _ _ _, rfl⟩

/-! ### The level of a watched line (R124 to R126) -/

theorem Watch.sample_due_rising (sel : EdgeSelection) (high : Bool) (w : Watch) :
    (w.sample sel (Level.ofBool high)).due = some .rising ↔
      w.last = .low ∧ high = true ∧ sel ≠ .falling ∧ w.holdoff = 0 := by
  unfold Watch.sample
  cases w.last <;> cases high <;> cases sel <;> simp [Level.ofBool, edgeOf, EdgeSelection.selects]

theorem Watch.sample_due_falling (sel : EdgeSelection) (high : Bool) (w : Watch) :
    (w.sample sel (Level.ofBool high)).due = some .falling ↔
      w.last = .high ∧ high = false ∧ sel ≠ .rising ∧ w.holdoff = 0 := by
  unfold Watch.sample
  cases w.last <;> cases high <;> cases sel <;> simp [Level.ofBool, edgeOf, EdgeSelection.selects]

/-! ### The bits of a character (R17) -/

/-- The number of bits given least significant first. -/
theorem testBit_foldr_bits (bits : List Bool) (k : Nat) :
    (bits.foldr (fun (b : Bool) (n : Nat) => (if b then 1 else 0) + 2 * n) 0).testBit k = bits.getD k false := by
  induction bits generalizing k with
  | nil => simp
  | cons b bits ih =>
    rw [List.foldr_cons]
    cases k with
    | zero =>
      rw [Nat.testBit_zero, List.getD_cons_zero]
      cases b <;> simp
    | succ k =>
      have half (n : Nat) : ((if b then 1 else 0) + 2 * n) / 2 = n := by
        cases b <;> simp
        omega
      rw [Nat.testBit_succ, half, ih, List.getD_cons_succ]

theorem byteOfBits_getLsbD (bits : List Bool) {k : Nat} (hk : k < 8) : (byteOfBits bits).getLsbD k = bits.getD k false := by
  rw [byteOfBits, flagsByte, BitVec.getLsbD_ofNat, testBit_foldr_bits, decide_eq_true hk, Bool.true_and]

theorem Assembly.isIdle_iff (a : Assembly) : a.isIdle = true ↔ a = .idle := by
  cases a with
  | idle => exact iff_of_true rfl rfl
  | receiving m bytes last => exact iff_of_false Bool.false_ne_true (nomatch ·)

/-- One tick of the character timing, by the ticks since the falling edge. -/
theorem Receiver.timeCharacter_eq (c : CharTiming) (level : Bool) (tick : Nat) (r : Receiver) :
    (tick - c.fall = 63 → level = true → r.assembly = .idle →
      r.timeCharacter c level tick = { r with timing := none, provisional := none, adjusts := [] }) ∧
    (tick - c.fall = 63 → level = true → r.assembly ≠ .idle → r.timeCharacter c level tick = { r with timing := none }) ∧
    (tick - c.fall = 63 → level = false → r.timeCharacter c level tick =
      { r with
        timing := some { c with started := true }
        found := r.found ++ if r.assembly = .idle then [.startBit] else [] }) ∧
    (∀ n, 1 ≤ n → n ≤ 8 → tick - c.fall = 63 + 125 * n →
      r.timeCharacter c level tick = { r with timing := some { c with data := c.data ++ [level] } }) ∧
    (tick - c.fall = 63 + 125 * 9 → r.timeCharacter c level tick =
      { r with
        timing := none
        found := r.found ++ [if level then .character (byteOfBits c.data) tick else .framingError] }) ∧
    ((∀ n, tick - c.fall ≠ 63 + 125 * n) → r.timeCharacter c level tick = r) := by
  have idle := r.assembly.isIdle_iff
  unfold Receiver.timeCharacter
  dsimp only
  refine ⟨fun d high idl => ?_, fun d high busy => ?_, fun d low => ?_, fun n one eight d => ?_, fun d => ?_, fun other => ?_⟩
  · rw [if_pos d, if_pos high, if_pos (idle.2 idl)]
  · rw [if_pos d, if_pos high, if_neg fun c => busy (idle.1 c)]
  · rw [if_pos d, low, if_neg Bool.false_ne_true]
    by_cases idl : r.assembly = .idle
    · rw [if_pos (idle.2 idl), if_pos idl]
    · rw [if_neg fun c => idl (idle.1 c), if_neg idl, List.append_nil]
  · rw [if_neg (by omega), if_neg (by omega), if_pos (by omega)]
  · rw [if_neg (by omega), if_pos (by omega)]
  · have h0 := other 0
    have h9 := other 9
    rw [if_neg h0, if_neg h9, if_neg]
    rintro ⟨later, whole⟩
    exact other ((tick - c.fall - 63) / 125) (by omega)

/-- The Receiver's part of a tick on which no character is timed. -/
theorem Receiver.sample_of_untimed {r : Receiver} (untimed : r.timing = none) (level : Bool) (tick hubNs : Nat) :
    (r.refinHigh = true → level = false → r.sample level tick hubNs = { r with
      refinHigh := level
      timing := some ⟨tick, false, []⟩
      provisional := if r.assembly = .idle then some ⟨hubNs, tick⟩ else r.provisional }) ∧
    (r.refinHigh = false ∨ level = true → r.sample level tick hubNs = { r with refinHigh := level }) := by
  have idle := r.assembly.isIdle_iff
  unfold Receiver.sample
  rw [untimed]
  dsimp only
  refine ⟨fun high low => ?_, fun quiet => ?_⟩
  · rw [if_pos ⟨high, low⟩, Receiver.fallingEdge]
    simp only [idle]
  · rw [if_neg]
    rintro ⟨high, low⟩
    rcases quiet with c | c
    · exact Bool.false_ne_true (c.symm.trans high)
    · exact Bool.false_ne_true (low.symm.trans c)

theorem Receiver.sample_of_timed {r : Receiver} {c : CharTiming} (timed : r.timing = some c) (level : Bool) (tick hubNs : Nat) :
    r.sample level tick hubNs = { r.timeCharacter c level tick with refinHigh := level } := by
  unfold Receiver.sample
  rw [timed]

/-- Settles O41: part by part of the tick; REFIN by the ticks since the falling edge. -/
theorem tickCountsDownAndSamples : Obligations.TickCountsDownAndSamples := by
  unfold Obligations.TickCountsDownAndSamples
  intro x s t run
  rcases Bool.eq_false_or_eq_true s.inReset with held | running
  · rw [exec_tick_reset held] at run
    cases run
    exact ⟨rfl, fun _ => rfl, fun c => absurd (held.symm.trans c) Bool.noConfusion⟩
  · rw [exec_tick_running running] at run
    cases run
    have lines (l : LineNo) : (tickBlocks x (samplePins x (advanceTime s))).lines[l] = s.lines[l].countDown :=
      getElem_mapVec_fin _ _ _
    refine ⟨rfl, fun c => absurd (running.symm.trans c) Bool.noConfusion, fun _ => ⟨fun l o output => ?_,
      fun l d unassigned => ?_, fun l c capture => ⟨?_, fun w watch => ?_⟩, ?_⟩⟩
    · rw [lines, output]
      rfl
    · rw [lines, unassigned]
      rfl
    · rw [lines, capture]
      rfl
    · intro high
      have sampled : (tickBlocks x (samplePins x (advanceTime s))).watch[l] =
          some (w.sample c.selection (Level.ofBool high)) := by
        have row : (tickBlocks x (samplePins x (advanceTime s))).watch[l] =
          sampleLine x.lines (samplePins x (advanceTime s)) l := getElem_rowOf _ _ _
        have watched : (samplePins x (advanceTime s)).watch[l] = some w := watch
        have captured : (samplePins x (advanceTime s)).lines[l] = .capture c := capture
        rw [row, sampleLine, watched, captured]
      exact ⟨_, sampled, rfl, rfl, Watch.sample_due_rising _ _ _, Watch.sample_due_falling _ _ _⟩
    · intro now idle sampled
      have rx : (tickBlocks x (samplePins x (advanceTime s))).rx =
        s.rx.sample x.refin now (samplePins x (advanceTime s)).time.hub.ns := rfl
      rw [rx]
      refine ⟨fun untimed high low => ?_, fun untimed level => (Receiver.sample_of_untimed untimed _ _ _).2 level,
        fun c timed => ?_⟩
      · exact (Receiver.sample_of_untimed untimed _ _ _).1 high low
      · obtain ⟨falseStart, noise, start, data, stop, other⟩ := Receiver.timeCharacter_eq c x.refin now s.rx
        rw [Receiver.sample_of_timed timed]
        refine ⟨fun d high idl => ?_, fun d high busy => ?_, fun d low => ?_, fun n one eight d => ?_,
          fun d high => ⟨byteOfBits c.data, fun k hk => byteOfBits_getLsbD c.data hk, ?_⟩, fun d low => ?_, fun between => ?_⟩
        · rw [falseStart d high idl]
        · rw [noise d high busy]
        · rw [start d low]
        · rw [data n one eight d]
        · rw [stop d, if_pos high]
        · rw [stop d, if_neg fun high => Bool.false_ne_true (low.symm.trans high)]
        · rw [other between]

end Sys2Proof.Machine
